-- ==== Sys2Proof/Word.lean ====
section
/-! DEFINITION. The word types of the machine and its two data widths (spec/00_scope.md R2, R13, R14). -/

namespace Sys2Proof

/-- A byte of memory. -/
abbrev Byte := BitVec 8

/-- Room for an XLEN-bit value in either mode: with XLEN = 32 the upper half is zero (log 1). -/
abbrev Word := BitVec 64

/-- A register number (R310). -/
abbrev Reg := BitVec 5

/-- A compressed register number, naming x8 to x15 (R345, R643). -/
abbrev CReg := BitVec 3

/-- The XLEN selector, a value in 32 or 64 (R57). -/
inductive Xlen
  | rv32
  | rv64
  deriving DecidableEq, Repr

end Sys2Proof
end

