-- ==== Sys2Proof/Syntax.lean ====
section
/-! DEFINITION. The instructions: one constructor for each mnemonic of spec/opcode_table.json.

A constructor keeps EVERY operand bit of its encoding, ignored ones too (FENCE's fm, rd, rs1 and the aq and rl bits), so
that the instruction's bits can be given back as a trap value (60_exceptions.md R722). Immediates are held as the
manual assembles them before sign extension: 12 bits for I and S, 13 for B (a multiple of 2), bits 31:12 for U, 21 for J (R320);
compressed immediates at the width of their highest bit, with the zero low bits the form does not encode (R650 to R691). -/

namespace Sys2Proof

/-- An instruction of this hardware (R302). `rd`, `rs1`, `rs2` are 5-bit register numbers, or 3-bit ones in
compressed forms that name x8 to x15; `aq` and `rl` are the ordering bits of R542; `rm` and `hi` are `inst[14:12]` and
`inst[31:25]` of an F/D arithmetic word. -/
inductive Instr
  -- Upper-immediate and integer computational instructions (40_integer.md)
  | lui (rd : Reg) (imm : BitVec 20)
  | auipc (rd : Reg) (imm : BitVec 20)
  | addi (rd rs1 : Reg) (imm : BitVec 12)
  | slti (rd rs1 : Reg) (imm : BitVec 12)
  | sltiu (rd rs1 : Reg) (imm : BitVec 12)
  | xori (rd rs1 : Reg) (imm : BitVec 12)
  | ori (rd rs1 : Reg) (imm : BitVec 12)
  | andi (rd rs1 : Reg) (imm : BitVec 12)
  | slli (rd rs1 : Reg) (shamt : BitVec 6)
  | srli (rd rs1 : Reg) (shamt : BitVec 6)
  | srai (rd rs1 : Reg) (shamt : BitVec 6)
  | add (rd rs1 rs2 : Reg)
  | sub (rd rs1 rs2 : Reg)
  | sll (rd rs1 rs2 : Reg)
  | slt (rd rs1 rs2 : Reg)
  | sltu (rd rs1 rs2 : Reg)
  | xor (rd rs1 rs2 : Reg)
  | srl (rd rs1 rs2 : Reg)
  | sra (rd rs1 rs2 : Reg)
  | or (rd rs1 rs2 : Reg)
  | and (rd rs1 rs2 : Reg)
  | addiw (rd rs1 : Reg) (imm : BitVec 12)
  | slliw (rd rs1 : Reg) (shamt : BitVec 5)
  | srliw (rd rs1 : Reg) (shamt : BitVec 5)
  | sraiw (rd rs1 : Reg) (shamt : BitVec 5)
  | addw (rd rs1 rs2 : Reg)
  | subw (rd rs1 rs2 : Reg)
  | sllw (rd rs1 rs2 : Reg)
  | srlw (rd rs1 rs2 : Reg)
  | sraw (rd rs1 rs2 : Reg)
  -- Control transfer instructions (41_control.md)
  | jal (rd : Reg) (off : BitVec 21)
  | jalr (rd rs1 : Reg) (imm : BitVec 12)
  | beq (rs1 rs2 : Reg) (off : BitVec 13)
  | bne (rs1 rs2 : Reg) (off : BitVec 13)
  | blt (rs1 rs2 : Reg) (off : BitVec 13)
  | bge (rs1 rs2 : Reg) (off : BitVec 13)
  | bltu (rs1 rs2 : Reg) (off : BitVec 13)
  | bgeu (rs1 rs2 : Reg) (off : BitVec 13)
  -- Loads and stores (42_loadstore.md)
  | lb (rd rs1 : Reg) (imm : BitVec 12)
  | lh (rd rs1 : Reg) (imm : BitVec 12)
  | lw (rd rs1 : Reg) (imm : BitVec 12)
  | ld (rd rs1 : Reg) (imm : BitVec 12)
  | lbu (rd rs1 : Reg) (imm : BitVec 12)
  | lhu (rd rs1 : Reg) (imm : BitVec 12)
  | lwu (rd rs1 : Reg) (imm : BitVec 12)
  | sb (rs1 rs2 : Reg) (imm : BitVec 12)
  | sh (rs1 rs2 : Reg) (imm : BitVec 12)
  | sw (rs1 rs2 : Reg) (imm : BitVec 12)
  | sd (rs1 rs2 : Reg) (imm : BitVec 12)
  | flw (rd rs1 : Reg) (imm : BitVec 12)
  | fld (rd rs1 : Reg) (imm : BitVec 12)
  | fsw (rs1 rs2 : Reg) (imm : BitVec 12)
  | fsd (rs1 rs2 : Reg) (imm : BitVec 12)
  -- Fences (46_system.md)
  | fence (fm pred succ : BitVec 4) (rs1 rd : Reg)
  | fenceI (imm : BitVec 12) (rs1 rd : Reg)
  -- Multiply and divide (43_muldiv.md)
  | mul (rd rs1 rs2 : Reg)
  | mulh (rd rs1 rs2 : Reg)
  | mulhsu (rd rs1 rs2 : Reg)
  | mulhu (rd rs1 rs2 : Reg)
  | div (rd rs1 rs2 : Reg)
  | divu (rd rs1 rs2 : Reg)
  | rem (rd rs1 rs2 : Reg)
  | remu (rd rs1 rs2 : Reg)
  | mulw (rd rs1 rs2 : Reg)
  | divw (rd rs1 rs2 : Reg)
  | divuw (rd rs1 rs2 : Reg)
  | remw (rd rs1 rs2 : Reg)
  | remuw (rd rs1 rs2 : Reg)
  -- Atomic instructions (44_atomic.md)
  | lrW (rd rs1 : Reg) (aq rl : Bool)
  | scW (rd rs1 rs2 : Reg) (aq rl : Bool)
  | amoswapW (rd rs1 rs2 : Reg) (aq rl : Bool)
  | amoaddW (rd rs1 rs2 : Reg) (aq rl : Bool)
  | amoxorW (rd rs1 rs2 : Reg) (aq rl : Bool)
  | amoandW (rd rs1 rs2 : Reg) (aq rl : Bool)
  | amoorW (rd rs1 rs2 : Reg) (aq rl : Bool)
  | amominW (rd rs1 rs2 : Reg) (aq rl : Bool)
  | amomaxW (rd rs1 rs2 : Reg) (aq rl : Bool)
  | amominuW (rd rs1 rs2 : Reg) (aq rl : Bool)
  | amomaxuW (rd rs1 rs2 : Reg) (aq rl : Bool)
  | lrD (rd rs1 : Reg) (aq rl : Bool)
  | scD (rd rs1 rs2 : Reg) (aq rl : Bool)
  | amoswapD (rd rs1 rs2 : Reg) (aq rl : Bool)
  | amoaddD (rd rs1 rs2 : Reg) (aq rl : Bool)
  | amoxorD (rd rs1 rs2 : Reg) (aq rl : Bool)
  | amoandD (rd rs1 rs2 : Reg) (aq rl : Bool)
  | amoorD (rd rs1 rs2 : Reg) (aq rl : Bool)
  | amominD (rd rs1 rs2 : Reg) (aq rl : Bool)
  | amomaxD (rd rs1 rs2 : Reg) (aq rl : Bool)
  | amominuD (rd rs1 rs2 : Reg) (aq rl : Bool)
  | amomaxuD (rd rs1 rs2 : Reg) (aq rl : Bool)
  -- CSR instructions (45_csr.md)
  | csrrw (rd rs1 : Reg) (csr : BitVec 12)
  | csrrs (rd rs1 : Reg) (csr : BitVec 12)
  | csrrc (rd rs1 : Reg) (csr : BitVec 12)
  | csrrwi (rd : Reg) (uimm : BitVec 5) (csr : BitVec 12)
  | csrrsi (rd : Reg) (uimm : BitVec 5) (csr : BitVec 12)
  | csrrci (rd : Reg) (uimm : BitVec 5) (csr : BitVec 12)
  -- System instructions (46_system.md)
  | ecall
  | ebreak
  | sret
  | mret
  | wfi
  | sfenceVma (rs1 rs2 : Reg)
  -- F/D arithmetic, whole major opcodes (30_encoding.md R343)
  | fpMadd (rd rs1 rs2 : Reg) (rm : BitVec 3) (hi : BitVec 7)
  | fpMsub (rd rs1 rs2 : Reg) (rm : BitVec 3) (hi : BitVec 7)
  | fpNmsub (rd rs1 rs2 : Reg) (rm : BitVec 3) (hi : BitVec 7)
  | fpNmadd (rd rs1 rs2 : Reg) (rm : BitVec 3) (hi : BitVec 7)
  | fpOp (rd rs1 rs2 : Reg) (rm : BitVec 3) (hi : BitVec 7)
  -- Compressed instructions (47_compressed.md)
  | cAddi4spn (rd : CReg) (imm : BitVec 10)
  | cFld (rd rs1 : CReg) (imm : BitVec 8)
  | cLw (rd rs1 : CReg) (imm : BitVec 7)
  | cFlw (rd rs1 : CReg) (imm : BitVec 7)
  | cLd (rd rs1 : CReg) (imm : BitVec 8)
  | cFsd (rs1 rs2 : CReg) (imm : BitVec 8)
  | cSw (rs1 rs2 : CReg) (imm : BitVec 7)
  | cFsw (rs1 rs2 : CReg) (imm : BitVec 7)
  | cSd (rs1 rs2 : CReg) (imm : BitVec 8)
  | cNop (imm : BitVec 6)
  | cAddi (rd : Reg) (imm : BitVec 6)
  | cJal (off : BitVec 12)
  | cAddiw (rd : Reg) (imm : BitVec 6)
  | cLi (rd : Reg) (imm : BitVec 6)
  | cAddi16sp (imm : BitVec 10)
  | cLui (rd : Reg) (imm : BitVec 6)
  | cSrli (rd : CReg) (shamt : BitVec 6)
  | cSrai (rd : CReg) (shamt : BitVec 6)
  | cAndi (rd : CReg) (imm : BitVec 6)
  | cSub (rd rs2 : CReg)
  | cXor (rd rs2 : CReg)
  | cOr (rd rs2 : CReg)
  | cAnd (rd rs2 : CReg)
  | cSubw (rd rs2 : CReg)
  | cAddw (rd rs2 : CReg)
  | cJ (off : BitVec 12)
  | cBeqz (rs1 : CReg) (off : BitVec 9)
  | cBnez (rs1 : CReg) (off : BitVec 9)
  | cSlli (rd : Reg) (shamt : BitVec 6)
  | cFldsp (rd : Reg) (imm : BitVec 9)
  | cLwsp (rd : Reg) (imm : BitVec 8)
  | cFlwsp (rd : Reg) (imm : BitVec 8)
  | cLdsp (rd : Reg) (imm : BitVec 9)
  | cJr (rs1 : Reg)
  | cMv (rd rs2 : Reg)
  | cEbreak
  | cJalr (rs1 : Reg)
  | cAdd (rd rs2 : Reg)
  | cFsdsp (rs2 : Reg) (imm : BitVec 9)
  | cSwsp (rs2 : Reg) (imm : BitVec 8)
  | cFswsp (rs2 : Reg) (imm : BitVec 8)
  | cSdsp (rs2 : Reg) (imm : BitVec 9)
  deriving DecidableEq, Repr

end Sys2Proof
end

