-- ==== Sys2Proof/WellFormed.lean ====
section
/-! DEFINITION. Which instruction terms exist in an XLEN mode: the constraints that spec/opcode_table.json and the rules put
on the operands beyond their widths. A term that is not well-formed has no encoding in that mode. -/

namespace Sys2Proof

/-- A jump or branch offset is a multiple of 2 (R320). -/
def evenOffset {n : Nat} (off : BitVec n) : Bool := !off.getLsbD 0

/-- The low `k` bits are zero: the scaled offsets of the compressed forms (R650 to R691). -/
def lowZero (k : Nat) {n : Nat} (imm : BitVec n) : Bool := decide (imm.setWidth k = 0)

/-- A shift amount has 6 bits when XLEN = 64 and 5 when XLEN = 32 (R311, R340, R641). -/
def shamtFits (x : Xlen) (shamt : BitVec 6) : Bool := decide (x = .rv64) || !shamt.getLsbD 5

/-- The instruction exists in mode `x` with these operands (30_encoding.md R340, 47_compressed.md R641). -/
def Instr.wf (x : Xlen) : Instr → Bool
  | .lui _ _ => true
  | .auipc _ _ => true
  | .addi _ _ _ => true
  | .slti _ _ _ => true
  | .sltiu _ _ _ => true
  | .xori _ _ _ => true
  | .ori _ _ _ => true
  | .andi _ _ _ => true
  | .slli _ _ shamt => shamtFits x shamt
  | .srli _ _ shamt => shamtFits x shamt
  | .srai _ _ shamt => shamtFits x shamt
  | .add _ _ _ => true
  | .sub _ _ _ => true
  | .sll _ _ _ => true
  | .slt _ _ _ => true
  | .sltu _ _ _ => true
  | .xor _ _ _ => true
  | .srl _ _ _ => true
  | .sra _ _ _ => true
  | .or _ _ _ => true
  | .and _ _ _ => true
  | .addiw _ _ _ => decide (x = .rv64)
  | .slliw _ _ _ => decide (x = .rv64)
  | .srliw _ _ _ => decide (x = .rv64)
  | .sraiw _ _ _ => decide (x = .rv64)
  | .addw _ _ _ => decide (x = .rv64)
  | .subw _ _ _ => decide (x = .rv64)
  | .sllw _ _ _ => decide (x = .rv64)
  | .srlw _ _ _ => decide (x = .rv64)
  | .sraw _ _ _ => decide (x = .rv64)
  | .jal _ off => evenOffset off
  | .jalr _ _ _ => true
  | .beq _ _ off => evenOffset off
  | .bne _ _ off => evenOffset off
  | .blt _ _ off => evenOffset off
  | .bge _ _ off => evenOffset off
  | .bltu _ _ off => evenOffset off
  | .bgeu _ _ off => evenOffset off
  | .lb _ _ _ => true
  | .lh _ _ _ => true
  | .lw _ _ _ => true
  | .ld _ _ _ => decide (x = .rv64)
  | .lbu _ _ _ => true
  | .lhu _ _ _ => true
  | .lwu _ _ _ => decide (x = .rv64)
  | .sb _ _ _ => true
  | .sh _ _ _ => true
  | .sw _ _ _ => true
  | .sd _ _ _ => decide (x = .rv64)
  | .flw _ _ _ => true
  | .fld _ _ _ => true
  | .fsw _ _ _ => true
  | .fsd _ _ _ => true
  | .fence _ _ _ _ _ => true
  | .fenceI _ _ _ => true
  | .mul _ _ _ => true
  | .mulh _ _ _ => true
  | .mulhsu _ _ _ => true
  | .mulhu _ _ _ => true
  | .div _ _ _ => true
  | .divu _ _ _ => true
  | .rem _ _ _ => true
  | .remu _ _ _ => true
  | .mulw _ _ _ => decide (x = .rv64)
  | .divw _ _ _ => decide (x = .rv64)
  | .divuw _ _ _ => decide (x = .rv64)
  | .remw _ _ _ => decide (x = .rv64)
  | .remuw _ _ _ => decide (x = .rv64)
  | .lrW _ _ _ _ => true
  | .scW _ _ _ _ _ => true
  | .amoswapW _ _ _ _ _ => true
  | .amoaddW _ _ _ _ _ => true
  | .amoxorW _ _ _ _ _ => true
  | .amoandW _ _ _ _ _ => true
  | .amoorW _ _ _ _ _ => true
  | .amominW _ _ _ _ _ => true
  | .amomaxW _ _ _ _ _ => true
  | .amominuW _ _ _ _ _ => true
  | .amomaxuW _ _ _ _ _ => true
  | .lrD _ _ _ _ => decide (x = .rv64)
  | .scD _ _ _ _ _ => decide (x = .rv64)
  | .amoswapD _ _ _ _ _ => decide (x = .rv64)
  | .amoaddD _ _ _ _ _ => decide (x = .rv64)
  | .amoxorD _ _ _ _ _ => decide (x = .rv64)
  | .amoandD _ _ _ _ _ => decide (x = .rv64)
  | .amoorD _ _ _ _ _ => decide (x = .rv64)
  | .amominD _ _ _ _ _ => decide (x = .rv64)
  | .amomaxD _ _ _ _ _ => decide (x = .rv64)
  | .amominuD _ _ _ _ _ => decide (x = .rv64)
  | .amomaxuD _ _ _ _ _ => decide (x = .rv64)
  | .csrrw _ _ _ => true
  | .csrrs _ _ _ => true
  | .csrrc _ _ _ => true
  | .csrrwi _ _ _ => true
  | .csrrsi _ _ _ => true
  | .csrrci _ _ _ => true
  | .ecall => true
  | .ebreak => true
  | .sret => true
  | .mret => true
  | .wfi => true
  | .sfenceVma _ _ => true
  | .fpMadd _ _ _ _ _ => true
  | .fpMsub _ _ _ _ _ => true
  | .fpNmsub _ _ _ _ _ => true
  | .fpNmadd _ _ _ _ _ => true
  | .fpOp _ _ _ _ _ => true
  | .cAddi4spn _ imm => decide (imm ≠ 0) && lowZero 2 imm
  | .cFld _ _ imm => lowZero 3 imm
  | .cLw _ _ imm => lowZero 2 imm
  | .cFlw _ _ imm => decide (x = .rv32) && lowZero 2 imm
  | .cLd _ _ imm => decide (x = .rv64) && lowZero 3 imm
  | .cFsd _ _ imm => lowZero 3 imm
  | .cSw _ _ imm => lowZero 2 imm
  | .cFsw _ _ imm => decide (x = .rv32) && lowZero 2 imm
  | .cSd _ _ imm => decide (x = .rv64) && lowZero 3 imm
  | .cNop _ => true
  | .cAddi rd _ => decide (rd ≠ 0)
  | .cJal off => decide (x = .rv32) && evenOffset off
  | .cAddiw rd _ => decide (x = .rv64) && decide (rd ≠ 0)
  | .cLi _ _ => true
  | .cAddi16sp imm => decide (imm ≠ 0) && lowZero 4 imm
  | .cLui rd imm => decide (rd ≠ 2) && decide (imm ≠ 0)
  | .cSrli _ shamt => shamtFits x shamt
  | .cSrai _ shamt => shamtFits x shamt
  | .cAndi _ _ => true
  | .cSub _ _ => true
  | .cXor _ _ => true
  | .cOr _ _ => true
  | .cAnd _ _ => true
  | .cSubw _ _ => decide (x = .rv64)
  | .cAddw _ _ => decide (x = .rv64)
  | .cJ off => evenOffset off
  | .cBeqz _ off => evenOffset off
  | .cBnez _ off => evenOffset off
  | .cSlli _ shamt => shamtFits x shamt
  | .cFldsp _ imm => lowZero 3 imm
  | .cLwsp rd imm => decide (rd ≠ 0) && lowZero 2 imm
  | .cFlwsp _ imm => decide (x = .rv32) && lowZero 2 imm
  | .cLdsp rd imm => decide (x = .rv64) && decide (rd ≠ 0) && lowZero 3 imm
  | .cJr rs1 => decide (rs1 ≠ 0)
  | .cMv _ rs2 => decide (rs2 ≠ 0)
  | .cEbreak => true
  | .cJalr rs1 => decide (rs1 ≠ 0)
  | .cAdd _ rs2 => decide (rs2 ≠ 0)
  | .cFsdsp _ imm => lowZero 3 imm
  | .cSwsp _ imm => lowZero 2 imm
  | .cFswsp _ imm => decide (x = .rv32) && lowZero 2 imm
  | .cSdsp _ imm => decide (x = .rv64) && lowZero 3 imm

end Sys2Proof
end

