-- ==== Sys2Proof/Decode.lean ====
section
/-! DEFINITION. The decoder, the decompressor and the encoder (spec/30_encoding.md, spec/47_compressed.md).

The decoder dispatches as the spec does: on `inst[6:0]`, then funct3, then funct7, funct6, funct5 or funct12 (R330); a
parcel on the quadrant and funct3 (R644). It is total: every word that is no instruction in the mode is rejected by name.
The encoder is written from the same format tables (R310, R311, R345). -/

namespace Sys2Proof

/-! ### Fields of a 32-bit instruction (R310, R311) -/

def opcode (w : BitVec 32) : BitVec 7 := w.extractLsb 6 0
def fieldRd (w : BitVec 32) : Reg := w.extractLsb 11 7
def funct3 (w : BitVec 32) : BitVec 3 := w.extractLsb 14 12
def fieldRs1 (w : BitVec 32) : Reg := w.extractLsb 19 15
def fieldRs2 (w : BitVec 32) : Reg := w.extractLsb 24 20
def funct7 (w : BitVec 32) : BitVec 7 := w.extractLsb 31 25
def funct6 (w : BitVec 32) : BitVec 6 := w.extractLsb 31 26
def funct5 (w : BitVec 32) : BitVec 5 := w.extractLsb 31 27
def fieldAq (w : BitVec 32) : Bool := w.getLsbD 26
def fieldRl (w : BitVec 32) : Bool := w.getLsbD 25
/-- `inst[31:20]`: the I immediate, the CSR number, or funct12. -/
def immI (w : BitVec 32) : BitVec 12 := w.extractLsb 31 20
def immS (w : BitVec 32) : BitVec 12 := w.extractLsb 31 25 ++ w.extractLsb 11 7
/-- R320: `inst[31] ‖ inst[7] ‖ inst[30:25] ‖ inst[11:8] ‖ 0`. -/
def immB (w : BitVec 32) : BitVec 13 :=
  w.extractLsb 31 31 ++ w.extractLsb 7 7 ++ w.extractLsb 30 25 ++ w.extractLsb 11 8 ++ 0#1
/-- `inst[31:12]`: the U immediate without its twelve zero bits. -/
def immU (w : BitVec 32) : BitVec 20 := w.extractLsb 31 12
/-- R320: `inst[31] ‖ inst[19:12] ‖ inst[20] ‖ inst[30:21] ‖ 0`. -/
def immJ (w : BitVec 32) : BitVec 21 :=
  w.extractLsb 31 31 ++ w.extractLsb 19 12 ++ w.extractLsb 20 20 ++ w.extractLsb 30 21 ++ 0#1
/-- `inst[25:20]`: a shift amount of 6 bits (R311). -/
def fieldShamt (w : BitVec 32) : BitVec 6 := w.extractLsb 25 20

/-! ### The 32-bit decoder (R330, R340) -/

/-- The upper bits of a shift-immediate fit the mode: `inst[25]` belongs to the amount only when XLEN = 64 (R311, R340). -/
def shiftImmOk (x : Xlen) (f6 : BitVec 6) (w : BitVec 32) : Bool :=
  decide (funct6 w = f6) && shamtFits x (fieldShamt w)

/-- OP-IMM, opcode 0010011 (R404 to R412). -/
def decodeOpImm (x : Xlen) (w : BitVec 32) : Option Instr :=
  if funct3 w = 0b000#3 then some (.addi (fieldRd w) (fieldRs1 w) (immI w))
  else if funct3 w = 0b010#3 then some (.slti (fieldRd w) (fieldRs1 w) (immI w))
  else if funct3 w = 0b011#3 then some (.sltiu (fieldRd w) (fieldRs1 w) (immI w))
  else if funct3 w = 0b100#3 then some (.xori (fieldRd w) (fieldRs1 w) (immI w))
  else if funct3 w = 0b110#3 then some (.ori (fieldRd w) (fieldRs1 w) (immI w))
  else if funct3 w = 0b111#3 then some (.andi (fieldRd w) (fieldRs1 w) (immI w))
  else if funct3 w = 0b001#3 then
    if shiftImmOk x 0b000000#6 w then some (.slli (fieldRd w) (fieldRs1 w) (fieldShamt w)) else none
  else if shiftImmOk x 0b000000#6 w then some (.srli (fieldRd w) (fieldRs1 w) (fieldShamt w))
  else if shiftImmOk x 0b010000#6 w then some (.srai (fieldRd w) (fieldRs1 w) (fieldShamt w))
  else none

/-- OP, opcode 0110011 (R413 to R422, R512 to R519). -/
def decodeOp (w : BitVec 32) : Option Instr :=
  if funct7 w = 0b0000000#7 then
    if funct3 w = 0b000#3 then some (.add (fieldRd w) (fieldRs1 w) (fieldRs2 w))
    else if funct3 w = 0b001#3 then some (.sll (fieldRd w) (fieldRs1 w) (fieldRs2 w))
    else if funct3 w = 0b010#3 then some (.slt (fieldRd w) (fieldRs1 w) (fieldRs2 w))
    else if funct3 w = 0b011#3 then some (.sltu (fieldRd w) (fieldRs1 w) (fieldRs2 w))
    else if funct3 w = 0b100#3 then some (.xor (fieldRd w) (fieldRs1 w) (fieldRs2 w))
    else if funct3 w = 0b101#3 then some (.srl (fieldRd w) (fieldRs1 w) (fieldRs2 w))
    else if funct3 w = 0b110#3 then some (.or (fieldRd w) (fieldRs1 w) (fieldRs2 w))
    else some (.and (fieldRd w) (fieldRs1 w) (fieldRs2 w))
  else if funct7 w = 0b0100000#7 then
    if funct3 w = 0b000#3 then some (.sub (fieldRd w) (fieldRs1 w) (fieldRs2 w))
    else if funct3 w = 0b101#3 then some (.sra (fieldRd w) (fieldRs1 w) (fieldRs2 w))
    else none
  else if funct7 w = 0b0000001#7 then
    if funct3 w = 0b000#3 then some (.mul (fieldRd w) (fieldRs1 w) (fieldRs2 w))
    else if funct3 w = 0b001#3 then some (.mulh (fieldRd w) (fieldRs1 w) (fieldRs2 w))
    else if funct3 w = 0b010#3 then some (.mulhsu (fieldRd w) (fieldRs1 w) (fieldRs2 w))
    else if funct3 w = 0b011#3 then some (.mulhu (fieldRd w) (fieldRs1 w) (fieldRs2 w))
    else if funct3 w = 0b100#3 then some (.div (fieldRd w) (fieldRs1 w) (fieldRs2 w))
    else if funct3 w = 0b101#3 then some (.divu (fieldRd w) (fieldRs1 w) (fieldRs2 w))
    else if funct3 w = 0b110#3 then some (.rem (fieldRd w) (fieldRs1 w) (fieldRs2 w))
    else some (.remu (fieldRd w) (fieldRs1 w) (fieldRs2 w))
  else none

/-- OP-IMM-32, opcode 0011011, XLEN = 64 only (R423 to R426). -/
def decodeOpImm32 (w : BitVec 32) : Option Instr :=
  if funct3 w = 0b000#3 then some (.addiw (fieldRd w) (fieldRs1 w) (immI w))
  else if funct3 w = 0b001#3 then
    if funct7 w = 0b0000000#7 then some (.slliw (fieldRd w) (fieldRs1 w) (fieldRs2 w)) else none
  else if funct3 w = 0b101#3 then
    if funct7 w = 0b0000000#7 then some (.srliw (fieldRd w) (fieldRs1 w) (fieldRs2 w))
    else if funct7 w = 0b0100000#7 then some (.sraiw (fieldRd w) (fieldRs1 w) (fieldRs2 w))
    else none
  else none

/-- OP-32, opcode 0111011, XLEN = 64 only (R427 to R430, R520 to R525). -/
def decodeOp32 (w : BitVec 32) : Option Instr :=
  if funct7 w = 0b0000000#7 then
    if funct3 w = 0b000#3 then some (.addw (fieldRd w) (fieldRs1 w) (fieldRs2 w))
    else if funct3 w = 0b001#3 then some (.sllw (fieldRd w) (fieldRs1 w) (fieldRs2 w))
    else if funct3 w = 0b101#3 then some (.srlw (fieldRd w) (fieldRs1 w) (fieldRs2 w))
    else none
  else if funct7 w = 0b0100000#7 then
    if funct3 w = 0b000#3 then some (.subw (fieldRd w) (fieldRs1 w) (fieldRs2 w))
    else if funct3 w = 0b101#3 then some (.sraw (fieldRd w) (fieldRs1 w) (fieldRs2 w))
    else none
  else if funct7 w = 0b0000001#7 then
    if funct3 w = 0b000#3 then some (.mulw (fieldRd w) (fieldRs1 w) (fieldRs2 w))
    else if funct3 w = 0b100#3 then some (.divw (fieldRd w) (fieldRs1 w) (fieldRs2 w))
    else if funct3 w = 0b101#3 then some (.divuw (fieldRd w) (fieldRs1 w) (fieldRs2 w))
    else if funct3 w = 0b110#3 then some (.remw (fieldRd w) (fieldRs1 w) (fieldRs2 w))
    else if funct3 w = 0b111#3 then some (.remuw (fieldRd w) (fieldRs1 w) (fieldRs2 w))
    else none
  else none

/-- BRANCH, opcode 1100011 (R464 to R470). -/
def decodeBranch (w : BitVec 32) : Option Instr :=
  if funct3 w = 0b000#3 then some (.beq (fieldRs1 w) (fieldRs2 w) (immB w))
  else if funct3 w = 0b001#3 then some (.bne (fieldRs1 w) (fieldRs2 w) (immB w))
  else if funct3 w = 0b100#3 then some (.blt (fieldRs1 w) (fieldRs2 w) (immB w))
  else if funct3 w = 0b101#3 then some (.bge (fieldRs1 w) (fieldRs2 w) (immB w))
  else if funct3 w = 0b110#3 then some (.bltu (fieldRs1 w) (fieldRs2 w) (immB w))
  else if funct3 w = 0b111#3 then some (.bgeu (fieldRs1 w) (fieldRs2 w) (immB w))
  else none

/-- LOAD, opcode 0000011 (R482 to R489). -/
def decodeLoad (x : Xlen) (w : BitVec 32) : Option Instr :=
  if funct3 w = 0b000#3 then some (.lb (fieldRd w) (fieldRs1 w) (immI w))
  else if funct3 w = 0b001#3 then some (.lh (fieldRd w) (fieldRs1 w) (immI w))
  else if funct3 w = 0b010#3 then some (.lw (fieldRd w) (fieldRs1 w) (immI w))
  else if funct3 w = 0b100#3 then some (.lbu (fieldRd w) (fieldRs1 w) (immI w))
  else if funct3 w = 0b101#3 then some (.lhu (fieldRd w) (fieldRs1 w) (immI w))
  else if x = .rv32 then none
  else if funct3 w = 0b011#3 then some (.ld (fieldRd w) (fieldRs1 w) (immI w))
  else if funct3 w = 0b110#3 then some (.lwu (fieldRd w) (fieldRs1 w) (immI w))
  else none

/-- STORE, opcode 0100011 (R490 to R494). -/
def decodeStore (x : Xlen) (w : BitVec 32) : Option Instr :=
  if funct3 w = 0b000#3 then some (.sb (fieldRs1 w) (fieldRs2 w) (immS w))
  else if funct3 w = 0b001#3 then some (.sh (fieldRs1 w) (fieldRs2 w) (immS w))
  else if funct3 w = 0b010#3 then some (.sw (fieldRs1 w) (fieldRs2 w) (immS w))
  else if x = .rv32 then none
  else if funct3 w = 0b011#3 then some (.sd (fieldRs1 w) (fieldRs2 w) (immS w))
  else none

/-- LOAD-FP, opcode 0000111 (R496, R497, R500). -/
def decodeLoadFp (w : BitVec 32) : Option Instr :=
  if funct3 w = 0b010#3 then some (.flw (fieldRd w) (fieldRs1 w) (immI w))
  else if funct3 w = 0b011#3 then some (.fld (fieldRd w) (fieldRs1 w) (immI w))
  else none

/-- STORE-FP, opcode 0100111 (R498, R499, R500). -/
def decodeStoreFp (w : BitVec 32) : Option Instr :=
  if funct3 w = 0b010#3 then some (.fsw (fieldRs1 w) (fieldRs2 w) (immS w))
  else if funct3 w = 0b011#3 then some (.fsd (fieldRs1 w) (fieldRs2 w) (immS w))
  else none

/-- MISC-MEM, opcode 0001111 (R610, R611). -/
def decodeMiscMem (w : BitVec 32) : Option Instr :=
  if funct3 w = 0b000#3 then
    some (.fence (w.extractLsb 31 28) (w.extractLsb 27 24) (w.extractLsb 23 20) (fieldRs1 w) (fieldRd w))
  else if funct3 w = 0b001#3 then some (.fenceI (immI w) (fieldRs1 w) (fieldRd w))
  else none

/-- AMO, opcode 0101111, word forms (R543, R545 to R556); LR with rs2 not 0 is no instruction (R340). -/
def decodeAmoW (w : BitVec 32) : Option Instr :=
  if funct5 w = 0b00010#5 then
    if fieldRs2 w = 0#5 then some (.lrW (fieldRd w) (fieldRs1 w) (fieldAq w) (fieldRl w)) else none
  else if funct5 w = 0b00011#5 then
    some (.scW (fieldRd w) (fieldRs1 w) (fieldRs2 w) (fieldAq w) (fieldRl w))
  else if funct5 w = 0b00001#5 then
    some (.amoswapW (fieldRd w) (fieldRs1 w) (fieldRs2 w) (fieldAq w) (fieldRl w))
  else if funct5 w = 0b00000#5 then
    some (.amoaddW (fieldRd w) (fieldRs1 w) (fieldRs2 w) (fieldAq w) (fieldRl w))
  else if funct5 w = 0b00100#5 then
    some (.amoxorW (fieldRd w) (fieldRs1 w) (fieldRs2 w) (fieldAq w) (fieldRl w))
  else if funct5 w = 0b01100#5 then
    some (.amoandW (fieldRd w) (fieldRs1 w) (fieldRs2 w) (fieldAq w) (fieldRl w))
  else if funct5 w = 0b01000#5 then
    some (.amoorW (fieldRd w) (fieldRs1 w) (fieldRs2 w) (fieldAq w) (fieldRl w))
  else if funct5 w = 0b10000#5 then
    some (.amominW (fieldRd w) (fieldRs1 w) (fieldRs2 w) (fieldAq w) (fieldRl w))
  else if funct5 w = 0b10100#5 then
    some (.amomaxW (fieldRd w) (fieldRs1 w) (fieldRs2 w) (fieldAq w) (fieldRl w))
  else if funct5 w = 0b11000#5 then
    some (.amominuW (fieldRd w) (fieldRs1 w) (fieldRs2 w) (fieldAq w) (fieldRl w))
  else if funct5 w = 0b11100#5 then
    some (.amomaxuW (fieldRd w) (fieldRs1 w) (fieldRs2 w) (fieldAq w) (fieldRl w))
  else none

/-- AMO, opcode 0101111, doubleword forms (R543, R545 to R556); LR with rs2 not 0 is no instruction (R340). -/
def decodeAmoD (w : BitVec 32) : Option Instr :=
  if funct5 w = 0b00010#5 then
    if fieldRs2 w = 0#5 then some (.lrD (fieldRd w) (fieldRs1 w) (fieldAq w) (fieldRl w)) else none
  else if funct5 w = 0b00011#5 then
    some (.scD (fieldRd w) (fieldRs1 w) (fieldRs2 w) (fieldAq w) (fieldRl w))
  else if funct5 w = 0b00001#5 then
    some (.amoswapD (fieldRd w) (fieldRs1 w) (fieldRs2 w) (fieldAq w) (fieldRl w))
  else if funct5 w = 0b00000#5 then
    some (.amoaddD (fieldRd w) (fieldRs1 w) (fieldRs2 w) (fieldAq w) (fieldRl w))
  else if funct5 w = 0b00100#5 then
    some (.amoxorD (fieldRd w) (fieldRs1 w) (fieldRs2 w) (fieldAq w) (fieldRl w))
  else if funct5 w = 0b01100#5 then
    some (.amoandD (fieldRd w) (fieldRs1 w) (fieldRs2 w) (fieldAq w) (fieldRl w))
  else if funct5 w = 0b01000#5 then
    some (.amoorD (fieldRd w) (fieldRs1 w) (fieldRs2 w) (fieldAq w) (fieldRl w))
  else if funct5 w = 0b10000#5 then
    some (.amominD (fieldRd w) (fieldRs1 w) (fieldRs2 w) (fieldAq w) (fieldRl w))
  else if funct5 w = 0b10100#5 then
    some (.amomaxD (fieldRd w) (fieldRs1 w) (fieldRs2 w) (fieldAq w) (fieldRl w))
  else if funct5 w = 0b11000#5 then
    some (.amominuD (fieldRd w) (fieldRs1 w) (fieldRs2 w) (fieldAq w) (fieldRl w))
  else if funct5 w = 0b11100#5 then
    some (.amomaxuD (fieldRd w) (fieldRs1 w) (fieldRs2 w) (fieldAq w) (fieldRl w))
  else none

/-- AMO, opcode 0101111: funct3 is the width (R543). -/
def decodeAmo (x : Xlen) (w : BitVec 32) : Option Instr :=
  if funct3 w = 0b010#3 then decodeAmoW w
  else if x = .rv32 then none
  else if funct3 w = 0b011#3 then decodeAmoD w
  else none

/-- SYSTEM, opcode 1110011 (R590 to R596, R612 to R618). -/
def decodeSystem (w : BitVec 32) : Option Instr :=
  if funct3 w = 0b001#3 then some (.csrrw (fieldRd w) (fieldRs1 w) (immI w))
  else if funct3 w = 0b010#3 then some (.csrrs (fieldRd w) (fieldRs1 w) (immI w))
  else if funct3 w = 0b011#3 then some (.csrrc (fieldRd w) (fieldRs1 w) (immI w))
  else if funct3 w = 0b101#3 then some (.csrrwi (fieldRd w) (fieldRs1 w) (immI w))
  else if funct3 w = 0b110#3 then some (.csrrsi (fieldRd w) (fieldRs1 w) (immI w))
  else if funct3 w = 0b111#3 then some (.csrrci (fieldRd w) (fieldRs1 w) (immI w))
  else if w = 0x00000073#32 then some .ecall
  else if w = 0x00100073#32 then some .ebreak
  else if w = 0x10200073#32 then some .sret
  else if w = 0x30200073#32 then some .mret
  else if w = 0x10500073#32 then some .wfi
  else if funct3 w = 0b000#3 ∧ funct7 w = 0b0001001#7 ∧ fieldRd w = 0#5 then
    some (.sfenceVma (fieldRs1 w) (fieldRs2 w))
  else none

/-- The instruction of a 32-bit word in mode `x`, none where it matches no row of the table (R330, R340). -/
def decode32 (x : Xlen) (w : BitVec 32) : Option Instr :=
  if opcode w = 0b0110111#7 then some (.lui (fieldRd w) (immU w))
  else if opcode w = 0b0010111#7 then some (.auipc (fieldRd w) (immU w))
  else if opcode w = 0b0010011#7 then decodeOpImm x w
  else if opcode w = 0b0110011#7 then decodeOp w
  else if opcode w = 0b0011011#7 then (if x = .rv32 then none else decodeOpImm32 w)
  else if opcode w = 0b0111011#7 then (if x = .rv32 then none else decodeOp32 w)
  else if opcode w = 0b1101111#7 then some (.jal (fieldRd w) (immJ w))
  else if opcode w = 0b1100111#7 then
    if funct3 w = 0b000#3 then some (.jalr (fieldRd w) (fieldRs1 w) (immI w)) else none
  else if opcode w = 0b1100011#7 then decodeBranch w
  else if opcode w = 0b0000011#7 then decodeLoad x w
  else if opcode w = 0b0100011#7 then decodeStore x w
  else if opcode w = 0b0000111#7 then decodeLoadFp w
  else if opcode w = 0b0100111#7 then decodeStoreFp w
  else if opcode w = 0b0001111#7 then decodeMiscMem w
  else if opcode w = 0b0101111#7 then decodeAmo x w
  else if opcode w = 0b1110011#7 then decodeSystem w
  else if opcode w = 0b1000011#7 then
    some (.fpMadd (fieldRd w) (fieldRs1 w) (fieldRs2 w) (funct3 w) (funct7 w))
  else if opcode w = 0b1000111#7 then
    some (.fpMsub (fieldRd w) (fieldRs1 w) (fieldRs2 w) (funct3 w) (funct7 w))
  else if opcode w = 0b1001011#7 then
    some (.fpNmsub (fieldRd w) (fieldRs1 w) (fieldRs2 w) (funct3 w) (funct7 w))
  else if opcode w = 0b1001111#7 then
    some (.fpNmadd (fieldRd w) (fieldRs1 w) (fieldRs2 w) (funct3 w) (funct7 w))
  else if opcode w = 0b1010011#7 then
    some (.fpOp (fieldRd w) (fieldRs1 w) (fieldRs2 w) (funct3 w) (funct7 w))
  else none

/-! ### The parcel decoder (R345, R640 to R692) -/

def quadrant (p : BitVec 16) : BitVec 2 := p.extractLsb 1 0
def cFunct3 (p : BitVec 16) : BitVec 3 := p.extractLsb 15 13
/-- `p[11:7]`: rd or rs1 of the CR and CI formats (R643). -/
def cRd (p : BitVec 16) : Reg := p.extractLsb 11 7
/-- `p[6:2]`: rs2 of the CR and CSS formats (R643). -/
def cRs2 (p : BitVec 16) : Reg := p.extractLsb 6 2
/-- `p[4:2]`: rd' or rs2' (R643). -/
def cRdLow (p : BitVec 16) : CReg := p.extractLsb 4 2
/-- `p[9:7]`: rs1', and rd' of the CA and CB arithmetic forms (R643). -/
def cRdHigh (p : BitVec 16) : CReg := p.extractLsb 9 7
/-- `p[12] ‖ p[6:2]`: imm6, and the shift amount (section 3 of 47_compressed.md, R666). -/
def cImm6 (p : BitVec 16) : BitVec 6 := p.extractLsb 12 12 ++ p.extractLsb 6 2
/-- R650. -/
def cImmAddi4spn (p : BitVec 16) : BitVec 10 :=
  p.extractLsb 10 7 ++ p.extractLsb 12 11 ++ p.extractLsb 5 5 ++ p.extractLsb 6 6 ++ 0#2
/-- R651: the offset of the doubleword CL and CS forms. -/
def cImmD (p : BitVec 16) : BitVec 8 := p.extractLsb 6 5 ++ p.extractLsb 12 10 ++ 0#3
/-- R652: the offset of the word CL and CS forms. -/
def cImmW (p : BitVec 16) : BitVec 7 := p.extractLsb 5 5 ++ p.extractLsb 12 10 ++ p.extractLsb 6 6 ++ 0#2
/-- R661: the CJ offset. -/
def cImmJ (p : BitVec 16) : BitVec 12 :=
  p.extractLsb 12 12 ++ p.extractLsb 8 8 ++ p.extractLsb 10 9 ++ p.extractLsb 6 6 ++ p.extractLsb 7 7
    ++ p.extractLsb 2 2 ++ p.extractLsb 11 11 ++ p.extractLsb 5 3 ++ 0#1
/-- R664. -/
def cImmAddi16sp (p : BitVec 16) : BitVec 10 :=
  p.extractLsb 12 12 ++ p.extractLsb 4 3 ++ p.extractLsb 5 5 ++ p.extractLsb 2 2 ++ p.extractLsb 6 6 ++ 0#4
/-- R676: the CB branch offset. -/
def cImmB (p : BitVec 16) : BitVec 9 :=
  p.extractLsb 12 12 ++ p.extractLsb 6 5 ++ p.extractLsb 2 2 ++ p.extractLsb 11 10 ++ p.extractLsb 4 3 ++ 0#1
/-- R679: the offset of C.FLDSP and C.LDSP. -/
def cImmLdsp (p : BitVec 16) : BitVec 9 :=
  p.extractLsb 4 2 ++ p.extractLsb 12 12 ++ p.extractLsb 6 5 ++ 0#3
/-- R680: the offset of C.LWSP and C.FLWSP. -/
def cImmLwsp (p : BitVec 16) : BitVec 8 :=
  p.extractLsb 3 2 ++ p.extractLsb 12 12 ++ p.extractLsb 6 4 ++ 0#2
/-- R688: the offset of C.FSDSP and C.SDSP. -/
def cImmSdsp (p : BitVec 16) : BitVec 9 := p.extractLsb 9 7 ++ p.extractLsb 12 10 ++ 0#3
/-- R689: the offset of C.SWSP and C.FSWSP. -/
def cImmSwsp (p : BitVec 16) : BitVec 8 := p.extractLsb 8 7 ++ p.extractLsb 12 9 ++ 0#2

/-- Quadrant 0 (R650 to R658). -/
def decodeQ0 (x : Xlen) (p : BitVec 16) : Option Instr :=
  if cFunct3 p = 0b000#3 then
    if cImmAddi4spn p = 0#10 then none else some (.cAddi4spn (cRdLow p) (cImmAddi4spn p))
  else if cFunct3 p = 0b001#3 then some (.cFld (cRdLow p) (cRdHigh p) (cImmD p))
  else if cFunct3 p = 0b010#3 then some (.cLw (cRdLow p) (cRdHigh p) (cImmW p))
  else if cFunct3 p = 0b011#3 then
    if x = .rv32 then some (.cFlw (cRdLow p) (cRdHigh p) (cImmW p))
    else some (.cLd (cRdLow p) (cRdHigh p) (cImmD p))
  else if cFunct3 p = 0b101#3 then some (.cFsd (cRdHigh p) (cRdLow p) (cImmD p))
  else if cFunct3 p = 0b110#3 then some (.cSw (cRdHigh p) (cRdLow p) (cImmW p))
  else if cFunct3 p = 0b111#3 then
    if x = .rv32 then some (.cFsw (cRdHigh p) (cRdLow p) (cImmW p))
    else some (.cSd (cRdHigh p) (cRdLow p) (cImmD p))
  else none

/-- Quadrant 1, funct3 100 (R666 to R674). -/
def decodeQ1Arith (x : Xlen) (p : BitVec 16) : Option Instr :=
  if p.extractLsb 11 10 = 0b00#2 then
    if shamtFits x (cImm6 p) then some (.cSrli (cRdHigh p) (cImm6 p)) else none
  else if p.extractLsb 11 10 = 0b01#2 then
    if shamtFits x (cImm6 p) then some (.cSrai (cRdHigh p) (cImm6 p)) else none
  else if p.extractLsb 11 10 = 0b10#2 then some (.cAndi (cRdHigh p) (cImm6 p))
  else if p.extractLsb 12 12 = 0b0#1 then
    if p.extractLsb 6 5 = 0b00#2 then some (.cSub (cRdHigh p) (cRdLow p))
    else if p.extractLsb 6 5 = 0b01#2 then some (.cXor (cRdHigh p) (cRdLow p))
    else if p.extractLsb 6 5 = 0b10#2 then some (.cOr (cRdHigh p) (cRdLow p))
    else some (.cAnd (cRdHigh p) (cRdLow p))
  else if x = .rv32 then none
  else if p.extractLsb 6 5 = 0b00#2 then some (.cSubw (cRdHigh p) (cRdLow p))
  else if p.extractLsb 6 5 = 0b01#2 then some (.cAddw (cRdHigh p) (cRdLow p))
  else none

/-- Quadrant 1 (R659 to R677). -/
def decodeQ1 (x : Xlen) (p : BitVec 16) : Option Instr :=
  if cFunct3 p = 0b000#3 then
    if cRd p = 0#5 then some (.cNop (cImm6 p)) else some (.cAddi (cRd p) (cImm6 p))
  else if cFunct3 p = 0b001#3 then
    if x = .rv32 then some (.cJal (cImmJ p))
    else if cRd p = 0#5 then none
    else some (.cAddiw (cRd p) (cImm6 p))
  else if cFunct3 p = 0b010#3 then some (.cLi (cRd p) (cImm6 p))
  else if cFunct3 p = 0b011#3 then
    if cImm6 p = 0#6 then none
    else if cRd p = 2#5 then some (.cAddi16sp (cImmAddi16sp p))
    else some (.cLui (cRd p) (cImm6 p))
  else if cFunct3 p = 0b100#3 then decodeQ1Arith x p
  else if cFunct3 p = 0b101#3 then some (.cJ (cImmJ p))
  else if cFunct3 p = 0b110#3 then some (.cBeqz (cRdHigh p) (cImmB p))
  else some (.cBnez (cRdHigh p) (cImmB p))

/-- Quadrant 2, funct3 100 (R683 to R687). -/
def decodeQ2Jump (p : BitVec 16) : Option Instr :=
  if p.extractLsb 12 12 = 0b0#1 then
    if cRs2 p = 0#5 then
      if cRd p = 0#5 then none else some (.cJr (cRd p))
    else some (.cMv (cRd p) (cRs2 p))
  else if cRs2 p = 0#5 then
    if cRd p = 0#5 then some .cEbreak else some (.cJalr (cRd p))
  else some (.cAdd (cRd p) (cRs2 p))

/-- Quadrant 2 (R678 to R691). -/
def decodeQ2 (x : Xlen) (p : BitVec 16) : Option Instr :=
  if cFunct3 p = 0b000#3 then
    if shamtFits x (cImm6 p) then some (.cSlli (cRd p) (cImm6 p)) else none
  else if cFunct3 p = 0b001#3 then some (.cFldsp (cRd p) (cImmLdsp p))
  else if cFunct3 p = 0b010#3 then
    if cRd p = 0#5 then none else some (.cLwsp (cRd p) (cImmLwsp p))
  else if cFunct3 p = 0b011#3 then
    if x = .rv32 then some (.cFlwsp (cRd p) (cImmLwsp p))
    else if cRd p = 0#5 then none
    else some (.cLdsp (cRd p) (cImmLdsp p))
  else if cFunct3 p = 0b100#3 then decodeQ2Jump p
  else if cFunct3 p = 0b101#3 then some (.cFsdsp (cRs2 p) (cImmSdsp p))
  else if cFunct3 p = 0b110#3 then some (.cSwsp (cRs2 p) (cImmSwsp p))
  else if x = .rv32 then some (.cFswsp (cRs2 p) (cImmSwsp p))
  else some (.cSdsp (cRs2 p) (cImmSdsp p))

/-- The compressed instruction of a parcel in mode `x`, none where the encoding is reserved (R640, R641, R644) or the parcel
starts a longer instruction. -/
def decode16 (x : Xlen) (p : BitVec 16) : Option Instr :=
  if quadrant p = 0b00#2 then decodeQ0 x p
  else if quadrant p = 0b01#2 then decodeQ1 x p
  else if quadrant p = 0b10#2 then decodeQ2 x p
  else none

/-! ### The decoder's entry (R300, R302) -/

/-- The bits of one fetched instruction: one parcel, or two (R300). -/
inductive RawInstr
  | compressed (p : BitVec 16)
  | full (w : BitVec 32)
  deriving DecidableEq, Repr

/-- Why bits are no instruction; each raises illegal instruction (R340). -/
inductive DecodeError
  /-- A reserved compressed encoding (R641). -/
  | reservedParcel (p : BitVec 16)
  /-- A 32-bit word that matches no row for the mode (R340). -/
  | noRow (w : BitVec 32)
  /-- An encoding of 48 bits or more: `inst[4:2] = 111` (R300, R340). -/
  | longEncoding (w : BitVec 32)
  /-- The byte list ends inside the instruction. -/
  | truncated
  deriving DecidableEq, Repr

/-- A first parcel that is a whole instruction: `p[1:0]` is not 11 (R300). -/
def isCompressedParcel (p : BitVec 16) : Bool := decide (quadrant p ≠ 0b11#2)

/-- Decode one instruction's bits (R302). -/
def decodeRaw (x : Xlen) : RawInstr → Except DecodeError Instr
  | .compressed p =>
    match decode16 x p with
    | some i => .ok i
    | none => .error (.reservedParcel p)
  | .full w =>
    if w.extractLsb 4 2 = 0b111#3 then .error (.longEncoding w)
    else
      match decode32 x w with
      | some i => .ok i
      | none => .error (.noRow w)

/-- Decode the instruction at the head of a byte list, little-endian (R205), and give the rest. -/
def decodeBytes (x : Xlen) : List Byte → Except DecodeError (Instr × List Byte)
  | b0 :: b1 :: rest =>
    if isCompressedParcel (b1 ++ b0) then
      match decodeRaw x (.compressed (b1 ++ b0)) with
      | .ok i => .ok (i, rest)
      | .error e => .error e
    else
      match rest with
      | b2 :: b3 :: rest' =>
        match decodeRaw x (.full (b3 ++ b2 ++ b1 ++ b0)) with
        | .ok i => .ok (i, rest')
        | .error e => .error e
      | _ => .error .truncated
  | _ => .error .truncated

/-! ### The encoder (R310, R311, R345) -/

/-- R format: every other 32-bit format is this one with its immediate cut into the fields (R310). -/
def formatR (f7 : BitVec 7) (rs2 rs1 : Reg) (f3 : BitVec 3) (rd : Reg) (op : BitVec 7) : BitVec 32 :=
  f7 ++ rs2 ++ rs1 ++ f3 ++ rd ++ op

def formatI (imm : BitVec 12) (rs1 : Reg) (f3 : BitVec 3) (rd : Reg) (op : BitVec 7) : BitVec 32 :=
  formatR (imm.extractLsb 11 5) (imm.extractLsb 4 0) rs1 f3 rd op

def formatS (imm : BitVec 12) (rs2 rs1 : Reg) (f3 : BitVec 3) (op : BitVec 7) : BitVec 32 :=
  formatR (imm.extractLsb 11 5) rs2 rs1 f3 (imm.extractLsb 4 0) op

def formatB (off : BitVec 13) (rs2 rs1 : Reg) (f3 : BitVec 3) (op : BitVec 7) : BitVec 32 :=
  formatR (off.extractLsb 12 12 ++ off.extractLsb 10 5) rs2 rs1 f3 (off.extractLsb 4 1 ++ off.extractLsb 11 11) op

def formatU (imm : BitVec 20) (rd : Reg) (op : BitVec 7) : BitVec 32 :=
  formatR (imm.extractLsb 19 13) (imm.extractLsb 12 8) (imm.extractLsb 7 3) (imm.extractLsb 2 0) rd op

def formatJ (off : BitVec 21) (rd : Reg) (op : BitVec 7) : BitVec 32 :=
  formatU (off.extractLsb 20 20 ++ off.extractLsb 10 1 ++ off.extractLsb 11 11 ++ off.extractLsb 19 12) rd op

/-- The XLEN = 64 shift-immediate layout; with `shamt[5] = 0` it is the 5-bit layout (R311). -/
def formatShift (f6 : BitVec 6) (shamt : BitVec 6) (rs1 : Reg) (f3 : BitVec 3) (rd : Reg) (op : BitVec 7) : BitVec 32 :=
  formatR (f6 ++ shamt.extractLsb 5 5) (shamt.extractLsb 4 0) rs1 f3 rd op

def formatAtomic (f5 : BitVec 5) (aq rl : Bool) (rs2 rs1 : Reg) (f3 : BitVec 3) (rd : Reg) (op : BitVec 7) : BitVec 32 :=
  formatR (f5 ++ BitVec.ofBool aq ++ BitVec.ofBool rl) rs2 rs1 f3 rd op

/-- The fields p[15:13], p[12], p[11:7], p[6:2], p[1:0] that every compressed format is cut into (R345). -/
def formatC (f3 : BitVec 3) (b12 : BitVec 1) (hi lo : BitVec 5) (op : BitVec 2) : BitVec 16 :=
  f3 ++ b12 ++ hi ++ lo ++ op

/-- The bits of an instruction: its 32-bit word, or its 16-bit parcel zero-extended. This is the trap value of an illegal
instruction trap (60_exceptions.md R722). -/
def Instr.bits : Instr → BitVec 32
  | .lui rd imm => formatU imm rd 0b0110111#7
  | .auipc rd imm => formatU imm rd 0b0010111#7
  | .addi rd rs1 imm => formatI imm rs1 0b000#3 rd 0b0010011#7
  | .slti rd rs1 imm => formatI imm rs1 0b010#3 rd 0b0010011#7
  | .sltiu rd rs1 imm => formatI imm rs1 0b011#3 rd 0b0010011#7
  | .xori rd rs1 imm => formatI imm rs1 0b100#3 rd 0b0010011#7
  | .ori rd rs1 imm => formatI imm rs1 0b110#3 rd 0b0010011#7
  | .andi rd rs1 imm => formatI imm rs1 0b111#3 rd 0b0010011#7
  | .slli rd rs1 shamt => formatShift 0b000000#6 shamt rs1 0b001#3 rd 0b0010011#7
  | .srli rd rs1 shamt => formatShift 0b000000#6 shamt rs1 0b101#3 rd 0b0010011#7
  | .srai rd rs1 shamt => formatShift 0b010000#6 shamt rs1 0b101#3 rd 0b0010011#7
  | .add rd rs1 rs2 => formatR 0b0000000#7 rs2 rs1 0b000#3 rd 0b0110011#7
  | .sub rd rs1 rs2 => formatR 0b0100000#7 rs2 rs1 0b000#3 rd 0b0110011#7
  | .sll rd rs1 rs2 => formatR 0b0000000#7 rs2 rs1 0b001#3 rd 0b0110011#7
  | .slt rd rs1 rs2 => formatR 0b0000000#7 rs2 rs1 0b010#3 rd 0b0110011#7
  | .sltu rd rs1 rs2 => formatR 0b0000000#7 rs2 rs1 0b011#3 rd 0b0110011#7
  | .xor rd rs1 rs2 => formatR 0b0000000#7 rs2 rs1 0b100#3 rd 0b0110011#7
  | .srl rd rs1 rs2 => formatR 0b0000000#7 rs2 rs1 0b101#3 rd 0b0110011#7
  | .sra rd rs1 rs2 => formatR 0b0100000#7 rs2 rs1 0b101#3 rd 0b0110011#7
  | .or rd rs1 rs2 => formatR 0b0000000#7 rs2 rs1 0b110#3 rd 0b0110011#7
  | .and rd rs1 rs2 => formatR 0b0000000#7 rs2 rs1 0b111#3 rd 0b0110011#7
  | .addiw rd rs1 imm => formatI imm rs1 0b000#3 rd 0b0011011#7
  | .slliw rd rs1 shamt => formatR 0b0000000#7 shamt rs1 0b001#3 rd 0b0011011#7
  | .srliw rd rs1 shamt => formatR 0b0000000#7 shamt rs1 0b101#3 rd 0b0011011#7
  | .sraiw rd rs1 shamt => formatR 0b0100000#7 shamt rs1 0b101#3 rd 0b0011011#7
  | .addw rd rs1 rs2 => formatR 0b0000000#7 rs2 rs1 0b000#3 rd 0b0111011#7
  | .subw rd rs1 rs2 => formatR 0b0100000#7 rs2 rs1 0b000#3 rd 0b0111011#7
  | .sllw rd rs1 rs2 => formatR 0b0000000#7 rs2 rs1 0b001#3 rd 0b0111011#7
  | .srlw rd rs1 rs2 => formatR 0b0000000#7 rs2 rs1 0b101#3 rd 0b0111011#7
  | .sraw rd rs1 rs2 => formatR 0b0100000#7 rs2 rs1 0b101#3 rd 0b0111011#7
  | .jal rd off => formatJ off rd 0b1101111#7
  | .jalr rd rs1 imm => formatI imm rs1 0b000#3 rd 0b1100111#7
  | .beq rs1 rs2 off => formatB off rs2 rs1 0b000#3 0b1100011#7
  | .bne rs1 rs2 off => formatB off rs2 rs1 0b001#3 0b1100011#7
  | .blt rs1 rs2 off => formatB off rs2 rs1 0b100#3 0b1100011#7
  | .bge rs1 rs2 off => formatB off rs2 rs1 0b101#3 0b1100011#7
  | .bltu rs1 rs2 off => formatB off rs2 rs1 0b110#3 0b1100011#7
  | .bgeu rs1 rs2 off => formatB off rs2 rs1 0b111#3 0b1100011#7
  | .lb rd rs1 imm => formatI imm rs1 0b000#3 rd 0b0000011#7
  | .lh rd rs1 imm => formatI imm rs1 0b001#3 rd 0b0000011#7
  | .lw rd rs1 imm => formatI imm rs1 0b010#3 rd 0b0000011#7
  | .ld rd rs1 imm => formatI imm rs1 0b011#3 rd 0b0000011#7
  | .lbu rd rs1 imm => formatI imm rs1 0b100#3 rd 0b0000011#7
  | .lhu rd rs1 imm => formatI imm rs1 0b101#3 rd 0b0000011#7
  | .lwu rd rs1 imm => formatI imm rs1 0b110#3 rd 0b0000011#7
  | .sb rs1 rs2 imm => formatS imm rs2 rs1 0b000#3 0b0100011#7
  | .sh rs1 rs2 imm => formatS imm rs2 rs1 0b001#3 0b0100011#7
  | .sw rs1 rs2 imm => formatS imm rs2 rs1 0b010#3 0b0100011#7
  | .sd rs1 rs2 imm => formatS imm rs2 rs1 0b011#3 0b0100011#7
  | .flw rd rs1 imm => formatI imm rs1 0b010#3 rd 0b0000111#7
  | .fld rd rs1 imm => formatI imm rs1 0b011#3 rd 0b0000111#7
  | .fsw rs1 rs2 imm => formatS imm rs2 rs1 0b010#3 0b0100111#7
  | .fsd rs1 rs2 imm => formatS imm rs2 rs1 0b011#3 0b0100111#7
  | .fence fm pred succ rs1 rd => formatI (fm ++ pred ++ succ) rs1 0b000#3 rd 0b0001111#7
  | .fenceI imm rs1 rd => formatI imm rs1 0b001#3 rd 0b0001111#7
  | .mul rd rs1 rs2 => formatR 0b0000001#7 rs2 rs1 0b000#3 rd 0b0110011#7
  | .mulh rd rs1 rs2 => formatR 0b0000001#7 rs2 rs1 0b001#3 rd 0b0110011#7
  | .mulhsu rd rs1 rs2 => formatR 0b0000001#7 rs2 rs1 0b010#3 rd 0b0110011#7
  | .mulhu rd rs1 rs2 => formatR 0b0000001#7 rs2 rs1 0b011#3 rd 0b0110011#7
  | .div rd rs1 rs2 => formatR 0b0000001#7 rs2 rs1 0b100#3 rd 0b0110011#7
  | .divu rd rs1 rs2 => formatR 0b0000001#7 rs2 rs1 0b101#3 rd 0b0110011#7
  | .rem rd rs1 rs2 => formatR 0b0000001#7 rs2 rs1 0b110#3 rd 0b0110011#7
  | .remu rd rs1 rs2 => formatR 0b0000001#7 rs2 rs1 0b111#3 rd 0b0110011#7
  | .mulw rd rs1 rs2 => formatR 0b0000001#7 rs2 rs1 0b000#3 rd 0b0111011#7
  | .divw rd rs1 rs2 => formatR 0b0000001#7 rs2 rs1 0b100#3 rd 0b0111011#7
  | .divuw rd rs1 rs2 => formatR 0b0000001#7 rs2 rs1 0b101#3 rd 0b0111011#7
  | .remw rd rs1 rs2 => formatR 0b0000001#7 rs2 rs1 0b110#3 rd 0b0111011#7
  | .remuw rd rs1 rs2 => formatR 0b0000001#7 rs2 rs1 0b111#3 rd 0b0111011#7
  | .lrW rd rs1 aq rl => formatAtomic 0b00010#5 aq rl 0#5 rs1 0b010#3 rd 0b0101111#7
  | .scW rd rs1 rs2 aq rl => formatAtomic 0b00011#5 aq rl rs2 rs1 0b010#3 rd 0b0101111#7
  | .amoswapW rd rs1 rs2 aq rl => formatAtomic 0b00001#5 aq rl rs2 rs1 0b010#3 rd 0b0101111#7
  | .amoaddW rd rs1 rs2 aq rl => formatAtomic 0b00000#5 aq rl rs2 rs1 0b010#3 rd 0b0101111#7
  | .amoxorW rd rs1 rs2 aq rl => formatAtomic 0b00100#5 aq rl rs2 rs1 0b010#3 rd 0b0101111#7
  | .amoandW rd rs1 rs2 aq rl => formatAtomic 0b01100#5 aq rl rs2 rs1 0b010#3 rd 0b0101111#7
  | .amoorW rd rs1 rs2 aq rl => formatAtomic 0b01000#5 aq rl rs2 rs1 0b010#3 rd 0b0101111#7
  | .amominW rd rs1 rs2 aq rl => formatAtomic 0b10000#5 aq rl rs2 rs1 0b010#3 rd 0b0101111#7
  | .amomaxW rd rs1 rs2 aq rl => formatAtomic 0b10100#5 aq rl rs2 rs1 0b010#3 rd 0b0101111#7
  | .amominuW rd rs1 rs2 aq rl => formatAtomic 0b11000#5 aq rl rs2 rs1 0b010#3 rd 0b0101111#7
  | .amomaxuW rd rs1 rs2 aq rl => formatAtomic 0b11100#5 aq rl rs2 rs1 0b010#3 rd 0b0101111#7
  | .lrD rd rs1 aq rl => formatAtomic 0b00010#5 aq rl 0#5 rs1 0b011#3 rd 0b0101111#7
  | .scD rd rs1 rs2 aq rl => formatAtomic 0b00011#5 aq rl rs2 rs1 0b011#3 rd 0b0101111#7
  | .amoswapD rd rs1 rs2 aq rl => formatAtomic 0b00001#5 aq rl rs2 rs1 0b011#3 rd 0b0101111#7
  | .amoaddD rd rs1 rs2 aq rl => formatAtomic 0b00000#5 aq rl rs2 rs1 0b011#3 rd 0b0101111#7
  | .amoxorD rd rs1 rs2 aq rl => formatAtomic 0b00100#5 aq rl rs2 rs1 0b011#3 rd 0b0101111#7
  | .amoandD rd rs1 rs2 aq rl => formatAtomic 0b01100#5 aq rl rs2 rs1 0b011#3 rd 0b0101111#7
  | .amoorD rd rs1 rs2 aq rl => formatAtomic 0b01000#5 aq rl rs2 rs1 0b011#3 rd 0b0101111#7
  | .amominD rd rs1 rs2 aq rl => formatAtomic 0b10000#5 aq rl rs2 rs1 0b011#3 rd 0b0101111#7
  | .amomaxD rd rs1 rs2 aq rl => formatAtomic 0b10100#5 aq rl rs2 rs1 0b011#3 rd 0b0101111#7
  | .amominuD rd rs1 rs2 aq rl => formatAtomic 0b11000#5 aq rl rs2 rs1 0b011#3 rd 0b0101111#7
  | .amomaxuD rd rs1 rs2 aq rl => formatAtomic 0b11100#5 aq rl rs2 rs1 0b011#3 rd 0b0101111#7
  | .csrrw rd rs1 csr => formatI csr rs1 0b001#3 rd 0b1110011#7
  | .csrrs rd rs1 csr => formatI csr rs1 0b010#3 rd 0b1110011#7
  | .csrrc rd rs1 csr => formatI csr rs1 0b011#3 rd 0b1110011#7
  | .csrrwi rd uimm csr => formatI csr uimm 0b101#3 rd 0b1110011#7
  | .csrrsi rd uimm csr => formatI csr uimm 0b110#3 rd 0b1110011#7
  | .csrrci rd uimm csr => formatI csr uimm 0b111#3 rd 0b1110011#7
  | .ecall => 0x00000073#32
  | .ebreak => 0x00100073#32
  | .sret => 0x10200073#32
  | .mret => 0x30200073#32
  | .wfi => 0x10500073#32
  | .sfenceVma rs1 rs2 => formatR 0b0001001#7 rs2 rs1 0b000#3 0#5 0b1110011#7
  | .fpMadd rd rs1 rs2 rm hi => formatR hi rs2 rs1 rm rd 0b1000011#7
  | .fpMsub rd rs1 rs2 rm hi => formatR hi rs2 rs1 rm rd 0b1000111#7
  | .fpNmsub rd rs1 rs2 rm hi => formatR hi rs2 rs1 rm rd 0b1001011#7
  | .fpNmadd rd rs1 rs2 rm hi => formatR hi rs2 rs1 rm rd 0b1001111#7
  | .fpOp rd rs1 rs2 rm hi => formatR hi rs2 rs1 rm rd 0b1010011#7
  | .cAddi4spn rd imm => (formatC 0b000#3 (imm.extractLsb 5 5) ((imm.extractLsb 4 4) ++ (imm.extractLsb 9 6)) ((imm.extractLsb 2 2) ++ (imm.extractLsb 3 3) ++ rd) 0b00#2).setWidth 32
  | .cFld rd rs1 imm => (formatC 0b001#3 (imm.extractLsb 5 5) ((imm.extractLsb 4 3) ++ rs1) ((imm.extractLsb 7 6) ++ rd) 0b00#2).setWidth 32
  | .cLw rd rs1 imm => (formatC 0b010#3 (imm.extractLsb 5 5) ((imm.extractLsb 4 3) ++ rs1) (((imm.extractLsb 2 2) ++ (imm.extractLsb 6 6)) ++ rd) 0b00#2).setWidth 32
  | .cFlw rd rs1 imm => (formatC 0b011#3 (imm.extractLsb 5 5) ((imm.extractLsb 4 3) ++ rs1) (((imm.extractLsb 2 2) ++ (imm.extractLsb 6 6)) ++ rd) 0b00#2).setWidth 32
  | .cLd rd rs1 imm => (formatC 0b011#3 (imm.extractLsb 5 5) ((imm.extractLsb 4 3) ++ rs1) ((imm.extractLsb 7 6) ++ rd) 0b00#2).setWidth 32
  | .cFsd rs1 rs2 imm => (formatC 0b101#3 (imm.extractLsb 5 5) ((imm.extractLsb 4 3) ++ rs1) ((imm.extractLsb 7 6) ++ rs2) 0b00#2).setWidth 32
  | .cSw rs1 rs2 imm => (formatC 0b110#3 (imm.extractLsb 5 5) ((imm.extractLsb 4 3) ++ rs1) (((imm.extractLsb 2 2) ++ (imm.extractLsb 6 6)) ++ rs2) 0b00#2).setWidth 32
  | .cFsw rs1 rs2 imm => (formatC 0b111#3 (imm.extractLsb 5 5) ((imm.extractLsb 4 3) ++ rs1) (((imm.extractLsb 2 2) ++ (imm.extractLsb 6 6)) ++ rs2) 0b00#2).setWidth 32
  | .cSd rs1 rs2 imm => (formatC 0b111#3 (imm.extractLsb 5 5) ((imm.extractLsb 4 3) ++ rs1) ((imm.extractLsb 7 6) ++ rs2) 0b00#2).setWidth 32
  | .cNop imm => (formatC 0b000#3 (imm.extractLsb 5 5) 0#5 (imm.extractLsb 4 0) 0b01#2).setWidth 32
  | .cAddi rd imm => (formatC 0b000#3 (imm.extractLsb 5 5) rd (imm.extractLsb 4 0) 0b01#2).setWidth 32
  | .cJal off => (formatC 0b001#3 (off.extractLsb 11 11) ((off.extractLsb 4 4) ++ (off.extractLsb 9 8) ++ (off.extractLsb 10 10) ++ (off.extractLsb 6 6)) ((off.extractLsb 7 7) ++ (off.extractLsb 3 1) ++ (off.extractLsb 5 5)) 0b01#2).setWidth 32
  | .cAddiw rd imm => (formatC 0b001#3 (imm.extractLsb 5 5) rd (imm.extractLsb 4 0) 0b01#2).setWidth 32
  | .cLi rd imm => (formatC 0b010#3 (imm.extractLsb 5 5) rd (imm.extractLsb 4 0) 0b01#2).setWidth 32
  | .cAddi16sp imm => (formatC 0b011#3 (imm.extractLsb 9 9) 2#5 ((imm.extractLsb 4 4) ++ (imm.extractLsb 6 6) ++ (imm.extractLsb 8 7) ++ (imm.extractLsb 5 5)) 0b01#2).setWidth 32
  | .cLui rd imm => (formatC 0b011#3 (imm.extractLsb 5 5) rd (imm.extractLsb 4 0) 0b01#2).setWidth 32
  | .cSrli rd shamt => (formatC 0b100#3 (shamt.extractLsb 5 5) (0b00#2 ++ rd) (shamt.extractLsb 4 0) 0b01#2).setWidth 32
  | .cSrai rd shamt => (formatC 0b100#3 (shamt.extractLsb 5 5) (0b01#2 ++ rd) (shamt.extractLsb 4 0) 0b01#2).setWidth 32
  | .cAndi rd imm => (formatC 0b100#3 (imm.extractLsb 5 5) (0b10#2 ++ rd) (imm.extractLsb 4 0) 0b01#2).setWidth 32
  | .cSub rd rs2 => (formatC 0b100#3 0b0#1 (0b11#2 ++ rd) (0b00#2 ++ rs2) 0b01#2).setWidth 32
  | .cXor rd rs2 => (formatC 0b100#3 0b0#1 (0b11#2 ++ rd) (0b01#2 ++ rs2) 0b01#2).setWidth 32
  | .cOr rd rs2 => (formatC 0b100#3 0b0#1 (0b11#2 ++ rd) (0b10#2 ++ rs2) 0b01#2).setWidth 32
  | .cAnd rd rs2 => (formatC 0b100#3 0b0#1 (0b11#2 ++ rd) (0b11#2 ++ rs2) 0b01#2).setWidth 32
  | .cSubw rd rs2 => (formatC 0b100#3 0b1#1 (0b11#2 ++ rd) (0b00#2 ++ rs2) 0b01#2).setWidth 32
  | .cAddw rd rs2 => (formatC 0b100#3 0b1#1 (0b11#2 ++ rd) (0b01#2 ++ rs2) 0b01#2).setWidth 32
  | .cJ off => (formatC 0b101#3 (off.extractLsb 11 11) ((off.extractLsb 4 4) ++ (off.extractLsb 9 8) ++ (off.extractLsb 10 10) ++ (off.extractLsb 6 6)) ((off.extractLsb 7 7) ++ (off.extractLsb 3 1) ++ (off.extractLsb 5 5)) 0b01#2).setWidth 32
  | .cBeqz rs1 off => (formatC 0b110#3 (off.extractLsb 8 8) ((off.extractLsb 4 3) ++ rs1) ((off.extractLsb 7 6) ++ (off.extractLsb 2 1) ++ (off.extractLsb 5 5)) 0b01#2).setWidth 32
  | .cBnez rs1 off => (formatC 0b111#3 (off.extractLsb 8 8) ((off.extractLsb 4 3) ++ rs1) ((off.extractLsb 7 6) ++ (off.extractLsb 2 1) ++ (off.extractLsb 5 5)) 0b01#2).setWidth 32
  | .cSlli rd shamt => (formatC 0b000#3 (shamt.extractLsb 5 5) rd (shamt.extractLsb 4 0) 0b10#2).setWidth 32
  | .cFldsp rd imm => (formatC 0b001#3 (imm.extractLsb 5 5) rd ((imm.extractLsb 4 3) ++ (imm.extractLsb 8 6)) 0b10#2).setWidth 32
  | .cLwsp rd imm => (formatC 0b010#3 (imm.extractLsb 5 5) rd ((imm.extractLsb 4 2) ++ (imm.extractLsb 7 6)) 0b10#2).setWidth 32
  | .cFlwsp rd imm => (formatC 0b011#3 (imm.extractLsb 5 5) rd ((imm.extractLsb 4 2) ++ (imm.extractLsb 7 6)) 0b10#2).setWidth 32
  | .cLdsp rd imm => (formatC 0b011#3 (imm.extractLsb 5 5) rd ((imm.extractLsb 4 3) ++ (imm.extractLsb 8 6)) 0b10#2).setWidth 32
  | .cJr rs1 => (formatC 0b100#3 0b0#1 rs1 0#5 0b10#2).setWidth 32
  | .cMv rd rs2 => (formatC 0b100#3 0b0#1 rd rs2 0b10#2).setWidth 32
  | .cEbreak => (0x9002#16).setWidth 32
  | .cJalr rs1 => (formatC 0b100#3 0b1#1 rs1 0#5 0b10#2).setWidth 32
  | .cAdd rd rs2 => (formatC 0b100#3 0b1#1 rd rs2 0b10#2).setWidth 32
  | .cFsdsp rs2 imm => (formatC 0b101#3 (imm.extractLsb 5 5) ((imm.extractLsb 4 3) ++ (imm.extractLsb 8 6)) rs2 0b10#2).setWidth 32
  | .cSwsp rs2 imm => (formatC 0b110#3 (imm.extractLsb 5 5) ((imm.extractLsb 4 2) ++ (imm.extractLsb 7 6)) rs2 0b10#2).setWidth 32
  | .cFswsp rs2 imm => (formatC 0b111#3 (imm.extractLsb 5 5) ((imm.extractLsb 4 2) ++ (imm.extractLsb 7 6)) rs2 0b10#2).setWidth 32
  | .cSdsp rs2 imm => (formatC 0b111#3 (imm.extractLsb 5 5) ((imm.extractLsb 4 3) ++ (imm.extractLsb 8 6)) rs2 0b10#2).setWidth 32

/-- The length in bytes, `ilen` of R303. -/
def Instr.length : Instr → Nat
  | .lui _ _ => 4
  | .auipc _ _ => 4
  | .addi _ _ _ => 4
  | .slti _ _ _ => 4
  | .sltiu _ _ _ => 4
  | .xori _ _ _ => 4
  | .ori _ _ _ => 4
  | .andi _ _ _ => 4
  | .slli _ _ _ => 4
  | .srli _ _ _ => 4
  | .srai _ _ _ => 4
  | .add _ _ _ => 4
  | .sub _ _ _ => 4
  | .sll _ _ _ => 4
  | .slt _ _ _ => 4
  | .sltu _ _ _ => 4
  | .xor _ _ _ => 4
  | .srl _ _ _ => 4
  | .sra _ _ _ => 4
  | .or _ _ _ => 4
  | .and _ _ _ => 4
  | .addiw _ _ _ => 4
  | .slliw _ _ _ => 4
  | .srliw _ _ _ => 4
  | .sraiw _ _ _ => 4
  | .addw _ _ _ => 4
  | .subw _ _ _ => 4
  | .sllw _ _ _ => 4
  | .srlw _ _ _ => 4
  | .sraw _ _ _ => 4
  | .jal _ _ => 4
  | .jalr _ _ _ => 4
  | .beq _ _ _ => 4
  | .bne _ _ _ => 4
  | .blt _ _ _ => 4
  | .bge _ _ _ => 4
  | .bltu _ _ _ => 4
  | .bgeu _ _ _ => 4
  | .lb _ _ _ => 4
  | .lh _ _ _ => 4
  | .lw _ _ _ => 4
  | .ld _ _ _ => 4
  | .lbu _ _ _ => 4
  | .lhu _ _ _ => 4
  | .lwu _ _ _ => 4
  | .sb _ _ _ => 4
  | .sh _ _ _ => 4
  | .sw _ _ _ => 4
  | .sd _ _ _ => 4
  | .flw _ _ _ => 4
  | .fld _ _ _ => 4
  | .fsw _ _ _ => 4
  | .fsd _ _ _ => 4
  | .fence _ _ _ _ _ => 4
  | .fenceI _ _ _ => 4
  | .mul _ _ _ => 4
  | .mulh _ _ _ => 4
  | .mulhsu _ _ _ => 4
  | .mulhu _ _ _ => 4
  | .div _ _ _ => 4
  | .divu _ _ _ => 4
  | .rem _ _ _ => 4
  | .remu _ _ _ => 4
  | .mulw _ _ _ => 4
  | .divw _ _ _ => 4
  | .divuw _ _ _ => 4
  | .remw _ _ _ => 4
  | .remuw _ _ _ => 4
  | .lrW _ _ _ _ => 4
  | .scW _ _ _ _ _ => 4
  | .amoswapW _ _ _ _ _ => 4
  | .amoaddW _ _ _ _ _ => 4
  | .amoxorW _ _ _ _ _ => 4
  | .amoandW _ _ _ _ _ => 4
  | .amoorW _ _ _ _ _ => 4
  | .amominW _ _ _ _ _ => 4
  | .amomaxW _ _ _ _ _ => 4
  | .amominuW _ _ _ _ _ => 4
  | .amomaxuW _ _ _ _ _ => 4
  | .lrD _ _ _ _ => 4
  | .scD _ _ _ _ _ => 4
  | .amoswapD _ _ _ _ _ => 4
  | .amoaddD _ _ _ _ _ => 4
  | .amoxorD _ _ _ _ _ => 4
  | .amoandD _ _ _ _ _ => 4
  | .amoorD _ _ _ _ _ => 4
  | .amominD _ _ _ _ _ => 4
  | .amomaxD _ _ _ _ _ => 4
  | .amominuD _ _ _ _ _ => 4
  | .amomaxuD _ _ _ _ _ => 4
  | .csrrw _ _ _ => 4
  | .csrrs _ _ _ => 4
  | .csrrc _ _ _ => 4
  | .csrrwi _ _ _ => 4
  | .csrrsi _ _ _ => 4
  | .csrrci _ _ _ => 4
  | .ecall => 4
  | .ebreak => 4
  | .sret => 4
  | .mret => 4
  | .wfi => 4
  | .sfenceVma _ _ => 4
  | .fpMadd _ _ _ _ _ => 4
  | .fpMsub _ _ _ _ _ => 4
  | .fpNmsub _ _ _ _ _ => 4
  | .fpNmadd _ _ _ _ _ => 4
  | .fpOp _ _ _ _ _ => 4
  | .cAddi4spn _ _ => 2
  | .cFld _ _ _ => 2
  | .cLw _ _ _ => 2
  | .cFlw _ _ _ => 2
  | .cLd _ _ _ => 2
  | .cFsd _ _ _ => 2
  | .cSw _ _ _ => 2
  | .cFsw _ _ _ => 2
  | .cSd _ _ _ => 2
  | .cNop _ => 2
  | .cAddi _ _ => 2
  | .cJal _ => 2
  | .cAddiw _ _ => 2
  | .cLi _ _ => 2
  | .cAddi16sp _ => 2
  | .cLui _ _ => 2
  | .cSrli _ _ => 2
  | .cSrai _ _ => 2
  | .cAndi _ _ => 2
  | .cSub _ _ => 2
  | .cXor _ _ => 2
  | .cOr _ _ => 2
  | .cAnd _ _ => 2
  | .cSubw _ _ => 2
  | .cAddw _ _ => 2
  | .cJ _ => 2
  | .cBeqz _ _ => 2
  | .cBnez _ _ => 2
  | .cSlli _ _ => 2
  | .cFldsp _ _ => 2
  | .cLwsp _ _ => 2
  | .cFlwsp _ _ => 2
  | .cLdsp _ _ => 2
  | .cJr _ => 2
  | .cMv _ _ => 2
  | .cEbreak => 2
  | .cJalr _ => 2
  | .cAdd _ _ => 2
  | .cFsdsp _ _ => 2
  | .cSwsp _ _ => 2
  | .cFswsp _ _ => 2
  | .cSdsp _ _ => 2

/-- The words of a well-formed instruction as the hardware stores them: its bytes, lowest address first (R205). -/
def encode (i : Instr) : List Byte :=
  if i.length = 2 then [i.bits.extractLsb 7 0, i.bits.extractLsb 15 8]
  else [i.bits.extractLsb 7 0, i.bits.extractLsb 15 8, i.bits.extractLsb 23 16, i.bits.extractLsb 31 24]

/-! ### The decompressor (R640) -/

/-- A 3-bit register number names x8 to x15 (R345, R643). -/
def creg (r : CReg) : Reg := 0b01#2 ++ r

/-- The 32-bit instruction a compressed instruction expands to (R650 to R691); any other is its own. -/
def Instr.expand : Instr → Instr
  | .lui rd imm => .lui rd imm
  | .auipc rd imm => .auipc rd imm
  | .addi rd rs1 imm => .addi rd rs1 imm
  | .slti rd rs1 imm => .slti rd rs1 imm
  | .sltiu rd rs1 imm => .sltiu rd rs1 imm
  | .xori rd rs1 imm => .xori rd rs1 imm
  | .ori rd rs1 imm => .ori rd rs1 imm
  | .andi rd rs1 imm => .andi rd rs1 imm
  | .slli rd rs1 shamt => .slli rd rs1 shamt
  | .srli rd rs1 shamt => .srli rd rs1 shamt
  | .srai rd rs1 shamt => .srai rd rs1 shamt
  | .add rd rs1 rs2 => .add rd rs1 rs2
  | .sub rd rs1 rs2 => .sub rd rs1 rs2
  | .sll rd rs1 rs2 => .sll rd rs1 rs2
  | .slt rd rs1 rs2 => .slt rd rs1 rs2
  | .sltu rd rs1 rs2 => .sltu rd rs1 rs2
  | .xor rd rs1 rs2 => .xor rd rs1 rs2
  | .srl rd rs1 rs2 => .srl rd rs1 rs2
  | .sra rd rs1 rs2 => .sra rd rs1 rs2
  | .or rd rs1 rs2 => .or rd rs1 rs2
  | .and rd rs1 rs2 => .and rd rs1 rs2
  | .addiw rd rs1 imm => .addiw rd rs1 imm
  | .slliw rd rs1 shamt => .slliw rd rs1 shamt
  | .srliw rd rs1 shamt => .srliw rd rs1 shamt
  | .sraiw rd rs1 shamt => .sraiw rd rs1 shamt
  | .addw rd rs1 rs2 => .addw rd rs1 rs2
  | .subw rd rs1 rs2 => .subw rd rs1 rs2
  | .sllw rd rs1 rs2 => .sllw rd rs1 rs2
  | .srlw rd rs1 rs2 => .srlw rd rs1 rs2
  | .sraw rd rs1 rs2 => .sraw rd rs1 rs2
  | .jal rd off => .jal rd off
  | .jalr rd rs1 imm => .jalr rd rs1 imm
  | .beq rs1 rs2 off => .beq rs1 rs2 off
  | .bne rs1 rs2 off => .bne rs1 rs2 off
  | .blt rs1 rs2 off => .blt rs1 rs2 off
  | .bge rs1 rs2 off => .bge rs1 rs2 off
  | .bltu rs1 rs2 off => .bltu rs1 rs2 off
  | .bgeu rs1 rs2 off => .bgeu rs1 rs2 off
  | .lb rd rs1 imm => .lb rd rs1 imm
  | .lh rd rs1 imm => .lh rd rs1 imm
  | .lw rd rs1 imm => .lw rd rs1 imm
  | .ld rd rs1 imm => .ld rd rs1 imm
  | .lbu rd rs1 imm => .lbu rd rs1 imm
  | .lhu rd rs1 imm => .lhu rd rs1 imm
  | .lwu rd rs1 imm => .lwu rd rs1 imm
  | .sb rs1 rs2 imm => .sb rs1 rs2 imm
  | .sh rs1 rs2 imm => .sh rs1 rs2 imm
  | .sw rs1 rs2 imm => .sw rs1 rs2 imm
  | .sd rs1 rs2 imm => .sd rs1 rs2 imm
  | .flw rd rs1 imm => .flw rd rs1 imm
  | .fld rd rs1 imm => .fld rd rs1 imm
  | .fsw rs1 rs2 imm => .fsw rs1 rs2 imm
  | .fsd rs1 rs2 imm => .fsd rs1 rs2 imm
  | .fence fm pred succ rs1 rd => .fence fm pred succ rs1 rd
  | .fenceI imm rs1 rd => .fenceI imm rs1 rd
  | .mul rd rs1 rs2 => .mul rd rs1 rs2
  | .mulh rd rs1 rs2 => .mulh rd rs1 rs2
  | .mulhsu rd rs1 rs2 => .mulhsu rd rs1 rs2
  | .mulhu rd rs1 rs2 => .mulhu rd rs1 rs2
  | .div rd rs1 rs2 => .div rd rs1 rs2
  | .divu rd rs1 rs2 => .divu rd rs1 rs2
  | .rem rd rs1 rs2 => .rem rd rs1 rs2
  | .remu rd rs1 rs2 => .remu rd rs1 rs2
  | .mulw rd rs1 rs2 => .mulw rd rs1 rs2
  | .divw rd rs1 rs2 => .divw rd rs1 rs2
  | .divuw rd rs1 rs2 => .divuw rd rs1 rs2
  | .remw rd rs1 rs2 => .remw rd rs1 rs2
  | .remuw rd rs1 rs2 => .remuw rd rs1 rs2
  | .lrW rd rs1 aq rl => .lrW rd rs1 aq rl
  | .scW rd rs1 rs2 aq rl => .scW rd rs1 rs2 aq rl
  | .amoswapW rd rs1 rs2 aq rl => .amoswapW rd rs1 rs2 aq rl
  | .amoaddW rd rs1 rs2 aq rl => .amoaddW rd rs1 rs2 aq rl
  | .amoxorW rd rs1 rs2 aq rl => .amoxorW rd rs1 rs2 aq rl
  | .amoandW rd rs1 rs2 aq rl => .amoandW rd rs1 rs2 aq rl
  | .amoorW rd rs1 rs2 aq rl => .amoorW rd rs1 rs2 aq rl
  | .amominW rd rs1 rs2 aq rl => .amominW rd rs1 rs2 aq rl
  | .amomaxW rd rs1 rs2 aq rl => .amomaxW rd rs1 rs2 aq rl
  | .amominuW rd rs1 rs2 aq rl => .amominuW rd rs1 rs2 aq rl
  | .amomaxuW rd rs1 rs2 aq rl => .amomaxuW rd rs1 rs2 aq rl
  | .lrD rd rs1 aq rl => .lrD rd rs1 aq rl
  | .scD rd rs1 rs2 aq rl => .scD rd rs1 rs2 aq rl
  | .amoswapD rd rs1 rs2 aq rl => .amoswapD rd rs1 rs2 aq rl
  | .amoaddD rd rs1 rs2 aq rl => .amoaddD rd rs1 rs2 aq rl
  | .amoxorD rd rs1 rs2 aq rl => .amoxorD rd rs1 rs2 aq rl
  | .amoandD rd rs1 rs2 aq rl => .amoandD rd rs1 rs2 aq rl
  | .amoorD rd rs1 rs2 aq rl => .amoorD rd rs1 rs2 aq rl
  | .amominD rd rs1 rs2 aq rl => .amominD rd rs1 rs2 aq rl
  | .amomaxD rd rs1 rs2 aq rl => .amomaxD rd rs1 rs2 aq rl
  | .amominuD rd rs1 rs2 aq rl => .amominuD rd rs1 rs2 aq rl
  | .amomaxuD rd rs1 rs2 aq rl => .amomaxuD rd rs1 rs2 aq rl
  | .csrrw rd rs1 csr => .csrrw rd rs1 csr
  | .csrrs rd rs1 csr => .csrrs rd rs1 csr
  | .csrrc rd rs1 csr => .csrrc rd rs1 csr
  | .csrrwi rd uimm csr => .csrrwi rd uimm csr
  | .csrrsi rd uimm csr => .csrrsi rd uimm csr
  | .csrrci rd uimm csr => .csrrci rd uimm csr
  | .ecall => .ecall
  | .ebreak => .ebreak
  | .sret => .sret
  | .mret => .mret
  | .wfi => .wfi
  | .sfenceVma rs1 rs2 => .sfenceVma rs1 rs2
  | .fpMadd rd rs1 rs2 rm hi => .fpMadd rd rs1 rs2 rm hi
  | .fpMsub rd rs1 rs2 rm hi => .fpMsub rd rs1 rs2 rm hi
  | .fpNmsub rd rs1 rs2 rm hi => .fpNmsub rd rs1 rs2 rm hi
  | .fpNmadd rd rs1 rs2 rm hi => .fpNmadd rd rs1 rs2 rm hi
  | .fpOp rd rs1 rs2 rm hi => .fpOp rd rs1 rs2 rm hi
  | .cAddi4spn rd imm => .addi (creg rd) 2#5 (imm.setWidth 12)
  | .cFld rd rs1 imm => .fld (creg rd) (creg rs1) (imm.setWidth 12)
  | .cLw rd rs1 imm => .lw (creg rd) (creg rs1) (imm.setWidth 12)
  | .cFlw rd rs1 imm => .flw (creg rd) (creg rs1) (imm.setWidth 12)
  | .cLd rd rs1 imm => .ld (creg rd) (creg rs1) (imm.setWidth 12)
  | .cFsd rs1 rs2 imm => .fsd (creg rs1) (creg rs2) (imm.setWidth 12)
  | .cSw rs1 rs2 imm => .sw (creg rs1) (creg rs2) (imm.setWidth 12)
  | .cFsw rs1 rs2 imm => .fsw (creg rs1) (creg rs2) (imm.setWidth 12)
  | .cSd rs1 rs2 imm => .sd (creg rs1) (creg rs2) (imm.setWidth 12)
  | .cNop imm => .addi 0#5 0#5 (imm.signExtend 12)
  | .cAddi rd imm => .addi rd rd (imm.signExtend 12)
  | .cJal off => .jal 1#5 (off.signExtend 21)
  | .cAddiw rd imm => .addiw rd rd (imm.signExtend 12)
  | .cLi rd imm => .addi rd 0#5 (imm.signExtend 12)
  | .cAddi16sp imm => .addi 2#5 2#5 (imm.signExtend 12)
  | .cLui rd imm => .lui rd (imm.signExtend 20)
  | .cSrli rd shamt => .srli (creg rd) (creg rd) shamt
  | .cSrai rd shamt => .srai (creg rd) (creg rd) shamt
  | .cAndi rd imm => .andi (creg rd) (creg rd) (imm.signExtend 12)
  | .cSub rd rs2 => .sub (creg rd) (creg rd) (creg rs2)
  | .cXor rd rs2 => .xor (creg rd) (creg rd) (creg rs2)
  | .cOr rd rs2 => .or (creg rd) (creg rd) (creg rs2)
  | .cAnd rd rs2 => .and (creg rd) (creg rd) (creg rs2)
  | .cSubw rd rs2 => .subw (creg rd) (creg rd) (creg rs2)
  | .cAddw rd rs2 => .addw (creg rd) (creg rd) (creg rs2)
  | .cJ off => .jal 0#5 (off.signExtend 21)
  | .cBeqz rs1 off => .beq (creg rs1) 0#5 (off.signExtend 13)
  | .cBnez rs1 off => .bne (creg rs1) 0#5 (off.signExtend 13)
  | .cSlli rd shamt => .slli rd rd shamt
  | .cFldsp rd imm => .fld rd 2#5 (imm.setWidth 12)
  | .cLwsp rd imm => .lw rd 2#5 (imm.setWidth 12)
  | .cFlwsp rd imm => .flw rd 2#5 (imm.setWidth 12)
  | .cLdsp rd imm => .ld rd 2#5 (imm.setWidth 12)
  | .cJr rs1 => .jalr 0#5 rs1 0#12
  | .cMv rd rs2 => .add rd 0#5 rs2
  | .cEbreak => .ebreak
  | .cJalr rs1 => .jalr 1#5 rs1 0#12
  | .cAdd rd rs2 => .add rd rd rs2
  | .cFsdsp rs2 imm => .fsd 2#5 rs2 (imm.setWidth 12)
  | .cSwsp rs2 imm => .sw 2#5 rs2 (imm.setWidth 12)
  | .cFswsp rs2 imm => .fsw 2#5 rs2 (imm.setWidth 12)
  | .cSdsp rs2 imm => .sd 2#5 rs2 (imm.setWidth 12)

/-- expand(p, XLEN) of R640: the equivalent 32-bit word of a parcel, none where it is Illegal. It reads no state. -/
def decompress (x : Xlen) (p : BitVec 16) : Option (BitVec 32) :=
  (decode16 x p).map fun i => i.expand.bits

/-! ### The host's entry -/

/-- The four bytes, lowest address first, of the `nbits` bits `w` with every bit above them 0. -/
def tableBytes (nbits w : Nat) : List Byte :=
  let v := BitVec.ofNat 32 (w % 2 ^ nbits)
  [v.extractLsb 7 0, v.extractLsb 15 8, v.extractLsb 23 16, v.extractLsb 31 24]

/-- The mode a table word is read in, beginning with mode `x`: `x` itself, or the other where only it has the instruction
(log 17). -/
def tableMode (x : Xlen) (nbits w : Nat) : Xlen :=
  let other := match x with | .rv32 => Xlen.rv64 | .rv64 => Xlen.rv32
  match decodeBytes x (tableBytes nbits w), decodeBytes other (tableBytes nbits w) with
  | .error _, .ok _ => other
  | _, _ => x

/-- The instruction the decoder reads from the bits `w` of a row of spec/opcode_table.json: in the reset mode XLEN = 64, or
in XLEN = 32 where only that mode has it (log 17). -/
def decodeTableWord (nbits w : Nat) : Option Instr :=
  match decodeBytes (tableMode .rv64 nbits w) (tableBytes nbits w) with
  | .ok (i, _) => some i
  | .error _ => none

end Sys2Proof
end

