-- ==== Sys2Proof/Config.lean ====
section
/-! DEFINITION. What is fixed for the machine (spec/00_scope.md R12, spec/20_memory.md R202) and the values the spec leaves
free. A free value is an `opaque` constant: nothing can be proved of it but its type. -/

namespace Sys2Proof.Config

/-- DRAM_BASE (R12, R201). -/
def dramBase : Nat := 0x80000000
/-- The default of the parameter DRAM_SIZE, and the most it may be: 128 MiB (R12, 92_eei_decisions.md D7). -/
def dramSizeDefault : Nat := 0x08000000
/-- The device ranges of R202, base and size. -/
def clintBase : Nat := 0x02000000
def clintSize : Nat := 0x10000
def plicBase : Nat := 0x0C000000
def plicSize : Nat := 0x04000000
def uartBase : Nat := 0x10000000
def uartSize : Nat := 0x1000
def virtioBase : Nat := 0x10001000
def virtioSize : Nat := 0x1000
/-- IRQ ids (R12, R702). -/
def virtioIrqId : Nat := 1
def uartIrqId : Nat := 10
/-- PLIC_NSRC: source ids 1 to 53 (R12, R770). -/
def plicSources : Nat := 53
/-- VIRTIO_QUEUE_NUM_MAX (R12). -/
def queueNumMax : Nat := 8
/-- Sector size (R12). -/
def sectorSize : Nat := 512
/-- Page size (R242, R243). -/
def pageSize : Nat := 4096

/-- MTIMECMP_RESET: the reset value of `mtimecmp0`, a parameter of which a model may assume nothing (R851, log 3). -/
opaque mtimecmpReset : Word

/-- The choices one translation leaves to the MMU (R262, R263): which entries, by position, have been dropped before it;
which entry, by position, is used where it matches (none: the walk is performed); whether a successful walk adds an entry. -/
structure TlbDraw where
  drop : List Nat
  use  : Option Nat
  fill : Bool
  deriving DecidableEq, Repr, Inhabited

/-- The `n`-th TLB choice that State.tlbDraws does not hold: free (R262, 92_eei_decisions.md D13, log 4). -/
opaque tlbDraw : Nat → TlbDraw

/-- `align_up(a, 0)`: the used ring's address where QueueAlign is 0, of which R802 states no value (log 11). -/
opaque alignUpToZero : Nat → Nat

/-- How many requests one virtio tick may process before the model stops with `Fault.dmaEndless` (R806, log 10). -/
def requestFuel : Nat := 2 ^ 64

end Sys2Proof.Config
end

