-- ==== Sys2Proof/Machine/State.lean ====
section
/-! DEFINITION. The whole system state of spec/10_state.md R65 as plain data, and its reset value (R110, 70_reset_and_hazards.md R850). -/

namespace Sys2Proof.Machine

open Sys2Proof

/-- A privilege mode; encoding 2 is no mode of this hart (R60). -/
inductive Priv
  | U
  | S
  | M
  deriving DecidableEq, Repr

/-- Why a step ends with the outcome `FatalPlatformError` (00_scope.md R11, 60_exceptions.md R736). -/
inductive Fault
  /-- A 1- or 2-byte access to the CLINT, PLIC or virtio block (20_memory.md R212). Raised by a load or store. The spec's
  own outcome; safe. -/
  | mmioWidth
  /-- A DMA range not wholly inside DRAM (60_exceptions.md R807). Raised by the bus tick. The spec's own outcome; safe. -/
  | dmaRange
  /-- A descriptor index out of range, or a chain too long or too short (R807). Raised by the bus tick. The spec's own
  outcome; safe. -/
  | virtioChain
  /-- The request loop of R806 has not ended after `Config.requestFuel` requests. Raised by the bus tick. The model's own,
  where the hardware goes on without ending its step; safe (log 10). -/
  | dmaEndless
  deriving DecidableEq, Repr

/-- Why a step ends with the outcome `Refused` (00_scope.md R11). -/
inductive Refusal
  /-- An instruction without a meaning yet. No arm of `exec` uses it. Safe. -/
  | notModelled (mnemonic : String)
  /-- F/D arithmetic with `mstatus.FS` not 0 (30_encoding.md R343). Raised by the MADD, MSUB, NMSUB, NMADD and OP-FP words.
  The spec's own outcome; safe. -/
  | fpArith
  deriving DecidableEq, Repr

/-- The stored fields of `mstatus` (R70); what is read-only or reserved is not stored. `mpp` is a mode, since a write of 2 keeps
the old value. `fs` is 0 Off, 1 Initial, 2 Clean, 3 Dirty. -/
structure Mstatus where
  sie  : Bool
  mie  : Bool
  spie : Bool
  mpie : Bool
  spp  : Bool
  mpp  : Priv
  fs   : BitVec 2
  mprv : Bool
  sum  : Bool
  mxr  : Bool
  tvm  : Bool
  tw   : Bool
  tsr  : Bool
  deriving DecidableEq, Repr

/-- The CSRs that hold a value, but for `mstatus` and the counters (R74 to R89, R94). XLEN-bit registers are held in 64 bits. -/
structure Csrs where
  medeleg    : Word
  mideleg    : Word
  mie        : Word
  ssip       : Bool
  stip       : Bool
  seipSw     : Bool
  mtvec      : Word
  stvec      : Word
  mepc       : Word
  sepc       : Word
  mcause     : Word
  scause     : Word
  mtval      : Word
  stval      : Word
  mscratch   : Word
  sscratch   : Word
  satp       : Word
  mcounteren : BitVec 32
  scounteren : BitVec 32
  fcsr       : BitVec 8
  deriving DecidableEq, Repr

/-- The access width of an LR, SC or AMO: 4 or 8 bytes (R62). -/
inductive AtomicWidth
  | w
  | d
  deriving DecidableEq, Repr

/-- A valid reservation (R62). -/
structure Reservation where
  paddr : Word
  width : AtomicWidth
  deriving DecidableEq, Repr

/-- The bits of a leaf PTE that a translation checks (R242, R243). -/
structure PteFlags where
  r : Bool
  w : Bool
  x : Bool
  u : Bool
  g : Bool
  a : Bool
  d : Bool
  deriving DecidableEq, Repr

/-- A TLB entry (R260). `vpn` is the virtual address above the page of the leaf's `level`. -/
structure TlbEntry where
  vpn   : Nat
  asid  : Nat
  ppn   : Nat
  level : Nat
  flags : PteFlags
  valid : Bool
  deriving DecidableEq, Repr

/-- CLINT state (60_exceptions.md R760). -/
structure Clint where
  msip0     : Bool
  mtimecmp0 : Word
  mtime     : Word
  deriving DecidableEq, Repr

/-- PLIC state (R770). Source `s` is element `s` of `priority` and bit `s` of the bit vectors; context 0 is M, context 1 is S. -/
structure Plic where
  priority   : Vector (BitVec 3) 54
  pending    : BitVec 64
  claimed    : BitVec 64
  enable0    : BitVec 64
  enable1    : BitVec 64
  threshold0 : BitVec 3
  threshold1 : BitVec 3
  deriving DecidableEq, Repr

/-- UART state (R780). -/
structure Uart where
  rbr    : Byte
  dr     : Bool
  ier    : BitVec 4
  lcr    : Byte
  mcr    : BitVec 5
  scr    : Byte
  dll    : Byte
  dlm    : Byte
  threIp : Bool
  txBusy : Bool
  deriving DecidableEq, Repr

/-- Virtio block device registers (R800); the disk image is a field of `State`. -/
structure Virtio where
  hostFeaturesSel  : BitVec 32
  guestFeatures    : BitVec 32
  guestFeaturesSel : BitVec 32
  guestPageSize    : BitVec 32
  queueSel         : BitVec 32
  queueNum         : BitVec 32
  queueAlign       : BitVec 32
  queuePfn         : BitVec 32
  interruptStatus  : BitVec 32
  status           : BitVec 32
  lastAvail        : BitVec 16
  notify           : Bool
  deriving DecidableEq, Repr

/-- The state of the system (10_state.md R65). INVENTORY.md lists each field with its rule. -/
structure State where
  /-- The XLEN selector (R57). -/
  xlen     : Xlen
  /-- The parameter DRAM_SIZE (00_scope.md R12). -/
  dramSize : Nat
  /-- x0 to x31 (R50); element 0 is never read or written (R51). -/
  x        : Vector Word 32
  /-- f0 to f31 (R58). -/
  f        : Vector (BitVec 64) 32
  pc       : Word
  priv     : Priv
  mstatus  : Mstatus
  csr      : Csrs
  mcycle   : BitVec 64
  minstret : BitVec 64
  /-- The latched external lines eip[0] and eip[1] (R64). -/
  eip0     : Bool
  eip1     : Bool
  /-- The reservation, none where its valid bit is 0 (R62). -/
  resv     : Option Reservation
  tlb      : List TlbEntry
  /-- The TLB choices to come, and how many were drawn from `Config.tlbDraw`: the model's own fields (log 4). -/
  tlbDraws : List Config.TlbDraw
  tlbDrawn : Nat
  /-- DRAM by physical address, in the canonical form of `Memory.wf`; an unlisted byte is 0 (20_memory.md R201). -/
  dram     : List Host.Cell
  clint    : Clint
  plic     : Plic
  uart     : Uart
  virtio   : Virtio
  /-- The disk image, the parameter DISK (60_exceptions.md R800). -/
  disk     : List Byte
  /-- The answers of tty.get() to come (70_reset_and_hazards.md R858, log 7). -/
  ttyIn    : List (Option Byte)
  /-- The bytes given to tty.put(), oldest first (60_exceptions.md R782). -/
  ttyOut   : List Byte
  /-- The .tohost address, if a program supplied one (70_reset_and_hazards.md R852). -/
  tohost   : Option Word
  /-- The sticky outcome marks (10_state.md R65, 60_exceptions.md R700). -/
  fatal    : Option Fault
  refused  : Option Refusal
  deriving DecidableEq, Repr

/-- R110: all stored fields 0. -/
def Mstatus.reset : Mstatus :=
  { sie := false, mie := false, spie := false, mpie := false, spp := false, mpp := .U, fs := 0, mprv := false,
    sum := false, mxr := false, tvm := false, tw := false, tsr := false }

/-- R110. -/
def Csrs.reset : Csrs :=
  { medeleg := 0, mideleg := 0, mie := 0, ssip := false, stip := false, seipSw := false, mtvec := 0, stvec := 0,
    mepc := 0, sepc := 0, mcause := 0, scause := 0, mtval := 0, stval := 0, mscratch := 0, sscratch := 0, satp := 0,
    mcounteren := 0, scounteren := 0, fcsr := 0 }

/-- R760: `mtimecmp0` holds the parameter MTIMECMP_RESET (R851, log 3). -/
def Clint.reset : Clint := { msip0 := false, mtimecmp0 := Config.mtimecmpReset, mtime := 0 }

/-- R770: all zero. -/
def Plic.reset : Plic :=
  { priority := Vector.replicate 54 0, pending := 0, claimed := 0, enable0 := 0, enable1 := 0, threshold0 := 0,
    threshold1 := 0 }

/-- R780: all zero. -/
def Uart.reset : Uart :=
  { rbr := 0, dr := false, ier := 0, lcr := 0, mcr := 0, scr := 0, dll := 0, dlm := 0, threIp := false, txBusy := false }

/-- R800. -/
def Virtio.reset : Virtio :=
  { hostFeaturesSel := 0, guestFeatures := 0, guestFeaturesSel := 0, guestPageSize := 4096, queueSel := 0, queueNum := 0,
    queueAlign := 4096, queuePfn := 0, interruptStatus := 0, status := 0, lastAvail := 0, notify := false }

/-- The machine right after `reset()` with no program loaded and no disk image injected (R110, R850; the fields the spec
gives no value for are those of log 2, log 4, log 7 and log 14). -/
def State.reset : State :=
  { xlen := .rv64, dramSize := Config.dramSizeDefault, x := Vector.replicate 32 0, f := Vector.replicate 32 0,
    pc := BitVec.ofNat 64 Config.dramBase, priv := .M, mstatus := Mstatus.reset, csr := Csrs.reset, mcycle := 0,
    minstret := 0, eip0 := false, eip1 := false, resv := none, tlb := [], tlbDraws := [], tlbDrawn := 0, dram := [],
    clint := Clint.reset, plic := Plic.reset, uart := Uart.reset, virtio := Virtio.reset, disk := [], ttyIn := [],
    ttyOut := [], tohost := none, fatal := none, refused := none }

end Sys2Proof.Machine
end

