-- ==== Sys2Proof/Machine/Memory.lean ====
section
/-! DEFINITION. DRAM as a list of (physical address, byte) pairs in one canonical form, and little-endian access to it
(spec/20_memory.md R201, R205). -/

namespace Sys2Proof.Machine

abbrev Memory := List Host.Cell

/-- What a byte of DRAM that no cell lists reads as: DRAM is all zero at reset (R201). -/
def Memory.unlisted : Byte := 0

/-- One byte. -/
def Memory.read : Memory → Nat → Byte
  | [], _ => Memory.unlisted
  | (k, b) :: m, a => if k = a then b else Memory.read m a

/-- Put one byte, keeping addresses rising and listing no byte that equals `Memory.unlisted`. -/
def Memory.write : Memory → Nat → Byte → Memory
  | [], a, b => if b = Memory.unlisted then [] else [(a, b)]
  | (k, c) :: m, a, b =>
    if k < a then (k, c) :: Memory.write m a b
    else if k = a then (if b = Memory.unlisted then m else (a, b) :: m)
    else if b = Memory.unlisted then (k, c) :: m
    else (a, b) :: (k, c) :: m

/-- Every listed address is at least `lo`, the addresses rise strictly, and no listed byte is the unlisted one. -/
def Memory.wfFrom : Nat → Memory → Bool
  | _, [] => true
  | lo, (k, b) :: m => decide (lo ≤ k) && decide (b ≠ Memory.unlisted) && Memory.wfFrom (k + 1) m

/-- The canonical form. -/
def Memory.wf (m : Memory) : Bool := Memory.wfFrom 0 m

/-- The little-endian value of the `n` bytes at `a` (R205). -/
def Memory.readLE (m : Memory) (a : Nat) : Nat → Word
  | 0 => 0
  | n + 1 => (m.read a).setWidth 64 ||| (Memory.readLE m (a + 1) n <<< 8)

/-- Store the low `n` bytes of `v` at `a`, little-endian (R205). -/
def Memory.writeLE (m : Memory) (a : Nat) : Nat → Word → Memory
  | 0, _ => m
  | n + 1, v => Memory.writeLE (m.write a (v.setWidth 8)) (a + 1) n (v >>> 8)

/-- The `n` bytes at `a`, in address order. -/
def Memory.readBytes (m : Memory) (a : Nat) : Nat → List Byte
  | 0 => []
  | n + 1 => m.read a :: Memory.readBytes m (a + 1) n

/-- Store a list of bytes at `a`, in address order. -/
def Memory.writeBytes (m : Memory) (a : Nat) : List Byte → Memory
  | [] => m
  | b :: bs => Memory.writeBytes (m.write a b) (a + 1) bs

/-- One byte of DRAM by physical address. -/
def State.byteAt (s : State) (pa : Nat) : Byte := Memory.read s.dram pa

end Sys2Proof.Machine
end

