-- ==== Sys2Proof/Machine/Operands.lean ====
section
/-! DEFINITION. Operand forms: the register files, XLEN-bit values held in 64 bits, immediates, shift amounts and effective
addresses (spec/10_state.md R50 to R59, 30_encoding.md R320, R321, 42_loadstore.md R480). -/

namespace Sys2Proof.Machine

open Sys2Proof

/-! ### XLEN-bit values -/

/-- XLEN as a number (R57). -/
def xlenBits : Xlen → Nat
  | .rv32 => 32
  | .rv64 => 64

/-- The XLEN-bit value of a 64-bit one: its low XLEN bits, zero above (log 1). -/
def norm (x : Xlen) (v : Word) : Word :=
  match x with
  | .rv32 => (v.setWidth 32).setWidth 64
  | .rv64 => v

/-- sext_N to XLEN (R14). -/
def sextX (x : Xlen) {n : Nat} (v : BitVec n) : Word := norm x (v.signExtend 64)

/-- zext_N to XLEN (R14); every use has N at most XLEN. -/
def zextX (x : Xlen) {n : Nat} (v : BitVec n) : Word := norm x (v.setWidth 64)

/-- A width-generic binary operation at width XLEN. -/
def atXlen (x : Xlen) (f : (w : Nat) → BitVec w → BitVec w → BitVec w) (a b : Word) : Word :=
  match x with
  | .rv32 => (f 32 (a.setWidth 32) (b.setWidth 32)).setWidth 64
  | .rv64 => f 64 a b

/-- A width-generic relation at width XLEN. -/
def testXlen (x : Xlen) (f : (w : Nat) → BitVec w → BitVec w → Bool) (a b : Word) : Bool :=
  match x with
  | .rv32 => f 32 (a.setWidth 32) (b.setWidth 32)
  | .rv64 => f 64 a b

/-- A binary operation of a W form: on the low 32 bits, the 32-bit result sign-extended to 64 (R401). -/
def atWord (f : (w : Nat) → BitVec w → BitVec w → BitVec w) (a b : Word) : Word :=
  (f 32 (a.setWidth 32) (b.setWidth 32)).signExtend 64

/-- The shift amount of a register shift: its low 5 bits at 32-bit width, 6 at 64 (R415, R431). -/
def shiftAmount (w : Nat) (v : BitVec w) : Nat := v.toNat % w

/-! ### The register files -/

/-- `x[i]`: x0 reads 0 (R15, R51). -/
def State.readX (s : State) (r : Reg) : Word := if r = 0#5 then 0 else norm s.xlen (s.x[r.toNat]'(r.isLt))

/-- `x[i] <- v`: a write to x0 is discarded (R15, R51). -/
def State.writeX (s : State) (r : Reg) (v : Word) : State :=
  if r = 0#5 then s else { s with x := s.x.set r.toNat (norm s.xlen v) r.isLt }

/-- `f[i]` (R58). -/
def State.readF (s : State) (r : Reg) : BitVec 64 := s.f[r.toNat]'(r.isLt)

/-- `f[i] <- v` (R58). -/
def State.writeF (s : State) (r : Reg) (v : BitVec 64) : State := { s with f := s.f.set r.toNat v r.isLt }

/-- A 32-bit value NaN-boxed (R58). -/
def nanBox (v : BitVec 32) : BitVec 64 := 0xFFFFFFFF#32 ++ v

/-! ### Immediates and addresses -/

/-- immU: bits 31:12, sign-extended from bit 31 to XLEN (R320). -/
def upperImm (x : Xlen) (imm : BitVec 20) : Word := sextX x (imm ++ 0#12)

/-- The effective address of a load or store (R480). -/
def State.ea (s : State) (rs1 : Reg) (imm : BitVec 12) : Word := norm s.xlen (s.readX rs1 + imm.signExtend 64)

/-- A pc-relative target, modulo 2^XLEN (R460). -/
def State.pcPlus (s : State) {n : Nat} (off : BitVec n) : Word := norm s.xlen (s.pc + off.signExtend 64)

/-- `npc`: the address of the sequentially next instruction (R303, R56). -/
def State.npc (s : State) (i : Instr) : Word := norm s.xlen (s.pc + BitVec.ofNat 64 i.length)

end Sys2Proof.Machine
end

