-- ==== Sys2Proof/Machine/Flags.lean ====
section
/-! DEFINITION. The status register and its fields. RISC-V has no condition codes (spec/10_state.md R61): the flag-like state is
`mstatus`, its view `sstatus`, the FS field and `fcsr` (R70 to R72, R94). -/

namespace Sys2Proof.Machine

open Sys2Proof

/-- The encoding of a mode: U 0, S 1, M 3 (R60). -/
def Priv.code : Priv → Nat
  | .U => 0
  | .S => 1
  | .M => 3

/-- A flag at bit `i` of a register. -/
def flagBit (b : Bool) (i : Nat) : Word := (BitVec.ofBool b).setWidth 64 <<< i

/-- A field of a register at bit `i`. -/
def fieldBits {n : Nat} (v : BitVec n) (i : Nat) : Word := v.setWidth 64 <<< i

/-- The read value of `mstatus` (R70): UXL = SXL = 2 when XLEN = 64, and SD, the top bit, is 1 iff FS = 3. -/
def mstatusRead (x : Xlen) (m : Mstatus) : Word :=
  flagBit m.sie 1 ||| flagBit m.mie 3 ||| flagBit m.spie 5 ||| flagBit m.mpie 7 ||| flagBit m.spp 8
    ||| (BitVec.ofNat 64 m.mpp.code <<< 11) ||| fieldBits m.fs 13 ||| flagBit m.mprv 17 ||| flagBit m.sum 18
    ||| flagBit m.mxr 19 ||| flagBit m.tvm 20 ||| flagBit m.tw 21 ||| flagBit m.tsr 22
    ||| flagBit (decide (m.fs = 3)) (xlenBits x - 1)
    ||| (match x with | .rv32 => 0 | .rv64 => 0x0000000A00000000#64)

/-- The legalised MPP of a written field: 2 leaves the field unchanged (R70). -/
def mppWrite (old : Priv) (v : BitVec 2) : Priv :=
  if v = 0b00#2 then .U else if v = 0b01#2 then .S else if v = 0b11#2 then .M else old

/-- A write of `v` to `mstatus` (R70). -/
def mstatusWrite (m : Mstatus) (v : Word) : Mstatus :=
  { sie := v.getLsbD 1, mie := v.getLsbD 3, spie := v.getLsbD 5, mpie := v.getLsbD 7, spp := v.getLsbD 8,
    mpp := mppWrite m.mpp (v.extractLsb 12 11), fs := v.extractLsb 14 13, mprv := v.getLsbD 17, sum := v.getLsbD 18,
    mxr := v.getLsbD 19, tvm := v.getLsbD 20, tw := v.getLsbD 21, tsr := v.getLsbD 22 }

/-- SSTATUS_R (R72). -/
def sstatusMask : Xlen → Word
  | .rv32 => 0x00000000800DE122#64
  | .rv64 => 0x80000003000DE122#64

/-- The read value of `sstatus`, a view of `mstatus` (R72). -/
def sstatusRead (x : Xlen) (m : Mstatus) : Word := mstatusRead x m &&& sstatusMask x

/-- A write of `v` to `sstatus`: SIE, SPIE, SPP, FS, SUM and MXR take its bits, nothing else changes (R72). -/
def sstatusWrite (m : Mstatus) (v : Word) : Mstatus :=
  { m with sie := v.getLsbD 1, spie := v.getLsbD 5, spp := v.getLsbD 8, fs := v.extractLsb 14 13, sum := v.getLsbD 18,
           mxr := v.getLsbD 19 }

/-- FS is Off: every floating-point load, store and CSR access is illegal (R71). -/
def Mstatus.fsOff (m : Mstatus) : Bool := decide (m.fs = 0)

/-- FS becomes Dirty (R71). -/
def State.setFsDirty (s : State) : State := { s with mstatus := { s.mstatus with fs := 3 } }

/-- frm, `fcsr[7:5]` (R94). -/
def frmOf (fcsr : BitVec 8) : BitVec 3 := fcsr.extractLsb 7 5

/-- fflags, `fcsr[4:0]` (R94). -/
def fflagsOf (fcsr : BitVec 8) : BitVec 5 := fcsr.extractLsb 4 0

end Sys2Proof.Machine
end

