-- ==== Sys2Proof/Machine/Ops.lean ====
section
/-! DEFINITION. The shared operations of a step: causes, the result of an operation that may trap, taking a trap, returning
from one, retirement with its counters, the reservation and the TTY (spec/60_exceptions.md sections 1 to 6). -/

namespace Sys2Proof.Machine

open Sys2Proof

/-! ### Causes (R720) -/

/-- The synchronous exceptions this hardware raises. Code 0 is never raised (R720, 10_state.md R55). -/
inductive Exc
  | instrAccess
  | illegalInstr
  | breakpoint
  | loadMisaligned
  | loadAccess
  | storeMisaligned
  | storeAccess
  | ecallU
  | ecallS
  | ecallM
  | instrPage
  | loadPage
  | storePage
  deriving DecidableEq, Repr

/-- The interrupts (R720). -/
inductive Irq
  | ssi
  | msi
  | sti
  | mti
  | sei
  | mei
  deriving DecidableEq, Repr

/-- Exception code (R720). -/
def Exc.code : Exc → Nat
  | .instrAccess => 1
  | .illegalInstr => 2
  | .breakpoint => 3
  | .loadMisaligned => 4
  | .loadAccess => 5
  | .storeMisaligned => 6
  | .storeAccess => 7
  | .ecallU => 8
  | .ecallS => 9
  | .ecallM => 11
  | .instrPage => 12
  | .loadPage => 13
  | .storePage => 15

/-- Interrupt code (R720). -/
def Irq.code : Irq → Nat
  | .ssi => 1
  | .msi => 3
  | .sti => 5
  | .mti => 7
  | .sei => 9
  | .mei => 11

/-- What a trap is taken for. -/
inductive Cause
  | exception (e : Exc)
  | interrupt (i : Irq)
  deriving DecidableEq, Repr

/-- The exception-code field of `xcause` (R730). -/
def Cause.code : Cause → Nat
  | .exception e => e.code
  | .interrupt i => i.code

def Cause.isInterrupt : Cause → Bool
  | .exception _ => false
  | .interrupt _ => true

/-! ### Trap entry and return -/

/-- Whether the trap is taken in S: an exception raised below M whose `medeleg` bit is set (R731), or an interrupt whose
`mideleg` bit is set (R741). -/
def State.trapsToS (s : State) : Cause → Bool
  | .exception e => decide (s.priv ≠ .M) && s.csr.medeleg.getLsbD e.code
  | .interrupt i => s.csr.mideleg.getLsbD i.code

/-- `interrupt << (XLEN-1) | code` (R730). -/
def causeValue (x : Xlen) (c : Cause) : Word :=
  flagBit c.isInterrupt (xlenBits x - 1) ||| BitVec.ofNat 64 c.code

/-- TrapVector (R733). -/
def trapVector (x : Xlen) (tvec : Word) (c : Cause) : Word :=
  if c.isInterrupt && tvec.getLsbD 0 then norm x ((tvec &&& ~~~3#64) + BitVec.ofNat 64 (4 * c.code))
  else tvec &&& ~~~3#64

/-- TakeTrap(interrupt, code, tval): the one trap entry of the machine (R730). -/
def takeTrap (c : Cause) (tval : Word) (s : State) : State :=
  let epc := s.pc &&& ~~~1#64
  if s.trapsToS c then
    { s with
      csr := { s.csr with scause := causeValue s.xlen c, sepc := epc, stval := norm s.xlen tval }
      mstatus := { s.mstatus with spp := decide (s.priv = .S), spie := s.mstatus.sie, sie := false }
      priv := .S
      pc := trapVector s.xlen s.csr.stvec c }
  else
    { s with
      csr := { s.csr with mcause := causeValue s.xlen c, mepc := epc, mtval := norm s.xlen tval }
      mstatus := { s.mstatus with mpp := s.priv, mpie := s.mstatus.mie, mie := false }
      priv := .M
      pc := trapVector s.xlen s.csr.mtvec c }

/-- The state changes of MRET but for its retirement: mode, MIE, MPIE, MPP and pc (R614). -/
def returnFromM (s : State) : State :=
  { s with
    priv := s.mstatus.mpp
    mstatus := { s.mstatus with mie := s.mstatus.mpie, mpie := true, mpp := .U }
    pc := s.csr.mepc }

/-- The state changes of SRET but for its retirement: mode, SIE, SPIE, SPP and pc (R615). -/
def returnFromS (s : State) : State :=
  { s with
    priv := if s.mstatus.spp then .S else .U
    mstatus := { s.mstatus with sie := s.mstatus.spie, spie := true, spp := false }
    pc := s.csr.sepc }

/-! ### Counters and retirement (R705, R750) -/

/-- The counter update of a step that retires nothing: `mcycle` alone (R750). -/
def State.countCycle (s : State) : State := { s with mcycle := s.mcycle + 1 }

/-- The counter update of a step whose instruction retires without writing a counter (R750). -/
def State.countRetired (s : State) : State := { s with mcycle := s.mcycle + 1, minstret := s.minstret + 1 }

/-- The instruction retires and the next one is at `t`. -/
def State.retireAt (s : State) (t : Word) : State := ({ s with pc := norm s.xlen t }).countRetired

/-- The instruction `i` retires and `pc <- npc` (R303). -/
def State.retire (s : State) (i : Instr) : State := s.retireAt (s.npc i)

/-- A trap as a whole step of the hart: trap entry and the cycle count (R700). -/
def trapStep (c : Cause) (tval : Word) (s : State) : State := (takeTrap c tval s).countCycle

/-! ### Operations that may trap -/

/-- The result of an operation of the hart: a value and a state, a raised exception with its trap value and the state it
leaves (page-table write-backs stay done, 20_memory.md R235), or a fatal outcome. -/
inductive Res (α : Type)
  | ok (a : α) (s : State)
  | trap (e : Exc) (tval : Word) (s : State)
  | fatal (f : Fault)

/-- Go on with the value and the state of a success. -/
def Res.bind {α β : Type} (r : Res α) (k : α → State → Res β) : Res β :=
  match r with
  | .ok a s => k a s
  | .trap e t s => .trap e t s
  | .fatal f => .fatal f

/-- The same result, a raised exception with the trap value `f` gives. -/
def Res.mapTval {α : Type} (r : Res α) (f : Exc → Word → Word) : Res α :=
  match r with
  | .ok a s => .ok a s
  | .trap e t s => .trap e (f e t) s
  | .fatal f => .fatal f

/-- The state an operation left; a fatal outcome names none, and `s` stands for it. -/
def Res.stateOr {α : Type} (r : Res α) (s : State) : State :=
  match r with
  | .ok _ t => t
  | .trap _ _ t => t
  | .fatal _ => s

/-- The outcome of an instruction from the result of its last operation: `k` completes it (R17, R700). -/
def Res.complete {α : Type} (r : Res α) (k : α → State → State) : Host.Outcome State Fault Refusal :=
  match r with
  | .ok a s => .next (k a s)
  | .trap e t s => .next (trapStep (.exception e) t s)
  | .fatal f => .fault f

/-- `raise E(tval)` (R17). -/
def raise (e : Exc) (tval : Word) (s : State) : Host.Outcome State Fault Refusal :=
  .next (trapStep (.exception e) tval s)

/-- Illegal instruction with the instruction's bits as trap value (R340, R341, R722). -/
def raiseIllegal (i : Instr) (s : State) : Host.Outcome State Fault Refusal :=
  raise .illegalInstr (i.bits.setWidth 64) s

/-- Run `k` in the mode the instruction exists in; in the other its bits raise illegal instruction (R340, R401, log 16). -/
def inMode (x : Xlen) (i : Instr) (s : State) (k : Host.Outcome State Fault Refusal) : Host.Outcome State Fault Refusal :=
  if s.xlen = x then k else raiseIllegal i s

/-! ### Reservation and TTY -/

/-- `resv.valid <- 0` (R540). -/
def State.dropResv (s : State) : State := { s with resv := none }

/-- tty.put(b) (R782). -/
def State.ttyPut (s : State) (b : Byte) : State := { s with ttyOut := s.ttyOut ++ [b] }

/-- tty.get(): the next answer; a TTY with no answer left answers none (R786, R858, log 7). -/
def State.ttyGet (s : State) : Option Byte × State :=
  match s.ttyIn with
  | [] => (none, s)
  | a :: rest => (a, { s with ttyIn := rest })

end Sys2Proof.Machine
end

