-- ==== Sys2Proof/Machine/Clint.lean ====
section
/-! DEFINITION. The CLINT: software-interrupt latch and timer (spec/60_exceptions.md R760 to R764). -/

namespace Sys2Proof.Machine

open Sys2Proof

/-- The low or high half of a 64-bit register replaced (R762, R90). -/
def setLow32 (old : BitVec 64) (v : BitVec 32) : BitVec 64 := old.extractLsb 63 32 ++ v
def setHigh32 (old : BitVec 64) (v : BitVec 32) : BitVec 64 := v ++ old.extractLsb 31 0

/-- A 32-bit read at an offset (R763). -/
def Clint.read (c : Clint) (off : Nat) : BitVec 32 :=
  if off = 0x0000 then (BitVec.ofBool c.msip0).setWidth 32
  else if off = 0x4000 then c.mtimecmp0.extractLsb 31 0
  else if off = 0x4004 then c.mtimecmp0.extractLsb 63 32
  else if off = 0xBFF8 then c.mtime.extractLsb 31 0
  else if off = 0xBFFC then c.mtime.extractLsb 63 32
  else 0

/-- A 32-bit write at an offset (R761 to R763). -/
def Clint.write (c : Clint) (off : Nat) (v : BitVec 32) : Clint :=
  if off = 0x0000 then { c with msip0 := v.getLsbD 0 }
  else if off = 0x4000 then { c with mtimecmp0 := setLow32 c.mtimecmp0 v }
  else if off = 0x4004 then { c with mtimecmp0 := setHigh32 c.mtimecmp0 v }
  else if off = 0xBFF8 then { c with mtime := setLow32 c.mtime v }
  else if off = 0xBFFC then { c with mtime := setHigh32 c.mtime v }
  else c

/-- clint.tick() (R762). -/
def Clint.tick (c : Clint) : Clint := { c with mtime := c.mtime + 1 }

/-- The timer predicate `mtime ≥ mtimecmp0`, unsigned (R762). -/
def Clint.timerPending (c : Clint) : Bool := c.mtimecmp0.ule c.mtime

end Sys2Proof.Machine
end

