-- ==== Sys2Proof/Machine/Csr.lean ====
section
/-! DEFINITION. The CSR file: which numbers exist, who may access them, read values and legalised writes (spec/10_state.md
R66 to R95, 45_csr.md R580 to R585), and the choice of an interrupt, which reads `mip` and `mie` (60_exceptions.md R740 to R742). -/

namespace Sys2Proof.Machine

open Sys2Proof

/-- The implemented CSRs (R68). `hpm` stands for the performance-monitoring ones, `mcountinhibit` among them (R92), and `pmp` for
`pmpcfg` and `pmpaddr` (R93): all of them read 0 and ignore writes. -/
inductive CsrReg
  | fflags
  | frm
  | fcsr
  | cycle
  | time
  | instret
  | cycleh
  | timeh
  | instreth
  | hpm
  | sstatus
  | sie
  | stvec
  | scounteren
  | sscratch
  | sepc
  | scause
  | stval
  | sip
  | satp
  | mvendorid
  | marchid
  | mimpid
  | mhartid
  | mstatus
  | misa
  | medeleg
  | mideleg
  | mie
  | mtvec
  | mcounteren
  | mscratch
  | mepc
  | mcause
  | mtval
  | mip
  | pmp
  | mcycle
  | minstret
  | mcycleh
  | minstreth
  deriving DecidableEq, Repr

/-- The CSRs of both modes but for those of whole ranges (R68). -/
def csrFixed : Nat → Option CsrReg
  | 0x001 => some .fflags
  | 0x002 => some .frm
  | 0x003 => some .fcsr
  | 0x100 => some .sstatus
  | 0x104 => some .sie
  | 0x105 => some .stvec
  | 0x106 => some .scounteren
  | 0x140 => some .sscratch
  | 0x141 => some .sepc
  | 0x142 => some .scause
  | 0x143 => some .stval
  | 0x144 => some .sip
  | 0x180 => some .satp
  | 0x300 => some .mstatus
  | 0x301 => some .misa
  | 0x302 => some .medeleg
  | 0x303 => some .mideleg
  | 0x304 => some .mie
  | 0x305 => some .mtvec
  | 0x306 => some .mcounteren
  | 0x320 => some .hpm
  | 0x340 => some .mscratch
  | 0x341 => some .mepc
  | 0x342 => some .mcause
  | 0x343 => some .mtval
  | 0x344 => some .mip
  | 0x3A0 => some .pmp
  | 0x3A2 => some .pmp
  | 0xB00 => some .mcycle
  | 0xB02 => some .minstret
  | 0xC00 => some .cycle
  | 0xC01 => some .time
  | 0xC02 => some .instret
  | 0xF11 => some .mvendorid
  | 0xF12 => some .marchid
  | 0xF13 => some .mimpid
  | 0xF14 => some .mhartid
  | _ => none

/-- The CSRs that exist only when XLEN = 32 but for the high halves of the hpm counters (R68). -/
def csrFixed32 : Nat → Option CsrReg
  | 0x3A1 => some .pmp
  | 0x3A3 => some .pmp
  | 0xB80 => some .mcycleh
  | 0xB82 => some .minstreth
  | 0xC80 => some .cycleh
  | 0xC81 => some .timeh
  | 0xC82 => some .instreth
  | _ => none

/-- The ranges of CSRs that read 0 (R68, R92, R93). -/
def csrRanges (x : Xlen) (n : Nat) : Option CsrReg :=
  if 0x323 ≤ n ∧ n ≤ 0x33F then some .hpm
  else if 0x3B0 ≤ n ∧ n ≤ 0x3BF then some .pmp
  else if 0xB03 ≤ n ∧ n ≤ 0xB1F then some .hpm
  else if 0xC03 ≤ n ∧ n ≤ 0xC1F then some .hpm
  else if x = .rv32 ∧ 0xB83 ≤ n ∧ n ≤ 0xB9F then some .hpm
  else if x = .rv32 ∧ 0xC83 ≤ n ∧ n ≤ 0xC9F then some .hpm
  else none

/-- The register a CSR number names in mode `x`; none where it is unimplemented (R68). -/
def csrReg (x : Xlen) (c : BitVec 12) : Option CsrReg :=
  (csrFixed c.toNat).orElse fun _ =>
    ((if x = .rv32 then csrFixed32 c.toNat else none).orElse fun _ => csrRanges x c.toNat)

/-! ### Access rules (R66, R580, R581) -/

/-- `cycle` to `hpmcounter31` and their high halves (R580 item 6). -/
def isUserCounter (c : BitVec 12) : Bool :=
  decide (0xC00 ≤ c.toNat ∧ c.toNat ≤ 0xC1F) || decide (0xC80 ≤ c.toNat ∧ c.toNat ≤ 0xC9F)

/-- `fflags`, `frm`, `fcsr` (R580 item 5). -/
def isFpCsr (c : BitVec 12) : Bool := decide (1 ≤ c.toNat ∧ c.toNat ≤ 3)

/-- The counter enables admit the counter of index `c[4:0]` (R581). -/
def State.counterEnabled (s : State) (c : BitVec 12) : Bool :=
  let i := (c.extractLsb 4 0).toNat
  match s.priv with
  | .M => true
  | .S => s.csr.mcounteren.getLsbD i
  | .U => s.csr.mcounteren.getLsbD i && s.csr.scounteren.getLsbD i

/-- None of items 2 to 6 of R580 holds for an access that writes iff `writes`. -/
def State.csrAllowed (s : State) (c : BitVec 12) (writes : Bool) : Bool :=
  decide ((c.extractLsb 9 8).toNat ≤ s.priv.code)
    && !(writes && decide (c.extractLsb 11 10 = 3))
    && !(decide (c = 0x180#12) && decide (s.priv = .S) && s.mstatus.tvm)
    && !(isFpCsr c && s.mstatus.fsOff)
    && (!isUserCounter c || s.counterEnabled c)

/-! ### Interrupt pending bits (R77, R740) -/

/-- The pending bit of an interrupt in `mip` (R77). -/
def State.irqPending (s : State) : Irq → Bool
  | .ssi => s.csr.ssip
  | .msi => s.clint.msip0
  | .sti => s.csr.stip
  | .mti => s.clint.timerPending
  | .sei => s.csr.seipSw || s.eip1
  | .mei => s.eip0

/-- The read value of `mip` (R77). -/
def State.mipRead (s : State) : Word :=
  flagBit (s.irqPending .ssi) 1 ||| flagBit (s.irqPending .msi) 3 ||| flagBit (s.irqPending .sti) 5
    ||| flagBit (s.irqPending .mti) 7 ||| flagBit (s.irqPending .sei) 9 ||| flagBit (s.irqPending .mei) 11

/-! ### Read values (R69 to R95) -/

/-- The read value of `misa` (R73). -/
def misaRead : Xlen → Word
  | .rv32 => 0x4014112D#64
  | .rv64 => 0x800000000014112D#64

/-- The low or high half of a counter in RV32, the whole in RV64 (R90, R91). -/
def counterLow (x : Xlen) (v : BitVec 64) : Word := norm x v
def counterHigh (v : BitVec 64) : Word := v >>> 32

/-- csr_read (R69). -/
def State.csrRead (s : State) : CsrReg → Word
  | .fflags => (fflagsOf s.csr.fcsr).setWidth 64
  | .frm => (frmOf s.csr.fcsr).setWidth 64
  | .fcsr => s.csr.fcsr.setWidth 64
  | .cycle => counterLow s.xlen s.mcycle
  | .time => counterLow s.xlen s.clint.mtime
  | .instret => counterLow s.xlen s.minstret
  | .cycleh => counterHigh s.mcycle
  | .timeh => counterHigh s.clint.mtime
  | .instreth => counterHigh s.minstret
  | .hpm => 0
  | .sstatus => sstatusRead s.xlen s.mstatus
  | .sie => s.csr.mie &&& s.csr.mideleg
  | .stvec => s.csr.stvec
  | .scounteren => s.csr.scounteren.setWidth 64
  | .sscratch => s.csr.sscratch
  | .sepc => s.csr.sepc
  | .scause => s.csr.scause
  | .stval => s.csr.stval
  | .sip => s.mipRead &&& s.csr.mideleg
  | .satp => s.csr.satp
  | .mvendorid => 0
  | .marchid => 0
  | .mimpid => 0
  | .mhartid => 0
  | .mstatus => mstatusRead s.xlen s.mstatus
  | .misa => misaRead s.xlen
  | .medeleg => s.csr.medeleg
  | .mideleg => s.csr.mideleg
  | .mie => s.csr.mie
  | .mtvec => s.csr.mtvec
  | .mcounteren => s.csr.mcounteren.setWidth 64
  | .mscratch => s.csr.mscratch
  | .mepc => s.csr.mepc
  | .mcause => s.csr.mcause
  | .mtval => s.csr.mtval
  | .mip => s.mipRead
  | .pmp => 0
  | .mcycle => counterLow s.xlen s.mcycle
  | .minstret => counterLow s.xlen s.minstret
  | .mcycleh => counterHigh s.mcycle
  | .minstreth => counterHigh s.minstret

/-- t' of R591: the value a set or clear is applied to, with `seip_sw` in bit 9 of `mip` and `sip` (R78). -/
def State.csrOld (s : State) (r : CsrReg) : Word :=
  match r with
  | .mip => (s.csrRead .mip &&& ~~~0x200#64) ||| flagBit s.csr.seipSw 9
  | .sip => (s.csrRead .sip &&& ~~~0x200#64) ||| flagBit s.csr.seipSw 9
  | r => s.csrRead r

/-! ### Writes (R70 to R95) -/

/-- The masks of the writable bits (R74 to R76). -/
def medelegMask : Word := 0xB3FF#64
def midelegMask : Word := 0x222#64
def mieMask : Word := 0xAAA#64

/-- The write mask of `mtvec` and `stvec` (R81), and of `mepc` and `sepc` (R82). -/
def tvecMask : Word := ~~~2#64
def epcMask : Word := ~~~1#64

/-- A write of `satp`: ignored in RV64 with a MODE that is neither 0 nor 8 (R87). -/
def satpWrite (x : Xlen) (old v : Word) : Word :=
  match x with
  | .rv32 => norm .rv32 v
  | .rv64 => if v.extractLsb 63 60 = 0#4 || v.extractLsb 63 60 = 8#4 then v else old

/-- A write of a counter through its low CSR (R90). -/
def counterWrite (x : Xlen) (old : BitVec 64) (v : Word) : BitVec 64 :=
  match x with
  | .rv32 => setLow32 old (v.setWidth 32)
  | .rv64 => v

/-- A write of one of the CSRs that `Csrs` holds. -/
def State.setCsr (s : State) (f : Csrs → Csrs) : State := { s with csr := f s.csr }

/-- csr_write: the legalised value is stored (R69); a floating-point CSR makes FS Dirty (R583). -/
def State.csrWrite (s : State) (r : CsrReg) (v : Word) : State :=
  match r with
  | .fflags => (s.setCsr fun c => { c with fcsr := frmOf c.fcsr ++ v.extractLsb 4 0 }).setFsDirty
  | .frm => (s.setCsr fun c => { c with fcsr := v.extractLsb 2 0 ++ fflagsOf c.fcsr }).setFsDirty
  | .fcsr => (s.setCsr fun c => { c with fcsr := v.setWidth 8 }).setFsDirty
  | .cycle => s
  | .time => s
  | .instret => s
  | .cycleh => s
  | .timeh => s
  | .instreth => s
  | .hpm => s
  | .sstatus => { s with mstatus := sstatusWrite s.mstatus v }
  | .sie => s.setCsr fun c => { c with mie := (c.mie &&& ~~~c.mideleg) ||| (v &&& c.mideleg) }
  | .stvec => s.setCsr fun c => { c with stvec := norm s.xlen v &&& tvecMask }
  | .scounteren => s.setCsr fun c => { c with scounteren := v.setWidth 32 }
  | .sscratch => s.setCsr fun c => { c with sscratch := norm s.xlen v }
  | .sepc => s.setCsr fun c => { c with sepc := norm s.xlen v &&& epcMask }
  | .scause => s.setCsr fun c => { c with scause := norm s.xlen v }
  | .stval => s.setCsr fun c => { c with stval := norm s.xlen v }
  | .sip => if s.csr.mideleg.getLsbD 1 then s.setCsr fun c => { c with ssip := v.getLsbD 1 } else s
  | .satp => s.setCsr fun c => { c with satp := satpWrite s.xlen c.satp v }
  | .mvendorid => s
  | .marchid => s
  | .mimpid => s
  | .mhartid => s
  | .mstatus => { s with mstatus := mstatusWrite s.mstatus v }
  | .misa => s
  | .medeleg => s.setCsr fun c => { c with medeleg := v &&& medelegMask }
  | .mideleg => s.setCsr fun c => { c with mideleg := v &&& midelegMask }
  | .mie => s.setCsr fun c => { c with mie := v &&& mieMask }
  | .mtvec => s.setCsr fun c => { c with mtvec := norm s.xlen v &&& tvecMask }
  | .mcounteren => s.setCsr fun c => { c with mcounteren := v.setWidth 32 }
  | .mscratch => s.setCsr fun c => { c with mscratch := norm s.xlen v }
  | .mepc => s.setCsr fun c => { c with mepc := norm s.xlen v &&& epcMask }
  | .mcause => s.setCsr fun c => { c with mcause := norm s.xlen v }
  | .mtval => s.setCsr fun c => { c with mtval := norm s.xlen v }
  | .mip => s.setCsr fun c => { c with ssip := v.getLsbD 1, stip := v.getLsbD 5, seipSw := v.getLsbD 9 }
  | .pmp => s
  | .mcycle => { s with mcycle := counterWrite s.xlen s.mcycle v }
  | .minstret => { s with minstret := counterWrite s.xlen s.minstret v }
  | .mcycleh => { s with mcycle := setHigh32 s.mcycle (v.setWidth 32) }
  | .minstreth => { s with minstret := setHigh32 s.minstret (v.setWidth 32) }

/-! ### Retirement of a CSR instruction (R584, R750) -/

/-- The CSR written is `mcycle` or its high half. -/
def CsrReg.isCycle (r : CsrReg) : Bool := decide (r = .mcycle) || decide (r = .mcycleh)

/-- The CSR written is `minstret` or its high half. -/
def CsrReg.isInstret (r : CsrReg) : Bool := decide (r = .minstret) || decide (r = .minstreth)

/-- The instruction `i` retires having written `written`: a counter it wrote has no increment of its own this step. -/
def State.retireCsr (s : State) (i : Instr) (written : Option CsrReg) : State :=
  { s with
    pc := s.npc i
    mcycle := if written.any CsrReg.isCycle then s.mcycle else s.mcycle + 1
    minstret := if written.any CsrReg.isInstret then s.minstret else s.minstret + 1 }

/-- A CSR instruction: the access check, the read, the write of `f t'` if it is a write attempt, and rd (R580, R590 to R595). -/
def csrOp (i : Instr) (rd : Reg) (c : BitVec 12) (writes : Bool) (f : Word → Word) (s : State) :
    Host.Outcome State Fault Refusal :=
  match csrReg s.xlen c with
  | none => raiseIllegal i s
  | some r =>
    if s.csrAllowed c writes then
      let s1 := if writes then s.csrWrite r (f (s.csrOld r)) else s
      .next ((s1.writeX rd (s.csrRead r)).retireCsr i (if writes then some r else none))
    else raiseIllegal i s

/-! ### Selecting an interrupt (R741, R742) -/

/-- An interrupt code is takeable (R741). -/
def State.takeable (s : State) (i : Irq) : Bool :=
  if s.csr.mideleg.getLsbD i.code then decide (s.priv = .U) || (decide (s.priv = .S) && s.mstatus.sie)
  else decide (s.priv ≠ .M) || s.mstatus.mie

/-- The interrupt codes, lowest first. -/
def irqOrder : List Irq := [.ssi, .msi, .sti, .mti, .sei, .mei]

/-- SelectInterrupt(): the lowest-numbered code that is enabled, takeable and pending (R740 to R742). -/
def State.selectInterrupt (s : State) : Option Irq :=
  irqOrder.find? fun i => s.csr.mie.getLsbD i.code && s.takeable i && s.irqPending i

end Sys2Proof.Machine
end

