-- ==== Sys2Proof/Machine/Plic.lean ====
section
/-! DEFINITION. The PLIC: 53 sources, two contexts (spec/60_exceptions.md R770 to R777). -/

namespace Sys2Proof.Machine

open Sys2Proof

/-- A PLIC context: 0 is hart 0 M-mode, 1 is hart 0 S-mode (R770). -/
inductive Context
  | m
  | s
  deriving DecidableEq, Repr

/-- The bits of the sources 1 to 53 (R770). -/
def plicMask : BitVec 64 := 0x003FFFFFFFFFFFFE#64

/-- The source ids 1 to 53, lowest first. -/
def plicIds : List Nat := (List.range Config.plicSources).map (· + 1)

/-- The bit of source `s`. -/
def sourceBit (s : Nat) : BitVec 64 := 1#64 <<< s

def Plic.enable (p : Plic) : Context → BitVec 64
  | .m => p.enable0
  | .s => p.enable1

def Plic.threshold (p : Plic) : Context → BitVec 3
  | .m => p.threshold0
  | .s => p.threshold1

/-- `priority[s]`; 0 for an id that is no source. -/
def Plic.prio (p : Plic) (s : Nat) : Nat := if s = 0 then 0 else if h : s < 54 then (p.priority[s]'h).toNat else 0

/-- Source `s` is pending and enabled for the context. -/
def Plic.ready (p : Plic) (c : Context) (s : Nat) : Bool := p.pending.getLsbD s && (p.enable c).getLsbD s

/-- plic.out(c): some ready source has a priority above the threshold (R773). -/
def Plic.out (p : Plic) (c : Context) : Bool :=
  plicIds.any fun s => p.ready c s && decide ((p.threshold c).toNat < p.prio s)

/-- The source a claim returns: ready, of the highest priority, which is above 0, ties to the lowest id; 0 if none (R775). -/
def Plic.best (p : Plic) (c : Context) : Nat :=
  plicIds.foldl (fun b s => if p.ready c s && decide (p.prio b < p.prio s) then s else b) 0

/-- A claim (R775): the id, and the PLIC with that source claimed and no longer pending. -/
def Plic.claim (p : Plic) (c : Context) : Nat × Plic :=
  let s := p.best c
  if s = 0 then (0, p)
  else (s, { p with pending := p.pending &&& ~~~sourceBit s, claimed := p.claimed ||| sourceBit s })

/-- A completion of the id `s` (R776). -/
def Plic.complete (p : Plic) (c : Context) (s : Nat) : Plic :=
  if decide (1 ≤ s ∧ s ≤ Config.plicSources) && (p.enable c).getLsbD s && p.claimed.getLsbD s then
    { p with claimed := p.claimed &&& ~~~sourceBit s }
  else p

/-- The gateway of source `s` with its line asserted (R772). -/
def Plic.gateway (p : Plic) (s : Nat) : Plic :=
  if p.pending.getLsbD s || p.claimed.getLsbD s then p else { p with pending := p.pending ||| sourceBit s }

/-- plic.update(asserted) (R772). -/
def Plic.update (p : Plic) (asserted : List Nat) : Plic := asserted.foldl Plic.gateway p

/-- A 32-bit read at an offset (R771); the two claim registers claim. -/
def Plic.readReg (p : Plic) (off : Nat) : BitVec 32 × Plic :=
  if off < 0x1000 then (BitVec.ofNat 32 (p.prio (off / 4)), p)
  else if off = 0x001000 then (p.pending.extractLsb 31 0, p)
  else if off = 0x001004 then (p.pending.extractLsb 63 32, p)
  else if off = 0x002000 then (p.enable0.extractLsb 31 0, p)
  else if off = 0x002004 then (p.enable0.extractLsb 63 32, p)
  else if off = 0x002080 then (p.enable1.extractLsb 31 0, p)
  else if off = 0x002084 then (p.enable1.extractLsb 63 32, p)
  else if off = 0x200000 then (p.threshold0.setWidth 32, p)
  else if off = 0x200004 then (BitVec.ofNat 32 (p.claim .m).1, (p.claim .m).2)
  else if off = 0x201000 then (p.threshold1.setWidth 32, p)
  else if off = 0x201004 then (BitVec.ofNat 32 (p.claim .s).1, (p.claim .s).2)
  else (0, p)

/-- `priority[s] <- v` for a source id; ignored for source 0 and ids that are none (R771). -/
def Plic.setPriority (p : Plic) (s : Nat) (v : BitVec 3) : Plic :=
  if s = 0 then p else if h : s < 54 then { p with priority := p.priority.set s v h } else p

/-- A 32-bit write at an offset (R771, R776). -/
def Plic.writeReg (p : Plic) (off : Nat) (v : BitVec 32) : Plic :=
  if off < 0x1000 then p.setPriority (off / 4) (v.setWidth 3)
  else if off = 0x002000 then { p with enable0 := (p.enable0.extractLsb 63 32 ++ v) &&& plicMask }
  else if off = 0x002004 then { p with enable0 := (v ++ p.enable0.extractLsb 31 0) &&& plicMask }
  else if off = 0x002080 then { p with enable1 := (p.enable1.extractLsb 63 32 ++ v) &&& plicMask }
  else if off = 0x002084 then { p with enable1 := (v ++ p.enable1.extractLsb 31 0) &&& plicMask }
  else if off = 0x200000 then { p with threshold0 := v.setWidth 3 }
  else if off = 0x200004 then p.complete .m v.toNat
  else if off = 0x201000 then { p with threshold1 := v.setWidth 3 }
  else if off = 0x201004 then p.complete .s v.toNat
  else p

end Sys2Proof.Machine
end

