-- ==== Sys2Proof/Machine/Uart.lean ====
section
/-! DEFINITION. The UART, a 16550 subset (spec/60_exceptions.md R780 to R788). It acts on the whole state, since a transmit calls
the TTY. -/

namespace Sys2Proof.Machine

open Sys2Proof

/-- DLAB (R781). -/
def Uart.dlab (u : Uart) : Bool := u.lcr.getLsbD 7

/-- `ier[0] = 1 and dr = 1`: received data is available with its interrupt enabled (R783, R787). -/
def Uart.rxIrq (u : Uart) : Bool := u.ier.getLsbD 0 && u.dr

/-- `ier[1] = 1 and thre_ip = 1` (R783, R787). -/
def Uart.txIrq (u : Uart) : Bool := u.ier.getLsbD 1 && u.threIp

/-- The line of IRQ 10 (R787). -/
def Uart.irq (u : Uart) : Bool := u.rxIrq || u.txIrq

/-- LSR: `dr` in bit 0, THRE and TEMT always 1 (R781, R782). -/
def Uart.lsr (u : Uart) : Byte := 0x60#8 ||| (BitVec.ofBool u.dr).setWidth 8

/-- IIR (R783). -/
def Uart.iir (u : Uart) : Byte := if u.rxIrq then 0x04#8 else if u.txIrq then 0x02#8 else 0x01#8

/-- A byte read at an offset, with its side effect (R781, R783, R785). -/
def Uart.readReg (u : Uart) (off : Nat) : Byte × Uart :=
  if off = 0 then (if u.dlab then (u.dll, u) else (u.rbr, { u with dr := false }))
  else if off = 1 then (if u.dlab then (u.dlm, u) else (u.ier.setWidth 8, u))
  else if off = 2 then (u.iir, if !u.rxIrq && u.txIrq then { u with threIp := false } else u)
  else if off = 3 then (u.lcr, u)
  else if off = 4 then (u.mcr.setWidth 8, u)
  else if off = 5 then (u.lsr, u)
  else if off = 7 then (u.scr, u)
  else (0, u)

/-- A write to IER: enabling ETBEI makes the transmitter interrupt pending (R784). -/
def Uart.setIer (u : Uart) (v : Byte) : Uart :=
  { u with ier := v.setWidth 4, threIp := u.threIp || (!u.ier.getLsbD 1 && v.getLsbD 1) }

/-- A byte write at an offset, but for the transmit (R781). -/
def Uart.writeReg (u : Uart) (off : Nat) (v : Byte) : Uart :=
  if off = 0 then (if u.dlab then { u with dll := v } else { u with threIp := false, txBusy := true })
  else if off = 1 then (if u.dlab then { u with dlm := v } else u.setIer v)
  else if off = 3 then { u with lcr := v }
  else if off = 4 then { u with mcr := v.setWidth 5 }
  else if off = 7 then { u with scr := v }
  else u

/-- A byte read by the bus. -/
def State.uartRead (s : State) (off : Nat) : Byte × State :=
  ((s.uart.readReg off).1, { s with uart := (s.uart.readReg off).2 })

/-- A byte write by the bus: offset 0 with DLAB = 0 transmits (R782). -/
def State.uartWrite (s : State) (off : Nat) (v : Byte) : State :=
  let s' := { s with uart := s.uart.writeReg off v }
  if off = 0 && !s.uart.dlab then s'.ttyPut v else s'

/-- The byte of an answer enters the receiver (R786). -/
def Uart.receive (u : Uart) : Option Byte → Uart
  | none => u
  | some b => { u with rbr := b, dr := true }

/-- The written byte has left the transmitter (R786). -/
def Uart.sent (u : Uart) : Uart := if u.txBusy then { u with txBusy := false, threIp := true } else u

/-- uart.tick() (R786): the TTY is asked only while `dr = 0`. -/
def State.uartTick (s : State) : State :=
  let s1 := if s.uart.dr then s else { s.ttyGet.2 with uart := s.uart.receive s.ttyGet.1 }
  { s1 with uart := s1.uart.sent }

end Sys2Proof.Machine
end

