-- ==== Sys2Proof/Machine/Virtio.lean ====
section
/-! DEFINITION. The virtio block device: legacy MMIO registers, and the DMA engine of its tick (spec/60_exceptions.md R800 to R809). -/

namespace Sys2Proof.Machine

open Sys2Proof

/-! ### Registers (R801) -/

/-- Queue 0 is selected. -/
def Virtio.queueSelected (v : Virtio) : Bool := decide (v.queueSel = 0)

/-- The capacity in sectors (R801). -/
def diskCapacity (disk : List Byte) : BitVec 64 := BitVec.ofNat 64 (disk.length / Config.sectorSize)

/-- A 32-bit read at an offset (R801). -/
def Virtio.readReg (v : Virtio) (disk : List Byte) (off : Nat) : BitVec 32 :=
  if off = 0x000 then 0x74726976#32
  else if off = 0x004 then 1
  else if off = 0x008 then 2
  else if off = 0x00C then 0x554D4551#32
  else if off = 0x014 then v.hostFeaturesSel
  else if off = 0x020 then v.guestFeatures
  else if off = 0x024 then v.guestFeaturesSel
  else if off = 0x028 then v.guestPageSize
  else if off = 0x030 then v.queueSel
  else if off = 0x034 then (if v.queueSelected then BitVec.ofNat 32 Config.queueNumMax else 0)
  else if off = 0x038 then (if v.queueSelected then v.queueNum else 0)
  else if off = 0x03C then (if v.queueSelected then v.queueAlign else 0)
  else if off = 0x040 then (if v.queueSelected then v.queuePfn else 0)
  else if off = 0x060 then v.interruptStatus
  else if off = 0x070 then v.status
  else if off = 0x100 then (diskCapacity disk).extractLsb 31 0
  else if off = 0x104 then (diskCapacity disk).extractLsb 63 32
  else 0

/-- A 32-bit write at an offset (R801, R808). A write of QueuePFN with `queue_sel ≠ 0` leaves `last_avail` too, which R801 does
not say (DESIGN CHOICE, log 23). -/
def Virtio.writeReg (v : Virtio) (off : Nat) (d : BitVec 32) : Virtio :=
  if off = 0x014 then { v with hostFeaturesSel := d }
  else if off = 0x020 then { v with guestFeatures := d }
  else if off = 0x024 then { v with guestFeaturesSel := d }
  else if off = 0x028 then { v with guestPageSize := d }
  else if off = 0x030 then { v with queueSel := d }
  else if off = 0x038 then (if v.queueSelected then { v with queueNum := d } else v)
  else if off = 0x03C then (if v.queueSelected then { v with queueAlign := d } else v)
  else if off = 0x040 then (if v.queueSelected then { v with queuePfn := d, lastAvail := 0 } else v)
  else if off = 0x050 then (if d = 0 then { v with notify := true } else v)
  else if off = 0x064 then { v with interruptStatus := v.interruptStatus &&& ~~~d }
  else if off = 0x070 then (if d = 0 then Virtio.reset else { v with status := d })
  else v

/-- The line of IRQ 1 (R809). -/
def Virtio.irq (v : Virtio) : Bool := decide (v.interruptStatus ≠ 0)

/-! ### Queue layout (R802) -/

/-- Q, the physical base of the queue. -/
def Virtio.descBase (v : Virtio) : Nat := v.queuePfn.toNat * v.guestPageSize.toNat

/-- A, the available ring. -/
def Virtio.availBase (v : Virtio) : Nat := v.descBase + 16 * v.queueNum.toNat

/-- The least multiple of `a` that is at least `n`; where `a = 0` the spec states no value, and it is free (log 11). -/
def alignUp (n a : Nat) : Nat := if a = 0 then Config.alignUpToZero n else (n + a - 1) / a * a

/-- U, the used ring. -/
def Virtio.usedBase (v : Virtio) : Nat := alignUp (v.availBase + 2 * (3 + v.queueNum.toNat)) v.queueAlign.toNat

/-! ### DMA (R807) -/

/-- The result of DMA: a value, or the fatal reason with the state that the DMA before it left (R807). -/
abbrev Dma (α : Type) := Except (Fault × State) α

/-- The `n` bytes at `pa` are wholly inside DRAM (R201, R203). -/
def State.inDram (s : State) (pa n : Nat) : Bool :=
  decide (Config.dramBase ≤ pa) && decide (pa + n ≤ Config.dramBase + s.dramSize)

/-- A DMA read of `n ≤ 8` bytes as a little-endian number. -/
def State.dmaRead (s : State) (pa n : Nat) : Dma Nat :=
  if s.inDram pa n then .ok (Memory.readLE s.dram pa n).toNat else .error (.dmaRange, s)

/-- A DMA read of a buffer; an empty one reads nothing (log 9). -/
def State.dmaReadBytes (s : State) (pa n : Nat) : Dma (List Byte) :=
  if n = 0 then .ok []
  else if s.inDram pa n then .ok (Memory.readBytes s.dram pa n) else .error (.dmaRange, s)

/-- A DMA write of bytes; it invalidates the reservation (R540, R806). Of no bytes, nothing is written (log 9). -/
def State.dmaWriteBytes (s : State) (pa : Nat) (bs : List Byte) : Dma State :=
  if bs.length = 0 then .ok s
  else if s.inDram pa bs.length then .ok { s with dram := Memory.writeBytes s.dram pa bs, resv := none }
  else .error (.dmaRange, s)

/-- The little-endian bytes of a number. -/
def leBytes : Nat → Nat → List Byte
  | 0, _ => []
  | n + 1, v => BitVec.ofNat 8 v :: leBytes n (v / 256)

/-- A DMA write of an `n`-byte little-endian number. -/
def State.dmaWrite (s : State) (pa n v : Nat) : Dma State := s.dmaWriteBytes pa (leBytes n v)

/-! ### Requests (R803 to R805) -/

/-- A descriptor's buffer (R802). -/
structure Buffer where
  addr : Nat
  len  : Nat
  deriving DecidableEq, Repr

/-- The descriptor chain from index `j`, of at most `fuel` descriptors, oldest first (R803, R807). -/
def State.chain (s : State) : Nat → Nat → Dma (List Buffer)
  | 0, _ => .error (.virtioChain, s)
  | fuel + 1, j =>
    if s.virtio.queueNum.toNat ≤ j then .error (.virtioChain, s)
    else
      let d := s.virtio.descBase + 16 * j
      if s.inDram d 16 then
        let b := { addr := (Memory.readLE s.dram d 8).toNat, len := (Memory.readLE s.dram (d + 8) 4).toNat : Buffer }
        if (Memory.readLE s.dram (d + 12) 2).getLsbD 0 then
          match s.chain fuel (Memory.readLE s.dram (d + 14) 2).toNat with
          | .ok bs => .ok (b :: bs)
          | .error e => .error e
        else .ok [b]
      else .error (.dmaRange, s)

/-- The total length of the data buffers, L (R804). -/
def totalLen (bufs : List Buffer) : Nat := (bufs.map Buffer.len).sum

/-- Copy bytes into buffers in order (type IN, R804). -/
def State.scatter (s : State) (data : List Byte) : List Buffer → Dma State
  | [] => .ok s
  | b :: bs =>
    match s.dmaWriteBytes b.addr (data.take b.len) with
    | .ok s' => s'.scatter (data.drop b.len) bs
    | .error e => .error e

/-- `disk[off .. off + bytes) <- bytes` (R804). -/
def diskWrite (disk : List Byte) (off : Nat) (bs : List Byte) : List Byte :=
  disk.take off ++ bs ++ disk.drop (off + bs.length)

/-- Copy buffers in order into the disk from `off` on (type OUT, R804): a fatal case leaves on the disk what the buffers
before it held (R807). -/
def State.gather (s : State) (off : Nat) : List Buffer → Dma State
  | [] => .ok s
  | b :: bs =>
    match s.dmaReadBytes b.addr b.len with
    | .ok x => State.gather { s with disk := diskWrite s.disk off x } (off + b.len) bs
    | .error e => .error e

/-- The data phase of a request: the state, the status byte and the used length (R804). -/
def State.transfer (s : State) (kind sector : Nat) (data : List Buffer) : Dma (State × Byte × Nat) :=
  let off := sector * Config.sectorSize
  let len := totalLen data
  if kind = 0 then
    if off + len ≤ s.disk.length then
      match s.scatter ((s.disk.drop off).take len) data with
      | .ok s' => .ok (s', 0, len + 1)
      | .error e => .error e
    else .ok (s, 1, 1)
  else if kind = 1 then
    if off + len ≤ s.disk.length then
      match s.gather off data with
      | .ok s' => .ok (s', 0, 1)
      | .error e => .error e
    else .ok (s, 1, 1)
  else .ok (s, 2, 1)

/-- Execute the chain headed by `h`: header, data, status byte (R803, R804); the used length with the state. -/
def State.request (s : State) (h : Nat) : Dma (State × Nat) :=
  match s.chain s.virtio.queueNum.toNat h with
  | .error e => .error e
  | .ok (head :: b :: bs) =>
    if s.inDram head.addr 16 then
      let kind := (Memory.readLE s.dram head.addr 4).toNat
      let sector := (Memory.readLE s.dram (head.addr + 8) 8).toNat
      match s.transfer kind sector (b :: bs).dropLast with
      | .error e => .error e
      | .ok (s', status, used) =>
        match s'.dmaWriteBytes ((b :: bs).getLast (by simp)).addr [status] with
        | .error e => .error e
        | .ok s'' => .ok (s'', used)
    else .error (.dmaRange, s)
  | .ok _ => .error (.virtioChain, s)

/-- The used-ring update for head `h` and used length `n` (R805). -/
def State.usedUpdate (s : State) (h n : Nat) : Dma State :=
  let u := s.virtio.usedBase
  match s.dmaRead (u + 2) 2 with
  | .error e => .error e
  | .ok idx =>
    let k := idx % s.virtio.queueNum.toNat
    match s.dmaWriteBytes (u + 4 + 8 * k) (leBytes 4 h ++ leBytes 4 n) with
    | .error e => .error e
    | .ok s1 =>
      match s1.dmaWrite (u + 2) 2 (idx + 1) with
      | .error e => .error e
      | .ok s2 =>
        .ok { s2 with virtio := { s2.virtio with interruptStatus := s2.virtio.interruptStatus ||| 1 } }

/-- The request loop of R806, of at most `fuel` requests (log 10). -/
def State.serve : Nat → State → Dma State
  | 0, s => .error (.dmaEndless, s)
  | fuel + 1, s =>
    match s.dmaRead (s.virtio.availBase + 2) 2 with
    | .error e => .error e
    | .ok idx =>
      if s.virtio.lastAvail.toNat = idx then .ok s
      else
        match s.dmaRead (s.virtio.availBase + 4 + 2 * (s.virtio.lastAvail.toNat % s.virtio.queueNum.toNat)) 2 with
        | .error e => .error e
        | .ok h =>
          match s.request h with
          | .error e => .error e
          | .ok (s1, n) =>
            match s1.usedUpdate h n with
            | .error e => .error e
            | .ok s2 => State.serve fuel { s2 with virtio := { s2.virtio with lastAvail := s2.virtio.lastAvail + 1 } }

/-- The queue is set up (R806). -/
def Virtio.queueReady (v : Virtio) : Bool :=
  decide (v.queuePfn ≠ 0) && decide (1 ≤ v.queueNum.toNat ∧ v.queueNum.toNat ≤ Config.queueNumMax)
    && decide (v.status ≠ 0)

/-- virtio.tick() (R806): a waiting notify is taken; its requests are processed if the queue is set up. -/
def State.virtioTick (s : State) : Dma State :=
  if s.virtio.notify then
    let s' := { s with virtio := { s.virtio with notify := false } }
    if s.virtio.queueReady then State.serve Config.requestFuel s' else .ok s'
  else .ok s

end Sys2Proof.Machine
end

