-- ==== Sys2Proof/Machine/Bus.lean ====
section
/-! DEFINITION. The bus: the memory map, physical accesses and the tick (spec/20_memory.md R202, R210 to R214,
60_exceptions.md R702). -/

namespace Sys2Proof.Machine

open Sys2Proof

/-- The owners of physical ranges (R202). -/
inductive Region
  | clint
  | plic
  | uart
  | virtio
  | dram
  | unmapped
  deriving DecidableEq, Repr

/-- `pa` lies in the `size` bytes at `base`. -/
def inRange (base size pa : Nat) : Bool := decide (base ≤ pa) && decide (pa < base + size)

/-- region(pa) (R202, R203, R211). -/
def State.region (s : State) (pa : Nat) : Region :=
  if inRange Config.dramBase s.dramSize pa then .dram
  else if inRange Config.clintBase Config.clintSize pa then .clint
  else if inRange Config.plicBase Config.plicSize pa then .plic
  else if inRange Config.uartBase Config.uartSize pa then .uart
  else if inRange Config.virtioBase Config.virtioSize pa then .virtio
  else .unmapped

/-- A 32-bit read of a device register, `off` from the device's base, with its side effect (R212, R215). -/
def State.deviceRead32 (s : State) (r : Region) (off : Nat) : BitVec 32 × State :=
  match r with
  | .clint => (s.clint.read off, s)
  | .plic => ((s.plic.readReg off).1, { s with plic := (s.plic.readReg off).2 })
  | .virtio => (s.virtio.readReg s.disk off, s)
  | .uart | .dram | .unmapped => (0, s)

/-- A 32-bit write of a device register (R212). -/
def State.deviceWrite32 (s : State) (r : Region) (off : Nat) (v : BitVec 32) : State :=
  match r with
  | .clint => { s with clint := s.clint.write off v }
  | .plic => { s with plic := s.plic.writeReg off v }
  | .virtio => { s with virtio := s.virtio.writeReg off v }
  | .uart | .dram | .unmapped => s

/-- `n` UART byte reads at ascending offsets, as a little-endian value (R214). -/
def State.uartReads (s : State) (off : Nat) : Nat → Word × State
  | 0 => (0, s)
  | n + 1 =>
    let b := s.uartRead off
    let rest := b.2.uartReads (off + 1) n
    (b.1.setWidth 64 ||| (rest.1 <<< 8), rest.2)

/-- `n` UART byte writes at ascending offsets (R214). -/
def State.uartWrites (s : State) (off : Nat) : Nat → Word → State
  | 0, _ => s
  | n + 1, v => (s.uartWrite off (v.setWidth 8)).uartWrites (off + 1) n (v >>> 8)

/-- A read of a 32-bit device: 4 bytes, or 8 as low then high; any other width is fatal (R212, R213). -/
def State.wordDeviceRead (s : State) (r : Region) (off n : Nat) : Res Word :=
  if n = 4 then .ok ((s.deviceRead32 r off).1.setWidth 64) (s.deviceRead32 r off).2
  else if n = 8 then
    let lo := s.deviceRead32 r off
    let hi := lo.2.deviceRead32 r (off + 4)
    .ok (hi.1 ++ lo.1) hi.2
  else .fatal .mmioWidth

/-- A write of a 32-bit device (R212, R213). -/
def State.wordDeviceWrite (s : State) (r : Region) (off n : Nat) (v : Word) : Res Unit :=
  if n = 4 then .ok () (s.deviceWrite32 r off (v.setWidth 32))
  else if n = 8 then .ok () ((s.deviceWrite32 r off (v.setWidth 32)).deviceWrite32 r (off + 4) (v.extractLsb 63 32))
  else .fatal .mmioWidth

/-- PhysRead(pa, n) of a request whose region was checked (R212, R233). The unmapped case is not reached. -/
def State.physRead (s : State) (pa n : Nat) : Res Word :=
  match s.region pa with
  | .dram => .ok (Memory.readLE s.dram pa n) s
  | .clint => s.wordDeviceRead .clint (pa - Config.clintBase) n
  | .plic => s.wordDeviceRead .plic (pa - Config.plicBase) n
  | .virtio => s.wordDeviceRead .virtio (pa - Config.virtioBase) n
  | .uart => .ok (s.uartReads (pa - Config.uartBase) n).1 (s.uartReads (pa - Config.uartBase) n).2
  | .unmapped => .ok 0 s

/-- PhysWrite(pa, n, v) of a request whose region was checked (R212, R233). The unmapped case is not reached. The
reservation is dropped by the store itself (R540). -/
def State.physWrite (s : State) (pa n : Nat) (v : Word) : Res Unit :=
  match s.region pa with
  | .dram => .ok () { s with dram := Memory.writeLE s.dram pa n v }
  | .clint => s.wordDeviceWrite .clint (pa - Config.clintBase) n v
  | .plic => s.wordDeviceWrite .plic (pa - Config.plicBase) n v
  | .virtio => s.wordDeviceWrite .virtio (pa - Config.virtioBase) n v
  | .uart => .ok () (s.uartWrites (pa - Config.uartBase) n v)
  | .unmapped => .ok () s

/-- A piece of an access: an address and a number of bytes (R232). -/
abbrev Piece := Nat × Nat

/-- Every piece lies in region `r` (R211). -/
def State.allIn (s : State) (r : Region) (ps : List Piece) : Bool :=
  ps.all fun p => decide (s.region p.1 = r) && decide (s.region (p.1 + p.2 - 1) = r)

/-- The region check of R233: all pieces mapped, and in one region. -/
def State.piecesOk (s : State) : List Piece → Bool
  | [] => true
  | p :: ps => decide (s.region p.1 ≠ .unmapped) && s.allIn (s.region p.1) (p :: ps)

/-- The pieces read in ascending order, as one little-endian value (R234, R236). -/
def State.readPieces (s : State) : List Piece → Res Word
  | [] => .ok 0 s
  | p :: ps => (s.physRead p.1 p.2).bind fun v s1 => (s1.readPieces ps).bind fun rest s2 => .ok (v ||| (rest <<< (8 * p.2))) s2

/-- The pieces written in ascending order (R234, R237). -/
def State.writePieces (s : State) : List Piece → Word → Res Unit
  | [], _ => .ok () s
  | p :: ps, v => (s.physWrite p.1 p.2 v).bind fun _ s1 => s1.writePieces ps (v >>> (8 * p.2))

/-- The PLIC sources whose lines are asserted (R702). -/
def State.asserted (s : State) : List Nat :=
  (if s.virtio.irq then [Config.virtioIrqId] else []) ++ (if s.uart.irq then [Config.uartIrqId] else [])

/-- The PLIC's part of the tick: gateways, then the latched lines (R702, R772, R774). -/
def State.plicTick (s : State) : State :=
  let p := s.plic.update s.asserted
  { s with plic := p, eip0 := p.out .m, eip1 := p.out .s }

/-- BusTick() (R702). -/
def busTick (s : State) : Host.Outcome State Fault Refusal :=
  match s.virtioTick with
  | .error e => .fault e.1
  | .ok s1 => .next ({ s1 with clint := s1.clint.tick } : State).uartTick.plicTick

end Sys2Proof.Machine
end

