-- ==== Sys2Proof/Machine/Mmu.lean ====
section
/-! DEFINITION. The MMU: effective privilege, the Sv32 and Sv39 walk, the TLB, and the hart's accesses through them
(spec/20_memory.md sections 4 to 6, 30_encoding.md R300, R301). -/

namespace Sys2Proof.Machine

open Sys2Proof

/-! ### Access kinds (R230) -/

/-- The kind of a hart access. -/
inductive Access
  | fetch
  | load
  | store
  | amo
  deriving DecidableEq, Repr

def Access.pageFault : Access → Exc
  | .fetch => .instrPage
  | .load => .loadPage
  | .store => .storePage
  | .amo => .storePage

def Access.accessFault : Access → Exc
  | .fetch => .instrAccess
  | .load => .loadAccess
  | .store => .storeAccess
  | .amo => .storeAccess

/-- The access writes: a store or an AMO (R252). -/
def Access.writes : Access → Bool
  | .fetch => false
  | .load => false
  | .store => true
  | .amo => true

/-- The address-misaligned exception of an atomic access; code 0 of a fetch is never raised (R230, R541). -/
def Access.misaligned (k : Access) : Exc := if k.writes then .storeMisaligned else .loadMisaligned

/-- effpriv(k) (R240). -/
def State.effPriv (s : State) : Access → Priv
  | .fetch => s.priv
  | .load => if s.priv = .M && s.mstatus.mprv then s.mstatus.mpp else s.priv
  | .store => if s.priv = .M && s.mstatus.mprv then s.mstatus.mpp else s.priv
  | .amo => if s.priv = .M && s.mstatus.mprv then s.mstatus.mpp else s.priv

/-! ### satp (R86) and the two schemes (R242, R243) -/

/-- `satp.MODE` is not Bare. -/
def satpOn : Xlen → Word → Bool
  | .rv32, v => v.getLsbD 31
  | .rv64, v => decide (v.extractLsb 63 60 ≠ 0)

def satpAsid : Xlen → Word → Nat
  | .rv32, v => (v.extractLsb 30 22).toNat
  | .rv64, v => (v.extractLsb 59 44).toNat

def satpPpn : Xlen → Word → Nat
  | .rv32, v => (v.extractLsb 21 0).toNat
  | .rv64, v => (v.extractLsb 43 0).toNat

/-- The ASID bits of a register value: its low ASIDLEN bits (R616). -/
def asidOf : Xlen → Word → Nat
  | .rv32, v => (v.extractLsb 8 0).toNat
  | .rv64, v => (v.extractLsb 15 0).toNat

/-- Translation applies to an access of kind `k` (R88, R240). -/
def State.translating (s : State) (k : Access) : Bool := decide (s.effPriv k ≠ .M) && satpOn s.xlen s.csr.satp

/-- The level of the root table: LEVELS - 1. -/
def rootLevel : Xlen → Nat
  | .rv32 => 1
  | .rv64 => 2

/-- Bits of a VPN field. -/
def vpnBits : Xlen → Nat
  | .rv32 => 10
  | .rv64 => 9

/-- PTESIZE. -/
def pteSize : Xlen → Nat
  | .rv32 => 4
  | .rv64 => 8

/-- Sv39: bits 63:39 equal bit 38 (R243); every Sv32 address is canonical. -/
def canonical : Xlen → Word → Bool
  | .rv32, _ => true
  | .rv64, va => decide ((va.extractLsb 38 0).signExtend 64 = va)

/-- VPN[i](va). -/
def vpn (x : Xlen) (va : Word) (i : Nat) : Nat := va.toNat / 2 ^ (12 + vpnBits x * i) % 2 ^ vpnBits x

/-- The number of the page of level `i` that holds `va`: the VPN fields `i` and above (R260). -/
def pageNumber (x : Xlen) (va : Word) (i : Nat) : Nat :=
  va.toNat / 2 ^ (12 + vpnBits x * i) % 2 ^ (vpnBits x * (rootLevel x + 1 - i))

/-- The full PPN of a PTE. -/
def ptePpn : Xlen → Word → Nat
  | .rv32, pte => (pte.extractLsb 31 10).toNat
  | .rv64, pte => (pte.extractLsb 53 10).toNat

def pteFlags (pte : Word) : PteFlags :=
  { r := pte.getLsbD 1, w := pte.getLsbD 2, x := pte.getLsbD 3, u := pte.getLsbD 4, g := pte.getLsbD 5,
    a := pte.getLsbD 6, d := pte.getLsbD 7 }

/-- V = 1, and not R = 0 with W = 1 (R244). -/
def pteValid (pte : Word) : Bool := pte.getLsbD 0 && !(!pte.getLsbD 1 && pte.getLsbD 2)

/-- R = 1 or X = 1 (R244). -/
def pteLeaf (pte : Word) : Bool := pte.getLsbD 1 || pte.getLsbD 3

/-- The permission check (R250). -/
def permitted (m : Mstatus) (k : Access) (p : Priv) (f : PteFlags) : Bool :=
  let readable := f.r || (f.x && m.mxr)
  let byKind := match k with
    | .fetch => f.x
    | .load => readable
    | .store => f.w
    | .amo => readable && f.w
  let byMode := match p with
    | .U => f.u
    | .S => !f.u || (decide (k ≠ .fetch) && m.sum)
    | .M => true
  byKind && byMode

/-- Superpage alignment: PPN[j] = 0 below the leaf's level (R251). -/
def superpageAligned (x : Xlen) (ppn level : Nat) : Bool := decide (ppn % 2 ^ (vpnBits x * level) = 0)

/-- The A and D update (R252): A set, and D set by a store or an AMO. -/
def pteUpdate (k : Access) (pte : Word) : Word := pte ||| 0x40#64 ||| (if k.writes then 0x80#64 else 0)

/-- The physical address of a translation whose leaf is at `level` (R253). -/
def leafAddress (x : Xlen) (va : Word) (ppn level : Nat) : Nat :=
  let span := 2 ^ (vpnBits x * level)
  (ppn / span * span + va.toNat / Config.pageSize % span) * Config.pageSize + va.toNat % Config.pageSize

/-! ### The walk (R244) -/

/-- A leaf that a walk found. -/
structure Leaf where
  addr  : Nat
  pte   : Word
  level : Nat
  deriving DecidableEq, Repr

/-- One PTE of a walk: it must lie wholly in DRAM (R254, log 19) and be valid. -/
def State.readPte (s : State) (k : Access) (addr : Nat) : Except Exc Word :=
  if s.inDram addr (pteSize s.xlen) then
    if pteValid (Memory.readLE s.dram addr (pteSize s.xlen)) then .ok (Memory.readLE s.dram addr (pteSize s.xlen))
    else .error k.pageFault
  else .error k.accessFault

/-- The walk from level `i` with the table at `a`. -/
def State.walk (s : State) (k : Access) (va : Word) : Nat → Nat → Except Exc Leaf
  | 0, a =>
    match s.readPte k (a + vpn s.xlen va 0 * pteSize s.xlen) with
    | .error e => .error e
    | .ok pte =>
      if pteLeaf pte then .ok { addr := a + vpn s.xlen va 0 * pteSize s.xlen, pte := pte, level := 0 }
      else .error k.pageFault
  | i + 1, a =>
    match s.readPte k (a + vpn s.xlen va (i + 1) * pteSize s.xlen) with
    | .error e => .error e
    | .ok pte =>
      if pteLeaf pte then .ok { addr := a + vpn s.xlen va (i + 1) * pteSize s.xlen, pte := pte, level := i + 1 }
      else s.walk k va i (ptePpn s.xlen pte * Config.pageSize)

/-- The walk from the root that `satp` names, with the checks of its leaf (R250, R251). -/
def State.findLeaf (s : State) (k : Access) (va : Word) : Except Exc Leaf :=
  match s.walk k va (rootLevel s.xlen) (satpPpn s.xlen s.csr.satp * Config.pageSize) with
  | .error e => .error e
  | .ok leaf =>
    if permitted s.mstatus k (s.effPriv k) (pteFlags leaf.pte)
        && superpageAligned s.xlen (ptePpn s.xlen leaf.pte) leaf.level then .ok leaf
    else .error k.pageFault

/-- The write-back of A and D, where one of them changes; it leaves the reservation alone (R252, R540). -/
def State.writeBack (s : State) (k : Access) (leaf : Leaf) : State :=
  if pteUpdate k leaf.pte = leaf.pte then s
  else { s with dram := Memory.writeLE s.dram leaf.addr (pteSize s.xlen) (pteUpdate k leaf.pte) }

/-! ### The TLB (R260 to R266) -/

/-- The entry of a walk's result (R260). -/
def State.entryOf (s : State) (k : Access) (va : Word) (leaf : Leaf) : TlbEntry :=
  { vpn := pageNumber s.xlen va leaf.level, asid := satpAsid s.xlen s.csr.satp, ppn := ptePpn s.xlen leaf.pte,
    level := leaf.level, flags := pteFlags (pteUpdate k leaf.pte), valid := true }

/-- The entry covers the address `va`. -/
def TlbEntry.covers (e : TlbEntry) (x : Xlen) (va : Word) : Bool := decide (e.vpn = pageNumber x va e.level)

/-- The entry matches an access at `va` under the ASID `asid` (R261). -/
def TlbEntry.hits (e : TlbEntry) (x : Xlen) (va : Word) (asid : Nat) : Bool :=
  e.valid && e.covers x va && (e.flags.g || decide (e.asid = asid))

/-- The entry may be used for an access of kind `k`: it matches, and D = 1 where the access writes (R262). -/
def State.usable (s : State) (k : Access) (va : Word) (e : TlbEntry) : Bool :=
  e.hits s.xlen va (satpAsid s.xlen s.csr.satp) && (e.flags.d || !k.writes)

/-- The entries whose position, counted from `n`, is not in `drop`. -/
def keepFrom (drop : List Nat) : Nat → List TlbEntry → List TlbEntry
  | _, [] => []
  | n, e :: es => if drop.contains n then keepFrom drop (n + 1) es else e :: keepFrom drop (n + 1) es

/-- The next TLB choice, and the state with it drawn (log 4). -/
def State.drawTlb (s : State) : Config.TlbDraw × State :=
  match s.tlbDraws with
  | [] => (Config.tlbDraw s.tlbDrawn, { s with tlbDrawn := s.tlbDrawn + 1 })
  | d :: ds => (d, { s with tlbDraws := ds })

/-- The entry a choice uses: one, by its position, that may be used (R262). -/
def State.chosenEntry (s : State) (k : Access) (va : Word) (d : Config.TlbDraw) : Option TlbEntry :=
  match d.use with
  | none => none
  | some n =>
    match s.tlb[n]? with
    | none => none
    | some e => if s.usable k va e then some e else none

/-- A translation by the walk, which may add an entry (R244, R263). A fault has the address walked for as its trap value; for a
load or store `pieceTval` makes it that of R722. -/
def State.translateByWalk (s : State) (k : Access) (va : Word) (fill : Bool) : Res Nat :=
  match s.findLeaf k va with
  | .error e => .trap e va s
  | .ok leaf =>
    let s1 := s.writeBack k leaf
    .ok (leafAddress s.xlen va (ptePpn s.xlen leaf.pte) leaf.level)
      (if fill then { s1 with tlb := s.entryOf k va leaf :: s.tlb } else s1)

/-- A translation by a TLB entry: only its permissions are checked (R262). -/
def State.translateByEntry (s : State) (k : Access) (va : Word) (e : TlbEntry) : Res Nat :=
  if permitted s.mstatus k (s.effPriv k) e.flags then .ok (leafAddress s.xlen va e.ppn e.level) s
  else .trap k.pageFault va s

/-- The MMU with translation on, at a canonical address: entries are dropped, then an entry or the walk translates (R262,
R263). -/
def State.translateOn (s : State) (k : Access) (va : Word) : Res Nat :=
  let d := s.drawTlb.1
  let s1 := { s.drawTlb.2 with tlb := keepFrom d.drop 0 s.tlb }
  match s1.chosenEntry k va d with
  | some e => s1.translateByEntry k va e
  | none => s1.translateByWalk k va d.fill

/-- Translate(va, k, effpriv(k)): the physical address, or the page fault or access fault of R230 with the trap value `va`
(R241, R244, R255, R262). -/
def State.translate (s : State) (k : Access) (va : Word) : Res Nat :=
  if s.translating k then
    if canonical s.xlen va then s.translateOn k va else .trap k.pageFault va s
  else .ok va.toNat s

/-- SFENCE.VMA with the register numbers `r1`, `r2` and their values removes this entry (R266, log 5). -/
def sfenceRemoves (x : Xlen) (r1 : Reg) (v1 : Word) (r2 : Reg) (v2 : Word) (e : TlbEntry) : Bool :=
  let sameAsid := decide (e.asid = asidOf x v2)
  (decide (v1 = 0) && decide (v2 = 0))
    || (if r1 = 0#5 then (if r2 = 0#5 then true else sameAsid && !e.flags.g)
        else e.covers x v1 && (if r2 = 0#5 then true else sameAsid || e.flags.g))

/-! ### Loads and stores (R231 to R237) -/

/-- The split of R232: one piece, or the bytes in ascending order. -/
def splitAccess (x : Xlen) (va : Word) (n : Nat) : List (Word × Nat) :=
  if va.toNat % n = 0 then [(va, n)] else (List.range n).map fun k => (norm x (va + BitVec.ofNat 64 k), 1)

/-- The trap value of an exception `e` that translating a piece at `va` of the access at `ea` raises (R722): a page fault has
the piece's address, an access fault met in the walk the access's (R254). DESIGN CHOICE: R233 says the piece's address for
that access fault too, which is set aside (log 22). -/
def pieceTval (k : Access) (ea : Word) (e : Exc) (va : Word) : Word := if e = k.accessFault then ea else va

/-- Translate every piece of the access at `ea` in ascending order; the first that faults raises (R233). -/
def State.translatePieces (s : State) (k : Access) (ea : Word) : List (Word × Nat) → Res (List Piece)
  | [] => .ok [] s
  | p :: ps =>
    ((s.translate k p.1).mapTval (pieceTval k ea)).bind fun pa s1 =>
      (s1.translatePieces k ea ps).bind fun rest s2 => .ok ((pa, p.2) :: rest) s2

/-- The checks of R233: all pieces translate, then all lie in one mapped region. -/
def State.checkAccess (s : State) (k : Access) (va : Word) (n : Nat) : Res (List Piece) :=
  (s.translatePieces k va (splitAccess s.xlen va n)).bind fun ps s1 =>
    if s1.piecesOk ps then .ok ps s1 else .trap k.accessFault va s1

/-- MemRead(va, n) (R236). -/
def State.memRead (s : State) (va : Word) (n : Nat) : Res Word :=
  (s.checkAccess .load va n).bind fun ps s1 => s1.readPieces ps

/-- MemWrite(va, n, v) (R237); the reservation becomes invalid (R540). -/
def State.memWrite (s : State) (va : Word) (n : Nat) (v : Word) : Res Unit :=
  (s.checkAccess .store va n).bind fun ps s1 => (s1.writePieces ps v).bind fun _ s2 => .ok () s2.dropResv

/-! ### Atomic accesses (R238, R541) -/

/-- The physical address of an LR, SC or AMO: aligned, translated, and in DRAM. -/
def State.atomicAddr (s : State) (k : Access) (va : Word) (n : Nat) : Res Nat :=
  if va.toNat % n ≠ 0 then .trap k.misaligned va s
  else (s.translate k va).bind fun pa s1 => if s1.inDram pa n then .ok pa s1 else .trap k.accessFault va s1

/-! ### Instruction fetch (R300, R301) -/

/-- Fetch16(va) (R239, R301). -/
def State.fetch16 (s : State) (va : Word) : Res (BitVec 16) :=
  (s.translate .fetch va).bind fun pa s1 =>
    if s1.inDram pa 2 then .ok ((Memory.readLE s1.dram pa 2).setWidth 16) s1 else .trap .instrAccess va s1

/-- FetchInstr(pc) but for the long encodings, which `decodeRaw` rejects (R300). -/
def State.fetchInstr (s : State) : Res RawInstr :=
  (s.fetch16 s.pc).bind fun p0 s1 =>
    if isCompressedParcel p0 then .ok (.compressed p0) s1
    else (s1.fetch16 (norm s.xlen (s.pc + 2))).bind fun p1 s2 => .ok (.full (p1 ++ p0)) s2

end Sys2Proof.Machine
end

