-- ==== Sys2Proof/Machine/Atomic.lean ====
section
/-! DEFINITION. Load-reserved, store-conditional and the AMOs (spec/44_atomic.md). -/

namespace Sys2Proof.Machine

open Sys2Proof

/-- The access width in bytes (R62). -/
def AtomicWidth.bytes : AtomicWidth → Nat
  | .w => 4
  | .d => 8

/-- The D forms exist only when XLEN = 64 (R543, log 16). -/
def atomicMode (n : AtomicWidth) (i : Instr) (s : State) (k : Host.Outcome State Fault Refusal) :
    Host.Outcome State Fault Refusal :=
  match n with
  | .w => k
  | .d => inMode .rv64 i s k

/-- A memory value of the width, sign-extended to XLEN (R544). -/
def atomicExtend (x : Xlen) : AtomicWidth → Word → Word
  | .w, v => sextX x (v.setWidth 32 : BitVec 32)
  | .d, v => v

/-- A 64-bit value's operation at the width (R547): the low bytes are what is stored. -/
def atWidth (f : (w : Nat) → BitVec w → BitVec w → BitVec w) : AtomicWidth → Word → Word → Word
  | .w, m, v => (f 32 (m.setWidth 32) (v.setWidth 32)).setWidth 64
  | .d, m, v => f 64 m v

/-- LR (R545). -/
def loadReserved (i : Instr) (rd rs1 : Reg) (n : AtomicWidth) (s : State) : Host.Outcome State Fault Refusal :=
  atomicMode n i s ((s.atomicAddr .load (s.readX rs1) n.bytes).complete fun pa s1 =>
    (({ s1 with resv := some { paddr := BitVec.ofNat 64 pa, width := n } } : State).writeX rd
      (atomicExtend s.xlen n (Memory.readLE s1.dram pa n.bytes))).retire i)

/-- The reservation is valid for this address and width (R546). -/
def State.reserved (s : State) (pa : Nat) (n : AtomicWidth) : Bool :=
  decide (s.resv = some { paddr := BitVec.ofNat 64 pa, width := n })

/-- SC (R546): rd is 0 where the store is done and 1 where it is not; the reservation is gone either way. -/
def storeConditional (i : Instr) (rd rs1 rs2 : Reg) (n : AtomicWidth) (s : State) : Host.Outcome State Fault Refusal :=
  atomicMode n i s ((s.atomicAddr .store (s.readX rs1) n.bytes).complete fun pa s1 =>
    (if s1.reserved pa n then
      (({ s1 with dram := Memory.writeLE s1.dram pa n.bytes (s.readX rs2) } : State).dropResv).writeX rd 0
    else s1.dropResv.writeX rd 1).retire i)

/-- An AMO: the old value goes to rd and `f old rs2` to memory (R547, 20_memory.md R238). -/
def amo (i : Instr) (rd rs1 rs2 : Reg) (n : AtomicWidth) (f : (w : Nat) → BitVec w → BitVec w → BitVec w) (s : State) :
    Host.Outcome State Fault Refusal :=
  atomicMode n i s ((s.atomicAddr .amo (s.readX rs1) n.bytes).complete fun pa s1 =>
    let old := Memory.readLE s1.dram pa n.bytes
    ((({ s1 with dram := Memory.writeLE s1.dram pa n.bytes (atWidth f n old (s.readX rs2)) } : State).dropResv).writeX rd
      (atomicExtend s.xlen n old)).retire i)

/-- The operations on a memory value `m` and a register value `v` (R548 to R556). -/
def amoSwap (w : Nat) (_ v : BitVec w) : BitVec w := v
def amoAdd (w : Nat) (m v : BitVec w) : BitVec w := m + v
def amoXor (w : Nat) (m v : BitVec w) : BitVec w := m ^^^ v
def amoAnd (w : Nat) (m v : BitVec w) : BitVec w := m &&& v
def amoOr (w : Nat) (m v : BitVec w) : BitVec w := m ||| v
def amoMin (w : Nat) (m v : BitVec w) : BitVec w := if m.slt v then m else v
def amoMax (w : Nat) (m v : BitVec w) : BitVec w := if v.slt m then m else v
def amoMinu (w : Nat) (m v : BitVec w) : BitVec w := if m.ult v then m else v
def amoMaxu (w : Nat) (m v : BitVec w) : BitVec w := if v.ult m then m else v

/-- LR.W (R545). -/
def execLrW (rd : Reg) (rs1 : Reg) (aq : Bool) (rl : Bool) (s : State) : Host.Outcome State Fault Refusal :=
  loadReserved (.lrW rd rs1 aq rl) rd rs1 .w s

/-- SC.W (R546). -/
def execScW (rd : Reg) (rs1 : Reg) (rs2 : Reg) (aq : Bool) (rl : Bool) (s : State) : Host.Outcome State Fault Refusal :=
  storeConditional (.scW rd rs1 rs2 aq rl) rd rs1 rs2 .w s

/-- AMOSWAP.W (R548). -/
def execAmoswapW (rd : Reg) (rs1 : Reg) (rs2 : Reg) (aq : Bool) (rl : Bool) (s : State) : Host.Outcome State Fault Refusal :=
  amo (.amoswapW rd rs1 rs2 aq rl) rd rs1 rs2 .w amoSwap s

/-- AMOADD.W (R549). -/
def execAmoaddW (rd : Reg) (rs1 : Reg) (rs2 : Reg) (aq : Bool) (rl : Bool) (s : State) : Host.Outcome State Fault Refusal :=
  amo (.amoaddW rd rs1 rs2 aq rl) rd rs1 rs2 .w amoAdd s

/-- AMOXOR.W (R550). -/
def execAmoxorW (rd : Reg) (rs1 : Reg) (rs2 : Reg) (aq : Bool) (rl : Bool) (s : State) : Host.Outcome State Fault Refusal :=
  amo (.amoxorW rd rs1 rs2 aq rl) rd rs1 rs2 .w amoXor s

/-- AMOAND.W (R551). -/
def execAmoandW (rd : Reg) (rs1 : Reg) (rs2 : Reg) (aq : Bool) (rl : Bool) (s : State) : Host.Outcome State Fault Refusal :=
  amo (.amoandW rd rs1 rs2 aq rl) rd rs1 rs2 .w amoAnd s

/-- AMOOR.W (R552). -/
def execAmoorW (rd : Reg) (rs1 : Reg) (rs2 : Reg) (aq : Bool) (rl : Bool) (s : State) : Host.Outcome State Fault Refusal :=
  amo (.amoorW rd rs1 rs2 aq rl) rd rs1 rs2 .w amoOr s

/-- AMOMIN.W (R553). -/
def execAmominW (rd : Reg) (rs1 : Reg) (rs2 : Reg) (aq : Bool) (rl : Bool) (s : State) : Host.Outcome State Fault Refusal :=
  amo (.amominW rd rs1 rs2 aq rl) rd rs1 rs2 .w amoMin s

/-- AMOMAX.W (R554). -/
def execAmomaxW (rd : Reg) (rs1 : Reg) (rs2 : Reg) (aq : Bool) (rl : Bool) (s : State) : Host.Outcome State Fault Refusal :=
  amo (.amomaxW rd rs1 rs2 aq rl) rd rs1 rs2 .w amoMax s

/-- AMOMINU.W (R555). -/
def execAmominuW (rd : Reg) (rs1 : Reg) (rs2 : Reg) (aq : Bool) (rl : Bool) (s : State) : Host.Outcome State Fault Refusal :=
  amo (.amominuW rd rs1 rs2 aq rl) rd rs1 rs2 .w amoMinu s

/-- AMOMAXU.W (R556). -/
def execAmomaxuW (rd : Reg) (rs1 : Reg) (rs2 : Reg) (aq : Bool) (rl : Bool) (s : State) : Host.Outcome State Fault Refusal :=
  amo (.amomaxuW rd rs1 rs2 aq rl) rd rs1 rs2 .w amoMaxu s

/-- LR.D (R545). -/
def execLrD (rd : Reg) (rs1 : Reg) (aq : Bool) (rl : Bool) (s : State) : Host.Outcome State Fault Refusal :=
  loadReserved (.lrD rd rs1 aq rl) rd rs1 .d s

/-- SC.D (R546). -/
def execScD (rd : Reg) (rs1 : Reg) (rs2 : Reg) (aq : Bool) (rl : Bool) (s : State) : Host.Outcome State Fault Refusal :=
  storeConditional (.scD rd rs1 rs2 aq rl) rd rs1 rs2 .d s

/-- AMOSWAP.D (R548). -/
def execAmoswapD (rd : Reg) (rs1 : Reg) (rs2 : Reg) (aq : Bool) (rl : Bool) (s : State) : Host.Outcome State Fault Refusal :=
  amo (.amoswapD rd rs1 rs2 aq rl) rd rs1 rs2 .d amoSwap s

/-- AMOADD.D (R549). -/
def execAmoaddD (rd : Reg) (rs1 : Reg) (rs2 : Reg) (aq : Bool) (rl : Bool) (s : State) : Host.Outcome State Fault Refusal :=
  amo (.amoaddD rd rs1 rs2 aq rl) rd rs1 rs2 .d amoAdd s

/-- AMOXOR.D (R550). -/
def execAmoxorD (rd : Reg) (rs1 : Reg) (rs2 : Reg) (aq : Bool) (rl : Bool) (s : State) : Host.Outcome State Fault Refusal :=
  amo (.amoxorD rd rs1 rs2 aq rl) rd rs1 rs2 .d amoXor s

/-- AMOAND.D (R551). -/
def execAmoandD (rd : Reg) (rs1 : Reg) (rs2 : Reg) (aq : Bool) (rl : Bool) (s : State) : Host.Outcome State Fault Refusal :=
  amo (.amoandD rd rs1 rs2 aq rl) rd rs1 rs2 .d amoAnd s

/-- AMOOR.D (R552). -/
def execAmoorD (rd : Reg) (rs1 : Reg) (rs2 : Reg) (aq : Bool) (rl : Bool) (s : State) : Host.Outcome State Fault Refusal :=
  amo (.amoorD rd rs1 rs2 aq rl) rd rs1 rs2 .d amoOr s

/-- AMOMIN.D (R553). -/
def execAmominD (rd : Reg) (rs1 : Reg) (rs2 : Reg) (aq : Bool) (rl : Bool) (s : State) : Host.Outcome State Fault Refusal :=
  amo (.amominD rd rs1 rs2 aq rl) rd rs1 rs2 .d amoMin s

/-- AMOMAX.D (R554). -/
def execAmomaxD (rd : Reg) (rs1 : Reg) (rs2 : Reg) (aq : Bool) (rl : Bool) (s : State) : Host.Outcome State Fault Refusal :=
  amo (.amomaxD rd rs1 rs2 aq rl) rd rs1 rs2 .d amoMax s

/-- AMOMINU.D (R555). -/
def execAmominuD (rd : Reg) (rs1 : Reg) (rs2 : Reg) (aq : Bool) (rl : Bool) (s : State) : Host.Outcome State Fault Refusal :=
  amo (.amominuD rd rs1 rs2 aq rl) rd rs1 rs2 .d amoMinu s

/-- AMOMAXU.D (R556). -/
def execAmomaxuD (rd : Reg) (rs1 : Reg) (rs2 : Reg) (aq : Bool) (rl : Bool) (s : State) : Host.Outcome State Fault Refusal :=
  amo (.amomaxuD rd rs1 rs2 aq rl) rd rs1 rs2 .d amoMaxu s

end Sys2Proof.Machine
end

