-- ==== Sys2Proof/Machine/Integer.lean ====
section
/-! DEFINITION. Integer computational instructions (spec/40_integer.md). -/

namespace Sys2Proof.Machine

open Sys2Proof

/-! ### Shared forms (R400, R401) -/

/-- Write `v` to rd and go on at npc. -/
def writeRd (i : Instr) (rd : Reg) (v : Word) (s : State) : Host.Outcome State Fault Refusal :=
  .next ((s.writeX rd v).retire i)

/-- rd from rs1 and rs2, at the width XLEN. -/
def regReg (i : Instr) (rd rs1 rs2 : Reg) (f : Xlen → Word → Word → Word) (s : State) : Host.Outcome State Fault Refusal :=
  writeRd i rd (f s.xlen (s.readX rs1) (s.readX rs2)) s

/-- rd from rs1 and the sign-extended immediate. -/
def regImm (i : Instr) (rd rs1 : Reg) (imm : BitVec 12) (f : Xlen → Word → Word → Word) (s : State) :
    Host.Outcome State Fault Refusal :=
  writeRd i rd (f s.xlen (s.readX rs1) (sextX s.xlen imm)) s

/-- rd from rs1 and a shift amount of XLEN bits' range; `shamt[5] = 1` is illegal when XLEN = 32 (R340, log 16). -/
def regShift (i : Instr) (rd rs1 : Reg) (shamt : BitVec 6) (f : Xlen → Word → Word → Word) (s : State) :
    Host.Outcome State Fault Refusal :=
  if shamtFits s.xlen shamt then writeRd i rd (f s.xlen (s.readX rs1) (shamt.setWidth 64)) s else raiseIllegal i s

/-- A W form on rs1 and rs2: the low 32 bits, the result sign-extended; XLEN = 64 only (R401). -/
def regRegW (i : Instr) (rd rs1 rs2 : Reg) (f : (w : Nat) → BitVec w → BitVec w → BitVec w) (s : State) :
    Host.Outcome State Fault Refusal :=
  inMode .rv64 i s (writeRd i rd (atWord f (s.readX rs1) (s.readX rs2)) s)

/-- A W form on rs1 and a 5-bit shift amount. -/
def regShiftW (i : Instr) (rd rs1 : Reg) (shamt : BitVec 5) (f : (w : Nat) → BitVec w → BitVec w → BitVec w) (s : State) :
    Host.Outcome State Fault Refusal :=
  inMode .rv64 i s (writeRd i rd (atWord f (s.readX rs1) (shamt.setWidth 64)) s)

/-! ### The functions -/

/-- A comparison as 1 or 0. -/
def boolWord (b : Bool) : Word := (BitVec.ofBool b).setWidth 64

def addOp (_ : Xlen) (a b : Word) : Word := a + b
def subOp (_ : Xlen) (a b : Word) : Word := a - b
def xorOp (_ : Xlen) (a b : Word) : Word := a ^^^ b
def orOp (_ : Xlen) (a b : Word) : Word := a ||| b
def andOp (_ : Xlen) (a b : Word) : Word := a &&& b
/-- Signed and unsigned set-if-less-than (R416, R417). -/
def sltOp (x : Xlen) (a b : Word) : Word := boolWord (testXlen x (fun _ u v => u.slt v) a b)
def sltuOp (x : Xlen) (a b : Word) : Word := boolWord (testXlen x (fun _ u v => u.ult v) a b)

/-- The shifts at a width; the amount is taken modulo the width (R415, R419, R420, R431). -/
def shiftLeft (w : Nat) (a b : BitVec w) : BitVec w := a <<< shiftAmount w b
def shiftRightLogical (w : Nat) (a b : BitVec w) : BitVec w := a >>> shiftAmount w b
def shiftRightArith (w : Nat) (a b : BitVec w) : BitVec w := a.sshiftRight (shiftAmount w b)
def sllOp (x : Xlen) (a b : Word) : Word := atXlen x shiftLeft a b
def srlOp (x : Xlen) (a b : Word) : Word := atXlen x shiftRightLogical a b
def sraOp (x : Xlen) (a b : Word) : Word := atXlen x shiftRightArith a b

/-! ### The instructions -/

/-- LUI (R402). -/
def execLui (rd : Reg) (imm : BitVec 20) (s : State) : Host.Outcome State Fault Refusal :=
  writeRd (.lui rd imm) rd (upperImm s.xlen imm) s

/-- AUIPC (R403). -/
def execAuipc (rd : Reg) (imm : BitVec 20) (s : State) : Host.Outcome State Fault Refusal :=
  writeRd (.auipc rd imm) rd (s.pc + upperImm s.xlen imm) s

/-- ADDI (R404). -/
def execAddi (rd : Reg) (rs1 : Reg) (imm : BitVec 12) (s : State) : Host.Outcome State Fault Refusal :=
  regImm (.addi rd rs1 imm) rd rs1 imm addOp s

/-- SLTI (R405). -/
def execSlti (rd : Reg) (rs1 : Reg) (imm : BitVec 12) (s : State) : Host.Outcome State Fault Refusal :=
  regImm (.slti rd rs1 imm) rd rs1 imm sltOp s

/-- SLTIU (R406). -/
def execSltiu (rd : Reg) (rs1 : Reg) (imm : BitVec 12) (s : State) : Host.Outcome State Fault Refusal :=
  regImm (.sltiu rd rs1 imm) rd rs1 imm sltuOp s

/-- XORI (R407). -/
def execXori (rd : Reg) (rs1 : Reg) (imm : BitVec 12) (s : State) : Host.Outcome State Fault Refusal :=
  regImm (.xori rd rs1 imm) rd rs1 imm xorOp s

/-- ORI (R408). -/
def execOri (rd : Reg) (rs1 : Reg) (imm : BitVec 12) (s : State) : Host.Outcome State Fault Refusal :=
  regImm (.ori rd rs1 imm) rd rs1 imm orOp s

/-- ANDI (R409). -/
def execAndi (rd : Reg) (rs1 : Reg) (imm : BitVec 12) (s : State) : Host.Outcome State Fault Refusal :=
  regImm (.andi rd rs1 imm) rd rs1 imm andOp s

/-- SLLI (R410). -/
def execSlli (rd : Reg) (rs1 : Reg) (shamt : BitVec 6) (s : State) : Host.Outcome State Fault Refusal :=
  regShift (.slli rd rs1 shamt) rd rs1 shamt sllOp s

/-- SRLI (R411). -/
def execSrli (rd : Reg) (rs1 : Reg) (shamt : BitVec 6) (s : State) : Host.Outcome State Fault Refusal :=
  regShift (.srli rd rs1 shamt) rd rs1 shamt srlOp s

/-- SRAI (R412). -/
def execSrai (rd : Reg) (rs1 : Reg) (shamt : BitVec 6) (s : State) : Host.Outcome State Fault Refusal :=
  regShift (.srai rd rs1 shamt) rd rs1 shamt sraOp s

/-- ADD (R413). -/
def execAdd (rd : Reg) (rs1 : Reg) (rs2 : Reg) (s : State) : Host.Outcome State Fault Refusal :=
  regReg (.add rd rs1 rs2) rd rs1 rs2 addOp s

/-- SUB (R414). -/
def execSub (rd : Reg) (rs1 : Reg) (rs2 : Reg) (s : State) : Host.Outcome State Fault Refusal :=
  regReg (.sub rd rs1 rs2) rd rs1 rs2 subOp s

/-- SLL (R415). -/
def execSll (rd : Reg) (rs1 : Reg) (rs2 : Reg) (s : State) : Host.Outcome State Fault Refusal :=
  regReg (.sll rd rs1 rs2) rd rs1 rs2 sllOp s

/-- SLT (R416). -/
def execSlt (rd : Reg) (rs1 : Reg) (rs2 : Reg) (s : State) : Host.Outcome State Fault Refusal :=
  regReg (.slt rd rs1 rs2) rd rs1 rs2 sltOp s

/-- SLTU (R417). -/
def execSltu (rd : Reg) (rs1 : Reg) (rs2 : Reg) (s : State) : Host.Outcome State Fault Refusal :=
  regReg (.sltu rd rs1 rs2) rd rs1 rs2 sltuOp s

/-- XOR (R418). -/
def execXor (rd : Reg) (rs1 : Reg) (rs2 : Reg) (s : State) : Host.Outcome State Fault Refusal :=
  regReg (.xor rd rs1 rs2) rd rs1 rs2 xorOp s

/-- SRL (R419). -/
def execSrl (rd : Reg) (rs1 : Reg) (rs2 : Reg) (s : State) : Host.Outcome State Fault Refusal :=
  regReg (.srl rd rs1 rs2) rd rs1 rs2 srlOp s

/-- SRA (R420). -/
def execSra (rd : Reg) (rs1 : Reg) (rs2 : Reg) (s : State) : Host.Outcome State Fault Refusal :=
  regReg (.sra rd rs1 rs2) rd rs1 rs2 sraOp s

/-- OR (R421). -/
def execOr (rd : Reg) (rs1 : Reg) (rs2 : Reg) (s : State) : Host.Outcome State Fault Refusal :=
  regReg (.or rd rs1 rs2) rd rs1 rs2 orOp s

/-- AND (R422). -/
def execAnd (rd : Reg) (rs1 : Reg) (rs2 : Reg) (s : State) : Host.Outcome State Fault Refusal :=
  regReg (.and rd rs1 rs2) rd rs1 rs2 andOp s

/-- ADDIW (R423). -/
def execAddiw (rd : Reg) (rs1 : Reg) (imm : BitVec 12) (s : State) : Host.Outcome State Fault Refusal :=
  inMode .rv64 (.addiw rd rs1 imm) s (writeRd (.addiw rd rs1 imm) rd (atWord (fun _ a b => a + b) (s.readX rs1) (sextX s.xlen imm)) s)

/-- SLLIW (R424). -/
def execSlliw (rd : Reg) (rs1 : Reg) (shamt : BitVec 5) (s : State) : Host.Outcome State Fault Refusal :=
  regShiftW (.slliw rd rs1 shamt) rd rs1 shamt shiftLeft s

/-- SRLIW (R425). -/
def execSrliw (rd : Reg) (rs1 : Reg) (shamt : BitVec 5) (s : State) : Host.Outcome State Fault Refusal :=
  regShiftW (.srliw rd rs1 shamt) rd rs1 shamt shiftRightLogical s

/-- SRAIW (R426). -/
def execSraiw (rd : Reg) (rs1 : Reg) (shamt : BitVec 5) (s : State) : Host.Outcome State Fault Refusal :=
  regShiftW (.sraiw rd rs1 shamt) rd rs1 shamt shiftRightArith s

/-- ADDW (R427). -/
def execAddw (rd : Reg) (rs1 : Reg) (rs2 : Reg) (s : State) : Host.Outcome State Fault Refusal :=
  regRegW (.addw rd rs1 rs2) rd rs1 rs2 (fun _ a b => a + b) s

/-- SUBW (R428). -/
def execSubw (rd : Reg) (rs1 : Reg) (rs2 : Reg) (s : State) : Host.Outcome State Fault Refusal :=
  regRegW (.subw rd rs1 rs2) rd rs1 rs2 (fun _ a b => a - b) s

/-- SLLW (R429). -/
def execSllw (rd : Reg) (rs1 : Reg) (rs2 : Reg) (s : State) : Host.Outcome State Fault Refusal :=
  regRegW (.sllw rd rs1 rs2) rd rs1 rs2 shiftLeft s

/-- SRLW (R430). -/
def execSrlw (rd : Reg) (rs1 : Reg) (rs2 : Reg) (s : State) : Host.Outcome State Fault Refusal :=
  regRegW (.srlw rd rs1 rs2) rd rs1 rs2 shiftRightLogical s

/-- SRAW (R430). -/
def execSraw (rd : Reg) (rs1 : Reg) (rs2 : Reg) (s : State) : Host.Outcome State Fault Refusal :=
  regRegW (.sraw rd rs1 rs2) rd rs1 rs2 shiftRightArith s

end Sys2Proof.Machine
end

