-- ==== Sys2Proof/Machine/Control.lean ====
section
/-! DEFINITION. Jumps and conditional branches (spec/41_control.md). -/

namespace Sys2Proof.Machine

open Sys2Proof

/-- rd links npc, and the next instruction is at `t` (R460 to R463). -/
def jumpLink (i : Instr) (rd : Reg) (t : Word) (s : State) : Host.Outcome State Fault Refusal :=
  .next ((s.writeX rd (s.npc i)).retireAt t)

/-- The target of JALR: bit 0 of the sum is cleared (R463). -/
def State.jalrTarget (s : State) (rs1 : Reg) (imm : BitVec 12) : Word := s.ea rs1 imm &&& ~~~1#64

/-- A branch: to `pc + off` where the condition holds of rs1 and rs2 at width XLEN, else to npc (R464). -/
def branch (i : Instr) (rs1 rs2 : Reg) {n : Nat} (off : BitVec n) (cond : (w : Nat) → BitVec w → BitVec w → Bool)
    (s : State) : Host.Outcome State Fault Refusal :=
  .next (if testXlen s.xlen cond (s.readX rs1) (s.readX rs2) then s.retireAt (s.pcPlus off) else s.retire i)

/-- The six conditions (R465 to R470). -/
def condEq (w : Nat) (a b : BitVec w) : Bool := decide (a = b)
def condNe (w : Nat) (a b : BitVec w) : Bool := decide (a ≠ b)
def condLt (w : Nat) (a b : BitVec w) : Bool := a.slt b
def condGe (w : Nat) (a b : BitVec w) : Bool := !a.slt b
def condLtu (w : Nat) (a b : BitVec w) : Bool := a.ult b
def condGeu (w : Nat) (a b : BitVec w) : Bool := !a.ult b

/-- JAL (R462). -/
def execJal (rd : Reg) (off : BitVec 21) (s : State) : Host.Outcome State Fault Refusal :=
  jumpLink (.jal rd off) rd (s.pcPlus off) s

/-- JALR (R463). -/
def execJalr (rd : Reg) (rs1 : Reg) (imm : BitVec 12) (s : State) : Host.Outcome State Fault Refusal :=
  jumpLink (.jalr rd rs1 imm) rd (s.jalrTarget rs1 imm) s

/-- BEQ (R465). -/
def execBeq (rs1 : Reg) (rs2 : Reg) (off : BitVec 13) (s : State) : Host.Outcome State Fault Refusal :=
  branch (.beq rs1 rs2 off) rs1 rs2 off condEq s

/-- BNE (R466). -/
def execBne (rs1 : Reg) (rs2 : Reg) (off : BitVec 13) (s : State) : Host.Outcome State Fault Refusal :=
  branch (.bne rs1 rs2 off) rs1 rs2 off condNe s

/-- BLT (R467). -/
def execBlt (rs1 : Reg) (rs2 : Reg) (off : BitVec 13) (s : State) : Host.Outcome State Fault Refusal :=
  branch (.blt rs1 rs2 off) rs1 rs2 off condLt s

/-- BGE (R468). -/
def execBge (rs1 : Reg) (rs2 : Reg) (off : BitVec 13) (s : State) : Host.Outcome State Fault Refusal :=
  branch (.bge rs1 rs2 off) rs1 rs2 off condGe s

/-- BLTU (R469). -/
def execBltu (rs1 : Reg) (rs2 : Reg) (off : BitVec 13) (s : State) : Host.Outcome State Fault Refusal :=
  branch (.bltu rs1 rs2 off) rs1 rs2 off condLtu s

/-- BGEU (R470). -/
def execBgeu (rs1 : Reg) (rs2 : Reg) (off : BitVec 13) (s : State) : Host.Outcome State Fault Refusal :=
  branch (.bgeu rs1 rs2 off) rs1 rs2 off condGeu s

end Sys2Proof.Machine
end

