-- ==== Sys2Proof/Machine/LoadStore.lean ====
section
/-! DEFINITION. Loads and stores, integer and floating-point (spec/42_loadstore.md). -/

namespace Sys2Proof.Machine

open Sys2Proof

/-- A load of `n` bytes at `a`: rd gets the extended value once the read has succeeded (R480). -/
def loadAt (i : Instr) (rd : Reg) (a : Word) (n : Nat) (ext : Xlen → Word → Word) (s : State) :
    Host.Outcome State Fault Refusal :=
  (s.memRead a n).complete fun v s1 => (s1.writeX rd (ext s.xlen v)).retire i

/-- A load addressed by rs1 and an immediate. -/
def load (i : Instr) (rd rs1 : Reg) (imm : BitVec 12) (n : Nat) (ext : Xlen → Word → Word) (s : State) :
    Host.Outcome State Fault Refusal :=
  loadAt i rd (s.ea rs1 imm) n ext s

/-- A store of the low `n` bytes of `v` (R480, R481). -/
def storeAt (i : Instr) (a : Word) (n : Nat) (v : Word) (s : State) : Host.Outcome State Fault Refusal :=
  (s.memWrite a n v).complete fun _ s1 => s1.retire i

/-- A store of rs2. -/
def store (i : Instr) (rs1 rs2 : Reg) (imm : BitVec 12) (n : Nat) (s : State) : Host.Outcome State Fault Refusal :=
  storeAt i (s.ea rs1 imm) n (s.readX rs2) s

/-- The extensions of a loaded value (R482 to R488). -/
def signedByte (x : Xlen) (v : Word) : Word := sextX x (v.setWidth 8 : BitVec 8)
def signedHalf (x : Xlen) (v : Word) : Word := sextX x (v.setWidth 16 : BitVec 16)
def signedWord (x : Xlen) (v : Word) : Word := sextX x (v.setWidth 32 : BitVec 32)
def zeroByte (x : Xlen) (v : Word) : Word := zextX x (v.setWidth 8 : BitVec 8)
def zeroHalf (x : Xlen) (v : Word) : Word := zextX x (v.setWidth 16 : BitVec 16)
def zeroWord (x : Xlen) (v : Word) : Word := zextX x (v.setWidth 32 : BitVec 32)
def double (_ : Xlen) (v : Word) : Word := v

/-- The gate of the floating-point loads and stores: FS = 0 is illegal, before any access (R71, R495). -/
def fpGate (i : Instr) (s : State) (k : Host.Outcome State Fault Refusal) : Host.Outcome State Fault Refusal :=
  if s.mstatus.fsOff then raiseIllegal i s else k

/-- A floating-point load: f[rd] is written and FS becomes Dirty (R495 to R497). -/
def fpLoad (i : Instr) (rd rs1 : Reg) (imm : BitVec 12) (n : Nat) (box : Word → BitVec 64) (s : State) :
    Host.Outcome State Fault Refusal :=
  fpGate i s ((s.memRead (s.ea rs1 imm) n).complete fun v s1 => ((s1.writeF rd (box v)).setFsDirty).retire i)

/-- A floating-point store of the low `n` bytes of f[rs2] (R495, R498, R499). -/
def fpStore (i : Instr) (rs1 rs2 : Reg) (imm : BitVec 12) (n : Nat) (s : State) : Host.Outcome State Fault Refusal :=
  fpGate i s (storeAt i (s.ea rs1 imm) n (s.readF rs2) s)

/-- The register value of a loaded single (R496) and double (R497). -/
def boxSingle (v : Word) : BitVec 64 := nanBox (v.setWidth 32)
def boxDouble (v : Word) : BitVec 64 := v

/-- LB (R482). -/
def execLb (rd : Reg) (rs1 : Reg) (imm : BitVec 12) (s : State) : Host.Outcome State Fault Refusal :=
  load (.lb rd rs1 imm) rd rs1 imm 1 signedByte s

/-- LH (R483). -/
def execLh (rd : Reg) (rs1 : Reg) (imm : BitVec 12) (s : State) : Host.Outcome State Fault Refusal :=
  load (.lh rd rs1 imm) rd rs1 imm 2 signedHalf s

/-- LW (R484). -/
def execLw (rd : Reg) (rs1 : Reg) (imm : BitVec 12) (s : State) : Host.Outcome State Fault Refusal :=
  load (.lw rd rs1 imm) rd rs1 imm 4 signedWord s

/-- LD (R485). -/
def execLd (rd : Reg) (rs1 : Reg) (imm : BitVec 12) (s : State) : Host.Outcome State Fault Refusal :=
  inMode .rv64 (.ld rd rs1 imm) s (load (.ld rd rs1 imm) rd rs1 imm 8 double s)

/-- LBU (R486). -/
def execLbu (rd : Reg) (rs1 : Reg) (imm : BitVec 12) (s : State) : Host.Outcome State Fault Refusal :=
  load (.lbu rd rs1 imm) rd rs1 imm 1 zeroByte s

/-- LHU (R487). -/
def execLhu (rd : Reg) (rs1 : Reg) (imm : BitVec 12) (s : State) : Host.Outcome State Fault Refusal :=
  load (.lhu rd rs1 imm) rd rs1 imm 2 zeroHalf s

/-- LWU (R488). -/
def execLwu (rd : Reg) (rs1 : Reg) (imm : BitVec 12) (s : State) : Host.Outcome State Fault Refusal :=
  inMode .rv64 (.lwu rd rs1 imm) s (load (.lwu rd rs1 imm) rd rs1 imm 4 zeroWord s)

/-- SB (R490). -/
def execSb (rs1 : Reg) (rs2 : Reg) (imm : BitVec 12) (s : State) : Host.Outcome State Fault Refusal :=
  store (.sb rs1 rs2 imm) rs1 rs2 imm 1 s

/-- SH (R491). -/
def execSh (rs1 : Reg) (rs2 : Reg) (imm : BitVec 12) (s : State) : Host.Outcome State Fault Refusal :=
  store (.sh rs1 rs2 imm) rs1 rs2 imm 2 s

/-- SW (R492). -/
def execSw (rs1 : Reg) (rs2 : Reg) (imm : BitVec 12) (s : State) : Host.Outcome State Fault Refusal :=
  store (.sw rs1 rs2 imm) rs1 rs2 imm 4 s

/-- SD (R493). -/
def execSd (rs1 : Reg) (rs2 : Reg) (imm : BitVec 12) (s : State) : Host.Outcome State Fault Refusal :=
  inMode .rv64 (.sd rs1 rs2 imm) s (store (.sd rs1 rs2 imm) rs1 rs2 imm 8 s)

/-- FLW (R496). -/
def execFlw (rd : Reg) (rs1 : Reg) (imm : BitVec 12) (s : State) : Host.Outcome State Fault Refusal :=
  fpLoad (.flw rd rs1 imm) rd rs1 imm 4 boxSingle s

/-- FLD (R497). -/
def execFld (rd : Reg) (rs1 : Reg) (imm : BitVec 12) (s : State) : Host.Outcome State Fault Refusal :=
  fpLoad (.fld rd rs1 imm) rd rs1 imm 8 boxDouble s

/-- FSW (R498). -/
def execFsw (rs1 : Reg) (rs2 : Reg) (imm : BitVec 12) (s : State) : Host.Outcome State Fault Refusal :=
  fpStore (.fsw rs1 rs2 imm) rs1 rs2 imm 4 s

/-- FSD (R499). -/
def execFsd (rs1 : Reg) (rs2 : Reg) (imm : BitVec 12) (s : State) : Host.Outcome State Fault Refusal :=
  fpStore (.fsd rs1 rs2 imm) rs1 rs2 imm 8 s

end Sys2Proof.Machine
end

