-- ==== Sys2Proof/Machine/System.lean ====
section
/-! DEFINITION. Fences, environment calls, trap returns and WFI (spec/46_system.md). -/

namespace Sys2Proof.Machine

open Sys2Proof

/-- The environment-call exception of a mode (R612). -/
def ecallExc : Priv → Exc
  | .U => .ecallU
  | .S => .ecallS
  | .M => .ecallM

/-- Illegal instruction in U-mode, and in S-mode where the trap bit is 1; else `k` (R615 to R617). -/
def supervisorGate (i : Instr) (trapBit : Bool) (s : State) (k : Host.Outcome State Fault Refusal) :
    Host.Outcome State Fault Refusal :=
  if decide (s.priv = .U) || (decide (s.priv = .S) && trapBit) then raiseIllegal i s else k

/-- SFENCE.VMA's effect on the TLB (R266, R616). -/
def State.sfence (s : State) (rs1 rs2 : Reg) : State :=
  { s with tlb := s.tlb.filter fun e => !sfenceRemoves s.xlen rs1 (s.readX rs1) rs2 (s.readX rs2) e }

/-- FENCE (R610). -/
def execFence (fm : BitVec 4) (pred : BitVec 4) (succ : BitVec 4) (rs1 : Reg) (rd : Reg) (s : State) : Host.Outcome State Fault Refusal :=
  .next (s.retire (.fence fm pred succ rs1 rd))

/-- FENCE.I (R611). -/
def execFenceI (imm : BitVec 12) (rs1 : Reg) (rd : Reg) (s : State) : Host.Outcome State Fault Refusal :=
  .next (s.retire (.fenceI imm rs1 rd))

/-- ECALL (R612). -/
def execEcall (s : State) : Host.Outcome State Fault Refusal :=
  raise (ecallExc s.priv) 0 s

/-- EBREAK (R613). -/
def execEbreak (s : State) : Host.Outcome State Fault Refusal :=
  raise .breakpoint 0 s

/-- SRET (R615). -/
def execSret (s : State) : Host.Outcome State Fault Refusal :=
  supervisorGate .sret s.mstatus.tsr s (.next (returnFromS s).countRetired)

/-- MRET (R614). -/
def execMret (s : State) : Host.Outcome State Fault Refusal :=
  if s.priv = .M then .next (returnFromM s).countRetired else raiseIllegal .mret s

/-- WFI (R617). -/
def execWfi (s : State) : Host.Outcome State Fault Refusal :=
  supervisorGate .wfi s.mstatus.tw s (.next (s.retire .wfi))

/-- SFENCE.VMA (R616). -/
def execSfenceVma (rs1 : Reg) (rs2 : Reg) (s : State) : Host.Outcome State Fault Refusal :=
  supervisorGate (.sfenceVma rs1 rs2) s.mstatus.tvm s (.next ((s.sfence rs1 rs2).retire (.sfenceVma rs1 rs2)))

end Sys2Proof.Machine
end

