-- ==== Sys2Proof/Machine/Compressed.lean ====
section
/-! DEFINITION. The compressed instructions (spec/47_compressed.md): each has the effect of its expansion with a length of 2 (R302, R303, R640). -/

namespace Sys2Proof.Machine

open Sys2Proof

/-- C.ADDI4SPN (R650). -/
def execCAddi4spn (rd : CReg) (imm : BitVec 10) (s : State) : Host.Outcome State Fault Refusal :=
  regImm (.cAddi4spn rd imm) (creg rd) 2#5 (imm.setWidth 12) addOp s

/-- C.FLD (R651). -/
def execCFld (rd : CReg) (rs1 : CReg) (imm : BitVec 8) (s : State) : Host.Outcome State Fault Refusal :=
  fpLoad (.cFld rd rs1 imm) (creg rd) (creg rs1) (imm.setWidth 12) 8 boxDouble s

/-- C.LW (R652). -/
def execCLw (rd : CReg) (rs1 : CReg) (imm : BitVec 7) (s : State) : Host.Outcome State Fault Refusal :=
  load (.cLw rd rs1 imm) (creg rd) (creg rs1) (imm.setWidth 12) 4 signedWord s

/-- C.FLW (R653). -/
def execCFlw (rd : CReg) (rs1 : CReg) (imm : BitVec 7) (s : State) : Host.Outcome State Fault Refusal :=
  inMode .rv32 (.cFlw rd rs1 imm) s (fpLoad (.cFlw rd rs1 imm) (creg rd) (creg rs1) (imm.setWidth 12) 4 boxSingle s)

/-- C.LD (R654). -/
def execCLd (rd : CReg) (rs1 : CReg) (imm : BitVec 8) (s : State) : Host.Outcome State Fault Refusal :=
  inMode .rv64 (.cLd rd rs1 imm) s (load (.cLd rd rs1 imm) (creg rd) (creg rs1) (imm.setWidth 12) 8 double s)

/-- C.FSD (R655). -/
def execCFsd (rs1 : CReg) (rs2 : CReg) (imm : BitVec 8) (s : State) : Host.Outcome State Fault Refusal :=
  fpStore (.cFsd rs1 rs2 imm) (creg rs1) (creg rs2) (imm.setWidth 12) 8 s

/-- C.SW (R656). -/
def execCSw (rs1 : CReg) (rs2 : CReg) (imm : BitVec 7) (s : State) : Host.Outcome State Fault Refusal :=
  store (.cSw rs1 rs2 imm) (creg rs1) (creg rs2) (imm.setWidth 12) 4 s

/-- C.FSW (R657). -/
def execCFsw (rs1 : CReg) (rs2 : CReg) (imm : BitVec 7) (s : State) : Host.Outcome State Fault Refusal :=
  inMode .rv32 (.cFsw rs1 rs2 imm) s (fpStore (.cFsw rs1 rs2 imm) (creg rs1) (creg rs2) (imm.setWidth 12) 4 s)

/-- C.SD (R658). -/
def execCSd (rs1 : CReg) (rs2 : CReg) (imm : BitVec 8) (s : State) : Host.Outcome State Fault Refusal :=
  inMode .rv64 (.cSd rs1 rs2 imm) s (store (.cSd rs1 rs2 imm) (creg rs1) (creg rs2) (imm.setWidth 12) 8 s)

/-- C.NOP (R659). -/
def execCNop (imm : BitVec 6) (s : State) : Host.Outcome State Fault Refusal :=
  regImm (.cNop imm) 0#5 0#5 (imm.signExtend 12) addOp s

/-- C.ADDI (R660). -/
def execCAddi (rd : Reg) (imm : BitVec 6) (s : State) : Host.Outcome State Fault Refusal :=
  regImm (.cAddi rd imm) rd rd (imm.signExtend 12) addOp s

/-- C.JAL (R661). -/
def execCJal (off : BitVec 12) (s : State) : Host.Outcome State Fault Refusal :=
  inMode .rv32 (.cJal off) s (jumpLink (.cJal off) 1#5 (s.pcPlus off) s)

/-- C.ADDIW (R662). -/
def execCAddiw (rd : Reg) (imm : BitVec 6) (s : State) : Host.Outcome State Fault Refusal :=
  inMode .rv64 (.cAddiw rd imm) s (writeRd (.cAddiw rd imm) rd (atWord (fun _ a b => a + b) (s.readX rd) (sextX s.xlen imm)) s)

/-- C.LI (R663). -/
def execCLi (rd : Reg) (imm : BitVec 6) (s : State) : Host.Outcome State Fault Refusal :=
  regImm (.cLi rd imm) rd 0#5 (imm.signExtend 12) addOp s

/-- C.ADDI16SP (R664). -/
def execCAddi16sp (imm : BitVec 10) (s : State) : Host.Outcome State Fault Refusal :=
  regImm (.cAddi16sp imm) 2#5 2#5 (imm.signExtend 12) addOp s

/-- C.LUI (R665). -/
def execCLui (rd : Reg) (imm : BitVec 6) (s : State) : Host.Outcome State Fault Refusal :=
  writeRd (.cLui rd imm) rd (upperImm s.xlen (imm.signExtend 20)) s

/-- C.SRLI (R666). -/
def execCSrli (rd : CReg) (shamt : BitVec 6) (s : State) : Host.Outcome State Fault Refusal :=
  regShift (.cSrli rd shamt) (creg rd) (creg rd) shamt srlOp s

/-- C.SRAI (R667). -/
def execCSrai (rd : CReg) (shamt : BitVec 6) (s : State) : Host.Outcome State Fault Refusal :=
  regShift (.cSrai rd shamt) (creg rd) (creg rd) shamt sraOp s

/-- C.ANDI (R668). -/
def execCAndi (rd : CReg) (imm : BitVec 6) (s : State) : Host.Outcome State Fault Refusal :=
  regImm (.cAndi rd imm) (creg rd) (creg rd) (imm.signExtend 12) andOp s

/-- C.SUB (R669). -/
def execCSub (rd : CReg) (rs2 : CReg) (s : State) : Host.Outcome State Fault Refusal :=
  regReg (.cSub rd rs2) (creg rd) (creg rd) (creg rs2) subOp s

/-- C.XOR (R670). -/
def execCXor (rd : CReg) (rs2 : CReg) (s : State) : Host.Outcome State Fault Refusal :=
  regReg (.cXor rd rs2) (creg rd) (creg rd) (creg rs2) xorOp s

/-- C.OR (R671). -/
def execCOr (rd : CReg) (rs2 : CReg) (s : State) : Host.Outcome State Fault Refusal :=
  regReg (.cOr rd rs2) (creg rd) (creg rd) (creg rs2) orOp s

/-- C.AND (R672). -/
def execCAnd (rd : CReg) (rs2 : CReg) (s : State) : Host.Outcome State Fault Refusal :=
  regReg (.cAnd rd rs2) (creg rd) (creg rd) (creg rs2) andOp s

/-- C.SUBW (R673). -/
def execCSubw (rd : CReg) (rs2 : CReg) (s : State) : Host.Outcome State Fault Refusal :=
  regRegW (.cSubw rd rs2) (creg rd) (creg rd) (creg rs2) (fun _ a b => a - b) s

/-- C.ADDW (R674). -/
def execCAddw (rd : CReg) (rs2 : CReg) (s : State) : Host.Outcome State Fault Refusal :=
  regRegW (.cAddw rd rs2) (creg rd) (creg rd) (creg rs2) (fun _ a b => a + b) s

/-- C.J (R675). -/
def execCJ (off : BitVec 12) (s : State) : Host.Outcome State Fault Refusal :=
  jumpLink (.cJ off) 0#5 (s.pcPlus off) s

/-- C.BEQZ (R676). -/
def execCBeqz (rs1 : CReg) (off : BitVec 9) (s : State) : Host.Outcome State Fault Refusal :=
  branch (.cBeqz rs1 off) (creg rs1) 0#5 off condEq s

/-- C.BNEZ (R677). -/
def execCBnez (rs1 : CReg) (off : BitVec 9) (s : State) : Host.Outcome State Fault Refusal :=
  branch (.cBnez rs1 off) (creg rs1) 0#5 off condNe s

/-- C.SLLI (R678). -/
def execCSlli (rd : Reg) (shamt : BitVec 6) (s : State) : Host.Outcome State Fault Refusal :=
  regShift (.cSlli rd shamt) rd rd shamt sllOp s

/-- C.FLDSP (R679). -/
def execCFldsp (rd : Reg) (imm : BitVec 9) (s : State) : Host.Outcome State Fault Refusal :=
  fpLoad (.cFldsp rd imm) rd 2#5 (imm.setWidth 12) 8 boxDouble s

/-- C.LWSP (R680). -/
def execCLwsp (rd : Reg) (imm : BitVec 8) (s : State) : Host.Outcome State Fault Refusal :=
  load (.cLwsp rd imm) rd 2#5 (imm.setWidth 12) 4 signedWord s

/-- C.FLWSP (R681). -/
def execCFlwsp (rd : Reg) (imm : BitVec 8) (s : State) : Host.Outcome State Fault Refusal :=
  inMode .rv32 (.cFlwsp rd imm) s (fpLoad (.cFlwsp rd imm) rd 2#5 (imm.setWidth 12) 4 boxSingle s)

/-- C.LDSP (R682). -/
def execCLdsp (rd : Reg) (imm : BitVec 9) (s : State) : Host.Outcome State Fault Refusal :=
  inMode .rv64 (.cLdsp rd imm) s (load (.cLdsp rd imm) rd 2#5 (imm.setWidth 12) 8 double s)

/-- C.JR (R683). -/
def execCJr (rs1 : Reg) (s : State) : Host.Outcome State Fault Refusal :=
  jumpLink (.cJr rs1) 0#5 (s.jalrTarget rs1 0#12) s

/-- C.MV (R684). -/
def execCMv (rd : Reg) (rs2 : Reg) (s : State) : Host.Outcome State Fault Refusal :=
  regReg (.cMv rd rs2) rd 0#5 rs2 addOp s

/-- C.EBREAK (R685). -/
def execCEbreak (s : State) : Host.Outcome State Fault Refusal :=
  raise .breakpoint 0 s

/-- C.JALR (R686). -/
def execCJalr (rs1 : Reg) (s : State) : Host.Outcome State Fault Refusal :=
  jumpLink (.cJalr rs1) 1#5 (s.jalrTarget rs1 0#12) s

/-- C.ADD (R687). -/
def execCAdd (rd : Reg) (rs2 : Reg) (s : State) : Host.Outcome State Fault Refusal :=
  regReg (.cAdd rd rs2) rd rd rs2 addOp s

/-- C.FSDSP (R688). -/
def execCFsdsp (rs2 : Reg) (imm : BitVec 9) (s : State) : Host.Outcome State Fault Refusal :=
  fpStore (.cFsdsp rs2 imm) 2#5 rs2 (imm.setWidth 12) 8 s

/-- C.SWSP (R689). -/
def execCSwsp (rs2 : Reg) (imm : BitVec 8) (s : State) : Host.Outcome State Fault Refusal :=
  store (.cSwsp rs2 imm) 2#5 rs2 (imm.setWidth 12) 4 s

/-- C.FSWSP (R690). -/
def execCFswsp (rs2 : Reg) (imm : BitVec 8) (s : State) : Host.Outcome State Fault Refusal :=
  inMode .rv32 (.cFswsp rs2 imm) s (fpStore (.cFswsp rs2 imm) 2#5 rs2 (imm.setWidth 12) 4 s)

/-- C.SDSP (R691). -/
def execCSdsp (rs2 : Reg) (imm : BitVec 9) (s : State) : Host.Outcome State Fault Refusal :=
  inMode .rv64 (.cSdsp rs2 imm) s (store (.cSdsp rs2 imm) 2#5 rs2 (imm.setWidth 12) 8 s)

end Sys2Proof.Machine
end

