-- ==== Sys2Proof/Machine/FpArith.lean ====
section
/-! DEFINITION. The F/D arithmetic major opcodes (spec/30_encoding.md R343): the spec gives them no effect beyond this. -/

namespace Sys2Proof.Machine

open Sys2Proof

/-- `refuse(FpArith)` where FS is not 0, illegal instruction where it is (R343). -/
def fpArithStop (i : Instr) (s : State) : Host.Outcome State Fault Refusal :=
  if s.mstatus.fsOff then raiseIllegal i s else .refused .fpArith

/-- FP-MADD (R343). -/
def execFpMadd (rd : Reg) (rs1 : Reg) (rs2 : Reg) (rm : BitVec 3) (hi : BitVec 7) (s : State) : Host.Outcome State Fault Refusal :=
  fpArithStop (.fpMadd rd rs1 rs2 rm hi) s

/-- FP-MSUB (R343). -/
def execFpMsub (rd : Reg) (rs1 : Reg) (rs2 : Reg) (rm : BitVec 3) (hi : BitVec 7) (s : State) : Host.Outcome State Fault Refusal :=
  fpArithStop (.fpMsub rd rs1 rs2 rm hi) s

/-- FP-NMSUB (R343). -/
def execFpNmsub (rd : Reg) (rs1 : Reg) (rs2 : Reg) (rm : BitVec 3) (hi : BitVec 7) (s : State) : Host.Outcome State Fault Refusal :=
  fpArithStop (.fpNmsub rd rs1 rs2 rm hi) s

/-- FP-NMADD (R343). -/
def execFpNmadd (rd : Reg) (rs1 : Reg) (rs2 : Reg) (rm : BitVec 3) (hi : BitVec 7) (s : State) : Host.Outcome State Fault Refusal :=
  fpArithStop (.fpNmadd rd rs1 rs2 rm hi) s

/-- FP-OP (R343). -/
def execFpOp (rd : Reg) (rs1 : Reg) (rs2 : Reg) (rm : BitVec 3) (hi : BitVec 7) (s : State) : Host.Outcome State Fault Refusal :=
  fpArithStop (.fpOp rd rs1 rs2 rm hi) s

end Sys2Proof.Machine
end

