-- ==== Sys2Proof/Machine/MulDiv.lean ====
section
/-! DEFINITION. Multiply and divide (spec/43_muldiv.md). -/

namespace Sys2Proof.Machine

open Sys2Proof

/-- The low half of a product (R512). -/
def mulLow (w : Nat) (a b : BitVec w) : BitVec w := a * b

/-- The bits 2w-1 to w of an exact product (R513 to R515). -/
def highHalf (w : Nat) (p : Int) : BitVec w := BitVec.ofInt w (p / 2 ^ w)
def mulHighSS (w : Nat) (a b : BitVec w) : BitVec w := highHalf w (a.toInt * b.toInt)
def mulHighSU (w : Nat) (a b : BitVec w) : BitVec w := highHalf w (a.toInt * b.toNat)
def mulHighUU (w : Nat) (a b : BitVec w) : BitVec w := highHalf w (a.toNat * b.toNat)

/-- Signed and unsigned division and remainder with the corner cases of R511: the exact quotient of MIN by -1, and the
remainder 0, are what narrowing gives. -/
def divSigned (w : Nat) (a b : BitVec w) : BitVec w := if b = 0 then BitVec.allOnes w else BitVec.ofInt w (a.toInt.tdiv b.toInt)
def divUnsigned (w : Nat) (a b : BitVec w) : BitVec w := if b = 0 then BitVec.allOnes w else BitVec.ofNat w (a.toNat / b.toNat)
def remSigned (w : Nat) (a b : BitVec w) : BitVec w := if b = 0 then a else BitVec.ofInt w (a.toInt.tmod b.toInt)
def remUnsigned (w : Nat) (a b : BitVec w) : BitVec w := if b = 0 then a else BitVec.ofNat w (a.toNat % b.toNat)

/-- MUL (R512). -/
def execMul (rd : Reg) (rs1 : Reg) (rs2 : Reg) (s : State) : Host.Outcome State Fault Refusal :=
  regReg (.mul rd rs1 rs2) rd rs1 rs2 (atXlen · mulLow) s

/-- MULH (R513). -/
def execMulh (rd : Reg) (rs1 : Reg) (rs2 : Reg) (s : State) : Host.Outcome State Fault Refusal :=
  regReg (.mulh rd rs1 rs2) rd rs1 rs2 (atXlen · mulHighSS) s

/-- MULHSU (R514). -/
def execMulhsu (rd : Reg) (rs1 : Reg) (rs2 : Reg) (s : State) : Host.Outcome State Fault Refusal :=
  regReg (.mulhsu rd rs1 rs2) rd rs1 rs2 (atXlen · mulHighSU) s

/-- MULHU (R515). -/
def execMulhu (rd : Reg) (rs1 : Reg) (rs2 : Reg) (s : State) : Host.Outcome State Fault Refusal :=
  regReg (.mulhu rd rs1 rs2) rd rs1 rs2 (atXlen · mulHighUU) s

/-- DIV (R516). -/
def execDiv (rd : Reg) (rs1 : Reg) (rs2 : Reg) (s : State) : Host.Outcome State Fault Refusal :=
  regReg (.div rd rs1 rs2) rd rs1 rs2 (atXlen · divSigned) s

/-- DIVU (R517). -/
def execDivu (rd : Reg) (rs1 : Reg) (rs2 : Reg) (s : State) : Host.Outcome State Fault Refusal :=
  regReg (.divu rd rs1 rs2) rd rs1 rs2 (atXlen · divUnsigned) s

/-- REM (R518). -/
def execRem (rd : Reg) (rs1 : Reg) (rs2 : Reg) (s : State) : Host.Outcome State Fault Refusal :=
  regReg (.rem rd rs1 rs2) rd rs1 rs2 (atXlen · remSigned) s

/-- REMU (R519). -/
def execRemu (rd : Reg) (rs1 : Reg) (rs2 : Reg) (s : State) : Host.Outcome State Fault Refusal :=
  regReg (.remu rd rs1 rs2) rd rs1 rs2 (atXlen · remUnsigned) s

/-- MULW (R520). -/
def execMulw (rd : Reg) (rs1 : Reg) (rs2 : Reg) (s : State) : Host.Outcome State Fault Refusal :=
  regRegW (.mulw rd rs1 rs2) rd rs1 rs2 mulLow s

/-- DIVW (R521). -/
def execDivw (rd : Reg) (rs1 : Reg) (rs2 : Reg) (s : State) : Host.Outcome State Fault Refusal :=
  regRegW (.divw rd rs1 rs2) rd rs1 rs2 divSigned s

/-- DIVUW (R522). -/
def execDivuw (rd : Reg) (rs1 : Reg) (rs2 : Reg) (s : State) : Host.Outcome State Fault Refusal :=
  regRegW (.divuw rd rs1 rs2) rd rs1 rs2 divUnsigned s

/-- REMW (R523). -/
def execRemw (rd : Reg) (rs1 : Reg) (rs2 : Reg) (s : State) : Host.Outcome State Fault Refusal :=
  regRegW (.remw rd rs1 rs2) rd rs1 rs2 remSigned s

/-- REMUW (R524). -/
def execRemuw (rd : Reg) (rs1 : Reg) (rs2 : Reg) (s : State) : Host.Outcome State Fault Refusal :=
  regRegW (.remuw rd rs1 rs2) rd rs1 rs2 remUnsigned s

end Sys2Proof.Machine
end

