-- ==== Sys2Proof/Machine/Zicsr.lean ====
section
/-! DEFINITION. The six CSR instructions (spec/45_csr.md R590 to R595). -/

namespace Sys2Proof.Machine

open Sys2Proof

/-- The CSR functions of the written operand `v` and the old value (R590 to R595). -/
def csrReplace (v : Word) (_ : Word) : Word := v
def csrSet (v : Word) (old : Word) : Word := old ||| v
def csrClear (v : Word) (old : Word) : Word := old &&& ~~~v

/-- CSRRW (R590). -/
def execCsrrw (rd : Reg) (rs1 : Reg) (csr : BitVec 12) (s : State) : Host.Outcome State Fault Refusal :=
  csrOp (.csrrw rd rs1 csr) rd csr true (csrReplace (s.readX rs1)) s

/-- CSRRS (R591). -/
def execCsrrs (rd : Reg) (rs1 : Reg) (csr : BitVec 12) (s : State) : Host.Outcome State Fault Refusal :=
  csrOp (.csrrs rd rs1 csr) rd csr (decide (rs1 ≠ 0#5)) (csrSet (s.readX rs1)) s

/-- CSRRC (R592). -/
def execCsrrc (rd : Reg) (rs1 : Reg) (csr : BitVec 12) (s : State) : Host.Outcome State Fault Refusal :=
  csrOp (.csrrc rd rs1 csr) rd csr (decide (rs1 ≠ 0#5)) (csrClear (s.readX rs1)) s

/-- CSRRWI (R593). -/
def execCsrrwi (rd : Reg) (uimm : BitVec 5) (csr : BitVec 12) (s : State) : Host.Outcome State Fault Refusal :=
  csrOp (.csrrwi rd uimm csr) rd csr true (csrReplace (uimm.setWidth 64)) s

/-- CSRRSI (R594). -/
def execCsrrsi (rd : Reg) (uimm : BitVec 5) (csr : BitVec 12) (s : State) : Host.Outcome State Fault Refusal :=
  csrOp (.csrrsi rd uimm csr) rd csr (decide (uimm ≠ 0#5)) (csrSet (uimm.setWidth 64)) s

/-- CSRRCI (R595). -/
def execCsrrci (rd : Reg) (uimm : BitVec 5) (csr : BitVec 12) (s : State) : Host.Outcome State Fault Refusal :=
  csrOp (.csrrci rd uimm csr) rd csr (decide (uimm ≠ 0#5)) (csrClear (uimm.setWidth 64)) s

end Sys2Proof.Machine
end

