-- ==== Sys2Proof/Machine/Shape.lean ====
section
/-! DEFINITION. Kinds of instruction: the registers one writes, the memory it accesses. -/

namespace Sys2Proof

/-- The integer register an instruction writes, if it writes one. -/
def Instr.dest : Instr → Option Reg
  | .lui rd _ => some rd
  | .auipc rd _ => some rd
  | .addi rd _ _ => some rd
  | .slti rd _ _ => some rd
  | .sltiu rd _ _ => some rd
  | .xori rd _ _ => some rd
  | .ori rd _ _ => some rd
  | .andi rd _ _ => some rd
  | .slli rd _ _ => some rd
  | .srli rd _ _ => some rd
  | .srai rd _ _ => some rd
  | .add rd _ _ => some rd
  | .sub rd _ _ => some rd
  | .sll rd _ _ => some rd
  | .slt rd _ _ => some rd
  | .sltu rd _ _ => some rd
  | .xor rd _ _ => some rd
  | .srl rd _ _ => some rd
  | .sra rd _ _ => some rd
  | .or rd _ _ => some rd
  | .and rd _ _ => some rd
  | .addiw rd _ _ => some rd
  | .slliw rd _ _ => some rd
  | .srliw rd _ _ => some rd
  | .sraiw rd _ _ => some rd
  | .addw rd _ _ => some rd
  | .subw rd _ _ => some rd
  | .sllw rd _ _ => some rd
  | .srlw rd _ _ => some rd
  | .sraw rd _ _ => some rd
  | .jal rd _ => some rd
  | .jalr rd _ _ => some rd
  | .beq _ _ _ => none
  | .bne _ _ _ => none
  | .blt _ _ _ => none
  | .bge _ _ _ => none
  | .bltu _ _ _ => none
  | .bgeu _ _ _ => none
  | .lb rd _ _ => some rd
  | .lh rd _ _ => some rd
  | .lw rd _ _ => some rd
  | .ld rd _ _ => some rd
  | .lbu rd _ _ => some rd
  | .lhu rd _ _ => some rd
  | .lwu rd _ _ => some rd
  | .sb _ _ _ => none
  | .sh _ _ _ => none
  | .sw _ _ _ => none
  | .sd _ _ _ => none
  | .flw _ _ _ => none
  | .fld _ _ _ => none
  | .fsw _ _ _ => none
  | .fsd _ _ _ => none
  | .fence _ _ _ _ _ => none
  | .fenceI _ _ _ => none
  | .mul rd _ _ => some rd
  | .mulh rd _ _ => some rd
  | .mulhsu rd _ _ => some rd
  | .mulhu rd _ _ => some rd
  | .div rd _ _ => some rd
  | .divu rd _ _ => some rd
  | .rem rd _ _ => some rd
  | .remu rd _ _ => some rd
  | .mulw rd _ _ => some rd
  | .divw rd _ _ => some rd
  | .divuw rd _ _ => some rd
  | .remw rd _ _ => some rd
  | .remuw rd _ _ => some rd
  | .lrW rd _ _ _ => some rd
  | .scW rd _ _ _ _ => some rd
  | .amoswapW rd _ _ _ _ => some rd
  | .amoaddW rd _ _ _ _ => some rd
  | .amoxorW rd _ _ _ _ => some rd
  | .amoandW rd _ _ _ _ => some rd
  | .amoorW rd _ _ _ _ => some rd
  | .amominW rd _ _ _ _ => some rd
  | .amomaxW rd _ _ _ _ => some rd
  | .amominuW rd _ _ _ _ => some rd
  | .amomaxuW rd _ _ _ _ => some rd
  | .lrD rd _ _ _ => some rd
  | .scD rd _ _ _ _ => some rd
  | .amoswapD rd _ _ _ _ => some rd
  | .amoaddD rd _ _ _ _ => some rd
  | .amoxorD rd _ _ _ _ => some rd
  | .amoandD rd _ _ _ _ => some rd
  | .amoorD rd _ _ _ _ => some rd
  | .amominD rd _ _ _ _ => some rd
  | .amomaxD rd _ _ _ _ => some rd
  | .amominuD rd _ _ _ _ => some rd
  | .amomaxuD rd _ _ _ _ => some rd
  | .csrrw rd _ _ => some rd
  | .csrrs rd _ _ => some rd
  | .csrrc rd _ _ => some rd
  | .csrrwi rd _ _ => some rd
  | .csrrsi rd _ _ => some rd
  | .csrrci rd _ _ => some rd
  | .ecall => none
  | .ebreak => none
  | .sret => none
  | .mret => none
  | .wfi => none
  | .sfenceVma _ _ => none
  | .fpMadd _ _ _ _ _ => none
  | .fpMsub _ _ _ _ _ => none
  | .fpNmsub _ _ _ _ _ => none
  | .fpNmadd _ _ _ _ _ => none
  | .fpOp _ _ _ _ _ => none
  | .cAddi4spn rd _ => some (creg rd)
  | .cFld _ _ _ => none
  | .cLw rd _ _ => some (creg rd)
  | .cFlw _ _ _ => none
  | .cLd rd _ _ => some (creg rd)
  | .cFsd _ _ _ => none
  | .cSw _ _ _ => none
  | .cFsw _ _ _ => none
  | .cSd _ _ _ => none
  | .cNop _ => none
  | .cAddi rd _ => some rd
  | .cJal _ => some 1#5
  | .cAddiw rd _ => some rd
  | .cLi rd _ => some rd
  | .cAddi16sp _ => some 2#5
  | .cLui rd _ => some rd
  | .cSrli rd _ => some (creg rd)
  | .cSrai rd _ => some (creg rd)
  | .cAndi rd _ => some (creg rd)
  | .cSub rd _ => some (creg rd)
  | .cXor rd _ => some (creg rd)
  | .cOr rd _ => some (creg rd)
  | .cAnd rd _ => some (creg rd)
  | .cSubw rd _ => some (creg rd)
  | .cAddw rd _ => some (creg rd)
  | .cJ _ => none
  | .cBeqz _ _ => none
  | .cBnez _ _ => none
  | .cSlli rd _ => some rd
  | .cFldsp _ _ => none
  | .cLwsp rd _ => some rd
  | .cFlwsp _ _ => none
  | .cLdsp rd _ => some rd
  | .cJr _ => none
  | .cMv rd _ => some rd
  | .cEbreak => none
  | .cJalr _ => some 1#5
  | .cAdd rd _ => some rd
  | .cFsdsp _ _ => none
  | .cSwsp _ _ => none
  | .cFswsp _ _ => none
  | .cSdsp _ _ => none

/-- The floating-point register an instruction writes, if it writes one (42_loadstore.md R495). -/
def Instr.fdest : Instr → Option Reg
  | .lui _ _ => none
  | .auipc _ _ => none
  | .addi _ _ _ => none
  | .slti _ _ _ => none
  | .sltiu _ _ _ => none
  | .xori _ _ _ => none
  | .ori _ _ _ => none
  | .andi _ _ _ => none
  | .slli _ _ _ => none
  | .srli _ _ _ => none
  | .srai _ _ _ => none
  | .add _ _ _ => none
  | .sub _ _ _ => none
  | .sll _ _ _ => none
  | .slt _ _ _ => none
  | .sltu _ _ _ => none
  | .xor _ _ _ => none
  | .srl _ _ _ => none
  | .sra _ _ _ => none
  | .or _ _ _ => none
  | .and _ _ _ => none
  | .addiw _ _ _ => none
  | .slliw _ _ _ => none
  | .srliw _ _ _ => none
  | .sraiw _ _ _ => none
  | .addw _ _ _ => none
  | .subw _ _ _ => none
  | .sllw _ _ _ => none
  | .srlw _ _ _ => none
  | .sraw _ _ _ => none
  | .jal _ _ => none
  | .jalr _ _ _ => none
  | .beq _ _ _ => none
  | .bne _ _ _ => none
  | .blt _ _ _ => none
  | .bge _ _ _ => none
  | .bltu _ _ _ => none
  | .bgeu _ _ _ => none
  | .lb _ _ _ => none
  | .lh _ _ _ => none
  | .lw _ _ _ => none
  | .ld _ _ _ => none
  | .lbu _ _ _ => none
  | .lhu _ _ _ => none
  | .lwu _ _ _ => none
  | .sb _ _ _ => none
  | .sh _ _ _ => none
  | .sw _ _ _ => none
  | .sd _ _ _ => none
  | .flw rd _ _ => some rd
  | .fld rd _ _ => some rd
  | .fsw _ _ _ => none
  | .fsd _ _ _ => none
  | .fence _ _ _ _ _ => none
  | .fenceI _ _ _ => none
  | .mul _ _ _ => none
  | .mulh _ _ _ => none
  | .mulhsu _ _ _ => none
  | .mulhu _ _ _ => none
  | .div _ _ _ => none
  | .divu _ _ _ => none
  | .rem _ _ _ => none
  | .remu _ _ _ => none
  | .mulw _ _ _ => none
  | .divw _ _ _ => none
  | .divuw _ _ _ => none
  | .remw _ _ _ => none
  | .remuw _ _ _ => none
  | .lrW _ _ _ _ => none
  | .scW _ _ _ _ _ => none
  | .amoswapW _ _ _ _ _ => none
  | .amoaddW _ _ _ _ _ => none
  | .amoxorW _ _ _ _ _ => none
  | .amoandW _ _ _ _ _ => none
  | .amoorW _ _ _ _ _ => none
  | .amominW _ _ _ _ _ => none
  | .amomaxW _ _ _ _ _ => none
  | .amominuW _ _ _ _ _ => none
  | .amomaxuW _ _ _ _ _ => none
  | .lrD _ _ _ _ => none
  | .scD _ _ _ _ _ => none
  | .amoswapD _ _ _ _ _ => none
  | .amoaddD _ _ _ _ _ => none
  | .amoxorD _ _ _ _ _ => none
  | .amoandD _ _ _ _ _ => none
  | .amoorD _ _ _ _ _ => none
  | .amominD _ _ _ _ _ => none
  | .amomaxD _ _ _ _ _ => none
  | .amominuD _ _ _ _ _ => none
  | .amomaxuD _ _ _ _ _ => none
  | .csrrw _ _ _ => none
  | .csrrs _ _ _ => none
  | .csrrc _ _ _ => none
  | .csrrwi _ _ _ => none
  | .csrrsi _ _ _ => none
  | .csrrci _ _ _ => none
  | .ecall => none
  | .ebreak => none
  | .sret => none
  | .mret => none
  | .wfi => none
  | .sfenceVma _ _ => none
  | .fpMadd _ _ _ _ _ => none
  | .fpMsub _ _ _ _ _ => none
  | .fpNmsub _ _ _ _ _ => none
  | .fpNmadd _ _ _ _ _ => none
  | .fpOp _ _ _ _ _ => none
  | .cAddi4spn _ _ => none
  | .cFld rd _ _ => some (creg rd)
  | .cLw _ _ _ => none
  | .cFlw rd _ _ => some (creg rd)
  | .cLd _ _ _ => none
  | .cFsd _ _ _ => none
  | .cSw _ _ _ => none
  | .cFsw _ _ _ => none
  | .cSd _ _ _ => none
  | .cNop _ => none
  | .cAddi _ _ => none
  | .cJal _ => none
  | .cAddiw _ _ => none
  | .cLi _ _ => none
  | .cAddi16sp _ => none
  | .cLui _ _ => none
  | .cSrli _ _ => none
  | .cSrai _ _ => none
  | .cAndi _ _ => none
  | .cSub _ _ => none
  | .cXor _ _ => none
  | .cOr _ _ => none
  | .cAnd _ _ => none
  | .cSubw _ _ => none
  | .cAddw _ _ => none
  | .cJ _ => none
  | .cBeqz _ _ => none
  | .cBnez _ _ => none
  | .cSlli _ _ => none
  | .cFldsp rd _ => some rd
  | .cLwsp _ _ => none
  | .cFlwsp rd _ => some rd
  | .cLdsp _ _ => none
  | .cJr _ => none
  | .cMv _ _ => none
  | .cEbreak => none
  | .cJalr _ => none
  | .cAdd _ _ => none
  | .cFsdsp _ _ => none
  | .cSwsp _ _ => none
  | .cFswsp _ _ => none
  | .cSdsp _ _ => none

/-- The instruction stores to memory: a store, an SC or an AMO, compressed or not (44_atomic.md R540). -/
def Instr.stores : Instr → Bool
  | .lui _ _ => false
  | .auipc _ _ => false
  | .addi _ _ _ => false
  | .slti _ _ _ => false
  | .sltiu _ _ _ => false
  | .xori _ _ _ => false
  | .ori _ _ _ => false
  | .andi _ _ _ => false
  | .slli _ _ _ => false
  | .srli _ _ _ => false
  | .srai _ _ _ => false
  | .add _ _ _ => false
  | .sub _ _ _ => false
  | .sll _ _ _ => false
  | .slt _ _ _ => false
  | .sltu _ _ _ => false
  | .xor _ _ _ => false
  | .srl _ _ _ => false
  | .sra _ _ _ => false
  | .or _ _ _ => false
  | .and _ _ _ => false
  | .addiw _ _ _ => false
  | .slliw _ _ _ => false
  | .srliw _ _ _ => false
  | .sraiw _ _ _ => false
  | .addw _ _ _ => false
  | .subw _ _ _ => false
  | .sllw _ _ _ => false
  | .srlw _ _ _ => false
  | .sraw _ _ _ => false
  | .jal _ _ => false
  | .jalr _ _ _ => false
  | .beq _ _ _ => false
  | .bne _ _ _ => false
  | .blt _ _ _ => false
  | .bge _ _ _ => false
  | .bltu _ _ _ => false
  | .bgeu _ _ _ => false
  | .lb _ _ _ => false
  | .lh _ _ _ => false
  | .lw _ _ _ => false
  | .ld _ _ _ => false
  | .lbu _ _ _ => false
  | .lhu _ _ _ => false
  | .lwu _ _ _ => false
  | .sb _ _ _ => true
  | .sh _ _ _ => true
  | .sw _ _ _ => true
  | .sd _ _ _ => true
  | .flw _ _ _ => false
  | .fld _ _ _ => false
  | .fsw _ _ _ => true
  | .fsd _ _ _ => true
  | .fence _ _ _ _ _ => false
  | .fenceI _ _ _ => false
  | .mul _ _ _ => false
  | .mulh _ _ _ => false
  | .mulhsu _ _ _ => false
  | .mulhu _ _ _ => false
  | .div _ _ _ => false
  | .divu _ _ _ => false
  | .rem _ _ _ => false
  | .remu _ _ _ => false
  | .mulw _ _ _ => false
  | .divw _ _ _ => false
  | .divuw _ _ _ => false
  | .remw _ _ _ => false
  | .remuw _ _ _ => false
  | .lrW _ _ _ _ => false
  | .scW _ _ _ _ _ => true
  | .amoswapW _ _ _ _ _ => true
  | .amoaddW _ _ _ _ _ => true
  | .amoxorW _ _ _ _ _ => true
  | .amoandW _ _ _ _ _ => true
  | .amoorW _ _ _ _ _ => true
  | .amominW _ _ _ _ _ => true
  | .amomaxW _ _ _ _ _ => true
  | .amominuW _ _ _ _ _ => true
  | .amomaxuW _ _ _ _ _ => true
  | .lrD _ _ _ _ => false
  | .scD _ _ _ _ _ => true
  | .amoswapD _ _ _ _ _ => true
  | .amoaddD _ _ _ _ _ => true
  | .amoxorD _ _ _ _ _ => true
  | .amoandD _ _ _ _ _ => true
  | .amoorD _ _ _ _ _ => true
  | .amominD _ _ _ _ _ => true
  | .amomaxD _ _ _ _ _ => true
  | .amominuD _ _ _ _ _ => true
  | .amomaxuD _ _ _ _ _ => true
  | .csrrw _ _ _ => false
  | .csrrs _ _ _ => false
  | .csrrc _ _ _ => false
  | .csrrwi _ _ _ => false
  | .csrrsi _ _ _ => false
  | .csrrci _ _ _ => false
  | .ecall => false
  | .ebreak => false
  | .sret => false
  | .mret => false
  | .wfi => false
  | .sfenceVma _ _ => false
  | .fpMadd _ _ _ _ _ => false
  | .fpMsub _ _ _ _ _ => false
  | .fpNmsub _ _ _ _ _ => false
  | .fpNmadd _ _ _ _ _ => false
  | .fpOp _ _ _ _ _ => false
  | .cAddi4spn _ _ => false
  | .cFld _ _ _ => false
  | .cLw _ _ _ => false
  | .cFlw _ _ _ => false
  | .cLd _ _ _ => false
  | .cFsd _ _ _ => true
  | .cSw _ _ _ => true
  | .cFsw _ _ _ => true
  | .cSd _ _ _ => true
  | .cNop _ => false
  | .cAddi _ _ => false
  | .cJal _ => false
  | .cAddiw _ _ => false
  | .cLi _ _ => false
  | .cAddi16sp _ => false
  | .cLui _ _ => false
  | .cSrli _ _ => false
  | .cSrai _ _ => false
  | .cAndi _ _ => false
  | .cSub _ _ => false
  | .cXor _ _ => false
  | .cOr _ _ => false
  | .cAnd _ _ => false
  | .cSubw _ _ => false
  | .cAddw _ _ => false
  | .cJ _ => false
  | .cBeqz _ _ => false
  | .cBnez _ _ => false
  | .cSlli _ _ => false
  | .cFldsp _ _ => false
  | .cLwsp _ _ => false
  | .cFlwsp _ _ => false
  | .cLdsp _ _ => false
  | .cJr _ => false
  | .cMv _ _ => false
  | .cEbreak => false
  | .cJalr _ => false
  | .cAdd _ _ => false
  | .cFsdsp _ _ => true
  | .cSwsp _ _ => true
  | .cFswsp _ _ => true
  | .cSdsp _ _ => true

/-- The base register, the immediate and the number of bytes of a load or store, of either register file, compressed or not
(42_loadstore.md R480, 47_compressed.md R651 to R691). -/
def Instr.access : Instr → Option (Reg × BitVec 12 × Nat)
  | .lui _ _ => none
  | .auipc _ _ => none
  | .addi _ _ _ => none
  | .slti _ _ _ => none
  | .sltiu _ _ _ => none
  | .xori _ _ _ => none
  | .ori _ _ _ => none
  | .andi _ _ _ => none
  | .slli _ _ _ => none
  | .srli _ _ _ => none
  | .srai _ _ _ => none
  | .add _ _ _ => none
  | .sub _ _ _ => none
  | .sll _ _ _ => none
  | .slt _ _ _ => none
  | .sltu _ _ _ => none
  | .xor _ _ _ => none
  | .srl _ _ _ => none
  | .sra _ _ _ => none
  | .or _ _ _ => none
  | .and _ _ _ => none
  | .addiw _ _ _ => none
  | .slliw _ _ _ => none
  | .srliw _ _ _ => none
  | .sraiw _ _ _ => none
  | .addw _ _ _ => none
  | .subw _ _ _ => none
  | .sllw _ _ _ => none
  | .srlw _ _ _ => none
  | .sraw _ _ _ => none
  | .jal _ _ => none
  | .jalr _ _ _ => none
  | .beq _ _ _ => none
  | .bne _ _ _ => none
  | .blt _ _ _ => none
  | .bge _ _ _ => none
  | .bltu _ _ _ => none
  | .bgeu _ _ _ => none
  | .lb _ rs1 imm => some (rs1, imm, 1)
  | .lh _ rs1 imm => some (rs1, imm, 2)
  | .lw _ rs1 imm => some (rs1, imm, 4)
  | .ld _ rs1 imm => some (rs1, imm, 8)
  | .lbu _ rs1 imm => some (rs1, imm, 1)
  | .lhu _ rs1 imm => some (rs1, imm, 2)
  | .lwu _ rs1 imm => some (rs1, imm, 4)
  | .sb rs1 _ imm => some (rs1, imm, 1)
  | .sh rs1 _ imm => some (rs1, imm, 2)
  | .sw rs1 _ imm => some (rs1, imm, 4)
  | .sd rs1 _ imm => some (rs1, imm, 8)
  | .flw _ rs1 imm => some (rs1, imm, 4)
  | .fld _ rs1 imm => some (rs1, imm, 8)
  | .fsw rs1 _ imm => some (rs1, imm, 4)
  | .fsd rs1 _ imm => some (rs1, imm, 8)
  | .fence _ _ _ _ _ => none
  | .fenceI _ _ _ => none
  | .mul _ _ _ => none
  | .mulh _ _ _ => none
  | .mulhsu _ _ _ => none
  | .mulhu _ _ _ => none
  | .div _ _ _ => none
  | .divu _ _ _ => none
  | .rem _ _ _ => none
  | .remu _ _ _ => none
  | .mulw _ _ _ => none
  | .divw _ _ _ => none
  | .divuw _ _ _ => none
  | .remw _ _ _ => none
  | .remuw _ _ _ => none
  | .lrW _ _ _ _ => none
  | .scW _ _ _ _ _ => none
  | .amoswapW _ _ _ _ _ => none
  | .amoaddW _ _ _ _ _ => none
  | .amoxorW _ _ _ _ _ => none
  | .amoandW _ _ _ _ _ => none
  | .amoorW _ _ _ _ _ => none
  | .amominW _ _ _ _ _ => none
  | .amomaxW _ _ _ _ _ => none
  | .amominuW _ _ _ _ _ => none
  | .amomaxuW _ _ _ _ _ => none
  | .lrD _ _ _ _ => none
  | .scD _ _ _ _ _ => none
  | .amoswapD _ _ _ _ _ => none
  | .amoaddD _ _ _ _ _ => none
  | .amoxorD _ _ _ _ _ => none
  | .amoandD _ _ _ _ _ => none
  | .amoorD _ _ _ _ _ => none
  | .amominD _ _ _ _ _ => none
  | .amomaxD _ _ _ _ _ => none
  | .amominuD _ _ _ _ _ => none
  | .amomaxuD _ _ _ _ _ => none
  | .csrrw _ _ _ => none
  | .csrrs _ _ _ => none
  | .csrrc _ _ _ => none
  | .csrrwi _ _ _ => none
  | .csrrsi _ _ _ => none
  | .csrrci _ _ _ => none
  | .ecall => none
  | .ebreak => none
  | .sret => none
  | .mret => none
  | .wfi => none
  | .sfenceVma _ _ => none
  | .fpMadd _ _ _ _ _ => none
  | .fpMsub _ _ _ _ _ => none
  | .fpNmsub _ _ _ _ _ => none
  | .fpNmadd _ _ _ _ _ => none
  | .fpOp _ _ _ _ _ => none
  | .cAddi4spn _ _ => none
  | .cFld _ base off => some (creg base, off.setWidth 12, 8)
  | .cLw _ base off => some (creg base, off.setWidth 12, 4)
  | .cFlw _ base off => some (creg base, off.setWidth 12, 4)
  | .cLd _ base off => some (creg base, off.setWidth 12, 8)
  | .cFsd base _ off => some (creg base, off.setWidth 12, 8)
  | .cSw base _ off => some (creg base, off.setWidth 12, 4)
  | .cFsw base _ off => some (creg base, off.setWidth 12, 4)
  | .cSd base _ off => some (creg base, off.setWidth 12, 8)
  | .cNop _ => none
  | .cAddi _ _ => none
  | .cJal _ => none
  | .cAddiw _ _ => none
  | .cLi _ _ => none
  | .cAddi16sp _ => none
  | .cLui _ _ => none
  | .cSrli _ _ => none
  | .cSrai _ _ => none
  | .cAndi _ _ => none
  | .cSub _ _ => none
  | .cXor _ _ => none
  | .cOr _ _ => none
  | .cAnd _ _ => none
  | .cSubw _ _ => none
  | .cAddw _ _ => none
  | .cJ _ => none
  | .cBeqz _ _ => none
  | .cBnez _ _ => none
  | .cSlli _ _ => none
  | .cFldsp _ off => some (2#5, off.setWidth 12, 8)
  | .cLwsp _ off => some (2#5, off.setWidth 12, 4)
  | .cFlwsp _ off => some (2#5, off.setWidth 12, 4)
  | .cLdsp _ off => some (2#5, off.setWidth 12, 8)
  | .cJr _ => none
  | .cMv _ _ => none
  | .cEbreak => none
  | .cJalr _ => none
  | .cAdd _ _ => none
  | .cFsdsp _ off => some (2#5, off.setWidth 12, 8)
  | .cSwsp _ off => some (2#5, off.setWidth 12, 4)
  | .cFswsp _ off => some (2#5, off.setWidth 12, 4)
  | .cSdsp _ off => some (2#5, off.setWidth 12, 8)

/-- A load or store with an integer or a floating-point register. -/
def Instr.accesses (i : Instr) : Bool := i.access.isSome

/-- A computation on registers: 40_integer.md, 43_muldiv.md, and the compressed forms that expand to one. -/
def Instr.computes : Instr → Bool
  | .lui _ _ => true
  | .auipc _ _ => true
  | .addi _ _ _ => true
  | .slti _ _ _ => true
  | .sltiu _ _ _ => true
  | .xori _ _ _ => true
  | .ori _ _ _ => true
  | .andi _ _ _ => true
  | .slli _ _ _ => true
  | .srli _ _ _ => true
  | .srai _ _ _ => true
  | .add _ _ _ => true
  | .sub _ _ _ => true
  | .sll _ _ _ => true
  | .slt _ _ _ => true
  | .sltu _ _ _ => true
  | .xor _ _ _ => true
  | .srl _ _ _ => true
  | .sra _ _ _ => true
  | .or _ _ _ => true
  | .and _ _ _ => true
  | .addiw _ _ _ => true
  | .slliw _ _ _ => true
  | .srliw _ _ _ => true
  | .sraiw _ _ _ => true
  | .addw _ _ _ => true
  | .subw _ _ _ => true
  | .sllw _ _ _ => true
  | .srlw _ _ _ => true
  | .sraw _ _ _ => true
  | .jal _ _ => false
  | .jalr _ _ _ => false
  | .beq _ _ _ => false
  | .bne _ _ _ => false
  | .blt _ _ _ => false
  | .bge _ _ _ => false
  | .bltu _ _ _ => false
  | .bgeu _ _ _ => false
  | .lb _ _ _ => false
  | .lh _ _ _ => false
  | .lw _ _ _ => false
  | .ld _ _ _ => false
  | .lbu _ _ _ => false
  | .lhu _ _ _ => false
  | .lwu _ _ _ => false
  | .sb _ _ _ => false
  | .sh _ _ _ => false
  | .sw _ _ _ => false
  | .sd _ _ _ => false
  | .flw _ _ _ => false
  | .fld _ _ _ => false
  | .fsw _ _ _ => false
  | .fsd _ _ _ => false
  | .fence _ _ _ _ _ => false
  | .fenceI _ _ _ => false
  | .mul _ _ _ => true
  | .mulh _ _ _ => true
  | .mulhsu _ _ _ => true
  | .mulhu _ _ _ => true
  | .div _ _ _ => true
  | .divu _ _ _ => true
  | .rem _ _ _ => true
  | .remu _ _ _ => true
  | .mulw _ _ _ => true
  | .divw _ _ _ => true
  | .divuw _ _ _ => true
  | .remw _ _ _ => true
  | .remuw _ _ _ => true
  | .lrW _ _ _ _ => false
  | .scW _ _ _ _ _ => false
  | .amoswapW _ _ _ _ _ => false
  | .amoaddW _ _ _ _ _ => false
  | .amoxorW _ _ _ _ _ => false
  | .amoandW _ _ _ _ _ => false
  | .amoorW _ _ _ _ _ => false
  | .amominW _ _ _ _ _ => false
  | .amomaxW _ _ _ _ _ => false
  | .amominuW _ _ _ _ _ => false
  | .amomaxuW _ _ _ _ _ => false
  | .lrD _ _ _ _ => false
  | .scD _ _ _ _ _ => false
  | .amoswapD _ _ _ _ _ => false
  | .amoaddD _ _ _ _ _ => false
  | .amoxorD _ _ _ _ _ => false
  | .amoandD _ _ _ _ _ => false
  | .amoorD _ _ _ _ _ => false
  | .amominD _ _ _ _ _ => false
  | .amomaxD _ _ _ _ _ => false
  | .amominuD _ _ _ _ _ => false
  | .amomaxuD _ _ _ _ _ => false
  | .csrrw _ _ _ => false
  | .csrrs _ _ _ => false
  | .csrrc _ _ _ => false
  | .csrrwi _ _ _ => false
  | .csrrsi _ _ _ => false
  | .csrrci _ _ _ => false
  | .ecall => false
  | .ebreak => false
  | .sret => false
  | .mret => false
  | .wfi => false
  | .sfenceVma _ _ => false
  | .fpMadd _ _ _ _ _ => false
  | .fpMsub _ _ _ _ _ => false
  | .fpNmsub _ _ _ _ _ => false
  | .fpNmadd _ _ _ _ _ => false
  | .fpOp _ _ _ _ _ => false
  | .cAddi4spn _ _ => true
  | .cFld _ _ _ => false
  | .cLw _ _ _ => false
  | .cFlw _ _ _ => false
  | .cLd _ _ _ => false
  | .cFsd _ _ _ => false
  | .cSw _ _ _ => false
  | .cFsw _ _ _ => false
  | .cSd _ _ _ => false
  | .cNop _ => true
  | .cAddi _ _ => true
  | .cJal _ => false
  | .cAddiw _ _ => true
  | .cLi _ _ => true
  | .cAddi16sp _ => true
  | .cLui _ _ => true
  | .cSrli _ _ => true
  | .cSrai _ _ => true
  | .cAndi _ _ => true
  | .cSub _ _ => true
  | .cXor _ _ => true
  | .cOr _ _ => true
  | .cAnd _ _ => true
  | .cSubw _ _ => true
  | .cAddw _ _ => true
  | .cJ _ => false
  | .cBeqz _ _ => false
  | .cBnez _ _ => false
  | .cSlli _ _ => true
  | .cFldsp _ _ => false
  | .cLwsp _ _ => false
  | .cFlwsp _ _ => false
  | .cLdsp _ _ => false
  | .cJr _ => false
  | .cMv _ _ => true
  | .cEbreak => false
  | .cJalr _ => false
  | .cAdd _ _ => true
  | .cFsdsp _ _ => false
  | .cSwsp _ _ => false
  | .cFswsp _ _ => false
  | .cSdsp _ _ => false

end Sys2Proof
end

