-- ==== Sys2Proof/Machine/Hart.lean ====
section
/-! DEFINITION. The hart part of a step: interrupt sampling, fetch, decode and execution (spec/60_exceptions.md R700, R701, R704),
and the placing of an instruction where the next fetch finds it. -/

namespace Sys2Proof.Machine

open Sys2Proof

/-- The bits of a fetched instruction, a parcel zero-extended (R722). -/
def rawBits : RawInstr → Word
  | .compressed p => p.setWidth 64
  | .full w => w.setWidth 64

/-- DECODE and EXECUTE: bits that are no instruction raise illegal instruction (R302, R340). -/
def runRaw (r : RawInstr) (s : State) : Host.Outcome State Fault Refusal :=
  match decodeRaw s.xlen r with
  | .ok i => exec i s
  | .error _ => raise .illegalInstr (rawBits r) s

/-- FETCH, DECODE, EXECUTE (R300, R700). -/
def runInstr (s : State) : Host.Outcome State Fault Refusal :=
  match s.fetchInstr with
  | .ok r s1 => runRaw r s1
  | .trap e t s1 => .next (trapStep (.exception e) t s1)
  | .fatal f => .fault f

/-- The hart part of a step: an interrupt is taken, or one instruction runs (R700, R701). -/
def hartStep (s : State) : Host.Outcome State Fault Refusal :=
  match s.selectInterrupt with
  | some i => .next (trapStep (.interrupt i) 0 s)
  | none => runInstr s

/-- The whole step: a final outcome stays (00_scope.md R11), else the hart part and then the bus tick (R700). -/
def systemStep (s : State) : Host.Outcome State Fault Refusal :=
  match s.fatal with
  | some f => .fault f
  | none =>
    match s.refused with
    | some r => .refused r
    | none =>
      match hartStep s with
      | .next s1 => busTick s1
      | .fault f => .fault f
      | .refused r => .refused r

/-! ### What a final outcome leaves -/

/-- What an instruction that ends in a fatal or refused outcome leaves: the translations of its access are done (20_memory.md
R235). No piece is: the pieces of a fatal access have one width and lie in one region, so the first is the one that is
fatal (R212, R234). -/
def State.accessLeft (s : State) (i : Instr) : State :=
  match i.access with
  | none => s
  | some (base, imm, n) => (s.checkAccess (if i.stores then .store else .load) (s.ea base imm) n).stateOr s

/-- What the hart part of a step that ends in a fatal or refused outcome leaves; it counts nothing (R700). -/
def State.hartLeft (s : State) : State :=
  match s.fetchInstr with
  | .ok r s1 =>
    match decodeRaw s1.xlen r with
    | .ok i => s1.accessLeft i
    | .error _ => s1
  | .trap _ _ s1 => s1
  | .fatal _ => s

/-- What a bus tick that ends in a fatal outcome leaves: the DMA before the fatal case (R807). -/
def State.tickLeft (s : State) : State :=
  match s.virtioTick with
  | .error e => e.2
  | .ok s1 => s1

/-- What a step that ends in a final outcome leaves, but for the mark: the partial effects of R234, R235 and R807, and nothing
new where the outcome was final before (R700). -/
def State.left (s : State) : State :=
  match s.fatal, s.refused with
  | none, none =>
    match hartStep s with
    | .next s1 => s1.tickLeft
    | .fault _ => s.hartLeft
    | .refused _ => s.hartLeft
  | _, _ => s

/-! ### Placing an instruction -/

/-- Bytes put at the physical address that a fetch at `va` reads; nothing where that fetch faults. -/
def State.placeAt (s : State) (va : Word) (bs : List Byte) : State :=
  match s.translate .fetch va with
  | .ok pa _ => { s with dram := Memory.writeBytes s.dram pa bs }
  | .trap _ _ _ => s
  | .fatal _ => s

/-- The instruction word `w` of `nbits` bits put at the pc, in the mode that has it (log 17). -/
def State.placeWord (s : State) (nbits w : Nat) : State :=
  let s0 := { s with xlen := tableMode s.xlen nbits w }
  let s1 := s0.placeAt s0.pc ((tableBytes nbits w).take 2)
  s1.placeAt (norm s1.xlen (s1.pc + 2)) ((tableBytes nbits w).drop 2)

end Sys2Proof.Machine
end

