-- ==== Sys2Proof/Machine/Step.lean ====
section
/-! DEFINITION. One step of the system (spec/60_exceptions.md R700). -/

namespace Sys2Proof.Machine

open Sys2Proof

/-- Step(S): the next state, or the final outcome of 00_scope.md R11. -/
def step (s : State) : Host.Outcome State Fault Refusal := systemStep s

/-- `s` with the instruction `w` of `nbits` bits stored where `step` fetches its next instruction (log 17). -/
def State.withFetchWord (s : State) (nbits w : Nat) : State := s.placeWord nbits w

end Sys2Proof.Machine
end

