-- ==== Sys2Proof/Machine/Driver.lean ====
section
/-! DEFINITION. The driver's operations, none of them an instruction, and the end of a run (spec/70_reset_and_hazards.md R850 to
R857). An operation that answers none is a host error: its precondition does not hold (R857). -/

namespace Sys2Proof.Machine

open Sys2Proof

/-- `reset()`: all at reset but what R850 keeps, the parameter DRAM_SIZE and the streams of the TTY. -/
def State.driverReset (s : State) : State :=
  { State.reset with
    xlen := s.xlen, dramSize := s.dramSize, disk := s.disk, ttyIn := s.ttyIn, ttyOut := s.ttyOut, tohost := s.tohost,
    tlbDraws := s.tlbDraws, tlbDrawn := s.tlbDrawn }

/-- `set_pc(addr)` (R853). -/
def State.setPc (s : State) (addr : Word) : State := { s with pc := norm s.xlen addr &&& ~~~1#64 }

/-- `set_dram_data(bytes)` (R853). -/
def State.setDramData (s : State) (bs : List Byte) : Option State :=
  if bs.length ≤ s.dramSize then some { s with dram := Memory.writeBytes s.dram Config.dramBase bs } else none

/-- `set_disk_data(bytes)` (R853). -/
def State.setDiskData (s : State) (bs : List Byte) : State := { s with disk := bs }

/-- A PROGBITS section: its physical address and payload (R852). -/
structure Section where
  addr    : Nat
  payload : List Byte
  deriving DecidableEq, Repr

/-- What the loader supplies of a RISC-V ELF file (R852). -/
structure Elf where
  xlen     : Xlen
  entry    : Word
  sections : List Section
  tohost   : Option Word
  deriving DecidableEq, Repr

/-- The sections copied in list order; a later one overwrites an earlier one (R852). -/
def State.loadSections (s : State) : List Section → Option State
  | [] => some s
  | c :: cs =>
    if s.inDram c.addr c.payload.length then
      ({ s with dram := Memory.writeBytes s.dram c.addr c.payload } : State).loadSections cs
    else none

/-- `load_program(elf)` (R852). -/
def State.loadProgram (s : State) (elf : Elf) : Option State :=
  match ({ s with xlen := elf.xlen } : State).loadSections elf.sections with
  | none => none
  | some s1 => some { s1 with pc := norm elf.xlen elf.entry &&& ~~~1#64, tohost := elf.tohost }

/-- `read32_direct(pa)`: defined for a 4-aligned DRAM address (20_memory.md R216). -/
def State.read32Direct (s : State) (pa : Nat) : Option (BitVec 32) :=
  if pa % 4 = 0 && s.inDram pa 4 then some ((Memory.readLE s.dram pa 4).setWidth 32) else none

/-- The state after a step with that outcome: a final outcome leaves the partial effects of the step and its sticky mark
(00_scope.md R11, R700, R807, log 8). -/
def State.settle (s : State) : Host.Outcome State Fault Refusal → State
  | .next s' => s'
  | .fault f => { s.left with fatal := some f }
  | .refused r => { s.left with refused := some r }

/-- How a run stands after a step (R855). -/
inductive RunResult
  | running
  | passed
  | failed (n : BitVec 32)
  | fatal (f : Fault)
  | refused (r : Refusal)
  deriving DecidableEq, Repr

/-- The check after every step: `.tohost` in test mode (R855). -/
def verdict : Host.Outcome State Fault Refusal → RunResult
  | .fault f => .fatal f
  | .refused r => .refused r
  | .next s =>
    match s.tohost with
    | none => .running
    | some a =>
      match s.read32Direct a.toNat with
      | none => .running
      | some v => if v = 0 then .running else if v = 1 then .passed else .failed v

/-- `run()` bounded to `n` steps, as R855 allows: the system step is repeated until a stop condition holds after one. The
result, `running` where the bound came first, and the state after the last step. -/
def State.run : Nat → State → RunResult × State
  | 0, s => (.running, s)
  | n + 1, s =>
    if verdict (step s) = .running then State.run n (s.settle (step s))
    else (verdict (step s), s.settle (step s))

end Sys2Proof.Machine
end

