-- ==== Sys2Proof/Safety.lean ====
section
/-! DEFINITION. What every state of a run satisfies: the invariants that claims are stated with. -/

namespace Sys2Proof.Machine

open Sys2Proof

/-- The pc and the exception pcs are even (10_state.md R55, R82). -/
def State.pcsEven (s : State) : Prop :=
  s.pc.getLsbD 0 = false ∧ s.csr.mepc.getLsbD 0 = false ∧ s.csr.sepc.getLsbD 0 = false

/-- DRAM is in its canonical form and lists only addresses of DRAM (20_memory.md R201). -/
def State.dramOk (s : State) : Prop :=
  Memory.wf s.dram = true ∧ ∀ c ∈ s.dram, Config.dramBase ≤ c.1 ∧ c.1 < Config.dramBase + s.dramSize

/-- `satp.MODE` is Bare or Sv39 when XLEN = 64 (R86, R87). -/
def satpLegal : Xlen → Word → Prop
  | .rv32, _ => True
  | .rv64, v => v.extractLsb 63 60 = 0#4 ∨ v.extractLsb 63 60 = 8#4

/-- The WARL fields hold legal values (10_state.md R74 to R76, R81, R87). -/
def State.csrsLegal (s : State) : Prop :=
  s.csr.medeleg &&& ~~~medelegMask = 0 ∧ s.csr.mideleg &&& ~~~midelegMask = 0 ∧ s.csr.mie &&& ~~~mieMask = 0
    ∧ s.csr.mtvec.getLsbD 1 = false ∧ s.csr.stvec.getLsbD 1 = false ∧ satpLegal s.xlen s.csr.satp

/-- The XLEN-bit registers that `State` holds in 64 bits: general registers, the pc and the CSRs. -/
def State.xlenWords (s : State) : List Word :=
  s.x.toList ++ [s.pc, s.csr.mtvec, s.csr.stvec, s.csr.mepc, s.csr.sepc, s.csr.mcause, s.csr.scause, s.csr.mtval,
    s.csr.stval, s.csr.mscratch, s.csr.sscratch, s.csr.satp]

/-- Each of them is an XLEN-bit value: zero above bit 31 when XLEN = 32 (10_state.md R50, R54, log 1). -/
def State.widthOk (s : State) : Prop := ∀ v ∈ s.xlenWords, norm s.xlen v = v

/-- Only the sources 1 to 53 have PLIC bits (60_exceptions.md R770). -/
def State.plicOk (s : State) : Prop :=
  s.plic.pending &&& ~~~plicMask = 0 ∧ s.plic.claimed &&& ~~~plicMask = 0 ∧ s.plic.enable0 &&& ~~~plicMask = 0
    ∧ s.plic.enable1 &&& ~~~plicMask = 0

/-- A reservation is for an address in DRAM (44_atomic.md R541, R545). -/
def State.resvOk (s : State) : Prop := ∀ r, s.resv = some r → s.region r.paddr.toNat = .dram

/-- DRAM_SIZE is a value the parameter may have (00_scope.md R12, log 2). -/
def State.sizeOk (s : State) : Prop := s.dramSize ≤ Config.dramSizeDefault

/-- The invariant of a run: all of these, and no final outcome has happened. -/
structure State.Inv (s : State) : Prop where
  pcs    : s.pcsEven
  dram   : s.dramOk
  csrs   : s.csrsLegal
  width  : s.widthOk
  plic   : s.plicOk
  resv   : s.resvOk
  marks  : s.fatal = none ∧ s.refused = none
  size   : s.sizeOk

/-! ### Numbers, for statements -/

/-- The number in a register (10_state.md R50). -/
def State.num (s : State) (r : Reg) : Int := (s.readX r).toNat

/-- The signed value of the low `w` bits of `n`. -/
def signedAt (w : Nat) (n : Int) : Int := if n % 2 ^ w < 2 ^ (w - 1) then n % 2 ^ w else n % 2 ^ w - 2 ^ w

/-- The signed number in a register. -/
def State.signed (s : State) (r : Reg) : Int := signedAt (xlenBits s.xlen) (s.num r)

/-- The low `w` bits of a number. -/
def lowBits (w : Nat) (n : Int) : Int := n % 2 ^ w

/-- The effective address `x[rs1] + imm` modulo 2^XLEN (42_loadstore.md R480). -/
def State.address (s : State) (rs1 : Reg) (imm : BitVec 12) : Nat :=
  ((s.num rs1 + imm.toInt) % 2 ^ xlenBits s.xlen).toNat

/-- The little-endian number in the `n` bytes of DRAM at `a` (20_memory.md R205). -/
def State.leNat (s : State) (a : Nat) : Nat → Nat
  | 0 => 0
  | n + 1 => (s.byteAt a).toNat + 256 * s.leNat (a + 1) n

/-- The address of byte `k` of an access at `a`, modulo 2^XLEN (20_memory.md R232). -/
def State.byteAddress (s : State) (a k : Nat) : Nat := (a + k) % 2 ^ xlenBits s.xlen

/-- The `n` bytes of an access at `a`, taken as physical addresses, all lie in region `r` (20_memory.md R211). -/
def State.liesIn (s : State) (r : Region) (a n : Nat) : Prop := ∀ k, k < n → s.region (s.byteAddress a k) = r

/-- The little-endian number of the bytes `b 0` to `b (n - 1)` (20_memory.md R205). -/
def bytesNat (b : Nat → Byte) : Nat → Nat
  | 0 => 0
  | n + 1 => bytesNat b n + 256 ^ n * (b n).toNat

/-! ### The queue of the virtio block, for statements -/

/-- Q, the physical base of the queue (60_exceptions.md R802). -/
def State.queueBase (s : State) : Nat := s.virtio.queuePfn.toNat * s.virtio.guestPageSize.toNat

/-- The chain from descriptor `j` is the buffers `bs`: each descriptor is in DRAM and below `num`, and all but the last have
NEXT (60_exceptions.md R802, R803). -/
def State.HasChain (s : State) : Nat → List Buffer → Prop
  | _, [] => False
  | j, b :: bs =>
    j < s.virtio.queueNum.toNat ∧ s.inDram (s.queueBase + 16 * j) 16 = true
      ∧ s.leNat (s.queueBase + 16 * j) 8 = b.addr ∧ s.leNat (s.queueBase + 16 * j + 8) 4 = b.len
      ∧ s.leNat (s.queueBase + 16 * j + 12) 2 % 2 = (if bs = [] then 0 else 1)
      ∧ (bs ≠ [] → s.HasChain (s.leNat (s.queueBase + 16 * j + 14) 2) bs)

/-- The request loop goes from `s` to `t` with `n` requests (60_exceptions.md R806). -/
def State.Serves (s : State) : Nat → State → Prop
  | 0, t =>
    s.inDram (s.queueBase + 16 * s.virtio.queueNum.toNat + 2) 2 = true
      ∧ s.leNat (s.queueBase + 16 * s.virtio.queueNum.toNat + 2) 2 = s.virtio.lastAvail.toNat ∧ t = s
  | n + 1, t =>
    let ring := s.queueBase + 16 * s.virtio.queueNum.toNat
    let slot := ring + 4 + 2 * (s.virtio.lastAvail.toNat % s.virtio.queueNum.toNat)
    s.inDram (ring + 2) 2 = true ∧ s.leNat (ring + 2) 2 ≠ s.virtio.lastAvail.toNat ∧ s.inDram slot 2 = true
      ∧ ∃ u used w, s.request (s.leNat slot 2) = .ok (u, used) ∧ u.usedUpdate (s.leNat slot 2) used = .ok w
        ∧ ({ w with virtio := { w.virtio with lastAvail := w.virtio.lastAvail + 1 } } : State).Serves n t

/-! ### Outcomes of an instruction, for statements -/

/-- The devices of 32-bit registers and their first addresses (20_memory.md R202, R212). -/
inductive WordDevice : Region → Nat → Prop
  | clint : WordDevice .clint 0x02000000
  | plic : WordDevice .plic 0x0C000000
  | virtio : WordDevice .virtio 0x10001000

/-- The loads that `s` may execute: the instruction, its width in bytes, and what a state becomes when it gives its destination
the number it read, in f with FS Dirty (42_loadstore.md R482 to R488, R495 to R497). -/
inductive LoadForm (s : State) (rd rs1 : Reg) (imm : BitVec 12) : Instr → Nat → (State → Nat → State) → Prop
  | lb : LoadForm s rd rs1 imm (.lb rd rs1 imm) 1 fun t v => t.writeX rd (BitVec.ofInt 64 (signedAt 8 v))
  | lh : LoadForm s rd rs1 imm (.lh rd rs1 imm) 2 fun t v => t.writeX rd (BitVec.ofInt 64 (signedAt 16 v))
  | lw : LoadForm s rd rs1 imm (.lw rd rs1 imm) 4 fun t v => t.writeX rd (BitVec.ofInt 64 (signedAt 32 v))
  | ld : s.xlen = .rv64 → LoadForm s rd rs1 imm (.ld rd rs1 imm) 8 fun t v => t.writeX rd (BitVec.ofNat 64 v)
  | lbu : LoadForm s rd rs1 imm (.lbu rd rs1 imm) 1 fun t v => t.writeX rd (BitVec.ofNat 64 v)
  | lhu : LoadForm s rd rs1 imm (.lhu rd rs1 imm) 2 fun t v => t.writeX rd (BitVec.ofNat 64 v)
  | lwu : s.xlen = .rv64 → LoadForm s rd rs1 imm (.lwu rd rs1 imm) 4 fun t v => t.writeX rd (BitVec.ofNat 64 v)
  | flw : s.mstatus.fs ≠ 0 → LoadForm s rd rs1 imm (.flw rd rs1 imm) 4 fun t v =>
      { t.writeF rd (0xFFFFFFFF#32 ++ BitVec.ofNat 32 v) with mstatus := { t.mstatus with fs := 3 } }
  | fld : s.mstatus.fs ≠ 0 → LoadForm s rd rs1 imm (.fld rd rs1 imm) 8 fun t v =>
      { t.writeF rd (BitVec.ofNat 64 v) with mstatus := { t.mstatus with fs := 3 } }

/-- The stores that `s` may execute: the instruction, its width in bytes and the register value whose low bytes it stores
(42_loadstore.md R490 to R493, R495, R498, R499). -/
inductive StoreForm (s : State) (rs1 rs2 : Reg) (imm : BitVec 12) : Instr → Nat → Word → Prop
  | sb : StoreForm s rs1 rs2 imm (.sb rs1 rs2 imm) 1 (s.readX rs2)
  | sh : StoreForm s rs1 rs2 imm (.sh rs1 rs2 imm) 2 (s.readX rs2)
  | sw : StoreForm s rs1 rs2 imm (.sw rs1 rs2 imm) 4 (s.readX rs2)
  | sd : s.xlen = .rv64 → StoreForm s rs1 rs2 imm (.sd rs1 rs2 imm) 8 (s.readX rs2)
  | fsw : s.mstatus.fs ≠ 0 → StoreForm s rs1 rs2 imm (.fsw rs1 rs2 imm) 4 (s.readF rs2)
  | fsd : s.mstatus.fs ≠ 0 → StoreForm s rs1 rs2 imm (.fsd rs1 rs2 imm) 8 (s.readF rs2)

/-- `i` writes `v` modulo 2^XLEN to rd and retires: nothing else changes. -/
def Writes (i : Instr) (s : State) (rd : Reg) (v : Int) : Prop :=
  exec i s = .next ((s.writeX rd (BitVec.ofInt 64 v)).retire i)

/-- `i` raises illegal instruction with its own bits as trap value (30_encoding.md R340, R341). -/
def Illegal (i : Instr) (s : State) : Prop :=
  exec i s = .next (trapStep (.exception .illegalInstr) (i.bits.setWidth 64) s)

/-- The word `w` is the instruction `i` in every mode that has it. -/
def IsWord (w : BitVec 32) (i : Instr) : Prop := ∀ x, i.wf x = true → decode32 x w = some i

/-- `t` differs from `s` in the general registers, the pc and the counters only. -/
def OnlyRegisters (s t : State) : Prop :=
  t = { s with x := t.x, pc := t.pc, mcycle := t.mcycle, minstret := t.minstret }

/-- `t` is `s` after an instruction `i` that retired and stored the bytes of `v`, `n` of them, at `a` in DRAM: the reservation
is gone, those bytes are those of `v`, and nothing else changed (42_loadstore.md R481, 44_atomic.md R540). -/
def Stored (i : Instr) (s t : State) (a n : Nat) (v : Int) : Prop :=
  t = { s with dram := t.dram, resv := none, pc := s.npc i, mcycle := s.mcycle + 1, minstret := s.minstret + 1 }
    ∧ (∀ k, k < n → t.byteAt (a + k) = BitVec.ofInt 8 (v / 256 ^ k))
    ∧ ∀ b, b < a ∨ a + n ≤ b → t.byteAt b = s.byteAt b

end Sys2Proof.Machine
end

