-- ==== Sys2Proof/Certificates/Slice0/Obligations.lean ====
section
/-! DEFINITION. The statements for the provers. Each docstring says what the statement claims and the rules of spec/ it comes from;
OBLIGATIONS.json says the same. Statements that rest on a choice of the model name its log entry. -/

open Sys2Proof Sys2Proof.Machine

/-- For every mode, every instruction that is well-formed in it and any bytes after it, decoding the encoded bytes gives
that instruction and those bytes. (R302, R310, R311, R320, R345, R640) -/
def Obligations.DecodeEncodeRoundTrip : Prop :=
  ∀ (x : Xlen) (i : Instr) (rest : List Byte), i.wf x = true → decodeBytes x (encode i ++ rest) = .ok (i, rest)

/-- If bits decode to an instruction in a mode, it is well-formed there, its bits are those bits, and its length is 2 for
a parcel and 4 for a word; where a parcel decodes, its expansion is well-formed, has length 4, and the expanded word
decodes to it. (R302, R303, R340, R640, R643, R645, R722) -/
def Obligations.DecodedInstructionKeepsItsBits : Prop :=
  (∀ (x : Xlen) (r : RawInstr) (i : Instr), decodeRaw x r = .ok i →
      i.wf x = true ∧ i.bits.setWidth 64 = rawBits r
        ∧ i.length = (match r with | .compressed _ => 2 | .full _ => 4))
    ∧ (∀ (x : Xlen) (p : BitVec 16) (i : Instr), decode16 x p = some i →
      decompress x p = some i.expand.bits ∧ i.expand.wf x = true ∧ i.expand.length = 4
        ∧ decode32 x i.expand.bits = some i.expand)

/-- Words and parcels written out in the spec decode to the instruction the spec names, c.jal and c.addiw by mode, and the
all-zero parcel to none. (R404, R462, R610, R611, R616, R644, R641, R660) -/
def Obligations.SpecWordsDecode : Prop :=
  decode32 .rv64 0x010000EF#32 = some (.jal 1#5 0x10#21)
    ∧ decode32 .rv64 0x006283B3#32 = some (.add 7#5 5#5 6#5)
    ∧ decode32 .rv64 0xFFF28393#32 = some (.addi 7#5 5#5 0xFFF#12)
    ∧ decode32 .rv64 0x0062B023#32 = some (.sd 5#5 6#5 0#12)
    ∧ decode32 .rv32 0x0062B023#32 = none
    ∧ decode32 .rv64 0x0FF0000F#32 = some (.fence 0#4 0xF#4 0xF#4 0#5 0#5)
    ∧ decode32 .rv64 0x0000100F#32 = some (.fenceI 0#12 0#5 0#5)
    ∧ decode32 .rv64 0x12000073#32 = some (.sfenceVma 0#5 0#5)
    ∧ decode32 .rv64 0x1862A3AF#32 = some (.scW 7#5 5#5 6#5 false false)
    ∧ decode16 .rv64 0x157D#16 = some (.cAddi 10#5 0x3F#6)
    ∧ decode16 .rv32 0x2005#16 = some (.cJal 32#12)
    ∧ decode16 .rv64 0x2005#16 = none
    ∧ decode16 .rv64 0x2505#16 = some (.cAddiw 10#5 1#6)
    ∧ decode16 .rv64 0x0000#16 = none

/-- For every compressed instruction well-formed in the mode of the state (a floating-point form with FS not Off, since
with FS Off it and its expansion raise illegal instruction each with its own bits), where its expansion gives a next
state, it gives one that agrees but for the pc and the link register; if it is no jump or branch and retires, its pc
is pc + 2 where the expansion has pc + 4, and x agrees whole; a jump has the same target; a trap has the same handler.
(R302, R303, R640, R645) -/
def Obligations.CompressedRunsAsItsExpansion : Prop :=
  ∀ (i : Instr) (s t' : State), i.length = 2 → i.wf s.xlen = true →
    ((∃ r q o, i = .cFld r q o ∨ i = .cFsd r q o) ∨ (∃ r q o, i = .cFlw r q o ∨ i = .cFsw r q o)
      ∨ (∃ r o, i = .cFldsp r o ∨ i = .cFsdsp r o) ∨ (∃ r o, i = .cFlwsp r o ∨ i = .cFswsp r o) → s.mstatus.fs ≠ 0) →
    exec i.expand s = .next t' →
    ∃ t, exec i s = .next t ∧ t = { t' with x := t.x, pc := t.pc }
      ∧ (∀ r, r ≠ 1#5 → t.readX r = t'.readX r)
      ∧ ((i.computes || i.accesses) = true →
          t.x = t'.x
          ∧ (t'.minstret = s.minstret + 1 → t'.pc = norm s.xlen (s.pc + 4) ∧ t.pc = norm s.xlen (s.pc + 2))
          ∧ (t'.minstret = s.minstret → t.pc = t'.pc))
      ∧ ((∃ off, i = .cJ off) ∨ (∃ off, i = .cJal off) ∨ (∃ r, i = .cJr r) ∨ (∃ r, i = .cJalr r) ∨ i = .cEbreak →
          t.pc = t'.pc)

/-- x0 reads 0 in every state and a write to it changes nothing; a write to another integer register reads back modulo
2^XLEN, one to a floating-point register, f0 among them, all 64 bits, in both modes; every other register of both
files reads as before and nothing else changes; a 32-bit value is boxed with ones above it. (R50, R51, R53, R58) XLEN-
bit values are held in 64 bits (log 1). -/
def Obligations.RegisterFile : Prop :=
  ∀ (s : State) (r q : Reg) (v : Word) (w : BitVec 32),
    s.num 0#5 = 0 ∧ s.writeX 0#5 v = s
      ∧ (r ≠ 0#5 → (s.writeX r v).num r = v.toNat % 2 ^ xlenBits s.xlen)
      ∧ (q ≠ r → (s.writeX r v).readX q = s.readX q)
      ∧ (s.writeX r v).readF q = s.readF q
      ∧ s.writeX r v = { s with x := (s.writeX r v).x }
      ∧ (s.writeF r v).readF r = v
      ∧ (q ≠ r → (s.writeF r v).readF q = s.readF q)
      ∧ (s.writeF r v).readX q = s.readX q
      ∧ s.writeF r v = { s with f := (s.writeF r v).f }
      ∧ (nanBox w).toNat = 0xFFFFFFFF * 2 ^ 32 + w.toNat

/-- An instruction that retires leaves pc + 2 (compressed) or pc + 4, modulo 2^XLEN, and mcycle and minstret one higher;
nothing else changes. (R56, R303, R705, R750) -/
def Obligations.Retirement : Prop :=
  ∀ (i : Instr) (s : State),
    ((s.retire i).pc.toNat = (s.pc.toNat + i.length) % 2 ^ xlenBits s.xlen)
      ∧ (i.length = 2 ∨ i.length = 4)
      ∧ (s.retire i).mcycle = s.mcycle + 1 ∧ (s.retire i).minstret = s.minstret + 1
      ∧ s.retire i = { s with pc := (s.retire i).pc, mcycle := s.mcycle + 1, minstret := s.minstret + 1 }

/-- Each word with the fields of its row is the instruction, and for every state and registers it retires with rd holding,
modulo 2^XLEN, the number its rule gives, shifts by rs2 modulo XLEN, and nothing else changed. (R413, R414, R415,
R416, R417, R418, R419, R420, R421, R422) -/
def Obligations.RegisterRegisterResults : Prop :=
  ∀ (s : State) (rd rs1 rs2 : Reg),
    let w := xlenBits s.xlen; let a := s.num rs1; let b := s.num rs2;
    Writes (.add rd rs1 rs2) s rd (a + b)
    ∧ IsWord (formatR 0b0000000#7 rs2 rs1 0b000#3 rd 0b0110011#7) (.add rd rs1 rs2)
    ∧ Writes (.sub rd rs1 rs2) s rd (a - b)
    ∧ IsWord (formatR 0b0100000#7 rs2 rs1 0b000#3 rd 0b0110011#7) (.sub rd rs1 rs2)
    ∧ Writes (.sll rd rs1 rs2) s rd (a * 2 ^ (b % w).toNat)
    ∧ IsWord (formatR 0b0000000#7 rs2 rs1 0b001#3 rd 0b0110011#7) (.sll rd rs1 rs2)
    ∧ Writes (.slt rd rs1 rs2) s rd (if s.signed rs1 < s.signed rs2 then 1 else 0)
    ∧ IsWord (formatR 0b0000000#7 rs2 rs1 0b010#3 rd 0b0110011#7) (.slt rd rs1 rs2)
    ∧ Writes (.sltu rd rs1 rs2) s rd (if a < b then 1 else 0)
    ∧ IsWord (formatR 0b0000000#7 rs2 rs1 0b011#3 rd 0b0110011#7) (.sltu rd rs1 rs2)
    ∧ Writes (.xor rd rs1 rs2) s rd ((a.toNat ^^^ b.toNat : Nat))
    ∧ IsWord (formatR 0b0000000#7 rs2 rs1 0b100#3 rd 0b0110011#7) (.xor rd rs1 rs2)
    ∧ Writes (.srl rd rs1 rs2) s rd (a / 2 ^ (b % w).toNat)
    ∧ IsWord (formatR 0b0000000#7 rs2 rs1 0b101#3 rd 0b0110011#7) (.srl rd rs1 rs2)
    ∧ Writes (.sra rd rs1 rs2) s rd (s.signed rs1 / 2 ^ (b % w).toNat)
    ∧ IsWord (formatR 0b0100000#7 rs2 rs1 0b101#3 rd 0b0110011#7) (.sra rd rs1 rs2)
    ∧ Writes (.or rd rs1 rs2) s rd ((a.toNat ||| b.toNat : Nat))
    ∧ IsWord (formatR 0b0000000#7 rs2 rs1 0b110#3 rd 0b0110011#7) (.or rd rs1 rs2)
    ∧ Writes (.and rd rs1 rs2) s rd ((a.toNat &&& b.toNat : Nat))
    ∧ IsWord (formatR 0b0000000#7 rs2 rs1 0b111#3 rd 0b0110011#7) (.and rd rs1 rs2)

/-- Each word with the fields of its row is the instruction, and it retires with rd holding, modulo 2^XLEN, the number its
rule gives for rs1 and the sign-extended immediate, and nothing else changed. (R404, R405, R406, R407, R408, R409) -/
def Obligations.RegisterImmediateResults : Prop :=
  ∀ (s : State) (rd rs1 : Reg) (imm : BitVec 12),
    let w := xlenBits s.xlen; let a := s.num rs1; let b := imm.toInt;
    Writes (.addi rd rs1 imm) s rd (a + b)
    ∧ IsWord (formatI imm rs1 0b000#3 rd 0b0010011#7) (.addi rd rs1 imm)
    ∧ Writes (.slti rd rs1 imm) s rd (if s.signed rs1 < b then 1 else 0)
    ∧ IsWord (formatI imm rs1 0b010#3 rd 0b0010011#7) (.slti rd rs1 imm)
    ∧ Writes (.sltiu rd rs1 imm) s rd (if a < b % 2 ^ w then 1 else 0)
    ∧ IsWord (formatI imm rs1 0b011#3 rd 0b0010011#7) (.sltiu rd rs1 imm)
    ∧ Writes (.xori rd rs1 imm) s rd ((a.toNat ^^^ (b % 2 ^ w).toNat : Nat))
    ∧ IsWord (formatI imm rs1 0b100#3 rd 0b0010011#7) (.xori rd rs1 imm)
    ∧ Writes (.ori rd rs1 imm) s rd ((a.toNat ||| (b % 2 ^ w).toNat : Nat))
    ∧ IsWord (formatI imm rs1 0b110#3 rd 0b0010011#7) (.ori rd rs1 imm)
    ∧ Writes (.andi rd rs1 imm) s rd ((a.toNat &&& (b % 2 ^ w).toNat : Nat))
    ∧ IsWord (formatI imm rs1 0b111#3 rd 0b0010011#7) (.andi rd rs1 imm)

/-- Each word with the fields of its row is the instruction; LUI retires with rd holding the immediate times 4096 sign-
extended from bit 31, AUIPC with the pc added, a shift by an amount the mode has with the shifted number, all modulo
2^XLEN, and nothing else changed; a shift with XLEN = 32 and inst[25] = 1 raises illegal instruction. (R402, R403,
R410, R411, R412) -/
def Obligations.UpperImmediateAndShiftResults : Prop :=
  ∀ (s : State) (rd rs1 : Reg) (imm : BitVec 20) (shamt : BitVec 6),
    let a := s.num rs1;
    Writes (.lui rd imm) s rd (imm.toInt * 4096) ∧ IsWord (formatU imm rd 0b0110111#7) (.lui rd imm)
    ∧ Writes (.auipc rd imm) s rd (s.pc.toNat + imm.toInt * 4096) ∧ IsWord (formatU imm rd 0b0010111#7) (.auipc rd imm)
    ∧ (shamt.toNat < xlenBits s.xlen → Writes (.slli rd rs1 shamt) s rd (a * 2 ^ shamt.toNat))
    ∧ (xlenBits s.xlen ≤ shamt.toNat → Illegal (.slli rd rs1 shamt) s)
    ∧ IsWord (formatShift 0b000000#6 shamt rs1 0b001#3 rd 0b0010011#7) (.slli rd rs1 shamt)
    ∧ (shamt.toNat < xlenBits s.xlen → Writes (.srli rd rs1 shamt) s rd (a / 2 ^ shamt.toNat))
    ∧ (xlenBits s.xlen ≤ shamt.toNat → Illegal (.srli rd rs1 shamt) s)
    ∧ IsWord (formatShift 0b000000#6 shamt rs1 0b101#3 rd 0b0010011#7) (.srli rd rs1 shamt)
    ∧ (shamt.toNat < xlenBits s.xlen → Writes (.srai rd rs1 shamt) s rd (s.signed rs1 / 2 ^ shamt.toNat))
    ∧ (xlenBits s.xlen ≤ shamt.toNat → Illegal (.srai rd rs1 shamt) s)
    ∧ IsWord (formatShift 0b010000#6 shamt rs1 0b101#3 rd 0b0010011#7) (.srai rd rs1 shamt)

/-- Each word with the fields of its row is the instruction, and it retires with rd holding, modulo 2^XLEN, the low half
(MUL) or the upper half of the exact product, signed or unsigned as its rule says, the quotient rounded toward zero,
or the remainder with the sign of the dividend; division by 0 gives all ones and the dividend; MIN by -1 gives MIN and
0; nothing else changes. (R511, R512, R513, R514, R515, R516, R517, R518, R519) -/
def Obligations.MultiplyDivideResults : Prop :=
  ∀ (s : State) (rd rs1 rs2 : Reg),
    let w := xlenBits s.xlen; let a := s.num rs1; let b := s.num rs2;
    Writes (.mul rd rs1 rs2) s rd (a * b)
    ∧ IsWord (formatR 0b0000001#7 rs2 rs1 0b000#3 rd 0b0110011#7) (.mul rd rs1 rs2)
    ∧ Writes (.mulh rd rs1 rs2) s rd (s.signed rs1 * s.signed rs2 / 2 ^ w)
    ∧ IsWord (formatR 0b0000001#7 rs2 rs1 0b001#3 rd 0b0110011#7) (.mulh rd rs1 rs2)
    ∧ Writes (.mulhsu rd rs1 rs2) s rd (s.signed rs1 * b / 2 ^ w)
    ∧ IsWord (formatR 0b0000001#7 rs2 rs1 0b010#3 rd 0b0110011#7) (.mulhsu rd rs1 rs2)
    ∧ Writes (.mulhu rd rs1 rs2) s rd (a * b / 2 ^ w)
    ∧ IsWord (formatR 0b0000001#7 rs2 rs1 0b011#3 rd 0b0110011#7) (.mulhu rd rs1 rs2)
    ∧ Writes (.div rd rs1 rs2) s rd (if b = 0 then -1 else (s.signed rs1).tdiv (s.signed rs2))
    ∧ IsWord (formatR 0b0000001#7 rs2 rs1 0b100#3 rd 0b0110011#7) (.div rd rs1 rs2)
    ∧ Writes (.divu rd rs1 rs2) s rd (if b = 0 then -1 else a / b)
    ∧ IsWord (formatR 0b0000001#7 rs2 rs1 0b101#3 rd 0b0110011#7) (.divu rd rs1 rs2)
    ∧ Writes (.rem rd rs1 rs2) s rd (if b = 0 then a else (s.signed rs1).tmod (s.signed rs2))
    ∧ IsWord (formatR 0b0000001#7 rs2 rs1 0b110#3 rd 0b0110011#7) (.rem rd rs1 rs2)
    ∧ Writes (.remu rd rs1 rs2) s rd (if b = 0 then a else a % b)
    ∧ IsWord (formatR 0b0000001#7 rs2 rs1 0b111#3 rd 0b0110011#7) (.remu rd rs1 rs2)
    ∧ (s.signed rs1 = -2 ^ (w - 1) → s.signed rs2 = -1 →
        Writes (.div rd rs1 rs2) s rd (-2 ^ (w - 1)) ∧ Writes (.rem rd rs1 rs2) s rd 0)

/-- Each word with the fields of its row is the instruction where XLEN = 64; there it retires with rd holding the 32-bit
result of the low halves, sign-extended, and nothing else changed; where XLEN = 32 it raises illegal instruction.
(R401, R423, R424, R425, R426, R427, R428, R429, R430) -/
def Obligations.WordResults : Prop :=
  ∀ (s : State) (rd rs1 rs2 : Reg) (imm : BitVec 12) (shamt : BitVec 5),
    let a := s.num rs1; let b := s.num rs2;
    (s.xlen = .rv64 → Writes (.addiw rd rs1 imm) s rd (signedAt 32 (a + imm.toInt)))
    ∧ (s.xlen = .rv32 → Illegal (.addiw rd rs1 imm) s)
    ∧ IsWord (formatI imm rs1 0b000#3 rd 0b0011011#7) (.addiw rd rs1 imm)
    ∧ (s.xlen = .rv64 → Writes (.slliw rd rs1 shamt) s rd (signedAt 32 (a * 2 ^ shamt.toNat)))
    ∧ (s.xlen = .rv32 → Illegal (.slliw rd rs1 shamt) s)
    ∧ IsWord (formatR 0b0000000#7 shamt rs1 0b001#3 rd 0b0011011#7) (.slliw rd rs1 shamt)
    ∧ (s.xlen = .rv64 → Writes (.srliw rd rs1 shamt) s rd (signedAt 32 (lowBits 32 a / 2 ^ shamt.toNat)))
    ∧ (s.xlen = .rv32 → Illegal (.srliw rd rs1 shamt) s)
    ∧ IsWord (formatR 0b0000000#7 shamt rs1 0b101#3 rd 0b0011011#7) (.srliw rd rs1 shamt)
    ∧ (s.xlen = .rv64 → Writes (.sraiw rd rs1 shamt) s rd (signedAt 32 (signedAt 32 a / 2 ^ shamt.toNat)))
    ∧ (s.xlen = .rv32 → Illegal (.sraiw rd rs1 shamt) s)
    ∧ IsWord (formatR 0b0100000#7 shamt rs1 0b101#3 rd 0b0011011#7) (.sraiw rd rs1 shamt)
    ∧ (s.xlen = .rv64 → Writes (.addw rd rs1 rs2) s rd (signedAt 32 (a + b)))
    ∧ (s.xlen = .rv32 → Illegal (.addw rd rs1 rs2) s)
    ∧ IsWord (formatR 0b0000000#7 rs2 rs1 0b000#3 rd 0b0111011#7) (.addw rd rs1 rs2)
    ∧ (s.xlen = .rv64 → Writes (.subw rd rs1 rs2) s rd (signedAt 32 (a - b)))
    ∧ (s.xlen = .rv32 → Illegal (.subw rd rs1 rs2) s)
    ∧ IsWord (formatR 0b0100000#7 rs2 rs1 0b000#3 rd 0b0111011#7) (.subw rd rs1 rs2)
    ∧ (s.xlen = .rv64 → Writes (.sllw rd rs1 rs2) s rd (signedAt 32 (a * 2 ^ (b % 32).toNat)))
    ∧ (s.xlen = .rv32 → Illegal (.sllw rd rs1 rs2) s)
    ∧ IsWord (formatR 0b0000000#7 rs2 rs1 0b001#3 rd 0b0111011#7) (.sllw rd rs1 rs2)
    ∧ (s.xlen = .rv64 → Writes (.srlw rd rs1 rs2) s rd (signedAt 32 (lowBits 32 a / 2 ^ (b % 32).toNat)))
    ∧ (s.xlen = .rv32 → Illegal (.srlw rd rs1 rs2) s)
    ∧ IsWord (formatR 0b0000000#7 rs2 rs1 0b101#3 rd 0b0111011#7) (.srlw rd rs1 rs2)
    ∧ (s.xlen = .rv64 → Writes (.sraw rd rs1 rs2) s rd (signedAt 32 (signedAt 32 a / 2 ^ (b % 32).toNat)))
    ∧ (s.xlen = .rv32 → Illegal (.sraw rd rs1 rs2) s)
    ∧ IsWord (formatR 0b0100000#7 rs2 rs1 0b101#3 rd 0b0111011#7) (.sraw rd rs1 rs2)

/-- Each word with the fields of its row is the instruction where XLEN = 64; there it retires with rd holding the 32-bit
result of the low halves, sign-extended, with the corner cases of division at 32 bits, and nothing else changed; where
XLEN = 32 it raises illegal instruction. (R520, R521, R522, R523, R524) -/
def Obligations.MultiplyDivideWordResults : Prop :=
  ∀ (s : State) (rd rs1 rs2 : Reg),
    let a := s.num rs1; let b := s.num rs2;
    (s.xlen = .rv64 → Writes (.mulw rd rs1 rs2) s rd (signedAt 32 (a * b)))
    ∧ (s.xlen = .rv32 → Illegal (.mulw rd rs1 rs2) s)
    ∧ IsWord (formatR 0b0000001#7 rs2 rs1 0b000#3 rd 0b0111011#7) (.mulw rd rs1 rs2)
    ∧ (s.xlen = .rv64 → Writes (.divw rd rs1 rs2) s rd (signedAt 32 (if lowBits 32 b = 0 then -1 else (signedAt 32 a).tdiv (signedAt 32 b))))
    ∧ (s.xlen = .rv32 → Illegal (.divw rd rs1 rs2) s)
    ∧ IsWord (formatR 0b0000001#7 rs2 rs1 0b100#3 rd 0b0111011#7) (.divw rd rs1 rs2)
    ∧ (s.xlen = .rv64 → Writes (.divuw rd rs1 rs2) s rd (signedAt 32 (if lowBits 32 b = 0 then -1 else lowBits 32 a / lowBits 32 b)))
    ∧ (s.xlen = .rv32 → Illegal (.divuw rd rs1 rs2) s)
    ∧ IsWord (formatR 0b0000001#7 rs2 rs1 0b101#3 rd 0b0111011#7) (.divuw rd rs1 rs2)
    ∧ (s.xlen = .rv64 → Writes (.remw rd rs1 rs2) s rd (signedAt 32 (if lowBits 32 b = 0 then a else (signedAt 32 a).tmod (signedAt 32 b))))
    ∧ (s.xlen = .rv32 → Illegal (.remw rd rs1 rs2) s)
    ∧ IsWord (formatR 0b0000001#7 rs2 rs1 0b110#3 rd 0b0111011#7) (.remw rd rs1 rs2)
    ∧ (s.xlen = .rv64 → Writes (.remuw rd rs1 rs2) s rd (signedAt 32 (if lowBits 32 b = 0 then a else lowBits 32 a % lowBits 32 b)))
    ∧ (s.xlen = .rv32 → Illegal (.remuw rd rs1 rs2) s)
    ∧ IsWord (formatR 0b0000001#7 rs2 rs1 0b111#3 rd 0b0111011#7) (.remuw rd rs1 rs2)

/-- Every instruction of the integer and multiply-divide families, compressed forms included, that is well-formed in the
mode completes; only x, pc, mcycle and minstret differ after it; every register but its destination reads as before;
every byte of memory reads as before; the pc is npc. (R400, R510, R53, R303) -/
def Obligations.ComputationFrame : Prop :=
  ∀ (i : Instr) (s : State), i.computes = true → i.wf s.xlen = true →
    ∃ t, exec i s = .next t ∧ OnlyRegisters s t ∧ t.pc = s.npc i
      ∧ t.mcycle = s.mcycle + 1 ∧ t.minstret = s.minstret + 1
      ∧ (∀ r, i.dest ≠ some r → t.readX r = s.readX r)
      ∧ ∀ a, t.byteAt a = s.byteAt a

/-- C.ADDI4SPN, C.NOP, C.ADDI, C.ADDIW, C.LI, C.ADDI16SP, C.LUI, C.SRLI, C.SRAI, C.ANDI, C.SUB, C.XOR, C.OR, C.AND,
C.SUBW, C.ADDW, C.SLLI, C.MV and C.ADD retire, two bytes on, with their destination holding the number their rule
gives modulo 2^XLEN and nothing else changed; C.SUBW, C.ADDW and shifts by 32 or more raise illegal instruction where
XLEN = 32, and by the model's choice of log 16 C.ADDIW too, whose parcel is C.JAL there (R644). (R641, R650, R659,
R660, R662, R663, R664, R665, 47_compressed.md R666, R667, R668 and R678, 47_compressed.md R669, R670, R671, R672,
R673 and R674, R684, R687) -/
def Obligations.CompressedComputationResults : Prop :=
  ∀ (s : State) (rd rs2 : Reg) (rd' rs2' : CReg) (imm : BitVec 6) (imm10 : BitVec 10),
    let q := creg rd'; let q2 := creg rs2';
    Writes (.cAddi4spn rd' imm10) s q (s.num 2#5 + imm10.toNat)
    ∧ Writes (.cNop imm) s 0#5 0
    ∧ Writes (.cAddi rd imm) s rd (s.num rd + imm.toInt)
    ∧ (s.xlen = .rv64 → Writes (.cAddiw rd imm) s rd (signedAt 32 (s.num rd + imm.toInt)))
    ∧ (s.xlen = .rv32 → Illegal (.cAddiw rd imm) s)
    ∧ Writes (.cLi rd imm) s rd imm.toInt
    ∧ Writes (.cAddi16sp imm10) s 2#5 (s.num 2#5 + imm10.toInt)
    ∧ Writes (.cLui rd imm) s rd (imm.toInt * 4096)
    ∧ Writes (.cAndi rd' imm) s q ((s.num q).toNat &&& (imm.toInt % 2 ^ xlenBits s.xlen).toNat : Nat)
    ∧ Writes (.cSub rd' rs2') s q (s.num q - s.num q2)
    ∧ Writes (.cXor rd' rs2') s q ((s.num q).toNat ^^^ (s.num q2).toNat : Nat)
    ∧ Writes (.cOr rd' rs2') s q ((s.num q).toNat ||| (s.num q2).toNat : Nat)
    ∧ Writes (.cAnd rd' rs2') s q ((s.num q).toNat &&& (s.num q2).toNat : Nat)
    ∧ (s.xlen = .rv64 → Writes (.cSubw rd' rs2') s q (signedAt 32 (s.num q - s.num q2)))
    ∧ (s.xlen = .rv64 → Writes (.cAddw rd' rs2') s q (signedAt 32 (s.num q + s.num q2)))
    ∧ (s.xlen = .rv32 → Illegal (.cSubw rd' rs2') s ∧ Illegal (.cAddw rd' rs2') s)
    ∧ Writes (.cMv rd rs2) s rd (s.num rs2)
    ∧ Writes (.cAdd rd rs2) s rd (s.num rd + s.num rs2)
    ∧ (imm.toNat < xlenBits s.xlen →
        Writes (.cSlli rd imm) s rd (s.num rd * 2 ^ imm.toNat)
        ∧ Writes (.cSrli rd' imm) s q (s.num q / 2 ^ imm.toNat)
        ∧ Writes (.cSrai rd' imm) s q (s.signed q / 2 ^ imm.toNat))
    ∧ (xlenBits s.xlen ≤ imm.toNat →
        Illegal (.cSlli rd imm) s ∧ Illegal (.cSrli rd' imm) s ∧ Illegal (.cSrai rd' imm) s)

/-- Each word with the fields of its row is the instruction; a jump writes npc to rd and goes to pc + off, or to rs1 + imm
with bit 0 cleared, modulo 2^XLEN, with rs1 read before rd is written; nothing else changes. (R462, R463) -/
def Obligations.JumpResults : Prop :=
  ∀ (s : State) (rd rs1 : Reg) (off : BitVec 21) (imm : BitVec 12),
    exec (.jal rd off) s
        = .next ((s.writeX rd (s.npc (.jal rd off))).retireAt (BitVec.ofInt 64 (s.pc.toNat + off.toInt)))
    ∧ exec (.jalr rd rs1 imm) s
        = .next ((s.writeX rd (s.npc (.jalr rd rs1 imm))).retireAt
            (BitVec.ofInt 64 ((s.num rs1 + imm.toInt) % 2 ^ xlenBits s.xlen / 2 * 2)))
    ∧ (evenOffset off = true → IsWord (formatJ off rd 0b1101111#7) (.jal rd off))
    ∧ IsWord (formatI imm rs1 0b000#3 rd 0b1100111#7) (.jalr rd rs1 imm)

/-- Each word with the fields of its row is the instruction; a branch goes to pc + off modulo 2^XLEN where its condition
holds, signed or unsigned as its rule says, and to npc otherwise; nothing else changes. (R464, R465, R466, R467, R468,
R469, R470) -/
def Obligations.BranchResults : Prop :=
  ∀ (s : State) (rs1 rs2 : Reg) (off : BitVec 13),
    let t := s.retireAt (BitVec.ofInt 64 (s.pc.toNat + off.toInt));
    exec (.beq rs1 rs2 off) s = .next (if s.num rs1 = s.num rs2 then t else s.retire (.beq rs1 rs2 off))
    ∧ (evenOffset off = true → IsWord (formatB off rs2 rs1 0b000#3 0b1100011#7) (.beq rs1 rs2 off))
    ∧ exec (.bne rs1 rs2 off) s = .next (if s.num rs1 ≠ s.num rs2 then t else s.retire (.bne rs1 rs2 off))
    ∧ (evenOffset off = true → IsWord (formatB off rs2 rs1 0b001#3 0b1100011#7) (.bne rs1 rs2 off))
    ∧ exec (.blt rs1 rs2 off) s = .next (if s.signed rs1 < s.signed rs2 then t else s.retire (.blt rs1 rs2 off))
    ∧ (evenOffset off = true → IsWord (formatB off rs2 rs1 0b100#3 0b1100011#7) (.blt rs1 rs2 off))
    ∧ exec (.bge rs1 rs2 off) s = .next (if s.signed rs2 ≤ s.signed rs1 then t else s.retire (.bge rs1 rs2 off))
    ∧ (evenOffset off = true → IsWord (formatB off rs2 rs1 0b101#3 0b1100011#7) (.bge rs1 rs2 off))
    ∧ exec (.bltu rs1 rs2 off) s = .next (if s.num rs1 < s.num rs2 then t else s.retire (.bltu rs1 rs2 off))
    ∧ (evenOffset off = true → IsWord (formatB off rs2 rs1 0b110#3 0b1100011#7) (.bltu rs1 rs2 off))
    ∧ exec (.bgeu rs1 rs2 off) s = .next (if s.num rs2 ≤ s.num rs1 then t else s.retire (.bgeu rs1 rs2 off))
    ∧ (evenOffset off = true → IsWord (formatB off rs2 rs1 0b111#3 0b1100011#7) (.bgeu rs1 rs2 off))

/-- C.J and C.JR jump without a link; C.JAL (XLEN = 32 only) and C.JALR link x1 to pc + 2; C.BEQZ and C.BNEZ compare with
0; targets are taken modulo 2^XLEN; nothing else changes; that C.JAL raises illegal instruction where XLEN = 64 is the
model's choice of log 16, since its parcel is C.ADDIW or reserved there (R644). (R661, R675, R676, R677, R683, R686,
R471) -/
def Obligations.CompressedControlResults : Prop :=
  ∀ (s : State) (rs1 : Reg) (r : CReg) (off : BitVec 12) (off9 : BitVec 9),
    let land : Int → State → State := fun n u => u.retireAt (BitVec.ofInt 64 n);
    exec (.cJ off) s = .next (land (s.pc.toNat + off.toInt) s)
    ∧ (s.xlen = .rv32 →
        exec (.cJal off) s = .next (land (s.pc.toNat + off.toInt) (s.writeX 1#5 (s.npc (.cJal off)))))
    ∧ (s.xlen = .rv64 → Illegal (.cJal off) s)
    ∧ exec (.cJr rs1) s = .next (land (s.num rs1 / 2 * 2) s)
    ∧ exec (.cJalr rs1) s = .next (land (s.num rs1 / 2 * 2) (s.writeX 1#5 (s.npc (.cJalr rs1))))
    ∧ exec (.cBeqz r off9) s
        = .next (if s.num (creg r) = 0 then land (s.pc.toNat + off9.toInt) s else s.retire (.cBeqz r off9))
    ∧ exec (.cBnez r off9) s
        = .next (if s.num (creg r) ≠ 0 then land (s.pc.toNat + off9.toInt) s else s.retire (.cBnez r off9))

/-- With translation off for loads, a load of bytes that lie in DRAM retires, aligned or not, with rd holding the little-
endian number of those bytes, sign- or zero-extended as its rule says, and nothing else changed, no byte of memory
among it; LD and LWU raise illegal instruction where XLEN = 32; each word with the fields of its row is the
instruction. (R480, R482, R483, R484, R485, R486, R487, R488, R231, R205, R255) -/
def Obligations.LoadResults : Prop :=
  ∀ (s : State) (rd rs1 : Reg) (imm : BitVec 12), s.translating .load = false → s.dramSize ≤ Config.dramSizeDefault →
    let a := s.address rs1 imm;
    (s.inDram a 1 = true → Writes (.lb rd rs1 imm) s rd (signedAt 8 (s.leNat a 1)))
    ∧ (s.inDram a 2 = true → Writes (.lh rd rs1 imm) s rd (signedAt 16 (s.leNat a 2)))
    ∧ (s.inDram a 4 = true → Writes (.lw rd rs1 imm) s rd (signedAt 32 (s.leNat a 4)))
    ∧ (s.inDram a 1 = true → Writes (.lbu rd rs1 imm) s rd (s.leNat a 1))
    ∧ (s.inDram a 2 = true → Writes (.lhu rd rs1 imm) s rd (s.leNat a 2))
    ∧ (s.xlen = .rv64 → s.inDram a 8 = true → Writes (.ld rd rs1 imm) s rd (s.leNat a 8))
    ∧ (s.xlen = .rv64 → s.inDram a 4 = true → Writes (.lwu rd rs1 imm) s rd (s.leNat a 4))
    ∧ (s.xlen = .rv32 → Illegal (.ld rd rs1 imm) s ∧ Illegal (.lwu rd rs1 imm) s)
    ∧ IsWord (formatI imm rs1 0b000#3 rd 0b0000011#7) (.lb rd rs1 imm)
    ∧ IsWord (formatI imm rs1 0b001#3 rd 0b0000011#7) (.lh rd rs1 imm)
    ∧ IsWord (formatI imm rs1 0b010#3 rd 0b0000011#7) (.lw rd rs1 imm)
    ∧ IsWord (formatI imm rs1 0b011#3 rd 0b0000011#7) (.ld rd rs1 imm)
    ∧ IsWord (formatI imm rs1 0b100#3 rd 0b0000011#7) (.lbu rd rs1 imm)
    ∧ IsWord (formatI imm rs1 0b101#3 rd 0b0000011#7) (.lhu rd rs1 imm)
    ∧ IsWord (formatI imm rs1 0b110#3 rd 0b0000011#7) (.lwu rd rs1 imm)

/-- With translation off for stores, a store to bytes that lie in DRAM retires, aligned or not: the bytes at the effective
address are the low bytes of rs2, little-endian, the reservation is gone, and nothing else changed, no other byte of
memory among it; SD raises illegal instruction where XLEN = 32; each word with the fields of its row is the
instruction. (R480, R481, R490, R491, R492, R493, R205, R231, R540) -/
def Obligations.StoreResults : Prop :=
  ∀ (s : State) (rs1 rs2 : Reg) (imm : BitVec 12), s.translating .store = false →
    s.dramSize ≤ Config.dramSizeDefault → s.dramOk →
    let a := s.address rs1 imm; let v := s.num rs2;
    (s.inDram a 1 = true → ∃ t, exec (.sb rs1 rs2 imm) s = .next t ∧ Stored (.sb rs1 rs2 imm) s t a 1 (v))
    ∧ (s.inDram a 2 = true → ∃ t, exec (.sh rs1 rs2 imm) s = .next t ∧ Stored (.sh rs1 rs2 imm) s t a 2 (v))
    ∧ (s.inDram a 4 = true → ∃ t, exec (.sw rs1 rs2 imm) s = .next t ∧ Stored (.sw rs1 rs2 imm) s t a 4 (v))
    ∧ (s.xlen = .rv64 → s.inDram a 8 = true → ∃ t, exec (.sd rs1 rs2 imm) s = .next t ∧ Stored (.sd rs1 rs2 imm) s t a 8 (v))
    ∧ (s.xlen = .rv32 → Illegal (.sd rs1 rs2 imm) s)
    ∧ IsWord (formatS imm rs2 rs1 0b000#3 0b0100011#7) (.sb rs1 rs2 imm)
    ∧ IsWord (formatS imm rs2 rs1 0b001#3 0b0100011#7) (.sh rs1 rs2 imm)
    ∧ IsWord (formatS imm rs2 rs1 0b010#3 0b0100011#7) (.sw rs1 rs2 imm)
    ∧ IsWord (formatS imm rs2 rs1 0b011#3 0b0100011#7) (.sd rs1 rs2 imm)

/-- With translation off for its kind, a compressed load of bytes that lie in DRAM retires with its register holding the
number of those bytes, sign-extended, and nothing else changed; a compressed store leaves at its effective address the
low bytes of its register, the reservation gone, and nothing else changed; that C.LD, C.LDSP, C.SD and C.SDSP raise
illegal instruction where XLEN = 32 is the model's choice of log 16, since their parcels are C.FLW, C.FLWSP, C.FSW and
C.FSWSP there. (R652, R654, R656, R658, R680, R682, R689, R691, R205, R255, R540) -/
def Obligations.CompressedAccessResults : Prop :=
  ∀ (s : State) (r5 : Reg) (r q : CReg) (o7 : BitVec 7) (o8 : BitVec 8) (o9 : BitVec 9),
    s.dramSize ≤ Config.dramSizeDefault → s.dramOk →
    let a7 := s.address (creg r) (o7.setWidth 12); let a8 := s.address (creg r) (o8.setWidth 12);
    let sp8 := s.address 2#5 (o8.setWidth 12); let sp9 := s.address 2#5 (o9.setWidth 12);
    let stores : Instr → Nat → Nat → Int → Prop := fun i a n v => ∃ t, exec i s = .next t ∧ Stored i s t a n v;
    (s.translating .load = false →
      (s.inDram a7 4 = true → Writes (.cLw q r o7) s (creg q) (signedAt 32 (s.leNat a7 4)))
      ∧ (s.inDram sp8 4 = true → Writes (.cLwsp r5 o8) s r5 (signedAt 32 (s.leNat sp8 4)))
      ∧ (s.xlen = .rv64 → s.inDram a8 8 = true → Writes (.cLd q r o8) s (creg q) (s.leNat a8 8))
      ∧ (s.xlen = .rv64 → s.inDram sp9 8 = true → Writes (.cLdsp r5 o9) s r5 (s.leNat sp9 8)))
    ∧ (s.translating .store = false →
      (s.inDram a7 4 = true → stores (.cSw r q o7) a7 4 (s.num (creg q)))
      ∧ (s.inDram sp8 4 = true → stores (.cSwsp r5 o8) sp8 4 (s.num r5))
      ∧ (s.xlen = .rv64 → s.inDram a8 8 = true → stores (.cSd r q o8) a8 8 (s.num (creg q)))
      ∧ (s.xlen = .rv64 → s.inDram sp9 8 = true → stores (.cSdsp r5 o9) sp9 8 (s.num r5)))
    ∧ (s.xlen = .rv32 →
      Illegal (.cLd q r o8) s ∧ Illegal (.cLdsp r5 o9) s ∧ Illegal (.cSd r q o8) s ∧ Illegal (.cSdsp r5 o9) s)

/-- With FS not 0 and translation off for loads, a floating-point load of bytes in DRAM retires with f[rd] holding them (a
single boxed with ones), FS = 3, and nothing else changed; C.FLW and C.FLWSP do so where XLEN = 32, and that they
raise illegal instruction where XLEN = 64 is the model's choice of log 16, since their parcels are C.LD and C.LDSP
there; each word with the fields of its row is the instruction. (R495, R496, R497, R651, R653, R679, R681, R58, R71) -/
def Obligations.FloatLoadResults : Prop :=
  ∀ (s : State) (rd rs1 : Reg) (imm : BitVec 12) (rd' r : CReg) (o7 : BitVec 7) (o8 : BitVec 8) (o9 : BitVec 9),
    s.mstatus.fs ≠ 0 → s.translating .load = false → s.dramSize ≤ Config.dramSizeDefault →
    (let a := s.address rs1 imm;
      s.inDram a 4 = true → exec (.flw rd rs1 imm) s = .next ((({ s with f := s.f.set (rd).toNat (BitVec.ofNat 64 (0xFFFFFFFF * 2 ^ 32 + s.leNat a 4)) (rd).isLt }).setFsDirty).retire (.flw rd rs1 imm)))
    ∧ (let a := s.address rs1 imm;
      s.inDram a 8 = true → exec (.fld rd rs1 imm) s = .next ((({ s with f := s.f.set (rd).toNat (BitVec.ofNat 64 (s.leNat a 8)) (rd).isLt }).setFsDirty).retire (.fld rd rs1 imm)))
    ∧ (let a := s.address (creg r) (o8.setWidth 12);
      s.inDram a 8 = true → exec (.cFld rd' r o8) s = .next ((({ s with f := s.f.set (creg rd').toNat (BitVec.ofNat 64 (s.leNat a 8)) (creg rd').isLt }).setFsDirty).retire (.cFld rd' r o8)))
    ∧ (let a := s.address 2#5 (o9.setWidth 12);
      s.inDram a 8 = true → exec (.cFldsp rd o9) s = .next ((({ s with f := s.f.set (rd).toNat (BitVec.ofNat 64 (s.leNat a 8)) (rd).isLt }).setFsDirty).retire (.cFldsp rd o9)))
    ∧ (s.xlen = .rv32 →
      (let a := s.address (creg r) (o7.setWidth 12);
        s.inDram a 4 = true → exec (.cFlw rd' r o7) s = .next ((({ s with f := s.f.set (creg rd').toNat (BitVec.ofNat 64 (0xFFFFFFFF * 2 ^ 32 + s.leNat a 4)) (creg rd').isLt }).setFsDirty).retire (.cFlw rd' r o7)))
      ∧ (let a := s.address 2#5 (o8.setWidth 12);
        s.inDram a 4 = true → exec (.cFlwsp rd o8) s = .next ((({ s with f := s.f.set (rd).toNat (BitVec.ofNat 64 (0xFFFFFFFF * 2 ^ 32 + s.leNat a 4)) (rd).isLt }).setFsDirty).retire (.cFlwsp rd o8))))
    ∧ (s.xlen = .rv64 → Illegal (.cFlw rd' r o7) s ∧ Illegal (.cFlwsp rd o8) s)
    ∧ IsWord (formatI imm rs1 0b010#3 rd 0b0000111#7) (.flw rd rs1 imm)
    ∧ IsWord (formatI imm rs1 0b011#3 rd 0b0000111#7) (.fld rd rs1 imm)

/-- With FS not 0 and translation off for stores, a floating-point store to bytes in DRAM retires: those bytes are the low
bytes of f[rs2], FS is unchanged, the reservation is gone, and nothing else changed; C.FSW and C.FSWSP do so where
XLEN = 32, and that they raise illegal instruction where XLEN = 64 is the model's choice of log 16, since their
parcels are C.SD and C.SDSP there; each word with the fields of its row is the instruction. (R495, R498, R499, R655,
R657, R688, R690, R540) -/
def Obligations.FloatStoreResults : Prop :=
  ∀ (s : State) (rs1 rs2 : Reg) (imm : BitVec 12) (r q : CReg) (o7 : BitVec 7) (o8 : BitVec 8) (o9 : BitVec 9),
    s.mstatus.fs ≠ 0 → s.translating .store = false →
    s.dramSize ≤ Config.dramSizeDefault → s.dramOk →
    (let a := s.address rs1 imm;
      s.inDram a 4 = true → ∃ t, exec (.fsw rs1 rs2 imm) s = .next t ∧ Stored (.fsw rs1 rs2 imm) s t a 4 (s.readF rs2).toNat)
    ∧ (let a := s.address rs1 imm;
      s.inDram a 8 = true → ∃ t, exec (.fsd rs1 rs2 imm) s = .next t ∧ Stored (.fsd rs1 rs2 imm) s t a 8 (s.readF rs2).toNat)
    ∧ (let a := s.address (creg r) (o8.setWidth 12);
      s.inDram a 8 = true → ∃ t, exec (.cFsd r q o8) s = .next t ∧ Stored (.cFsd r q o8) s t a 8 (s.readF (creg q)).toNat)
    ∧ (let a := s.address 2#5 (o9.setWidth 12);
      s.inDram a 8 = true → ∃ t, exec (.cFsdsp rs2 o9) s = .next t ∧ Stored (.cFsdsp rs2 o9) s t a 8 (s.readF rs2).toNat)
    ∧ (s.xlen = .rv32 →
      (let a := s.address (creg r) (o7.setWidth 12);
        s.inDram a 4 = true → ∃ t, exec (.cFsw r q o7) s = .next t ∧ Stored (.cFsw r q o7) s t a 4 (s.readF (creg q)).toNat)
      ∧ (let a := s.address 2#5 (o8.setWidth 12);
        s.inDram a 4 = true → ∃ t, exec (.cFswsp rs2 o8) s = .next t ∧ Stored (.cFswsp rs2 o8) s t a 4 (s.readF rs2).toNat))
    ∧ (s.xlen = .rv64 → Illegal (.cFsw r q o7) s ∧ Illegal (.cFswsp rs2 o8) s)
    ∧ IsWord (formatS imm rs2 rs1 0b010#3 0b0100111#7) (.fsw rs1 rs2 imm)
    ∧ IsWord (formatS imm rs2 rs1 0b011#3 0b0100111#7) (.fsd rs1 rs2 imm)

/-- With mstatus.FS = 0 the four floating-point loads and stores, their compressed forms and the five F/D arithmetic
opcodes raise illegal instruction; with FS not 0 the F/D arithmetic opcodes end in the refusal fpArith. That C.FLW,
C.FSW, C.FLWSP and C.FSWSP raise it where XLEN = 64 too is the model's choice of log 16, since their parcels are C.LD,
C.SD, C.LDSP and C.SDSP there. (R71, R343, R495) -/
def Obligations.FloatIsGatedByFs : Prop :=
  ∀ (s : State) (i : Instr),
    (s.mstatus.fs = 0 →
      (∃ rd rs1 imm, i = .flw rd rs1 imm ∨ i = .fld rd rs1 imm ∨ i = .fsw rd rs1 imm ∨ i = .fsd rd rs1 imm)
        ∨ (∃ r q o, i = .cFld r q o ∨ i = .cFsd r q o) ∨ (∃ r q o, i = .cFlw r q o ∨ i = .cFsw r q o)
        ∨ (∃ r o, i = .cFldsp r o ∨ i = .cFsdsp r o) ∨ (∃ r o, i = .cFlwsp r o ∨ i = .cFswsp r o)
        ∨ (∃ rd rs1 rs2 rm hi, i = .fpMadd rd rs1 rs2 rm hi ∨ i = .fpMsub rd rs1 rs2 rm hi
            ∨ i = .fpNmsub rd rs1 rs2 rm hi ∨ i = .fpNmadd rd rs1 rs2 rm hi ∨ i = .fpOp rd rs1 rs2 rm hi) →
      Illegal i s)
    ∧ (s.mstatus.fs ≠ 0 → ∀ rd rs1 rs2 rm hi,
        (i = .fpMadd rd rs1 rs2 rm hi ∨ i = .fpMsub rd rs1 rs2 rm hi ∨ i = .fpNmsub rd rs1 rs2 rm hi
          ∨ i = .fpNmadd rd rs1 rs2 rm hi ∨ i = .fpOp rd rs1 rs2 rm hi) → exec i s = .refused .fpArith)

/-- Each device owns the physical range the memory map gives it, DRAM the DRAM_SIZE bytes from 0x80000000, and an access
is in DRAM exactly when all its bytes are. With translation off, each of the seven integer loads and four integer
stores that the XLEN has, and each of the two floating-point loads and stores where FS is not 0, aligned or not: where
its bytes do not all lie in one mapped region it raises load access fault or store/AMO access fault with the effective
address as trap value. In the CLINT, the PLIC or the virtio block an access of one or two bytes, and every misaligned
one, ends the step with the fault mmioWidth; an aligned word does the 32-bit access at its offset and retires, and an
aligned doubleword the 32-bit access at the lower address and then the one above it. In the UART an access of any
width and alignment reads or writes its byte registers in ascending order, each with its side effect, a load as the
little-endian number of the bytes. A load gives rd the number it read, extended as its rule says, or f[rd], a single
boxed with ones, with FS Dirty; a store that retires drops the reservation. (R202, R203, 20_memory.md R211, R212,
R213, R214 and R215, R230, R231, R232, R233, R234, R722, R764, R481, R495) -/
def Obligations.UnmappedAndDeviceAccesses : Prop :=
  ∀ (s : State) (rd rs1 rs2 : Reg) (imm : BitVec 12) (i : Instr) (n off : Nat),
    let a := s.address rs1 imm;
    (∀ pa, (s.region pa = .clint ↔ 0x02000000 ≤ pa ∧ pa ≤ 0x0200FFFF)
      ∧ (s.region pa = .plic ↔ 0x0C000000 ≤ pa ∧ pa ≤ 0x0FFFFFFF)
      ∧ (s.region pa = .uart ↔ 0x10000000 ≤ pa ∧ pa ≤ 0x10000FFF)
      ∧ (s.region pa = .virtio ↔ 0x10001000 ≤ pa ∧ pa ≤ 0x10001FFF)
      ∧ (s.region pa = .dram ↔ 0x80000000 ≤ pa ∧ pa < 0x80000000 + s.dramSize)
      ∧ ∀ m, s.inDram pa m = true ↔ 0x80000000 ≤ pa ∧ pa + m ≤ 0x80000000 + s.dramSize)
    ∧ (∀ put, LoadForm s rd rs1 imm i n put → s.translating .load = false →
      ((∀ r, r ≠ .unmapped → ¬ s.liesIn r a n) → exec i s = .next (trapStep (.exception .loadAccess) (BitVec.ofNat 64 a) s))
      ∧ (∀ r base, WordDevice r base → s.liesIn r a n → a = base + off →
        (n < 4 ∨ a % n ≠ 0 → exec i s = .fault .mmioWidth)
        ∧ (n = 4 → a % 4 = 0 → let read := s.deviceRead32 r off;
            exec i s = .next ((put read.2 read.1.toNat).retire i))
        ∧ (n = 8 → a % 8 = 0 → let low := s.deviceRead32 r off; let high := low.2.deviceRead32 r (off + 4);
            exec i s = .next ((put high.2 (high.1 ++ low.1).toNat).retire i)))
      ∧ (s.liesIn .uart a n → a = 0x10000000 + off → let read := s.uartReads off n;
          exec i s = .next ((put read.2 read.1.toNat).retire i)))
    ∧ (∀ v, StoreForm s rs1 rs2 imm i n v → s.translating .store = false →
      ((∀ r, r ≠ .unmapped → ¬ s.liesIn r a n) → exec i s = .next (trapStep (.exception .storeAccess) (BitVec.ofNat 64 a) s))
      ∧ (∀ r base, WordDevice r base → s.liesIn r a n → a = base + off →
        (n < 4 ∨ a % n ≠ 0 → exec i s = .fault .mmioWidth)
        ∧ (n = 4 → a % 4 = 0 → exec i s
            = .next (({ s.deviceWrite32 r off (v.setWidth 32) with resv := none } : State).retire i))
        ∧ (n = 8 → a % 8 = 0 → let low := s.deviceWrite32 r off (v.setWidth 32);
            exec i s = .next (({ low.deviceWrite32 r (off + 4) (v.extractLsb 63 32) with resv := none } : State).retire i)))
      ∧ (s.liesIn .uart a n → a = 0x10000000 + off →
          exec i s = .next (({ s.uartWrites off n v with resv := none } : State).retire i)))
    ∧ (∀ m v, s.uartReads off 0 = (0, s) ∧ s.uartWrites off 0 v = s
        ∧ s.uartWrites off (m + 1) v = (s.uartWrite off (v.setWidth 8)).uartWrites (off + 1) m (v >>> 8)
        ∧ (let first := s.uartRead off; let rest := first.2.uartReads (off + 1) m;
          (s.uartReads off (m + 1)).2 = rest.2
          ∧ (m < 8 → (s.uartReads off (m + 1)).1.toNat = first.1.toNat + 256 * rest.1.toNat)))

/-- For each of the seven integer loads and four integer stores that the XLEN has, and each of the two floating-point
loads and stores where FS is not 0. Aligned: where the translation of its address, by the TLB or the walk, raises,
that exception is taken with the address as trap value in the state the translation left; where it gives an address in
DRAM, a load retires with its destination holding the number of the bytes there in that state, in rd extended as its
rule says, in f[rd] a single boxed with ones and FS Dirty, and a store leaves the low bytes of its register there, the
reservation gone, and nothing else changed; where it gives an address in the CLINT, the PLIC or the virtio block an
access of one or two bytes ends the step with the fault mmioWidth, a word does the 32-bit access there and a
doubleword the two from the lower one on, and in the UART the byte registers are read or written in order, the
reservation dropped by a store; where the physical bytes are unmapped or in two regions the access fault is taken.
Misaligned, within a page or across two: its bytes are translated in ascending order, each in the state the one before
left, and the first that raises has its exception taken, a page fault with the address of that byte and an access
fault with the address of the access as trap value; where all translate to DRAM, or all to the UART, the bytes at
those addresses are read or written in ascending order, where all translate to one of the other devices the step ends
with mmioWidth, and where they do not all lie in one mapped region the access fault is taken with the address of the
access. That a later byte's access fault has the address of the access is R254 and R722, which the model follows over
the words of R233 (log 22). (20_memory.md R212, R213 and R214, R231, R232, R233, R234, R235, 20_memory.md R236 and
R237, R254, R480, R481, R495, R722) -/
def Obligations.TranslatedAccesses : Prop :=
  ∀ (s u : State) (rd rs1 rs2 : Reg) (imm : BitVec 12) (i : Instr) (n pa m off : Nat) (ss us : Nat → State)
    (pas offs : Nat → Nat),
    let a := s.address rs1 imm; let va : Nat → Word := fun k => BitVec.ofNat 64 (s.byteAddress a k);
    let allIn : State → Region → Prop := fun t r => ∀ k, k < n → t.region (pas k) = r;
    let oneRegion : State → Prop := fun t => ∃ r, r ≠ .unmapped ∧ allIn t r;
    let within : Region → Prop := fun r => u.region pa = r ∧ u.region (pa + n - 1) = r;
    (∀ put, LoadForm s rd rs1 imm i n put →
      (a % n = 0 →
        (∀ e, s.translate .load (va 0) = .trap e (va 0) u → exec i s = .next (trapStep (.exception e) (va 0) u))
        ∧ (s.translate .load (va 0) = .ok pa u →
          (u.inDram pa n = true → exec i s = .next ((put u (u.leNat pa n)).retire i))
          ∧ (u.region pa = .unmapped ∨ u.region pa ≠ u.region (pa + n - 1) →
            exec i s = .next (trapStep (.exception .loadAccess) (va 0) u))
          ∧ (∀ r base, WordDevice r base → within r → pa = base + off →
            (n < 4 → exec i s = .fault .mmioWidth)
            ∧ (n = 4 → let read := u.deviceRead32 r off; exec i s = .next ((put read.2 read.1.toNat).retire i))
            ∧ (n = 8 → let low := u.deviceRead32 r off; let high := low.2.deviceRead32 r (off + 4);
                exec i s = .next ((put high.2 (high.1 ++ low.1).toNat).retire i)))
          ∧ (within .uart → pa = 0x10000000 + off → let read := u.uartReads off n;
              exec i s = .next ((put read.2 read.1.toNat).retire i))))
      ∧ (a % n ≠ 0 → ss 0 = s → m ≤ n →
        (∀ k, k < m → (ss k).translate .load (va k) = .ok (pas k) (ss (k + 1))) →
        (∀ e, m < n → (ss m).translate .load (va m) = .trap e (va m) u →
          exec i s = .next (trapStep (.exception e) (if e = .loadAccess then va 0 else va m) u))
        ∧ (m = n → allIn (ss n) .dram →
          exec i s = .next ((put (ss n) (bytesNat (fun k => (ss n).byteAt (pas k)) n)).retire i))
        ∧ (m = n → ¬ oneRegion (ss n) → exec i s = .next (trapStep (.exception .loadAccess) (va 0) (ss n)))
        ∧ (∀ r base, WordDevice r base → m = n → allIn (ss n) r → exec i s = .fault .mmioWidth)
        ∧ (m = n → allIn (ss n) .uart → (∀ k, k < n → pas k = 0x10000000 + offs k) →
          us 0 = ss n → (∀ k, k < n → us (k + 1) = ((us k).uartRead (offs k)).2) →
          exec i s = .next ((put (us n) (bytesNat (fun k => ((us k).uartRead (offs k)).1) n)).retire i))))
    ∧ (∀ v, StoreForm s rs1 rs2 imm i n v → s.dramOk →
      (a % n = 0 →
        (∀ e, s.translate .store (va 0) = .trap e (va 0) u → exec i s = .next (trapStep (.exception e) (va 0) u))
        ∧ (s.translate .store (va 0) = .ok pa u →
          (u.inDram pa n = true → ∃ t, exec i s = .next t ∧ Stored i u t pa n v.toNat)
          ∧ (u.region pa = .unmapped ∨ u.region pa ≠ u.region (pa + n - 1) →
            exec i s = .next (trapStep (.exception .storeAccess) (va 0) u))
          ∧ (∀ r base, WordDevice r base → within r → pa = base + off →
            (n < 4 → exec i s = .fault .mmioWidth)
            ∧ (n = 4 → exec i s
                = .next (({ u.deviceWrite32 r off (v.setWidth 32) with resv := none } : State).retire i))
            ∧ (n = 8 → let low := u.deviceWrite32 r off (v.setWidth 32); exec i s
                = .next (({ low.deviceWrite32 r (off + 4) (v.extractLsb 63 32) with resv := none } : State).retire i)))
          ∧ (within .uart → pa = 0x10000000 + off →
              exec i s = .next (({ u.uartWrites off n v with resv := none } : State).retire i))))
      ∧ (a % n ≠ 0 → ss 0 = s → m ≤ n →
        (∀ k, k < m → (ss k).translate .store (va k) = .ok (pas k) (ss (k + 1))) →
        (∀ e, m < n → (ss m).translate .store (va m) = .trap e (va m) u →
          exec i s = .next (trapStep (.exception e) (if e = .storeAccess then va 0 else va m) u))
        ∧ (m = n → allIn (ss n) .dram → ∃ t, exec i s = .next t
          ∧ t = { ss n with dram := t.dram, resv := none, pc := s.npc i, mcycle := s.mcycle + 1, minstret := s.minstret + 1 }
          ∧ (∀ k, k < n → t.byteAt (pas k) = BitVec.ofInt 8 (v.toNat / 256 ^ k))
          ∧ ∀ b, (∀ k, k < n → b ≠ pas k) → t.byteAt b = (ss n).byteAt b)
        ∧ (m = n → ¬ oneRegion (ss n) → exec i s = .next (trapStep (.exception .storeAccess) (va 0) (ss n)))
        ∧ (∀ r base, WordDevice r base → m = n → allIn (ss n) r → exec i s = .fault .mmioWidth)
        ∧ (m = n → allIn (ss n) .uart → (∀ k, k < n → pas k = 0x10000000 + offs k) →
          us 0 = ss n → (∀ k, k < n → us (k + 1) = (us k).uartWrite (offs k) ((v >>> (8 * k)).setWidth 8)) →
          exec i s = .next (({ us n with resv := none } : State).retire i))))

/-- A load or store, of any register file and form, that retires leaves the mode, every CSR and every register but its
destination as they were; f changes only in a floating-point load, and there only its destination, mstatus only in its
FS, the reservation only in a store; with translation off a load leaves every byte of DRAM, and a store every byte but
those from its effective address on, modulo 2^XLEN, as many as its width. (R480, R481, R495, R540) -/
def Obligations.AccessFrame : Prop :=
  ∀ (i : Instr) (s t : State), i.accesses = true → exec i s = .next t → t.minstret = s.minstret + 1 →
    t.pc = s.npc i ∧ t.mcycle = s.mcycle + 1 ∧ t.priv = s.priv ∧ t.csr = s.csr ∧ t.xlen = s.xlen
      ∧ t.mstatus = { s.mstatus with fs := t.mstatus.fs }
      ∧ (t.mstatus.fs = s.mstatus.fs ∨ t.mstatus.fs = 3)
      ∧ t.eip0 = s.eip0 ∧ t.eip1 = s.eip1 ∧ t.disk = s.disk ∧ t.ttyIn = s.ttyIn ∧ t.tohost = s.tohost
      ∧ t.dramSize = s.dramSize
      ∧ (∀ r, i.dest ≠ some r → t.readX r = s.readX r)
      ∧ (∀ r, i.fdest ≠ some r → t.readF r = s.readF r)
      ∧ (i.dest ≠ none ∨ i.stores = true → t.f = s.f ∧ t.mstatus = s.mstatus)
      ∧ (i.stores = true → t.x = s.x ∧ t.resv = none)
      ∧ (i.stores = false → t.resv = s.resv)
      ∧ (i.stores = false → s.translating .load = false → ∀ b, t.byteAt b = s.byteAt b)
      ∧ (i.stores = true → s.translating .store = false → ∀ base imm n, i.access = some (base, imm, n) →
          ∀ b, (∀ k, k < n → b ≠ (s.address base imm + k) % 2 ^ xlenBits s.xlen) → t.byteAt b = s.byteAt b)

/-- An aligned LR whose translation as a Load, or an aligned SC whose translation as a Store, gives a physical address in
DRAM acts there in the state the translation left: LR retires with rd holding the sign-extended value and a
reservation for that physical address and width; SC stores rs2 and gives rd = 0 exactly where the reservation is for
that physical address and width, otherwise stores nothing and gives rd = 1, and the reservation is gone either way;
nothing else changes, whatever aq and rl are. With translation off the physical address is rs1 and the state is kept.
The D forms raise illegal instruction where XLEN = 32. (R545, R546, R238, R540, R541, R542, R544, R62) -/
def Obligations.LoadReservedAndStoreConditionalResults : Prop :=
  ∀ (s u : State) (rd rs1 rs2 : Reg) (aq rl : Bool) (pa : Nat),
    let a := (s.num rs1).toNat;
    (a % 4 = 0 → s.translate .load (s.readX rs1) = .ok pa u → u.inDram pa 4 = true →
      exec (.lrW rd rs1 aq rl) s
        = .next ((({ u with resv := some { paddr := BitVec.ofNat 64 pa, width := .w } } : State).writeX rd
            (BitVec.ofInt 64 (signedAt 32 (u.leNat pa 4)))).retire (.lrW rd rs1 aq rl)))
    ∧ (s.xlen = .rv64 → a % 8 = 0 → s.translate .load (s.readX rs1) = .ok pa u → u.inDram pa 8 = true →
      exec (.lrD rd rs1 aq rl) s
        = .next ((({ u with resv := some { paddr := BitVec.ofNat 64 pa, width := .d } } : State).writeX rd
            (BitVec.ofInt 64 (u.leNat pa 8))).retire (.lrD rd rs1 aq rl)))
    ∧ (a % 4 = 0 → s.translate .store (s.readX rs1) = .ok pa u → u.inDram pa 4 = true →
      (s.resv = some { paddr := BitVec.ofNat 64 pa, width := .w } →
        exec (.scW rd rs1 rs2 aq rl) s
          = .next ((({ u with dram := Memory.writeLE u.dram pa 4 (s.readX rs2), resv := none } : State).writeX rd 0).retire
              (.scW rd rs1 rs2 aq rl)))
      ∧ (s.resv ≠ some { paddr := BitVec.ofNat 64 pa, width := .w } →
        exec (.scW rd rs1 rs2 aq rl) s = .next ((({ u with resv := none } : State).writeX rd 1).retire (.scW rd rs1 rs2 aq rl))))
    ∧ (s.xlen = .rv64 → a % 8 = 0 → s.translate .store (s.readX rs1) = .ok pa u → u.inDram pa 8 = true →
      (s.resv = some { paddr := BitVec.ofNat 64 pa, width := .d } →
        exec (.scD rd rs1 rs2 aq rl) s
          = .next ((({ u with dram := Memory.writeLE u.dram pa 8 (s.readX rs2), resv := none } : State).writeX rd 0).retire
              (.scD rd rs1 rs2 aq rl)))
      ∧ (s.resv ≠ some { paddr := BitVec.ofNat 64 pa, width := .d } →
        exec (.scD rd rs1 rs2 aq rl) s = .next ((({ u with resv := none } : State).writeX rd 1).retire (.scD rd rs1 rs2 aq rl))))
    ∧ (s.translating .load = false → s.translate .load (s.readX rs1) = .ok a s)
    ∧ (s.translating .store = false → s.translate .store (s.readX rs1) = .ok a s)
    ∧ (s.xlen = .rv32 → Illegal (.lrD rd rs1 aq rl) s ∧ Illegal (.scD rd rs1 rs2 aq rl) s)

/-- An aligned AMO.W whose translation as an AMO gives a physical address in DRAM acts there in the state the translation
left: it retires with rd holding the old word sign-extended and memory holding the result of its operation modulo 2^32
(signed comparisons at bit 31); the reservation is gone and nothing else changes. With translation off the physical
address is rs1 and the state is kept. (R547, R548, R549, R550, R551, R552, R553, R554, R555, R556, R238, R544) -/
def Obligations.AtomicWordResults : Prop :=
  ∀ (s u : State) (rd rs1 rs2 : Reg) (aq rl : Bool) (pa : Nat),
    let a := (s.num rs1).toNat; let m : Int := u.leNat pa 4; let v := s.num rs2;
    let done : Instr → Int → Prop := fun i new =>
      exec i s = .next ((({ u with dram := Memory.writeLE u.dram pa 4 (BitVec.ofInt 64 (lowBits 32 new)), resv := none } : State).writeX
        rd (BitVec.ofInt 64 (signedAt 32 m))).retire i);
    (s.translating .amo = false → s.translate .amo (s.readX rs1) = .ok a s)
    ∧ (a % 4 = 0 → s.translate .amo (s.readX rs1) = .ok pa u → u.inDram pa 4 = true →
    done (.amoswapW rd rs1 rs2 aq rl) (v)
    ∧ done (.amoaddW rd rs1 rs2 aq rl) (m + v)
    ∧ done (.amoxorW rd rs1 rs2 aq rl) (((lowBits 32 m).toNat ^^^ (lowBits 32 v).toNat : Nat))
    ∧ done (.amoandW rd rs1 rs2 aq rl) (((lowBits 32 m).toNat &&& (lowBits 32 v).toNat : Nat))
    ∧ done (.amoorW rd rs1 rs2 aq rl) (((lowBits 32 m).toNat ||| (lowBits 32 v).toNat : Nat))
    ∧ done (.amominW rd rs1 rs2 aq rl) (if signedAt 32 m < signedAt 32 v then m else v)
    ∧ done (.amomaxW rd rs1 rs2 aq rl) (if signedAt 32 m > signedAt 32 v then m else v)
    ∧ done (.amominuW rd rs1 rs2 aq rl) (if m < lowBits 32 v then m else v)
    ∧ done (.amomaxuW rd rs1 rs2 aq rl) (if m > lowBits 32 v then m else v))

/-- With XLEN = 64, an aligned AMO.D whose translation as an AMO gives a physical address in DRAM acts there in the state
the translation left: it retires with rd holding the old doubleword and memory holding the result of its operation
modulo 2^64; the reservation is gone and nothing else changes. With translation off the physical address is rs1 and
the state is kept. (R547, R548, R549, R550, R551, R552, R553, R554, R555, R556, R238, R543) -/
def Obligations.AtomicDoubleResults : Prop :=
  ∀ (s u : State) (rd rs1 rs2 : Reg) (aq rl : Bool) (pa : Nat), s.xlen = .rv64 →
    let a := (s.num rs1).toNat; let m : Int := u.leNat pa 8; let v := s.num rs2;
    let done : Instr → Int → Prop := fun i new =>
      exec i s = .next ((({ u with dram := Memory.writeLE u.dram pa 8 (BitVec.ofInt 64 new), resv := none } : State).writeX
        rd (BitVec.ofInt 64 m)).retire i);
    (s.translating .amo = false → s.translate .amo (s.readX rs1) = .ok a s)
    ∧ (a % 8 = 0 → s.translate .amo (s.readX rs1) = .ok pa u → u.inDram pa 8 = true →
    done (.amoswapD rd rs1 rs2 aq rl) (v)
    ∧ done (.amoaddD rd rs1 rs2 aq rl) (m + v)
    ∧ done (.amoxorD rd rs1 rs2 aq rl) (((lowBits 64 m).toNat ^^^ (lowBits 64 v).toNat : Nat))
    ∧ done (.amoandD rd rs1 rs2 aq rl) (((lowBits 64 m).toNat &&& (lowBits 64 v).toNat : Nat))
    ∧ done (.amoorD rd rs1 rs2 aq rl) (((lowBits 64 m).toNat ||| (lowBits 64 v).toNat : Nat))
    ∧ done (.amominD rd rs1 rs2 aq rl) (if signedAt 64 m < signedAt 64 v then m else v)
    ∧ done (.amomaxD rd rs1 rs2 aq rl) (if signedAt 64 m > signedAt 64 v then m else v)
    ∧ done (.amominuD rd rs1 rs2 aq rl) (if m < lowBits 64 v then m else v)
    ∧ done (.amomaxuD rd rs1 rs2 aq rl) (if m > lowBits 64 v then m else v))

/-- A misaligned LR raises load address-misaligned, a misaligned SC or AMO, whichever of them and of either width,
store/AMO address-misaligned, before translation, with the address as trap value. An aligned LR is translated as a
Load, an SC as a Store, an AMO as an AMO: where that raises, the exception it raises is taken with the address as trap
value; where it gives a physical address whose bytes are not all in DRAM, the access fault of the kind is taken with
the address; both in the state the translation left, and with translation off the physical address is rs1 and the
state is kept. Every .D form raises illegal instruction where XLEN = 32. (R541, R238, R543, R230, R722) -/
def Obligations.AtomicTraps : Prop :=
  ∀ (s u : State) (rd rs1 rs2 : Reg) (aq rl : Bool) (pa : Nat) (e : Exc) (w : Word), let a := (s.num rs1).toNat; let v := s.readX rs1;
    let amosW : List Instr := [.amoswapW rd rs1 rs2 aq rl, .amoaddW rd rs1 rs2 aq rl, .amoxorW rd rs1 rs2 aq rl, .amoandW rd rs1 rs2 aq rl, .amoorW rd rs1 rs2 aq rl,
      .amominW rd rs1 rs2 aq rl, .amomaxW rd rs1 rs2 aq rl, .amominuW rd rs1 rs2 aq rl, .amomaxuW rd rs1 rs2 aq rl];
    let amosD : List Instr := [.amoswapD rd rs1 rs2 aq rl, .amoaddD rd rs1 rs2 aq rl, .amoxorD rd rs1 rs2 aq rl, .amoandD rd rs1 rs2 aq rl, .amoorD rd rs1 rs2 aq rl,
      .amominD rd rs1 rs2 aq rl, .amomaxD rd rs1 rs2 aq rl, .amominuD rd rs1 rs2 aq rl, .amomaxuD rd rs1 rs2 aq rl];
    let raises : Instr → Exc → Prop := fun i e => exec i s = .next (trapStep (.exception e) v s);
    let stops : Access → Instr → Nat → Prop := fun k i n =>
      (s.translate k v = .trap e w u → w = v ∧ exec i s = .next (trapStep (.exception e) v u))
      ∧ (s.translate k v = .ok pa u → u.inDram pa n = false →
          exec i s = .next (trapStep (.exception (if k = .load then .loadAccess else .storeAccess)) v u))
      ∧ (s.translating k = false → s.translate k v = .ok a s);
    (a % 4 ≠ 0 →
      raises (.lrW rd rs1 aq rl) .loadMisaligned ∧ raises (.scW rd rs1 rs2 aq rl) .storeMisaligned
      ∧ ∀ i ∈ amosW, raises i .storeMisaligned)
    ∧ (s.xlen = .rv64 → a % 8 ≠ 0 →
      raises (.lrD rd rs1 aq rl) .loadMisaligned ∧ raises (.scD rd rs1 rs2 aq rl) .storeMisaligned
      ∧ ∀ i ∈ amosD, raises i .storeMisaligned)
    ∧ (∀ k i, (k = .load ∧ i = .lrW rd rs1 aq rl) ∨ (k = .store ∧ i = .scW rd rs1 rs2 aq rl) ∨ (k = .amo ∧ i ∈ amosW) →
      a % 4 = 0 → stops k i 4)
    ∧ (s.xlen = .rv64 →
      ∀ k i, (k = .load ∧ i = .lrD rd rs1 aq rl) ∨ (k = .store ∧ i = .scD rd rs1 rs2 aq rl) ∨ (k = .amo ∧ i ∈ amosD) →
      a % 8 = 0 → stops k i 8)
    ∧ (s.xlen = .rv32 → Illegal (.lrD rd rs1 aq rl) s ∧ Illegal (.scD rd rs1 rs2 aq rl) s ∧ ∀ i ∈ amosD, Illegal i s)

/-- An instruction that retires and stores (every store, every SC, successful or not, every AMO) leaves no reservation;
every instruction but a retiring LR or store leaves it as it was, a trap among them. (R540, R545, R546, R62) -/
def Obligations.ReservationRule : Prop :=
  ∀ (i : Instr) (s t : State), exec i s = .next t →
    (t.minstret = s.minstret + 1 → i.stores = true → t.resv = none)
    ∧ ((i.stores = false ∧ (∀ rd rs1 aq rl, i ≠ .lrW rd rs1 aq rl ∧ i ≠ .lrD rd rs1 aq rl)) → t.resv = s.resv)
    ∧ ((∃ rd rs1 aq rl, i = .lrW rd rs1 aq rl ∨ i = .lrD rd rs1 aq rl) → t.minstret = s.minstret → t.resv = s.resv)
    ∧ (i.stores = true → t.minstret = s.minstret → t.resv = s.resv)

/-- The CSR numbers that exist are those of the table, seven of them and the high hpm halves in RV32 only; the access
check passes exactly when the mode is high enough for bits 9:8 of the number, a write is not to a read-only number,
satp in S-mode is not trapped by TVM, a floating-point CSR has FS not 0, and the counter enables admit a user counter.
(R66, R68, R71, R580, R581) -/
def Obligations.CsrAccessRule : Prop :=
  ∀ (s : State) (c : BitVec 12) (writes : Bool), let n := c.toNat;
    (csrReg s.xlen c ≠ none ↔
      n ∈ [0x001, 0x002, 0x003, 0x100, 0x104, 0x105, 0x106, 0x140, 0x141, 0x142, 0x143, 0x144, 0x180, 0x3A0, 0x3A2, 0xB00, 0xB02]
      ∨ (0x300 ≤ n ∧ n ≤ 0x306) ∨ n = 0x320 ∨ (0x323 ≤ n ∧ n ≤ 0x33F) ∨ (0x340 ≤ n ∧ n ≤ 0x344) ∨ (0x3B0 ≤ n ∧ n ≤ 0x3BF)
      ∨ (0xB03 ≤ n ∧ n ≤ 0xB1F) ∨ (0xC00 ≤ n ∧ n ≤ 0xC1F) ∨ (0xF11 ≤ n ∧ n ≤ 0xF14)
      ∨ (s.xlen = .rv32 ∧ (n = 0x3A1 ∨ n = 0x3A3 ∨ n = 0xB80 ∨ (0xB82 ≤ n ∧ n ≤ 0xB9F) ∨ (0xC80 ≤ n ∧ n ≤ 0xC9F))))
    ∧ (s.csrAllowed c writes = true ↔
      (n / 256 % 4 ≤ s.priv.code)
      ∧ (writes = true → n / 1024 ≠ 3)
      ∧ ¬ (n = 0x180 ∧ s.priv = .S ∧ s.mstatus.tvm = true)
      ∧ ((n = 1 ∨ n = 2 ∨ n = 3) → s.mstatus.fs ≠ 0)
      ∧ ((0xC00 ≤ n ∧ n ≤ 0xC1F) ∨ (0xC80 ≤ n ∧ n ≤ 0xC9F) →
          (s.priv ≠ .M → s.csr.mcounteren.getLsbD (n % 32) = true)
          ∧ (s.priv = .U → s.csr.scounteren.getLsbD (n % 32) = true)))

/-- A CSR instruction whose CSR exists and may be accessed retires: rd gets the read value and the CSR its new value,
which is the operand, or the old value with bits set or cleared, bit 9 of mip and sip taken as its software bit; with
rs1 = x0 or uimm = 0 the set and clear forms write nothing; otherwise it raises illegal instruction before any effect.
(R590, R591, R592, R593, R594, R595, R580, R78) -/
def Obligations.CsrInstructionResults : Prop :=
  ∀ (s : State) (rd rs1 : Reg) (u : BitVec 5) (c : BitVec 12),
    let done : Instr → Bool → (Word → Word) → Prop := fun i writes f =>
      (∀ r, csrReg s.xlen c = some r → s.csrAllowed c writes = true →
        exec i s = .next (((if writes then s.csrWrite r (f (s.csrOld r)) else s).writeX rd (s.csrRead r)).retireCsr i
          (if writes then some r else none)))
      ∧ (csrReg s.xlen c = none ∨ s.csrAllowed c writes = false → Illegal i s);
    done (.csrrw rd rs1 c) true (fun _ => s.readX rs1)
    ∧ done (.csrrs rd rs1 c) (decide (rs1 ≠ 0#5)) (fun t => t ||| s.readX rs1)
    ∧ done (.csrrc rd rs1 c) (decide (rs1 ≠ 0#5)) (fun t => t &&& ~~~(s.readX rs1))
    ∧ done (.csrrwi rd u c) true (fun _ => u.setWidth 64)
    ∧ done (.csrrsi rd u c) (decide (u ≠ 0#5)) (fun t => t ||| u.setWidth 64)
    ∧ done (.csrrci rd u c) (decide (u ≠ 0#5)) (fun t => t &&& ~~~(u.setWidth 64))
    ∧ (∀ r, s.csrOld r = if r = .mip ∨ r = .sip then (s.csrRead r &&& ~~~0x200#64) ||| flagBit s.csr.seipSw 9
        else s.csrRead r)

/-- After a write of an XLEN-bit value v: medeleg reads v & 0xB3FF, mideleg v & 0x222, mie v & 0xAAA, xtvec v without bit
1, xepc v without bit 0, xcause, xtval and xscratch v, xcounteren the low 32 bits, fcsr the low 8, frm 3 and fflags 5
within fcsr; misa keeps its one legal value; the id, hpm and PMP CSRs read 0. The write changes that CSR alone, FS
becoming Dirty for fcsr, frm and fflags, and a write of misa, an hpm or a PMP CSR changes nothing. (R69, R71, R73,
10_state.md R74, R75 and R76, 10_state.md R81, R82, R83, R84 and R85, R89, R92, R93, R94, R95) -/
def Obligations.CsrReadAfterWrite : Prop :=
  ∀ (s : State) (v : Word), norm s.xlen v = v →
    let after := fun r => (s.csrWrite r v).csrRead r;
    after .medeleg = v &&& 0xB3FF#64 ∧ after .mideleg = v &&& 0x222#64 ∧ after .mie = v &&& 0xAAA#64
    ∧ after .mtvec = v &&& ~~~2#64 ∧ after .stvec = v &&& ~~~2#64
    ∧ after .mepc = v &&& ~~~1#64 ∧ after .sepc = v &&& ~~~1#64
    ∧ after .mcause = v ∧ after .scause = v ∧ after .mtval = v ∧ after .stval = v
    ∧ after .mscratch = v ∧ after .sscratch = v
    ∧ after .mcounteren = v &&& 0xFFFFFFFF#64 ∧ after .scounteren = v &&& 0xFFFFFFFF#64
    ∧ after .fcsr = v &&& 0xFF#64 ∧ after .frm = v &&& 7#64 ∧ after .fflags = v &&& 0x1F#64
    ∧ (s.csrWrite .frm v).csrRead .fflags = s.csrRead .fflags ∧ (s.csrWrite .fflags v).csrRead .frm = s.csrRead .frm
    ∧ (s.csrWrite .fcsr v).mstatus.fs = 3 ∧ (s.csrWrite .frm v).mstatus.fs = 3 ∧ (s.csrWrite .fflags v).mstatus.fs = 3
    ∧ after .misa = (match s.xlen with | .rv32 => 0x4014112D#64 | .rv64 => 0x800000000014112D#64)
    ∧ after .mvendorid = 0 ∧ after .marchid = 0 ∧ after .mimpid = 0 ∧ after .mhartid = 0 ∧ after .hpm = 0 ∧ after .pmp = 0
    ∧ (let only : CsrReg → Csrs → Prop := fun r c => s.csrWrite r v = { s with csr := c };
      only .medeleg { s.csr with medeleg := v &&& 0xB3FF#64 } ∧ only .mideleg { s.csr with mideleg := v &&& 0x222#64 }
      ∧ only .mie { s.csr with mie := v &&& 0xAAA#64 }
      ∧ only .mtvec { s.csr with mtvec := v &&& ~~~2#64 } ∧ only .stvec { s.csr with stvec := v &&& ~~~2#64 }
      ∧ only .mepc { s.csr with mepc := v &&& ~~~1#64 } ∧ only .sepc { s.csr with sepc := v &&& ~~~1#64 }
      ∧ only .mcause { s.csr with mcause := v } ∧ only .scause { s.csr with scause := v }
      ∧ only .mtval { s.csr with mtval := v } ∧ only .stval { s.csr with stval := v }
      ∧ only .mscratch { s.csr with mscratch := v } ∧ only .sscratch { s.csr with sscratch := v }
      ∧ only .mcounteren { s.csr with mcounteren := v.setWidth 32 }
      ∧ only .scounteren { s.csr with scounteren := v.setWidth 32 })
    ∧ (∀ r ∈ [CsrReg.fcsr, .frm, .fflags], s.csrWrite r v
        = { s with csr := { s.csr with fcsr := (s.csrWrite r v).csr.fcsr }, mstatus := { s.mstatus with fs := 3 } })
    ∧ (∀ r ∈ [CsrReg.misa, .hpm, .pmp], s.csrWrite r v = s)

/-- After a write of v, mstatus reads the bits of v under 0x7E79AA, with the old MPP where v[12:11] is 2, UXL = SXL = 2
where XLEN = 64, SD = 1 exactly where FS is 3, and 0 elsewhere. (R70) -/
def Obligations.MstatusWriteThenRead : Prop :=
  ∀ (s : State) (v : Word),
    let r := (s.csrWrite .mstatus v).csrRead .mstatus;
    let sd : Nat := xlenBits s.xlen - 1;
    (∀ k, k ∈ [1, 3, 5, 7, 8, 13, 14, 17, 18, 19, 20, 21, 22] → r.getLsbD k = v.getLsbD k)
    ∧ (r.toNat / 2 ^ 11 % 4 = if v.toNat / 2 ^ 11 % 4 = 2 then (s.csrRead .mstatus).toNat / 2 ^ 11 % 4
        else v.toNat / 2 ^ 11 % 4)
    ∧ (r.getLsbD sd = decide (v.toNat / 2 ^ 13 % 4 = 3))
    ∧ (s.xlen = .rv64 → r.toNat / 2 ^ 32 % 16 = 10)
    ∧ (∀ k, k ∉ [1, 3, 5, 7, 8, 11, 12, 13, 14, 17, 18, 19, 20, 21, 22, sd] → (s.xlen = .rv64 → k < 32 ∨ 36 ≤ k) →
        r.getLsbD k = false)
    ∧ s.csrWrite .mstatus v = { s with mstatus := (s.csrWrite .mstatus v).mstatus }

/-- mip reads SSIP and STIP as stored, MSIP from the CLINT, MTIP as mtime >= mtimecmp0 unsigned, SEIP as its software bit
or eip[1], MEIP as eip[0], and 0 elsewhere, and a write changes the three software bits only; in M-mode the set and
clear forms on mip, with rs1 not x0 or uimm not 0, apply the operand to the old value with SEIP as its software bit
alone and give rd the read value; sstatus reads mstatus under its mask, and a write to it changes SIE, SPIE, SPP, FS,
SUM and MXR only; sie reads mie & mideleg and a write changes only the delegated bits; sip reads mip & mideleg and a
write changes at most SSIP, and that where it is delegated. (R72, R77, R78, R79, R80) -/
def Obligations.StatusAndInterruptViews : Prop :=
  ∀ (s : State) (v : Word) (k : Nat) (rd rs1 : Reg) (u : BitVec 5),
    ((s.csrRead .mip).getLsbD k = match k with
      | 1 => s.csr.ssip
      | 3 => s.clint.msip0
      | 5 => s.csr.stip
      | 7 => decide (s.clint.mtimecmp0.toNat ≤ s.clint.mtime.toNat)
      | 9 => s.csr.seipSw || s.eip1
      | 11 => s.eip0
      | _ => false)
    ∧ (s.csrWrite .mip v
        = { s with csr := { s.csr with ssip := v.getLsbD 1, stip := v.getLsbD 5, seipSw := v.getLsbD 9 } })
    ∧ (s.priv = .M →
        let old := (s.csrRead .mip &&& ~~~0x200#64) ||| (if s.csr.seipSw then 0x200#64 else 0#64);
        let done : Instr → Word → Prop := fun i new =>
          exec i s = .next (((s.csrWrite .mip new).writeX rd (s.csrRead .mip)).retireCsr i (some .mip));
        (rs1 ≠ 0#5 → done (.csrrs rd rs1 0x344#12) (old ||| s.readX rs1)
          ∧ done (.csrrc rd rs1 0x344#12) (old &&& ~~~(s.readX rs1)))
        ∧ (u ≠ 0#5 → done (.csrrsi rd u 0x344#12) (old ||| u.setWidth 64)
          ∧ done (.csrrci rd u 0x344#12) (old &&& ~~~(u.setWidth 64))))
    ∧ (s.csrRead .sstatus
        = s.csrRead .mstatus &&& (match s.xlen with | .rv32 => 0x800DE122#64 | .rv64 => 0x80000003000DE122#64))
    ∧ (s.csrWrite .sstatus v
        = { s with mstatus := { s.mstatus with sie := v.getLsbD 1, spie := v.getLsbD 5, spp := v.getLsbD 8,
                                               fs := v.extractLsb 14 13, sum := v.getLsbD 18, mxr := v.getLsbD 19 } })
    ∧ s.csrRead .sie = s.csrRead .mie &&& s.csrRead .mideleg
    ∧ (s.csrWrite .sie v
        = { s with csr := { s.csr with mie := (s.csr.mie &&& ~~~s.csr.mideleg) ||| (v &&& s.csr.mideleg) } })
    ∧ s.csrRead .sip = s.csrRead .mip &&& s.csrRead .mideleg
    ∧ (s.csrWrite .sip v
        = if s.csr.mideleg.getLsbD 1 then { s with csr := { s.csr with ssip := v.getLsbD 1 } } else s)

/-- satp reads the value it holds, whose MODE, ASID and PPN are bits 31, 30:22 and 21:0 in RV32 and 63:60, 59:44 and 43:0
in RV64; a write stores the value and changes nothing else, the TLB kept, but where XLEN = 64 and its MODE is neither
0 nor 8 the whole state is as before. In RV64 mcycle and cycle read all of mcycle, minstret and instret all of
minstret, time all of mtime; in RV32 they read bits 31:0 and the h registers bits 63:32; a write replaces the counter
or that half. A CSR instruction that retires advances mcycle and minstret by one, but not the counter it wrote. (R86,
R87, R88, R265, R90, R91, R584, R750) -/
def Obligations.SatpAndCounterWrites : Prop :=
  ∀ (s : State) (v : Word) (i : Instr), norm s.xlen v = v →
    let satp := s.csr.satp.toNat; let low := 2 ^ 32;
    s.csrRead .satp = s.csr.satp
    ∧ (s.xlen = .rv32 → (satpOn s.xlen s.csr.satp = true ↔ satp / 2 ^ 31 % 2 = 1)
        ∧ satpAsid s.xlen s.csr.satp = satp / 2 ^ 22 % 2 ^ 9 ∧ satpPpn s.xlen s.csr.satp = satp % 2 ^ 22)
    ∧ (s.xlen = .rv64 → (satpOn s.xlen s.csr.satp = true ↔ satp / 2 ^ 60 ≠ 0)
        ∧ satpAsid s.xlen s.csr.satp = satp / 2 ^ 44 % 2 ^ 16 ∧ satpPpn s.xlen s.csr.satp = satp % 2 ^ 44)
    ∧ s.csrWrite .satp v
        = (if s.xlen = .rv64 ∧ v.toNat / 2 ^ 60 ≠ 0 ∧ v.toNat / 2 ^ 60 ≠ 8 then s else { s with csr := { s.csr with satp := v } })
    ∧ (s.xlen = .rv64 →
        s.csrRead .mcycle = s.mcycle ∧ s.csrRead .cycle = s.mcycle
        ∧ s.csrRead .minstret = s.minstret ∧ s.csrRead .instret = s.minstret ∧ s.csrRead .time = s.clint.mtime
        ∧ s.csrWrite .mcycle v = { s with mcycle := v } ∧ s.csrWrite .minstret v = { s with minstret := v })
    ∧ (s.xlen = .rv32 →
        (∀ r ∈ [CsrReg.mcycle, .cycle], (s.csrRead r).toNat = s.mcycle.toNat % low)
        ∧ (∀ r ∈ [CsrReg.mcycleh, .cycleh], (s.csrRead r).toNat = s.mcycle.toNat / low)
        ∧ (∀ r ∈ [CsrReg.minstret, .instret], (s.csrRead r).toNat = s.minstret.toNat % low)
        ∧ (∀ r ∈ [CsrReg.minstreth, .instreth], (s.csrRead r).toNat = s.minstret.toNat / low)
        ∧ (s.csrRead .time).toNat = s.clint.mtime.toNat % low ∧ (s.csrRead .timeh).toNat = s.clint.mtime.toNat / low
        ∧ (s.csrWrite .mcycle v).mcycle.toNat = s.mcycle.toNat / low * low + v.toNat
        ∧ (s.csrWrite .mcycleh v).mcycle.toNat = v.toNat * low + s.mcycle.toNat % low
        ∧ (s.csrWrite .minstret v).minstret.toNat = s.minstret.toNat / low * low + v.toNat
        ∧ (s.csrWrite .minstreth v).minstret.toNat = v.toNat * low + s.minstret.toNat % low
        ∧ (∀ r ∈ [CsrReg.mcycle, .mcycleh], s.csrWrite r v = { s with mcycle := (s.csrWrite r v).mcycle })
        ∧ (∀ r ∈ [CsrReg.minstret, .minstreth], s.csrWrite r v = { s with minstret := (s.csrWrite r v).minstret }))
    ∧ (s.retireCsr i none).mcycle = s.mcycle + 1 ∧ (s.retireCsr i none).minstret = s.minstret + 1
    ∧ (∀ r, (s.retireCsr i (some r)).mcycle = (if r = .mcycle ∨ r = .mcycleh then s.mcycle else s.mcycle + 1)
        ∧ (s.retireCsr i (some r)).minstret = (if r = .minstret ∨ r = .minstreth then s.minstret else s.minstret + 1))

/-- A CSR instruction that gives a next state either raises illegal instruction or changes its destination register, the
CSR file with mstatus and the counters, and the pc, which is npc; every byte of memory, every device, the mode, the
TLB and the reservation are as before. (R582, R597, R747) -/
def Obligations.CsrFrame : Prop :=
  ∀ (i : Instr) (s t : State) (rd rs1 : Reg) (u : BitVec 5) (c : BitVec 12),
    (i = .csrrw rd rs1 c ∨ i = .csrrs rd rs1 c ∨ i = .csrrc rd rs1 c
      ∨ i = .csrrwi rd u c ∨ i = .csrrsi rd u c ∨ i = .csrrci rd u c) →
    exec i s = .next t → Illegal i s ∨
      (t = { s with x := t.x, csr := t.csr, mstatus := t.mstatus, mcycle := t.mcycle, minstret := t.minstret, pc := s.npc i }
        ∧ (∀ q, q ≠ rd → t.readX q = s.readX q) ∧ ∀ a, t.byteAt a = s.byteAt a)

/-- ECALL takes environment call from the mode it runs in, EBREAK and C.EBREAK take breakpoint, all with trap value 0 and
epc the pc, and do not retire. A step that traps is the trap entry with mcycle advanced by one and nothing else. MRET
in M-mode goes to mepc in the mode MPP, with MIE = MPIE, MPIE = 1, MPP = U and nothing else changed but the counters,
and is illegal elsewhere; SRET does the same with SPP, SIE, SPIE and sepc in M-mode and in S-mode with TSR = 0, and is
illegal in U-mode and in S-mode with TSR = 1. MPRV is kept. Every exception and interrupt has the code of the table of
causes, and only an interrupt has the interrupt bit. (R612, R613, R614, R615, R685, R700, R705, R720, R730, R750) -/
def Obligations.EnvironmentCallsAndReturns : Prop :=
  ∀ (s : State),
    exec .ecall s = .next (trapStep (.exception (match s.priv with | .U => .ecallU | .S => .ecallS | .M => .ecallM)) 0 s)
    ∧ exec .ebreak s = .next (trapStep (.exception .breakpoint) 0 s)
    ∧ exec .cEbreak s = .next (trapStep (.exception .breakpoint) 0 s)
    ∧ (∀ c v, trapStep c v s = { takeTrap c v s with mcycle := s.mcycle + 1 }
        ∧ (trapStep c v s).minstret = s.minstret)
    ∧ (s.priv = .M → ∀ t, exec .ecall s = .next t → t.csr.mcause = 11 ∧ t.csr.mepc = s.pc &&& ~~~1#64 ∧ t.csr.mtval = 0)
    ∧ (s.priv = .M → exec .mret s = .next { s with
        priv := s.mstatus.mpp, pc := s.csr.mepc, mcycle := s.mcycle + 1, minstret := s.minstret + 1,
        mstatus := { s.mstatus with mie := s.mstatus.mpie, mpie := true, mpp := .U } })
    ∧ (s.priv ≠ .M → Illegal .mret s)
    ∧ (s.priv = .M ∨ (s.priv = .S ∧ s.mstatus.tsr = false) → exec .sret s = .next { s with
        priv := if s.mstatus.spp then .S else .U, pc := s.csr.sepc, mcycle := s.mcycle + 1, minstret := s.minstret + 1,
        mstatus := { s.mstatus with sie := s.mstatus.spie, spie := true, spp := false } })
    ∧ (s.priv = .U ∨ (s.priv = .S ∧ s.mstatus.tsr = true) → Illegal .sret s)
    ∧ IsWord 0x30200073#32 .mret ∧ IsWord 0x10200073#32 .sret ∧ IsWord 0x00000073#32 .ecall ∧ IsWord 0x00100073#32 .ebreak
    ∧ (∀ e : Exc, (Cause.exception e).isInterrupt = false ∧ (Cause.exception e).code = (match e with
        | .instrAccess => 1 | .illegalInstr => 2 | .breakpoint => 3 | .loadMisaligned => 4 | .loadAccess => 5
        | .storeMisaligned => 6 | .storeAccess => 7 | .ecallU => 8 | .ecallS => 9 | .ecallM => 11 | .instrPage => 12
        | .loadPage => 13 | .storePage => 15) ∧ e.code = (Cause.exception e).code)
    ∧ (∀ i : Irq, (Cause.interrupt i).isInterrupt = true ∧ (Cause.interrupt i).code = (match i with
        | .ssi => 1 | .msi => 3 | .sti => 5 | .mti => 7 | .sei => 9 | .mei => 11) ∧ i.code = (Cause.interrupt i).code)

/-- FENCE and FENCE.I, whatever their fields, only retire; WFI only retires in M-mode and in S-mode with TW = 0, and
SFENCE.VMA changes only the TLB in M-mode and in S-mode with TVM = 0; in U-mode, and in S-mode with the bit 1, both
raise illegal instruction. (R610, R611, R616, R617) -/
def Obligations.FencesAndWfi : Prop :=
  ∀ (s : State) (fm pred succ : BitVec 4) (imm : BitVec 12) (rs1 rs2 rd : Reg),
    exec (.fence fm pred succ rs1 rd) s = .next (s.retire (.fence fm pred succ rs1 rd))
    ∧ exec (.fenceI imm rs1 rd) s = .next (s.retire (.fenceI imm rs1 rd))
    ∧ (s.priv = .M ∨ (s.priv = .S ∧ s.mstatus.tw = false) → exec .wfi s = .next (s.retire .wfi))
    ∧ (s.priv = .U ∨ (s.priv = .S ∧ s.mstatus.tw = true) → Illegal .wfi s)
    ∧ (s.priv = .M ∨ (s.priv = .S ∧ s.mstatus.tvm = false) →
        ∃ t, exec (.sfenceVma rs1 rs2) s = .next t
          ∧ t = { (s.retire (.sfenceVma rs1 rs2)) with tlb := t.tlb } ∧ t.tlb.Sublist s.tlb)
    ∧ (s.priv = .U ∨ (s.priv = .S ∧ s.mstatus.tvm = true) → Illegal (.sfenceVma rs1 rs2) s)

/-- After an SFENCE.VMA that completes no entry is left that its operands cover: all with both values 0 or both register
numbers 0; with rs1 = x0, the non-global ones of the ASID; with rs2 = x0, those matching the address; with neither,
those matching the address that are global or of the ASID. (R266) That it removes no other entry is the model's choice
and is not stated (log 5). -/
def Obligations.SfenceRemovesStaleEntries : Prop :=
  ∀ (s t : State) (rs1 rs2 : Reg), exec (.sfenceVma rs1 rs2) s = .next t → t.minstret = s.minstret + 1 →
    let v1 := s.readX rs1; let v2 := s.readX rs2;
    let asid := v2.toNat % 2 ^ (match s.xlen with | .rv32 => 9 | .rv64 => 16);
    (v1 = 0 → v2 = 0 → t.tlb = [])
    ∧ (rs1 = 0#5 → rs2 = 0#5 → t.tlb = [])
    ∧ (rs1 = 0#5 → rs2 ≠ 0#5 → ∀ e ∈ t.tlb, ¬ (e.asid = asid ∧ e.flags.g = false))
    ∧ (rs1 ≠ 0#5 → rs2 = 0#5 → ∀ e ∈ t.tlb, e.covers s.xlen v1 = false)
    ∧ (rs1 ≠ 0#5 → rs2 ≠ 0#5 → ∀ e ∈ t.tlb, e.covers s.xlen v1 = true → e.asid ≠ asid ∧ e.flags.g = false)

/-- A trap goes to S for an exception raised below M whose medeleg bit is set and for an interrupt whose mideleg bit is
set, else to M; xcause, xepc, xtval, the saved mode and interrupt enable, the mode and the pc are set as the rule
says, the pc to BASE or, for an interrupt in vectored mode, BASE + 4 × code; nothing else changes. (R730, R731, R733) -/
def Obligations.TrapEntry : Prop :=
  ∀ (s : State) (c : Cause) (v : Word),
    let toS := (match c with
      | .exception e => s.priv ≠ .M ∧ s.csr.medeleg.getLsbD e.code = true
      | .interrupt i => s.csr.mideleg.getLsbD i.code = true);
    let cause : Word := (if c.isInterrupt then BitVec.ofNat 64 (2 ^ (xlenBits s.xlen - 1)) else 0) + BitVec.ofNat 64 c.code;
    let target := fun tvec : Word =>
      if tvec.getLsbD 0 = true ∧ c.isInterrupt = true then norm s.xlen ((tvec &&& ~~~3#64) + BitVec.ofNat 64 (4 * c.code))
      else tvec &&& ~~~3#64;
    (toS → takeTrap c v s = { s with
        csr := { s.csr with scause := cause, sepc := s.pc &&& ~~~1#64, stval := norm s.xlen v },
        mstatus := { s.mstatus with spp := decide (s.priv = .S), spie := s.mstatus.sie, sie := false },
        priv := .S, pc := target s.csr.stvec })
    ∧ (¬ toS → takeTrap c v s = { s with
        csr := { s.csr with mcause := cause, mepc := s.pc &&& ~~~1#64, mtval := norm s.xlen v },
        mstatus := { s.mstatus with mpp := s.priv, mpie := s.mstatus.mie, mie := false },
        priv := .M, pc := target s.csr.mtvec })

/-- An instruction other than MRET and SRET that gives a next state leaves the mode as it was or takes a trap; MRET in
M-mode goes to MPP and SRET, where it may run, to SPP; a trap ends in S or M, and neither an exception nor an
interrupt that is selected lowers the mode; reset enters M. (R747, R731, R741) -/
def Obligations.PrivilegeTransitions : Prop :=
  (∀ (i : Instr) (s t : State), exec i s = .next t →
      (t.priv = s.priv ∨ i = .mret ∨ i = .sret ∨ ∃ e v u, t = trapStep (.exception e) v u ∧ u.priv = s.priv)
      ∧ (i = .mret → s.priv = .M → t.priv = s.mstatus.mpp)
      ∧ (i = .sret → s.priv ≠ .U → s.mstatus.tsr = false → t.priv = if s.mstatus.spp then .S else .U))
    ∧ (∀ (c : Cause) (v : Word) (s : State), (takeTrap c v s).priv ≠ .U
        ∧ (∀ e, c = .exception e → s.priv.code ≤ (takeTrap c v s).priv.code)
        ∧ (∀ i, c = .interrupt i → s.selectInterrupt = some i → s.priv.code ≤ (takeTrap c v s).priv.code))
    ∧ State.reset.priv = .M

/-- An interrupt is selected exactly when its mip and mie bits are 1, it is takeable (target M: below M, or MIE = 1;
target S: U-mode, or S-mode with SIE = 1), and no interrupt of a lower code is so. (R741, R742) -/
def Obligations.InterruptSelection : Prop :=
  ∀ (s : State) (i : Irq),
    let ready := fun j : Irq =>
      (s.csrRead .mip).getLsbD j.code = true ∧ s.csr.mie.getLsbD j.code = true
      ∧ (if s.csr.mideleg.getLsbD j.code = true then s.priv = .U ∨ (s.priv = .S ∧ s.mstatus.sie = true)
         else s.priv ≠ .M ∨ s.mstatus.mie = true);
    (s.selectInterrupt = some i ↔ ready i ∧ ∀ j, ready j → i.code ≤ j.code)
    ∧ (s.selectInterrupt = none ↔ ∀ j, ¬ ready j)

/-- Where translation does not apply, which is with satp.MODE = Bare whatever its other bits, with effective privilege M,
and for every fetch in M-mode whatever satp holds, translate gives the address itself and changes nothing; effective
privilege is MPP for a load, store or AMO in M-mode with MPRV = 1 and the mode otherwise. (R240, R255) -/
def Obligations.TranslationOffIsIdentity : Prop :=
  ∀ (s : State) (k : Access) (va : Word),
    (s.effPriv k = if k ≠ .fetch ∧ s.priv = .M ∧ s.mstatus.mprv = true then s.mstatus.mpp else s.priv)
    ∧ (s.translating k = true ↔ s.effPriv k ≠ .M ∧
        (match s.xlen with
          | .rv32 => s.csr.satp.toNat / 2 ^ 31 % 2 ≠ 0
          | .rv64 => s.csr.satp.toNat / 2 ^ 60 ≠ 0))
    ∧ (s.translating k = false → s.translate k va = .ok va.toNat s)
    ∧ ((match s.xlen with
          | .rv32 => s.csr.satp.toNat / 2 ^ 31 % 2 = 0
          | .rv64 => s.csr.satp.toNat / 2 ^ 60 = 0) → s.translate k va = .ok va.toNat s)
    ∧ (s.effPriv k = .M → s.translate k va = .ok va.toNat s)
    ∧ (s.priv = .M → s.translate .fetch va = .ok va.toNat s)

/-- Where translation is on and succeeds, the address is canonical and keeps its page offset, and it is formed from a
valid TLB entry that covers the address, is global or of the current ASID and has D = 1 for a write, or from the leaf
the walk finds, whose A and D are then written back; entry or leaf admits the access: X for a fetch, R (or X with MXR)
for a load, W for a store, both for an AMO, U-mode only with U = 1, S-mode with U = 1 only for data and with SUM = 1.
(R243, R250, R252, R253, R261, R262) It holds whatever the choices of log 4 are. That an address translated by a TLB
entry is canonical is the model's reading (log 6), and so is that the leaf PTE lies wholly in DRAM (log 19). -/
def Obligations.TranslationIsPermitted : Prop :=
  ∀ (s t : State) (k : Access) (va : Word) (pa : Nat), s.translating k = true → s.translate k va = .ok pa t →
    let admits : PteFlags → Prop := fun f =>
      (k = .fetch → f.x = true)
      ∧ (k = .load ∨ k = .amo → f.r = true ∨ (f.x = true ∧ s.mstatus.mxr = true))
      ∧ (k = .store ∨ k = .amo → f.w = true)
      ∧ (s.effPriv k = .U → f.u = true)
      ∧ (s.effPriv k = .S → f.u = true → k ≠ .fetch ∧ s.mstatus.sum = true);
    canonical s.xlen va = true ∧ pa % 4096 = va.toNat % 4096
    ∧ ((∃ e ∈ s.tlb, e.valid = true ∧ e.covers s.xlen va = true
          ∧ (e.flags.g = true ∨ e.asid = satpAsid s.xlen s.csr.satp)
          ∧ (k = .store ∨ k = .amo → e.flags.d = true) ∧ admits e.flags
          ∧ pa = leafAddress s.xlen va e.ppn e.level ∧ t.dram = s.dram)
      ∨ (∃ leaf, s.findLeaf k va = .ok leaf ∧ Memory.readLE s.dram leaf.addr (pteSize s.xlen) = leaf.pte
          ∧ s.inDram leaf.addr (pteSize s.xlen) = true
          ∧ pteValid leaf.pte = true ∧ pteLeaf leaf.pte = true ∧ admits (pteFlags leaf.pte)
          ∧ pa = leafAddress s.xlen va (ptePpn s.xlen leaf.pte) leaf.level ∧ t.dram = (s.writeBack k leaf).dram))

/-- A translation, whether it succeeds or raises, changes only the TLB, the choices drawn for it and, in DRAM, which keeps
its canonical form, the bytes of the leaf PTE its walk finds; every other byte, the reservation, every register and
every device are as before; a raised exception is the page fault or the access fault of the access, with its address
as trap value: instruction, load or, for a store and an AMO, store/AMO page fault or access fault. (R230, R235, R244,
R252, R540) -/
def Obligations.TranslationFrame : Prop :=
  ∀ (s : State) (k : Access) (va : Word),
    (∃ pa t, s.translate k va = .ok pa t
      ∧ t = { s with tlb := t.tlb, tlbDraws := t.tlbDraws, tlbDrawn := t.tlbDrawn, dram := t.dram } ∧ (s.dramOk → t.dramOk)
      ∧ ∀ b, (∀ leaf, s.findLeaf k va = .ok leaf → b < leaf.addr ∨ leaf.addr + pteSize s.xlen ≤ b) →
          t.byteAt b = s.byteAt b)
    ∨ (∃ e t, s.translate k va = .trap e va t
      ∧ (match k with
          | .fetch => e = .instrPage ∨ e = .instrAccess
          | .load => e = .loadPage ∨ e = .loadAccess
          | .store => e = .storePage ∨ e = .storeAccess
          | .amo => e = .storePage ∨ e = .storeAccess)
      ∧ t = { s with tlb := t.tlb, tlbDraws := t.tlbDraws, tlbDrawn := t.tlbDrawn })

/-- A non-canonical address raises the page fault. A root PTE outside DRAM raises the access fault, an invalid one the
page fault, and so does a PTE of any level; a pointer PTE goes on one level below in the table it names, and at level
0 raises the page fault; a leaf ends the walk. A leaf of any level that is not permitted or is a misaligned superpage
raises the page fault; any other gives the address R253 forms and leaves the leaf PTE in memory with A set, and D set
too for a write, all its other bits and every other byte as before; with fill true the TLB afterwards is the entry of
that leaf before the old entries, which holds the page number at the leaf's level, the ASID current at the fill, the
leaf's PPN, level and permission bits and A and D as written back, with fill false it is the old TLB, and nothing else
changes. A walk that raises changes nothing. With translation on a canonical address is translated, after entries may
have been dropped, by the walk, which fills or not, or by one valid entry that covers it, is global or of the current
ASID and has D = 1 for a write; an entry gives the address R253 forms from it where its permissions admit the access,
else the page fault, and changes nothing. (R230, R243, R244, R250, R251, R252, R253, R254, R260, R261, R262, R263)
That the canonicality check comes before the TLB is the model's reading (log 6), and that a PTE must lie wholly in
DRAM (log 19). -/
def Obligations.WalkRules : Prop :=
  ∀ (s : State) (k : Access) (va : Word) (fill : Bool),
    let root := satpPpn s.xlen s.csr.satp * 4096 + vpn s.xlen va (rootLevel s.xlen) * pteSize s.xlen;
    let pte := Memory.readLE s.dram root (pteSize s.xlen);
    let filled : Leaf → TlbEntry := fun leaf =>
      { vpn := va.toNat / 2 ^ (12 + vpnBits s.xlen * leaf.level) % 2 ^ (vpnBits s.xlen * (rootLevel s.xlen + 1 - leaf.level)),
        asid := satpAsid s.xlen s.csr.satp, ppn := ptePpn s.xlen leaf.pte, level := leaf.level, valid := true,
        flags := { r := leaf.pte.getLsbD 1, w := leaf.pte.getLsbD 2, x := leaf.pte.getLsbD 3, u := leaf.pte.getLsbD 4,
                   g := leaf.pte.getLsbD 5, a := true, d := leaf.pte.getLsbD 7 || decide (k = .store ∨ k = .amo) } };
    (s.translating k = true → canonical s.xlen va = false → s.translate k va = .trap k.pageFault va s)
    ∧ (s.inDram root (pteSize s.xlen) = false → s.translateByWalk k va fill = .trap k.accessFault va s)
    ∧ (s.inDram root (pteSize s.xlen) = true → pteValid pte = false → s.translateByWalk k va fill = .trap k.pageFault va s)
    ∧ (∀ level table,
        let addr := table + vpn s.xlen va level * pteSize s.xlen; let entry := Memory.readLE s.dram addr (pteSize s.xlen);
        (s.inDram addr (pteSize s.xlen) = false → s.walk k va level table = .error k.accessFault)
        ∧ (s.inDram addr (pteSize s.xlen) = true → pteValid entry = false → s.walk k va level table = .error k.pageFault)
        ∧ (s.inDram addr (pteSize s.xlen) = true → pteValid entry = true → pteLeaf entry = true →
            s.walk k va level table = .ok { addr := addr, pte := entry, level := level })
        ∧ (s.inDram addr (pteSize s.xlen) = true → pteValid entry = true → pteLeaf entry = false →
            s.walk k va level table
              = if level = 0 then .error k.pageFault else s.walk k va (level - 1) (ptePpn s.xlen entry * 4096)))
    ∧ (∀ e, s.walk k va (rootLevel s.xlen) (satpPpn s.xlen s.csr.satp * 4096) = .error e →
        s.translateByWalk k va fill = .trap e va s)
    ∧ (∀ leaf, s.walk k va (rootLevel s.xlen) (satpPpn s.xlen s.csr.satp * 4096) = .ok leaf →
        (permitted s.mstatus k (s.effPriv k) (pteFlags leaf.pte) = false →
          s.translateByWalk k va fill = .trap k.pageFault va s)
        ∧ (superpageAligned s.xlen (ptePpn s.xlen leaf.pte) leaf.level = false →
          s.translateByWalk k va fill = .trap k.pageFault va s)
        ∧ (s.dramOk → permitted s.mstatus k (s.effPriv k) (pteFlags leaf.pte) = true →
          superpageAligned s.xlen (ptePpn s.xlen leaf.pte) leaf.level = true →
          ∃ t, s.translateByWalk k va fill = .ok (leafAddress s.xlen va (ptePpn s.xlen leaf.pte) leaf.level) t
            ∧ t = { s with dram := t.dram, tlb := if fill then filled leaf :: s.tlb else s.tlb }
            ∧ Memory.readLE t.dram leaf.addr (pteSize s.xlen)
                = leaf.pte ||| 0x40#64 ||| (if k = .store ∨ k = .amo then 0x80#64 else 0#64)
            ∧ ∀ a, a < leaf.addr ∨ leaf.addr + pteSize s.xlen ≤ a → t.byteAt a = s.byteAt a)
        ∧ (∀ j, j < leaf.level * vpnBits s.xlen →
            (leafAddress s.xlen va (ptePpn s.xlen leaf.pte) leaf.level).testBit (12 + j) = va.getLsbD (12 + j))
        ∧ (∀ j, leaf.level * vpnBits s.xlen ≤ j →
            (leafAddress s.xlen va (ptePpn s.xlen leaf.pte) leaf.level).testBit (12 + j) = (ptePpn s.xlen leaf.pte).testBit j)
        ∧ (∀ j, j < 12 →
            (leafAddress s.xlen va (ptePpn s.xlen leaf.pte) leaf.level).testBit j = va.getLsbD j))
    ∧ (∀ e : TlbEntry, s.translateByEntry k va e
        = if permitted s.mstatus k (s.effPriv k) e.flags = true then .ok (leafAddress s.xlen va e.ppn e.level) s
          else .trap k.pageFault va s)
    ∧ (s.translating k = true → canonical s.xlen va = true → ∃ (u : State) (refill : Bool),
        u = { s with tlb := u.tlb, tlbDraws := u.tlbDraws, tlbDrawn := u.tlbDrawn } ∧ u.tlb.Sublist s.tlb
        ∧ (s.translate k va = u.translateByWalk k va refill
          ∨ ∃ e ∈ u.tlb, s.translate k va = u.translateByEntry k va e ∧ e.valid = true
            ∧ e.vpn = va.toNat / 2 ^ (12 + vpnBits s.xlen * e.level)
                % 2 ^ (vpnBits s.xlen * (rootLevel s.xlen + 1 - e.level))
            ∧ (e.flags.g = true ∨ e.asid = satpAsid s.xlen s.csr.satp) ∧ (k = .store ∨ k = .amo → e.flags.d = true)))

/-- Where the translation of the pc for a fetch raises, the fetch raises that exception with the pc as trap value; where
it gives an address outside DRAM, instruction access fault with the pc; otherwise the first parcel is read there, and
where its low bits are not 11 it is the whole instruction and the second is not translated. Otherwise the same holds
of pc + 2 modulo 2^XLEN in the state the first translation left, and the word is the two parcels. With translation off
each parcel is at its own address and the state is kept. (R300, R301, R239, R241, R722, R732) -/
def Obligations.FetchRules : Prop :=
  ∀ (s u w : State) (pa qa : Nat) (e : Exc) (v : Word),
    let pc2 := norm s.xlen (s.pc + 2);
    let p : BitVec 16 := BitVec.ofNat 16 (u.leNat pa 2);
    (s.translate .fetch s.pc = .trap e v u → v = s.pc ∧ s.fetchInstr = .trap e s.pc u)
    ∧ (s.translate .fetch s.pc = .ok pa u →
      (u.inDram pa 2 = false → s.fetchInstr = .trap .instrAccess s.pc u)
      ∧ (u.inDram pa 2 = true → quadrant p ≠ 3#2 → s.fetchInstr = .ok (.compressed p) u)
      ∧ (u.inDram pa 2 = true → quadrant p = 3#2 →
        (u.translate .fetch pc2 = .trap e v w → v = pc2 ∧ s.fetchInstr = .trap e pc2 w)
        ∧ (u.translate .fetch pc2 = .ok qa w →
          (w.inDram qa 2 = false → s.fetchInstr = .trap .instrAccess pc2 w)
          ∧ (w.inDram qa 2 = true →
            s.fetchInstr = .ok (.full (BitVec.ofNat 16 (w.leNat qa 2) ++ p)) w))))
    ∧ (s.translating .fetch = false →
      s.translate .fetch s.pc = .ok s.pc.toNat s ∧ s.translate .fetch pc2 = .ok pc2.toNat s)

/-- A 32-bit write to msip0, to a half of mtimecmp0 or to a half of mtime reads back (msip0 by its bit 0) and leaves the
other registers; every other offset reads 0 and ignores writes; a tick adds 1 to mtime modulo 2^64; the timer is
pending exactly when mtime >= mtimecmp0 unsigned; a bus access of the CLINT is one of these and changes nothing else.
(R761, R762, R763) -/
def Obligations.ClintRegisters : Prop :=
  ∀ (s : State) (c : Clint) (off off' : Nat) (v : BitVec 32),
    ((c.write 0 v).read 0 = v &&& 1)
    ∧ (off ∈ [0x4000, 0x4004, 0xBFF8, 0xBFFC] → (c.write off v).read off = v)
    ∧ (off ≠ off' → (c.write off v).read off' = c.read off')
    ∧ (off ∉ [0, 0x4000, 0x4004, 0xBFF8, 0xBFFC] → c.read off = 0 ∧ c.write off v = c)
    ∧ c.tick.mtime.toNat = (c.mtime.toNat + 1) % 2 ^ 64 ∧ c.tick.mtimecmp0 = c.mtimecmp0 ∧ c.tick.msip0 = c.msip0
    ∧ (c.timerPending = true ↔ c.mtimecmp0.toNat ≤ c.mtime.toNat)
    ∧ s.deviceRead32 .clint off = (s.clint.read off, s)
    ∧ s.deviceWrite32 .clint off v = { s with clint := s.clint.write off v }

/-- The priority of source n is read and written at 4n, bits 2:0, and that of source 0 reads 0; the pending bits are read-
only; an enable register is read and written for sources 1 to 53 of its half, the other bits staying 0; a threshold is
read and written, bits 2:0; a read of a claim register claims and gives the id, a write completes the id written;
every other 4-aligned offset reads 0 and ignores writes; each changes nothing else. A claim returns a pending, enabled
source of the highest priority, the lowest id among equals, or 0, changing nothing, if every such source has priority
0; the source claimed stops being pending and becomes claimed; a gateway does not set pending while the source is
claimed; completing a claimed source enabled for the context reopens it, so that its next assertion makes it pending
again, and any other completion changes nothing; the output is 1 exactly when some pending, enabled source is above
the threshold. (R770, R771, R772, R773, R775, R776) -/
def Obligations.PlicClaimAndComplete : Prop :=
  ∀ (s : State) (p : Plic) (c d : Context) (n off : Nat) (v : BitVec 32),
    let ready := fun m : Nat => 1 ≤ m ∧ m ≤ 53 ∧ p.pending.getLsbD m = true ∧ (p.enable c).getLsbD m = true ∧ 0 < p.prio m;
    let enables : Nat := match c with | .m => 0x002000 | .s => 0x002080;
    let control : Nat := match c with | .m => 0x200000 | .s => 0x201000;
    let keeps : Plic → Plic → Prop := fun q r => q.pending = r.pending ∧ q.claimed = r.claimed;
    (1 ≤ n → n ≤ 53 → p.readReg (4 * n) = (BitVec.ofNat 32 (p.prio n), p)
      ∧ (p.writeReg (4 * n) v).prio n = v.toNat % 8 ∧ (∀ m, m ≠ n → (p.writeReg (4 * n) v).prio m = p.prio m)
      ∧ p.writeReg (4 * n) v = { p with priority := (p.writeReg (4 * n) v).priority })
    ∧ p.readReg 0x001000 = (p.pending.setWidth 32, p) ∧ p.readReg 0x001004 = ((p.pending >>> 32).setWidth 32, p)
    ∧ p.readReg enables = ((p.enable c).setWidth 32, p) ∧ p.readReg (enables + 4) = (((p.enable c) >>> 32).setWidth 32, p)
    ∧ (∀ m, ((p.writeReg enables v).enable c).getLsbD m
          = (decide (1 ≤ m ∧ m ≤ 53) && if m < 32 then v.getLsbD m else (p.enable c).getLsbD m)
        ∧ ((p.writeReg (enables + 4) v).enable c).getLsbD m
          = (decide (1 ≤ m ∧ m ≤ 53) && if m < 32 then (p.enable c).getLsbD m else v.getLsbD (m - 32)))
    ∧ p.readReg control = ((p.threshold c).setWidth 32, p) ∧ ((p.writeReg control v).threshold c).toNat = v.toNat % 8
    ∧ (∀ o ∈ [enables, enables + 4, control], keeps (p.writeReg o v) p ∧ (p.writeReg o v).priority = p.priority
        ∧ (o ≠ control ∨ d ≠ c → (p.writeReg o v).threshold d = p.threshold d)
        ∧ (o = control ∨ d ≠ c → (p.writeReg o v).enable d = p.enable d))
    ∧ p.readReg (control + 4) = (BitVec.ofNat 32 (p.claim c).1, (p.claim c).2)
    ∧ p.writeReg (control + 4) v = p.complete c v.toNat
    ∧ ((off ∈ [0x000000, 0x001000, 0x001004] ∨ (off % 4 = 0 ∧ 4 * 53 < off
          ∧ off ∉ [0x001000, 0x001004, 0x002000, 0x002004, 0x002080, 0x002084, 0x200000, 0x200004, 0x201000, 0x201004])) →
        p.writeReg off v = p ∧ (off ∉ [0x001000, 0x001004] → p.readReg off = (0, p)))
    ∧ s.deviceRead32 .plic off = ((s.plic.readReg off).1, { s with plic := (s.plic.readReg off).2 })
    ∧ s.deviceWrite32 .plic off v = { s with plic := s.plic.writeReg off v }
    ∧ ((p.claim c).1 = 0 ↔ ∀ m, ¬ ready m) ∧ ((p.claim c).1 = 0 → (p.claim c).2 = p)
    ∧ ((p.claim c).1 = n → n ≠ 0 →
        ready n ∧ (∀ m, ready m → p.prio m < p.prio n ∨ (p.prio m = p.prio n ∧ n ≤ m))
        ∧ (p.claim c).2.pending.getLsbD n = false ∧ (p.claim c).2.claimed.getLsbD n = true
        ∧ (∀ m, m ≠ n → (p.claim c).2.pending.getLsbD m = p.pending.getLsbD m
            ∧ (p.claim c).2.claimed.getLsbD m = p.claimed.getLsbD m)
        ∧ (p.claim c).2 = { p with pending := (p.claim c).2.pending, claimed := (p.claim c).2.claimed }
        ∧ ((p.claim c).2.gateway n) = (p.claim c).2
        ∧ (((p.claim c).2.complete c n).gateway n).pending.getLsbD n = true)
    ∧ (¬ (1 ≤ n ∧ n ≤ 53 ∧ (p.enable c).getLsbD n = true ∧ p.claimed.getLsbD n = true) → p.complete c n = p)
    ∧ (1 ≤ n → n ≤ 53 → (p.enable c).getLsbD n = true → p.claimed.getLsbD n = true →
        p.complete c n = { p with claimed := (p.complete c n).claimed }
        ∧ ∀ m, (p.complete c n).claimed.getLsbD m = (decide (m ≠ n) && p.claimed.getLsbD m))
    ∧ (p.out c = true ↔ ∃ m, 1 ≤ m ∧ m ≤ 53 ∧ p.pending.getLsbD m = true ∧ (p.enable c).getLsbD m = true
        ∧ (p.threshold c).toNat < p.prio m)

/-- Every byte offset, read and written, with the whole state after it. With DLAB = 0 a read of offset 0 gives the
received byte and clears DR, a write gives the byte to the TTY, clears the THRE interrupt and marks the transmitter
busy, offset 1 is IER, four bits, a write that takes ETBEI from 0 to 1 making the THRE interrupt pending; with DLAB =
1 offsets 0 and 1 are the divisor latch. A read of offset 2 gives 04 for an enabled received byte, else 02 for an
enabled pending THRE interrupt, which it clears, else 01; offset 3 is LCR, 4 MCR, five bits, 7 SCR; offset 5 reads 60
with DR in bit 0; offset 6 and those from 8 on read 0; a write of offset 2, 5, 6 or from 8 on does nothing. A tick
asks the TTY only while DR = 0, stores the byte it answers, and makes THRE pending after a transmit; the line is up
exactly for an enabled received byte or an enabled pending THRE. Nothing else changes in any of these. That a TTY with
no answers left answers none is the model's choice of log 7. (R780, R781, R782, R783, R784, R785, R786, R787) -/
def Obligations.UartRules : Prop :=
  ∀ (s : State) (b : Byte) (off : Nat) (rest : List (Option Byte)),
    let u := s.uart; let dlab := u.lcr.getLsbD 7;
    let received := u.ier.getLsbD 0 = true ∧ u.dr = true; let emptied := u.ier.getLsbD 1 = true ∧ u.threIp = true;
    (dlab = false → s.uartRead 0 = (u.rbr, { s with uart := { u with dr := false } })
      ∧ s.uartWrite 0 b = { s with ttyOut := s.ttyOut ++ [b], uart := { u with threIp := false, txBusy := true } }
      ∧ s.uartRead 1 = (u.ier.setWidth 8, s)
      ∧ (u.ier.getLsbD 1 = false → b.getLsbD 1 = true →
          s.uartWrite 1 b = { s with uart := { u with ier := b.setWidth 4, threIp := true } })
      ∧ (u.ier.getLsbD 1 = true ∨ b.getLsbD 1 = false → s.uartWrite 1 b = { s with uart := { u with ier := b.setWidth 4 } }))
    ∧ (dlab = true → s.uartRead 0 = (u.dll, s) ∧ s.uartWrite 0 b = { s with uart := { u with dll := b } }
      ∧ s.uartRead 1 = (u.dlm, s) ∧ s.uartWrite 1 b = { s with uart := { u with dlm := b } })
    ∧ (received → s.uartRead 2 = (0x04#8, s))
    ∧ (¬ received → emptied → s.uartRead 2 = (0x02#8, { s with uart := { u with threIp := false } }))
    ∧ (¬ received → ¬ emptied → s.uartRead 2 = (0x01#8, s))
    ∧ s.uartRead 3 = (u.lcr, s) ∧ s.uartWrite 3 b = { s with uart := { u with lcr := b } }
    ∧ s.uartRead 4 = (u.mcr.setWidth 8, s) ∧ s.uartWrite 4 b = { s with uart := { u with mcr := b.setWidth 5 } }
    ∧ s.uartRead 5 = (if u.dr = true then 0x61#8 else 0x60#8, s) ∧ s.uartRead 6 = (0, s)
    ∧ s.uartRead 7 = (u.scr, s) ∧ s.uartWrite 7 b = { s with uart := { u with scr := b } }
    ∧ (8 ≤ off → s.uartRead off = (0, s)) ∧ (off ∈ [2, 5, 6] ∨ 8 ≤ off → s.uartWrite off b = s)
    ∧ (let ticked : Uart := { u with txBusy := false, threIp := u.threIp || u.txBusy };
      (u.dr = false → s.ttyIn = some b :: rest →
        s.uartTick = { s with ttyIn := rest, uart := { ticked with rbr := b, dr := true } })
      ∧ (u.dr = false → s.ttyIn = none :: rest → s.uartTick = { s with ttyIn := rest, uart := ticked })
      ∧ (u.dr = false → s.ttyIn = [] → s.uartTick = { s with uart := ticked })
      ∧ (u.dr = true → s.uartTick = { s with uart := ticked }))
    ∧ (u.irq = true ↔ received ∨ emptied)

/-- The registers read and store as the map says: the identification registers their constants, the queue registers only
where queue 0 is selected, the capacity the sectors of the disk; a write of 0 to Status resets every register and no
other value does; InterruptACK clears the bits written; a notify of queue 0 waits for the tick; every other offset
reads 0 and ignores writes. A DMA write of at least one byte succeeds exactly where its bytes lie wholly in DRAM,
writes those bytes only and drops the reservation, and elsewhere is the fault dmaRange with the state as it was. A
request of a chain of header, data buffers and status buffer, in DRAM: IN copies the disk from sector * 512 into the
buffers in order, status 0, used length L + 1; OUT copies the buffers in order there, status 0, used length 1; past
the end of the disk nothing is copied, status 1; any other type, status 2; the status byte is written to the status
buffer and nothing else changes. A chain that reaches an index not below num, one longer than num, its first num
descriptors all with NEXT, or one of a single descriptor is the fault virtioChain, and a descriptor it reaches, or its
header, outside DRAM the fault dmaRange. A fatal case leaves the DMA before it and changes nothing else; a write
request whose second buffer is outside DRAM leaves its first buffer on the disk. That the chain is walked first and
its header read then, that ranges are checked buffer by buffer with an empty buffer accessed nowhere, that a bad
buffer moves no byte and that the buffers before it have moved is the model's choice of log 9; what a fatal case
leaves is its reading of log 8; that QueuePFN written with another queue selected keeps last_avail is its choice of
log 23. (R540, R801, R802, R803, R804, R807, R808, R809) -/
def Obligations.VirtioAndDmaRules : Prop :=
  ∀ (s : State) (v : Virtio) (d : BitVec 32) (pa off : Nat) (bs : List Byte),
    let rest : State → State → Prop := fun s t => t = { s with dram := t.dram, resv := none, disk := t.disk };
    v.readReg s.disk 0x000 = 0x74726976#32 ∧ v.readReg s.disk 0x004 = 1 ∧ v.readReg s.disk 0x008 = 2
    ∧ v.readReg s.disk 0x00C = 0x554D4551#32
    ∧ v.readReg s.disk 0x014 = v.hostFeaturesSel ∧ v.writeReg 0x014 d = { v with hostFeaturesSel := d }
    ∧ v.readReg s.disk 0x020 = v.guestFeatures ∧ v.writeReg 0x020 d = { v with guestFeatures := d }
    ∧ v.readReg s.disk 0x024 = v.guestFeaturesSel ∧ v.writeReg 0x024 d = { v with guestFeaturesSel := d }
    ∧ v.readReg s.disk 0x028 = v.guestPageSize ∧ v.writeReg 0x028 d = { v with guestPageSize := d }
    ∧ v.readReg s.disk 0x030 = v.queueSel ∧ v.writeReg 0x030 d = { v with queueSel := d }
    ∧ (v.queueSel = 0 → v.readReg s.disk 0x034 = 8
        ∧ v.readReg s.disk 0x038 = v.queueNum ∧ v.writeReg 0x038 d = { v with queueNum := d }
        ∧ v.readReg s.disk 0x03C = v.queueAlign ∧ v.writeReg 0x03C d = { v with queueAlign := d }
        ∧ v.readReg s.disk 0x040 = v.queuePfn ∧ v.writeReg 0x040 d = { v with queuePfn := d, lastAvail := 0 })
    ∧ (v.queueSel ≠ 0 → off ∈ [0x034, 0x038, 0x03C, 0x040] → v.readReg s.disk off = 0 ∧ v.writeReg off d = v)
    ∧ v.readReg s.disk 0x060 = v.interruptStatus ∧ v.readReg s.disk 0x070 = v.status
    ∧ (v.readReg s.disk 0x100).toNat = s.disk.length / 512 % 2 ^ 32
    ∧ (v.readReg s.disk 0x104).toNat = s.disk.length / 512 / 2 ^ 32 % 2 ^ 32
    ∧ (off ∉ [0x000, 0x004, 0x008, 0x00C, 0x014, 0x020, 0x024, 0x028, 0x030, 0x034, 0x038, 0x03C, 0x040, 0x060, 0x070, 0x100, 0x104] →
        v.readReg s.disk off = 0)
    ∧ (off ∉ [0x014, 0x020, 0x024, 0x028, 0x030, 0x038, 0x03C, 0x040, 0x050, 0x064, 0x070] → v.writeReg off d = v)
    ∧ v.writeReg 0x070 0 = Virtio.reset ∧ (d ≠ 0 → v.writeReg 0x070 d = { v with status := d })
    ∧ v.writeReg 0x064 d = { v with interruptStatus := v.interruptStatus &&& ~~~d }
    ∧ v.writeReg 0x050 0 = { v with notify := true } ∧ (d ≠ 0 → v.writeReg 0x050 d = v)
    ∧ s.deviceRead32 .virtio off = (s.virtio.readReg s.disk off, s)
    ∧ s.deviceWrite32 .virtio off d = { s with virtio := s.virtio.writeReg off d }
    ∧ (v.irq = true ↔ v.interruptStatus ≠ 0)
    ∧ (bs ≠ [] → s.inDram pa bs.length = true → ∃ t, s.dmaWriteBytes pa bs = .ok t
        ∧ t = { s with dram := t.dram, resv := none }
        ∧ (s.dramOk → ∀ k (h : k < bs.length), t.byteAt (pa + k) = bs[k])
        ∧ ∀ a, a < pa ∨ pa + bs.length ≤ a → t.byteAt a = s.byteAt a)
    ∧ (bs ≠ [] → s.inDram pa bs.length = false → s.dmaWriteBytes pa bs = .error (.dmaRange, s))
    ∧ (∀ (h : Nat) (head st : Buffer) (data : List Buffer), s.dramOk → s.HasChain h (head :: (data ++ [st])) →
        data.length + 2 ≤ s.virtio.queueNum.toNat → s.inDram head.addr 16 = true → s.inDram st.addr 1 = true →
        let kind := s.leNat head.addr 4; let first := s.leNat (head.addr + 8) 8 * 512; let len := (data.map Buffer.len).sum;
        let inRange := ∀ b ∈ data, 0 < b.len → s.inDram b.addr b.len = true;
        (kind = 0 → first + len ≤ s.disk.length → inRange → ∃ t, s.request h = .ok (t, len + 1) ∧ rest s t
          ∧ t.byteAt st.addr = 0 ∧ t.disk = s.disk
          ∧ (∀ before b after k, data = before ++ b :: after → k < b.len → b.addr + k ≠ st.addr →
              (∀ c ∈ after, b.addr + k < c.addr ∨ c.addr + c.len ≤ b.addr + k) →
              s.disk[first + (before.map Buffer.len).sum + k]? = some (t.byteAt (b.addr + k)))
          ∧ ∀ a, a ≠ st.addr → (∀ b ∈ data, a < b.addr ∨ b.addr + b.len ≤ a) → t.byteAt a = s.byteAt a)
        ∧ (kind = 1 → first + len ≤ s.disk.length → inRange → ∃ t, s.request h = .ok (t, 1) ∧ rest s t
          ∧ t.byteAt st.addr = 0 ∧ t.disk.length = s.disk.length
          ∧ (∀ before b after k, data = before ++ b :: after → k < b.len →
              t.disk[first + (before.map Buffer.len).sum + k]? = some (s.byteAt (b.addr + k)))
          ∧ (∀ j, j < first ∨ first + len ≤ j → t.disk[j]? = s.disk[j]?)
          ∧ ∀ a, a ≠ st.addr → t.byteAt a = s.byteAt a)
        ∧ (∀ status : Byte, (kind ≤ 1 ∧ s.disk.length < first + len ∧ status = 1) ∨ (1 < kind ∧ status = 2) →
          ∃ t, s.request h = .ok (t, 1) ∧ rest s t ∧ t.byteAt st.addr = status ∧ t.disk = s.disk
            ∧ ∀ a, a ≠ st.addr → t.byteAt a = s.byteAt a))
    ∧ (∀ h b, s.HasChain h [b] → s.request h = .error (.virtioChain, s))
    ∧ (∀ (js : Nat → Nat) (m : Nat), m ≤ s.virtio.queueNum.toNat →
        (∀ k, k < m → let desc := s.queueBase + 16 * js k;
          js k < s.virtio.queueNum.toNat ∧ s.inDram desc 16 = true ∧ s.leNat (desc + 12) 2 % 2 = 1
            ∧ js (k + 1) = s.leNat (desc + 14) 2) →
        (m = s.virtio.queueNum.toNat ∨ s.virtio.queueNum.toNat ≤ js m → s.request (js 0) = .error (.virtioChain, s))
        ∧ (m < s.virtio.queueNum.toNat → js m < s.virtio.queueNum.toNat → s.inDram (s.queueBase + 16 * js m) 16 = false →
            s.request (js 0) = .error (.dmaRange, s)))
    ∧ (∀ h head next chain, s.HasChain h (head :: next :: chain) → chain.length + 2 ≤ s.virtio.queueNum.toNat →
        s.inDram head.addr 16 = false → s.request h = .error (.dmaRange, s))
    ∧ (∀ f t, s.virtioTick = .error (f, t) →
        t = { s with dram := t.dram, resv := t.resv, disk := t.disk, virtio := t.virtio } ∧ t.virtio.notify = false
        ∧ (t.resv = s.resv ∨ t.resv = none) ∧ (s.dramOk → t.dramOk))
    ∧ (∀ sector b1 b2, 0 < b1.len → s.inDram b1.addr b1.len = true → 0 < b2.len → s.inDram b2.addr b2.len = false →
        sector * 512 + (b1.len + b2.len) ≤ s.disk.length →
        s.transfer 1 sector [b1, b2] = .error (.dmaRange,
          { s with disk := diskWrite s.disk (sector * 512) (Memory.readBytes s.dram b1.addr b1.len) }))

/-- A tick of the virtio block with no notify waiting changes nothing; it takes a waiting notify, and with the queue not
set up does nothing else; with it set up, it serves the available ring from last_avail on until last_avail is
avail.idx, where that many requests, less than 2^64, all complete. The used ring is updated with the head, the used
length and the next index, modulo 2^16, and the interrupt bit set, and nothing else changes; it starts at the least
multiple of QueueAlign, not 0, past the available ring. A bus tick that completes is that of the virtio block, then
adds 1 to mtime, ticks the UART, makes pending the sources 1 and 10 whose lines are up, but one that is claimed,
latches the two PLIC outputs into eip, and changes no hart register, CSR, mode, TLB entry or pc; where the virtio
block's tick is fatal so is it; with no notify waiting it always completes and leaves DRAM, the disk and the
reservation. That the loop is bounded is the model's choice of log 10, that the id and the length are written as one
range that of log 9, and that the used ring starts at the least multiple of QueueAlign also where that is not a power
of two is the model's reading of align_up, its choice of log 11. (R702, R703, R762, R772, R774, R802, R805, R806,
R807) -/
def Obligations.BusTickRules : Prop :=
  ∀ (s : State),
    let idle : State := { s with virtio := { s.virtio with notify := false } };
    let num := s.virtio.queueNum.toNat; let used := s.virtio.usedBase; let ends := s.queueBase + 16 * num + 2 * (3 + num);
    let slot := used + 4 + 8 * (s.leNat (used + 2) 2 % num);
    (s.virtio.notify = false → s.virtioTick = .ok s)
    ∧ (s.virtio.notify = true → s.virtio.queuePfn = 0 ∨ num = 0 ∨ 8 < num ∨ s.virtio.status = 0 → s.virtioTick = .ok idle)
    ∧ (s.virtio.notify = true → s.virtio.queuePfn ≠ 0 → 1 ≤ num → num ≤ 8 → s.virtio.status ≠ 0 →
        ∀ n t, n < 2 ^ 64 → idle.Serves n t → s.virtioTick = .ok t)
    ∧ (s.virtio.queueAlign ≠ 0 →
        used % s.virtio.queueAlign.toNat = 0 ∧ ends ≤ used ∧ used < ends + s.virtio.queueAlign.toNat)
    ∧ (s.dramOk → s.inDram (used + 2) 2 = true → s.inDram slot 8 = true → ∀ h n, ∃ t, s.usedUpdate h n = .ok t
        ∧ t = { s with dram := t.dram, resv := none,
                       virtio := { s.virtio with interruptStatus := s.virtio.interruptStatus ||| 1 } }
        ∧ t.leNat slot 4 = h % 2 ^ 32 ∧ t.leNat (slot + 4) 4 = n % 2 ^ 32
        ∧ t.leNat (used + 2) 2 = (s.leNat (used + 2) 2 + 1) % 2 ^ 16
        ∧ ∀ a, a < used + 2 ∨ used + 4 ≤ a → a < slot ∨ slot + 8 ≤ a → t.byteAt a = s.byteAt a)
    ∧ (∀ t, busTick s = .next t →
      t = { s with dram := t.dram, resv := t.resv, disk := t.disk, virtio := t.virtio, clint := s.clint.tick, uart := t.uart,
                   ttyIn := t.ttyIn, plic := t.plic, eip0 := t.plic.out .m, eip1 := t.plic.out .s }
      ∧ (t.resv = s.resv ∨ t.resv = none) ∧ (s.dramOk → t.dramOk)
      ∧ t.uart = s.uartTick.uart ∧ t.ttyIn = s.uartTick.ttyIn
      ∧ t.plic = { s.plic with pending := t.plic.pending }
      ∧ ∀ m, t.plic.pending.getLsbD m = (s.plic.pending.getLsbD m
          || (!s.plic.claimed.getLsbD m && ((decide (m = 1) && t.virtio.irq) || (decide (m = 10) && t.uart.irq)))))
    ∧ (∀ u, s.virtioTick = .ok u →
        ∃ t, busTick s = .next t ∧ t.dram = u.dram ∧ t.disk = u.disk ∧ t.virtio = u.virtio ∧ t.resv = u.resv)
    ∧ (∀ f u, s.virtioTick = .error (f, u) → busTick s = .fault f)
    ∧ (s.virtio.notify = false → ∃ t, busTick s = .next t ∧ t.dram = s.dram ∧ t.disk = s.disk ∧ t.resv = s.resv)

/-- After a final outcome no transition happens; otherwise an interrupt that is selected is taken and no instruction runs;
otherwise a fetch that raises has its exception taken, and where the fetch gives bits that decode to an instruction
the step is exec of it in the state the fetch left, bits that decode to none raising illegal instruction with those
bits; the bus tick follows each. (R11, R302, R340, R700, R701, R732, R743) -/
def Obligations.StepRunsDecodedInstruction : Prop :=
  ∀ (s : State),
    let thenTick : Host.Outcome State Fault Refusal → Host.Outcome State Fault Refusal := fun o =>
      (match o with
        | .next t => busTick t
        | .fault f => .fault f
        | .refused q => .refused q);
    (∀ f, s.fatal = some f → step s = .fault f)
    ∧ (∀ r, s.fatal = none → s.refused = some r → step s = .refused r)
    ∧ (s.fatal = none → s.refused = none →
      (∀ i, s.selectInterrupt = some i → step s = busTick (trapStep (.interrupt i) 0 s))
      ∧ (s.selectInterrupt = none →
        (∀ e v u, s.fetchInstr = .trap e v u → step s = busTick (trapStep (.exception e) v u))
        ∧ (∀ r u, s.fetchInstr = .ok r u →
          (∀ i, decodeRaw u.xlen r = .ok i → step s = thenTick (exec i u))
          ∧ ((∀ i, decodeRaw u.xlen r ≠ .ok i) → step s = busTick (trapStep (.exception .illegalInstr) (rawBits r) u)))))

/-- From every state with the invariant (even pc and xepc, DRAM_SIZE at most its limit, DRAM in canonical form inside its
range, legal WARL fields, XLEN-bit registers, PLIC bits of its sources only, a reservation in DRAM, no final outcome),
a step that gives a next state gives one with it. (R55, R82, R201, R74, R75, R76, R81, R87, R50, R770, R541, R12) That
XLEN-bit values have a zero upper half in RV32 is the model's form of them (log 1), and that DRAM_SIZE is a field of
the state is its form of that parameter (log 2). -/
def Obligations.StepKeepsInvariant : Prop :=
  ∀ (s t : State), s.Inv → step s = .next t → t.Inv

/-- The state after reset has even pcs, DRAM_SIZE at its limit, canonical DRAM, legal WARL fields, XLEN-bit registers, no
PLIC bits, no reservation and no final outcome. (R110, R850, R12) That DRAM_SIZE is its default after reset is the
model's choice (log 2). -/
def Obligations.ResetHasInvariant : Prop :=
  State.reset.Inv

/-- After reset: M-mode, pc 0x80000000, every integer and floating-point register 0, XLEN 64, every stored field of
mstatus 0, every CSR 0 and the software interrupt bits clear, counters 0, no reservation, TLB empty, DRAM all zero,
every register of the CLINT, the PLIC, the UART and the virtio block at its reset value, mtimecmp0 the parameter, and
no outcome mark. (R110, R850, R201, R760, R770, R780, R800, R851) The value of mtimecmp0 is a parameter of which
nothing is assumed (log 3). -/
def Obligations.ResetState : Prop :=
  let s := State.reset;
    s.priv = .M ∧ s.pc = 0x80000000#64 ∧ s.xlen = .rv64
    ∧ (∀ r, s.readX r = 0) ∧ (∀ r, s.readF r = 0)
    ∧ s.mstatus = ⟨false, false, false, false, false, .U, 0, false, false, false, false, false, false⟩
    ∧ (∀ r, r ∉ [.mstatus, .sstatus, .misa, .mip, .sip] → s.csrRead r = 0)
    ∧ s.csr.ssip = false ∧ s.csr.stip = false ∧ s.csr.seipSw = false
    ∧ s.mcycle = 0 ∧ s.minstret = 0 ∧ s.resv = none ∧ s.tlb = [] ∧ (∀ a, s.byteAt a = 0)
    ∧ s.clint.msip0 = false ∧ s.clint.mtime = 0 ∧ s.clint.mtimecmp0 = Config.mtimecmpReset
    ∧ s.plic.pending = 0 ∧ s.plic.claimed = 0 ∧ (∀ n, s.plic.prio n = 0)
    ∧ (∀ c, s.plic.enable c = 0 ∧ s.plic.threshold c = 0)
    ∧ s.uart = { rbr := 0, dr := false, ier := 0, lcr := 0, mcr := 0, scr := 0, dll := 0, dlm := 0, threIp := false,
                 txBusy := false }
    ∧ s.virtio = { hostFeaturesSel := 0, guestFeatures := 0, guestFeaturesSel := 0, guestPageSize := 4096, queueSel := 0,
                   queueNum := 0, queueAlign := 4096, queuePfn := 0, interruptStatus := 0, status := 0, lastAvail := 0,
                   notify := false }
    ∧ s.eip0 = false ∧ s.eip1 = false ∧ s.fatal = none ∧ s.refused = none

/-- A step that gives a next state keeps XLEN, DRAM_SIZE, the tohost address and the outcome marks, advances mtime by one
from what the hart left, and never rewinds the output stream. (R57, R762, R201) -/
def Obligations.StepKeepsConfiguration : Prop :=
  ∀ (s t : State), step s = .next t →
    t.xlen = s.xlen ∧ t.dramSize = s.dramSize ∧ t.tohost = s.tohost ∧ t.fatal = none ∧ t.refused = none
    ∧ (∃ out, t.ttyOut = s.ttyOut ++ out)
    ∧ (∃ u, hartStep s = .next u ∧ t.clint.mtime = u.clint.mtime + 1 ∧ t.mcycle = u.mcycle ∧ t.x = u.x ∧ t.pc = u.pc)

/-- load_program sets XLEN, the pc with bit 0 cleared and the tohost address and copies every section of its list in
order, so that each byte of a section holds its payload unless a later section covers it and every other byte is as
before; where a section does not fit it answers none, the host error, by log 21. set_dram_data copies its bytes to the
start of DRAM where they fit, set_disk_data replaces the disk; set_pc sets the pc to the address modulo 2^XLEN with
bit 0 cleared and changes nothing else; reset puts the whole state at its reset values but for XLEN, the disk, the TTY
and tohost, which it keeps. run repeats the step while no stop condition holds: it ends with a fatal or refused step,
which stays final, or in test mode with success exactly when the tohost word is 1 and with failure for any other value
but 0. A tick that ends in a fatal case leaves the DMA before it, and a disk so written is kept by reset. (R11, R216,
R700, R807, R850, R852, R853, R855, R857) That reset also keeps the parameter DRAM_SIZE, the streams of the TTY and
the TLB choices is the model's form of what R850 keeps (log 14). -/
def Obligations.DriverOperations : Prop :=
  ∀ (s : State) (elf : Elf) (entry a : Word) (bs : List Byte) (m n : Nat),
    ((∀ c ∈ elf.sections, s.inDram c.addr c.payload.length = true) →
      s.loadProgram elf = some { s with
        xlen := elf.xlen, pc := norm elf.xlen elf.entry &&& ~~~1#64, tohost := elf.tohost,
        dram := elf.sections.foldl (fun d c => Memory.writeBytes d c.addr c.payload) s.dram })
    ∧ (∀ t, s.dramOk → s.loadProgram elf = some t →
        (∀ before c after, elf.sections = before ++ c :: after → ∀ k (h : k < c.payload.length),
          (∀ d ∈ after, c.addr + k < d.addr ∨ d.addr + d.payload.length ≤ c.addr + k) →
          t.byteAt (c.addr + k) = c.payload[k])
        ∧ ∀ b, (∀ d ∈ elf.sections, b < d.addr ∨ d.addr + d.payload.length ≤ b) → t.byteAt b = s.byteAt b)
    ∧ ((∃ c ∈ elf.sections, s.inDram c.addr c.payload.length = false) → s.loadProgram elf = none)
    ∧ s.setDramData bs
        = (if bs.length ≤ s.dramSize then some { s with dram := Memory.writeBytes s.dram 0x80000000 bs } else none)
    ∧ s.setDiskData bs = { s with disk := bs }
    ∧ s.setPc entry = { s with pc := norm s.xlen entry &&& ~~~1#64 } ∧ (s.setPc entry).pc.toNat = (entry.toNat % 2 ^ xlenBits s.xlen) / 2 * 2
    ∧ s.driverReset = { State.reset with
        xlen := s.xlen, disk := s.disk, tohost := s.tohost, ttyIn := s.ttyIn, ttyOut := s.ttyOut, dramSize := s.dramSize,
        tlbDraws := s.tlbDraws, tlbDrawn := s.tlbDrawn }
    ∧ s.driverReset.disk = s.disk ∧ s.driverReset.xlen = s.xlen ∧ s.driverReset.tohost = s.tohost
    ∧ s.driverReset.priv = .M ∧ s.driverReset.pc = 0x80000000#64 ∧ s.driverReset.dram = []
    ∧ (s.tohost = some a → a.toNat % 4 = 0 → s.inDram a.toNat 4 = true →
        (verdict (.next s) = .passed ↔ s.leNat a.toNat 4 = 1)
        ∧ (verdict (.next s) = .running ↔ s.leNat a.toNat 4 = 0)
        ∧ (1 < s.leNat a.toNat 4 → verdict (.next s) = .failed (BitVec.ofNat 32 (s.leNat a.toNat 4))))
    ∧ s.run 0 = (.running, s) ∧ s.run 1 = (verdict (step s), s.settle (step s))
    ∧ s.run (m + n) = (if (s.run m).1 = .running then (s.run m).2.run n else s.run m)
    ∧ ((s.run n).1 = .passed → ∃ p, (s.run n).2.tohost = some p ∧ (s.run n).2.leNat p.toNat 4 = 1)
    ∧ (∀ f, step s = .fault f → s.run (n + 1) = (.fatal f, s.settle (.fault f)) ∧ step (s.settle (.fault f)) = .fault f)
    ∧ (∀ q, step s = .refused q →
        s.run (n + 1) = (.refused q, s.settle (.refused q)) ∧ step (s.settle (.refused q)) = .refused q)
    ∧ (∀ u f w, s.fatal = none → s.refused = none → hartStep s = .next u → u.virtioTick = .error (f, w) →
        step s = .fault f ∧ s.settle (step s) = { w with fatal := some f }
        ∧ (s.settle (step s)).driverReset.disk = w.disk)
end

