-- ==== Sys2Proof/Laws/Memory.lean ====
section
/-! SUPPORT. Memory: every operation keeps the canonical form, what a read after a write gives, and that the form is canonical. -/

namespace Sys2Proof.Machine.Memory

/-! ### The canonical form -/

theorem wfFrom_mono {m : Memory} {lo lo' : Nat} (h : lo' ≤ lo) (hm : wfFrom lo m = true) : wfFrom lo' m = true := by
  cases m with
  | nil => rfl
  | cons c m =>
    obtain ⟨k, b⟩ := c
    simp only [wfFrom, Bool.and_eq_true, decide_eq_true_eq] at hm ⊢
    exact ⟨⟨by omega, hm.1.2⟩, hm.2⟩

theorem write_wfFrom {m : Memory} {lo a : Nat} (b : Byte) (ha : lo ≤ a) (hm : wfFrom lo m = true) :
    wfFrom lo (write m a b) = true := by
  induction m generalizing lo with
  | nil =>
    by_cases hb : b = unlisted
    · simp [write, hb, wfFrom]
    · simp [write, hb, wfFrom, ha]
  | cons c m ih =>
    obtain ⟨k, d⟩ := c
    simp only [wfFrom, Bool.and_eq_true, decide_eq_true_eq] at hm
    obtain ⟨⟨h1, h2⟩, h3⟩ := hm
    unfold write
    split
    · simp only [wfFrom, Bool.and_eq_true, decide_eq_true_eq]
      exact ⟨⟨h1, h2⟩, ih (by omega) h3⟩
    · split
      · split
        · exact wfFrom_mono (by omega) h3
        · rename_i hk hb
          simp only [wfFrom, Bool.and_eq_true, decide_eq_true_eq]
          exact ⟨⟨ha, hb⟩, hk ▸ h3⟩
      · split
        · simp only [wfFrom, Bool.and_eq_true, decide_eq_true_eq]; exact ⟨⟨h1, h2⟩, h3⟩
        · simp only [wfFrom, Bool.and_eq_true, decide_eq_true_eq]
          exact ⟨⟨ha, by assumption⟩, ⟨⟨by omega, h2⟩, h3⟩⟩

theorem write_wf {m : Memory} (a : Nat) (b : Byte) (hm : wf m = true) : wf (write m a b) = true :=
  write_wfFrom b (Nat.zero_le a) hm

theorem writeLE_wf {m : Memory} (a n : Nat) (v : Word) (hm : wf m = true) : wf (writeLE m a n v) = true := by
  induction n generalizing m a v with
  | zero => exact hm
  | succ n ih => exact ih _ _ (write_wf _ _ hm)

theorem writeBytes_wf {m : Memory} (a : Nat) (bs : List Byte) (hm : wf m = true) : wf (writeBytes m a bs) = true := by
  induction bs generalizing m a with
  | nil => exact hm
  | cons b bs ih => exact ih _ (write_wf _ _ hm)

/-- A byte below every listed address reads as unlisted. -/
theorem read_below {m : Memory} {lo a : Nat} (h : a < lo) (hm : wfFrom lo m = true) : read m a = unlisted := by
  induction m generalizing lo with
  | nil => rfl
  | cons c m ih =>
    obtain ⟨k, d⟩ := c
    simp only [wfFrom, Bool.and_eq_true, decide_eq_true_eq] at hm
    have hk : k ≠ a := by omega
    simp only [read, hk, if_false]
    exact ih (by omega) hm.2

/-! ### Reading after writing one byte -/

theorem read_write_ne (m : Memory) {a a' : Nat} (b : Byte) (h : a' ≠ a) : read (write m a b) a' = read m a' := by
  induction m with
  | nil =>
    by_cases hb : b = unlisted
    · simp [write, hb]
    · simp [write, hb, read, Ne.symm h]
  | cons c m ih =>
    obtain ⟨k, d⟩ := c
    unfold write
    split
    · simp only [read, ih]
    · split
      · rename_i hk
        split <;> simp [read, hk, Ne.symm h]
      · split
        · rfl
        · simp [read, Ne.symm h]

theorem read_write_self {m : Memory} {lo : Nat} (a : Nat) (b : Byte) (hm : wfFrom lo m = true) :
    read (write m a b) a = b := by
  induction m generalizing lo with
  | nil =>
    by_cases hb : b = unlisted
    · simp [write, hb, read]
    · simp [write, hb, read]
  | cons c m ih =>
    obtain ⟨k, d⟩ := c
    have hc := hm
    simp only [wfFrom, Bool.and_eq_true, decide_eq_true_eq] at hm
    unfold write
    split
    · rename_i hk
      have : k ≠ a := by omega
      simp only [read, this, if_false]
      exact ih hm.2
    · split
      · rename_i hk
        split
        · rename_i hb
          rw [hb]
          exact read_below (by omega) hm.2
        · simp [read]
      · split
        · rename_i hk1 hk2 hb
          have : k ≠ a := hk2
          simp only [read, this, if_false]
          rw [hb]
          exact read_below (by omega) hm.2
        · simp [read]

/-! ### Reading after writing several bytes -/

/-- A byte outside the bytes stored reads as before. -/
theorem read_writeLE_out (m : Memory) {a n a' : Nat} (v : Word) (h : a' < a ∨ a + n ≤ a') :
    read (writeLE m a n v) a' = read m a' := by
  induction n generalizing m a v with
  | zero => rfl
  | succ n ih =>
    rw [writeLE, ih _ _ (by omega), read_write_ne _ _ (by omega)]

theorem read_writeBytes_out (m : Memory) {a a' : Nat} (bs : List Byte) (h : a' < a ∨ a + bs.length ≤ a') :
    read (writeBytes m a bs) a' = read m a' := by
  induction bs generalizing m a with
  | nil => rfl
  | cons b bs ih =>
    simp only [List.length_cons] at h
    rw [writeBytes, ih _ (by omega), read_write_ne _ _ (by omega)]

/-- The stored byte `k` is byte `k` of the value. -/
theorem read_writeLE_in {m : Memory} {a n k : Nat} (v : Word) (hk : k < n) (hm : wf m = true) :
    read (writeLE m a n v) (a + k) = (v >>> (8 * k)).setWidth 8 := by
  induction n generalizing m a v k with
  | zero => omega
  | succ n ih =>
    rw [writeLE]
    cases k with
    | zero =>
      rw [read_writeLE_out _ _ (by omega)]
      simpa using read_write_self a _ hm
    | succ k =>
      have e : a + (k + 1) = a + 1 + k := by omega
      rw [e, ih _ (by omega) (write_wf _ _ hm)]
      rw [← BitVec.shiftRight_add]
      congr 2
      omega

/-- A number that was read has no bits above its width. -/
theorem readLE_above {m : Memory} {a n i : Nat} (h : 8 * n ≤ i) : (readLE m a n).getLsbD i = false := by
  induction n generalizing a i with
  | zero => simp [readLE]
  | succ n ih =>
    rw [readLE, BitVec.getLsbD_or, BitVec.getLsbD_shiftLeft, ih (by omega), BitVec.getLsbD_setWidth,
      BitVec.getLsbD_of_ge _ _ (by omega)]
    simp

/-- A value written reads back, up to its width (20_memory.md R205). -/
theorem readLE_writeLE {m : Memory} (a n : Nat) (v : Word) (hm : wf m = true) (i : Nat) :
    (readLE (writeLE m a n v) a n).getLsbD i = (decide (i < 8 * n) && v.getLsbD i) := by
  suffices H : ∀ (k : Nat) (m' : Memory) (b : Nat) (u : Word), (∀ j, j < k → read m' (b + j) = (u >>> (8 * j)).setWidth 8) →
      ∀ i, (readLE m' b k).getLsbD i = (decide (i < 8 * k) && u.getLsbD i) from
    H n _ a v (fun j hj => read_writeLE_in v hj hm) i
  intro k
  induction k with
  | zero => intro m' b u _ i; simp [readLE]
  | succ k ih =>
    intro m' b u h i
    have h0 : read m' b = u.setWidth 8 := by simpa using h 0 (by omega)
    have hr := ih m' (b + 1) (u >>> 8) (fun j hj => by
      have := h (j + 1) (by omega)
      rw [show b + 1 + j = b + (j + 1) by omega, this, ← BitVec.shiftRight_add]
      congr 2
      omega)
    simp only [readLE, BitVec.getLsbD_or, BitVec.getLsbD_setWidth, BitVec.getLsbD_shiftLeft, h0, hr,
      BitVec.getLsbD_ushiftRight]
    by_cases h8 : i < 8
    · have : i < 8 * (k + 1) := by omega
      by_cases h64 : i < 64
      · simp [h8, this, h64]
      · omega
    · have e : 8 + (i - 8) = i := by omega
      rw [e]
      by_cases h64 : i < 64
      · have : (i - 8 < 8 * k) ↔ (i < 8 * (k + 1)) := by omega
        simp [h8, h64, this]
      · simp [BitVec.getLsbD_of_ge u i (by omega)]

/-! ### Which addresses are listed -/

theorem mem_write {m : Memory} {a : Nat} {b : Byte} {c : Host.Cell} (h : c ∈ write m a b) : c ∈ m ∨ c.1 = a := by
  induction m with
  | nil =>
    by_cases hb : b = unlisted
    · simp [write, hb] at h
    · simp [write, hb] at h; exact .inr (by rw [h])
  | cons d m ih =>
    obtain ⟨k, e⟩ := d
    unfold write at h
    split at h
    · rcases List.mem_cons.mp h with h | h
      · exact .inl (h ▸ List.mem_cons_self ..)
      · rcases ih h with h | h
        · exact .inl (List.mem_cons_of_mem _ h)
        · exact .inr h
    · split at h
      · split at h
        · exact .inl (List.mem_cons_of_mem _ h)
        · rcases List.mem_cons.mp h with h | h
          · exact .inr (by rw [h])
          · exact .inl (List.mem_cons_of_mem _ h)
      · split at h
        · exact .inl h
        · rcases List.mem_cons.mp h with h | h
          · exact .inr (by rw [h])
          · exact .inl h

theorem mem_writeLE {m : Memory} {a n : Nat} {v : Word} {c : Host.Cell} (h : c ∈ writeLE m a n v) :
    c ∈ m ∨ (a ≤ c.1 ∧ c.1 < a + n) := by
  induction n generalizing m a v with
  | zero => exact .inl h
  | succ n ih =>
    rcases ih h with h | h
    · rcases mem_write h with h | h
      · exact .inl h
      · exact .inr (by omega)
    · exact .inr (by omega)

theorem mem_writeBytes {m : Memory} {a : Nat} {bs : List Byte} {c : Host.Cell} (h : c ∈ writeBytes m a bs) :
    c ∈ m ∨ (a ≤ c.1 ∧ c.1 < a + bs.length) := by
  induction bs generalizing m a with
  | nil => exact .inl h
  | cons b bs ih =>
    simp only [List.length_cons]
    rcases ih h with h | h
    · rcases mem_write h with h | h
      · exact .inl h
      · exact .inr (by omega)
    · exact .inr (by omega)

/-! ### Equal memories are equal data -/

theorem wf_ext {lo : Nat} {m m' : Memory} (hm : wfFrom lo m = true) (hm' : wfFrom lo m' = true)
    (h : ∀ a, read m a = read m' a) : m = m' := by
  induction m generalizing lo m' with
  | nil =>
    cases m' with
    | nil => rfl
    | cons c m' =>
      obtain ⟨k, d⟩ := c
      simp only [wfFrom, Bool.and_eq_true, decide_eq_true_eq] at hm'
      exact absurd (by simpa [read] using (h k).symm) hm'.1.2
  | cons c m ih =>
    obtain ⟨k, d⟩ := c
    have hm0 := hm
    simp only [wfFrom, Bool.and_eq_true, decide_eq_true_eq] at hm
    cases m' with
    | nil => exact absurd (by simpa [read] using h k) hm.1.2
    | cons c' m' =>
      obtain ⟨k', d'⟩ := c'
      have hm0' := hm'
      simp only [wfFrom, Bool.and_eq_true, decide_eq_true_eq] at hm'
      have hk : k = k' := by
        rcases Nat.lt_trichotomy k k' with hlt | heq | hgt
        · have h1 := h k
          have h2 : read ((k', d') :: m') k = unlisted :=
            read_below hlt (by simp only [wfFrom, Bool.and_eq_true, decide_eq_true_eq]; exact ⟨⟨Nat.le_refl _, hm'.1.2⟩, hm'.2⟩)
          rw [h2] at h1
          simp only [read, if_true] at h1
          exact absurd h1 hm.1.2
        · exact heq
        · have h1 := h k'
          have h2 : read ((k, d) :: m) k' = unlisted :=
            read_below hgt (by simp only [wfFrom, Bool.and_eq_true, decide_eq_true_eq]; exact ⟨⟨Nat.le_refl _, hm.1.2⟩, hm.2⟩)
          rw [h2] at h1
          simp only [read, if_true] at h1
          exact absurd h1.symm hm'.1.2
      subst hk
      have hd : d = d' := by simpa [read] using h k
      subst hd
      congr 1
      refine ih (lo := k + 1) hm.2 hm'.2 fun a => ?_
      by_cases ha : a ≤ k
      · rw [read_below (by omega) hm.2, read_below (by omega) hm'.2]
      · have := h a
        have hne : k ≠ a := by omega
        simpa only [read, hne, if_false] using this

end Sys2Proof.Machine.Memory
end

