-- ==== Sys2Proof/Laws/Word.lean ====
section
/-! SUPPORT. XLEN-bit values: what `norm` does and which operations keep it. -/

namespace Sys2Proof.Machine

open Sys2Proof

@[simp] theorem norm_rv64 (v : Word) : norm .rv64 v = v := rfl

/-- The XLEN-bit value as a number. -/
theorem norm_toNat (x : Xlen) (v : Word) : (norm x v).toNat = v.toNat % 2 ^ xlenBits x := by
  cases x
  · simp [norm, xlenBits]; omega
  · simp [norm, xlenBits]; omega

theorem getLsbD_norm (x : Xlen) (v : Word) (i : Nat) : (norm x v).getLsbD i = (decide (i < xlenBits x) && v.getLsbD i) := by
  cases x
  · simp only [norm, xlenBits, BitVec.getLsbD_setWidth]
    by_cases h : i < 32 <;> simp [h] <;> omega
  · by_cases h : i < 64
    · simp [xlenBits, h]
    · simp [xlenBits, h, BitVec.getLsbD_of_ge _ _ (Nat.le_of_not_lt h)]

/-- Two words are equal where their bits are. -/
theorem word_ext {a b : Word} (h : ∀ i, a.getLsbD i = b.getLsbD i) : a = b := BitVec.eq_of_getLsbD_eq fun i _ => h i

@[simp] theorem norm_norm (x : Xlen) (v : Word) : norm x (norm x v) = norm x v :=
  word_ext fun i => by simp only [getLsbD_norm]; cases decide (i < xlenBits x) <;> rfl

/-- A value is XLEN-bit exactly where it lies below 2^XLEN. -/
theorem norm_eq_self_iff (x : Xlen) (v : Word) : norm x v = v ↔ v.toNat < 2 ^ xlenBits x := by
  constructor
  · intro h
    rw [← h, norm_toNat]
    exact Nat.mod_lt _ (Nat.two_pow_pos _)
  · intro h
    exact BitVec.eq_of_toNat_eq (by rw [norm_toNat, Nat.mod_eq_of_lt h])

theorem norm_and_left {x : Xlen} {a : Word} (b : Word) (h : norm x a = a) : norm x (a &&& b) = a &&& b :=
  word_ext fun i => by
    have hi : (norm x a).getLsbD i = a.getLsbD i := by rw [h]
    rw [getLsbD_norm] at hi
    simp only [getLsbD_norm, BitVec.getLsbD_and]
    cases h1 : decide (i < xlenBits x) <;> simp_all

theorem norm_or {x : Xlen} {a b : Word} (ha : norm x a = a) (hb : norm x b = b) : norm x (a ||| b) = a ||| b :=
  word_ext fun i => by
    have h1 : (norm x a).getLsbD i = a.getLsbD i := by rw [ha]
    have h2 : (norm x b).getLsbD i = b.getLsbD i := by rw [hb]
    rw [getLsbD_norm] at h1 h2
    simp only [getLsbD_norm, BitVec.getLsbD_or]
    cases h3 : decide (i < xlenBits x) <;> simp_all

theorem norm_and_comm {x : Xlen} {b : Word} (a : Word) (h : norm x b = b) : norm x (a &&& b) = a &&& b := by
  rw [BitVec.and_comm]; exact norm_and_left a h

/-- `norm` keeps a bit below 32. -/
theorem getLsbD_norm_low (x : Xlen) (v : Word) {i : Nat} (h : i < 32) : (norm x v).getLsbD i = v.getLsbD i := by
  have hx : i < xlenBits x := by cases x <;> simp only [xlenBits] <;> omega
  rw [getLsbD_norm, decide_eq_true hx, Bool.true_and]

/-- Bit 0 is the parity. -/
theorem getLsbD_zero (v : Word) : v.getLsbD 0 = decide (v.toNat % 2 = 1) := by
  rw [BitVec.getLsbD, Nat.testBit_zero]

/-- A sum of even words is even. -/
theorem even_add {a b : Word} (ha : a.getLsbD 0 = false) (hb : b.getLsbD 0 = false) : (a + b).getLsbD 0 = false := by
  rw [getLsbD_zero, decide_eq_false_iff_not] at *
  rw [BitVec.toNat_add]
  omega

/-- A register reads an XLEN-bit value. -/
@[simp] theorem State.norm_readX (s : State) (r : Reg) : norm s.xlen (s.readX r) = s.readX r := by
  unfold State.readX
  split
  · cases s.xlen <;> rfl
  · exact norm_norm _ _

@[simp] theorem State.norm_npc (s : State) (i : Instr) : norm s.xlen (s.npc i) = s.npc i := norm_norm _ _

@[simp] theorem State.norm_ea (s : State) (r : Reg) (imm : BitVec 12) : norm s.xlen (s.ea r imm) = s.ea r imm :=
  norm_norm _ _

end Sys2Proof.Machine
end

