-- ==== Sys2Proof/Laws/State.lean ====
section
/-! SUPPORT. One lemma per field per update of `State`: what the update makes of the field. -/

namespace Sys2Proof.Machine

open Sys2Proof

/-! ### writeX -/

@[simp] theorem State.writeX_xlen (s : State) (r : Reg) (v : Word) : (s.writeX r v).xlen = s.xlen := by unfold State.writeX; split <;> rfl
@[simp] theorem State.writeX_dramSize (s : State) (r : Reg) (v : Word) : (s.writeX r v).dramSize = s.dramSize := by unfold State.writeX; split <;> rfl
@[simp] theorem State.writeX_f (s : State) (r : Reg) (v : Word) : (s.writeX r v).f = s.f := by unfold State.writeX; split <;> rfl
@[simp] theorem State.writeX_pc (s : State) (r : Reg) (v : Word) : (s.writeX r v).pc = s.pc := by unfold State.writeX; split <;> rfl
@[simp] theorem State.writeX_priv (s : State) (r : Reg) (v : Word) : (s.writeX r v).priv = s.priv := by unfold State.writeX; split <;> rfl
@[simp] theorem State.writeX_mstatus (s : State) (r : Reg) (v : Word) : (s.writeX r v).mstatus = s.mstatus := by unfold State.writeX; split <;> rfl
@[simp] theorem State.writeX_csr (s : State) (r : Reg) (v : Word) : (s.writeX r v).csr = s.csr := by unfold State.writeX; split <;> rfl
@[simp] theorem State.writeX_mcycle (s : State) (r : Reg) (v : Word) : (s.writeX r v).mcycle = s.mcycle := by unfold State.writeX; split <;> rfl
@[simp] theorem State.writeX_minstret (s : State) (r : Reg) (v : Word) : (s.writeX r v).minstret = s.minstret := by unfold State.writeX; split <;> rfl
@[simp] theorem State.writeX_eip0 (s : State) (r : Reg) (v : Word) : (s.writeX r v).eip0 = s.eip0 := by unfold State.writeX; split <;> rfl
@[simp] theorem State.writeX_eip1 (s : State) (r : Reg) (v : Word) : (s.writeX r v).eip1 = s.eip1 := by unfold State.writeX; split <;> rfl
@[simp] theorem State.writeX_resv (s : State) (r : Reg) (v : Word) : (s.writeX r v).resv = s.resv := by unfold State.writeX; split <;> rfl
@[simp] theorem State.writeX_tlb (s : State) (r : Reg) (v : Word) : (s.writeX r v).tlb = s.tlb := by unfold State.writeX; split <;> rfl
@[simp] theorem State.writeX_tlbDraws (s : State) (r : Reg) (v : Word) : (s.writeX r v).tlbDraws = s.tlbDraws := by unfold State.writeX; split <;> rfl
@[simp] theorem State.writeX_tlbDrawn (s : State) (r : Reg) (v : Word) : (s.writeX r v).tlbDrawn = s.tlbDrawn := by unfold State.writeX; split <;> rfl
@[simp] theorem State.writeX_dram (s : State) (r : Reg) (v : Word) : (s.writeX r v).dram = s.dram := by unfold State.writeX; split <;> rfl
@[simp] theorem State.writeX_clint (s : State) (r : Reg) (v : Word) : (s.writeX r v).clint = s.clint := by unfold State.writeX; split <;> rfl
@[simp] theorem State.writeX_plic (s : State) (r : Reg) (v : Word) : (s.writeX r v).plic = s.plic := by unfold State.writeX; split <;> rfl
@[simp] theorem State.writeX_uart (s : State) (r : Reg) (v : Word) : (s.writeX r v).uart = s.uart := by unfold State.writeX; split <;> rfl
@[simp] theorem State.writeX_virtio (s : State) (r : Reg) (v : Word) : (s.writeX r v).virtio = s.virtio := by unfold State.writeX; split <;> rfl
@[simp] theorem State.writeX_disk (s : State) (r : Reg) (v : Word) : (s.writeX r v).disk = s.disk := by unfold State.writeX; split <;> rfl
@[simp] theorem State.writeX_ttyIn (s : State) (r : Reg) (v : Word) : (s.writeX r v).ttyIn = s.ttyIn := by unfold State.writeX; split <;> rfl
@[simp] theorem State.writeX_ttyOut (s : State) (r : Reg) (v : Word) : (s.writeX r v).ttyOut = s.ttyOut := by unfold State.writeX; split <;> rfl
@[simp] theorem State.writeX_tohost (s : State) (r : Reg) (v : Word) : (s.writeX r v).tohost = s.tohost := by unfold State.writeX; split <;> rfl
@[simp] theorem State.writeX_fatal (s : State) (r : Reg) (v : Word) : (s.writeX r v).fatal = s.fatal := by unfold State.writeX; split <;> rfl
@[simp] theorem State.writeX_refused (s : State) (r : Reg) (v : Word) : (s.writeX r v).refused = s.refused := by unfold State.writeX; split <;> rfl

/-! ### writeF -/

@[simp] theorem State.writeF_xlen (s : State) (r : Reg) (v : BitVec 64) : (s.writeF r v).xlen = s.xlen := rfl
@[simp] theorem State.writeF_dramSize (s : State) (r : Reg) (v : BitVec 64) : (s.writeF r v).dramSize = s.dramSize := rfl
@[simp] theorem State.writeF_x (s : State) (r : Reg) (v : BitVec 64) : (s.writeF r v).x = s.x := rfl
@[simp] theorem State.writeF_f (s : State) (r : Reg) (v : BitVec 64) : (s.writeF r v).f = s.f.set r.toNat v r.isLt := rfl
@[simp] theorem State.writeF_pc (s : State) (r : Reg) (v : BitVec 64) : (s.writeF r v).pc = s.pc := rfl
@[simp] theorem State.writeF_priv (s : State) (r : Reg) (v : BitVec 64) : (s.writeF r v).priv = s.priv := rfl
@[simp] theorem State.writeF_mstatus (s : State) (r : Reg) (v : BitVec 64) : (s.writeF r v).mstatus = s.mstatus := rfl
@[simp] theorem State.writeF_csr (s : State) (r : Reg) (v : BitVec 64) : (s.writeF r v).csr = s.csr := rfl
@[simp] theorem State.writeF_mcycle (s : State) (r : Reg) (v : BitVec 64) : (s.writeF r v).mcycle = s.mcycle := rfl
@[simp] theorem State.writeF_minstret (s : State) (r : Reg) (v : BitVec 64) : (s.writeF r v).minstret = s.minstret := rfl
@[simp] theorem State.writeF_eip0 (s : State) (r : Reg) (v : BitVec 64) : (s.writeF r v).eip0 = s.eip0 := rfl
@[simp] theorem State.writeF_eip1 (s : State) (r : Reg) (v : BitVec 64) : (s.writeF r v).eip1 = s.eip1 := rfl
@[simp] theorem State.writeF_resv (s : State) (r : Reg) (v : BitVec 64) : (s.writeF r v).resv = s.resv := rfl
@[simp] theorem State.writeF_tlb (s : State) (r : Reg) (v : BitVec 64) : (s.writeF r v).tlb = s.tlb := rfl
@[simp] theorem State.writeF_tlbDraws (s : State) (r : Reg) (v : BitVec 64) : (s.writeF r v).tlbDraws = s.tlbDraws := rfl
@[simp] theorem State.writeF_tlbDrawn (s : State) (r : Reg) (v : BitVec 64) : (s.writeF r v).tlbDrawn = s.tlbDrawn := rfl
@[simp] theorem State.writeF_dram (s : State) (r : Reg) (v : BitVec 64) : (s.writeF r v).dram = s.dram := rfl
@[simp] theorem State.writeF_clint (s : State) (r : Reg) (v : BitVec 64) : (s.writeF r v).clint = s.clint := rfl
@[simp] theorem State.writeF_plic (s : State) (r : Reg) (v : BitVec 64) : (s.writeF r v).plic = s.plic := rfl
@[simp] theorem State.writeF_uart (s : State) (r : Reg) (v : BitVec 64) : (s.writeF r v).uart = s.uart := rfl
@[simp] theorem State.writeF_virtio (s : State) (r : Reg) (v : BitVec 64) : (s.writeF r v).virtio = s.virtio := rfl
@[simp] theorem State.writeF_disk (s : State) (r : Reg) (v : BitVec 64) : (s.writeF r v).disk = s.disk := rfl
@[simp] theorem State.writeF_ttyIn (s : State) (r : Reg) (v : BitVec 64) : (s.writeF r v).ttyIn = s.ttyIn := rfl
@[simp] theorem State.writeF_ttyOut (s : State) (r : Reg) (v : BitVec 64) : (s.writeF r v).ttyOut = s.ttyOut := rfl
@[simp] theorem State.writeF_tohost (s : State) (r : Reg) (v : BitVec 64) : (s.writeF r v).tohost = s.tohost := rfl
@[simp] theorem State.writeF_fatal (s : State) (r : Reg) (v : BitVec 64) : (s.writeF r v).fatal = s.fatal := rfl
@[simp] theorem State.writeF_refused (s : State) (r : Reg) (v : BitVec 64) : (s.writeF r v).refused = s.refused := rfl

/-! ### setFsDirty -/

@[simp] theorem State.setFsDirty_xlen (s : State) : (s.setFsDirty).xlen = s.xlen := rfl
@[simp] theorem State.setFsDirty_dramSize (s : State) : (s.setFsDirty).dramSize = s.dramSize := rfl
@[simp] theorem State.setFsDirty_x (s : State) : (s.setFsDirty).x = s.x := rfl
@[simp] theorem State.setFsDirty_f (s : State) : (s.setFsDirty).f = s.f := rfl
@[simp] theorem State.setFsDirty_pc (s : State) : (s.setFsDirty).pc = s.pc := rfl
@[simp] theorem State.setFsDirty_priv (s : State) : (s.setFsDirty).priv = s.priv := rfl
@[simp] theorem State.setFsDirty_mstatus (s : State) : (s.setFsDirty).mstatus = { s.mstatus with fs := 3 } := rfl
@[simp] theorem State.setFsDirty_csr (s : State) : (s.setFsDirty).csr = s.csr := rfl
@[simp] theorem State.setFsDirty_mcycle (s : State) : (s.setFsDirty).mcycle = s.mcycle := rfl
@[simp] theorem State.setFsDirty_minstret (s : State) : (s.setFsDirty).minstret = s.minstret := rfl
@[simp] theorem State.setFsDirty_eip0 (s : State) : (s.setFsDirty).eip0 = s.eip0 := rfl
@[simp] theorem State.setFsDirty_eip1 (s : State) : (s.setFsDirty).eip1 = s.eip1 := rfl
@[simp] theorem State.setFsDirty_resv (s : State) : (s.setFsDirty).resv = s.resv := rfl
@[simp] theorem State.setFsDirty_tlb (s : State) : (s.setFsDirty).tlb = s.tlb := rfl
@[simp] theorem State.setFsDirty_tlbDraws (s : State) : (s.setFsDirty).tlbDraws = s.tlbDraws := rfl
@[simp] theorem State.setFsDirty_tlbDrawn (s : State) : (s.setFsDirty).tlbDrawn = s.tlbDrawn := rfl
@[simp] theorem State.setFsDirty_dram (s : State) : (s.setFsDirty).dram = s.dram := rfl
@[simp] theorem State.setFsDirty_clint (s : State) : (s.setFsDirty).clint = s.clint := rfl
@[simp] theorem State.setFsDirty_plic (s : State) : (s.setFsDirty).plic = s.plic := rfl
@[simp] theorem State.setFsDirty_uart (s : State) : (s.setFsDirty).uart = s.uart := rfl
@[simp] theorem State.setFsDirty_virtio (s : State) : (s.setFsDirty).virtio = s.virtio := rfl
@[simp] theorem State.setFsDirty_disk (s : State) : (s.setFsDirty).disk = s.disk := rfl
@[simp] theorem State.setFsDirty_ttyIn (s : State) : (s.setFsDirty).ttyIn = s.ttyIn := rfl
@[simp] theorem State.setFsDirty_ttyOut (s : State) : (s.setFsDirty).ttyOut = s.ttyOut := rfl
@[simp] theorem State.setFsDirty_tohost (s : State) : (s.setFsDirty).tohost = s.tohost := rfl
@[simp] theorem State.setFsDirty_fatal (s : State) : (s.setFsDirty).fatal = s.fatal := rfl
@[simp] theorem State.setFsDirty_refused (s : State) : (s.setFsDirty).refused = s.refused := rfl

/-! ### countCycle -/

@[simp] theorem State.countCycle_xlen (s : State) : (s.countCycle).xlen = s.xlen := rfl
@[simp] theorem State.countCycle_dramSize (s : State) : (s.countCycle).dramSize = s.dramSize := rfl
@[simp] theorem State.countCycle_x (s : State) : (s.countCycle).x = s.x := rfl
@[simp] theorem State.countCycle_f (s : State) : (s.countCycle).f = s.f := rfl
@[simp] theorem State.countCycle_pc (s : State) : (s.countCycle).pc = s.pc := rfl
@[simp] theorem State.countCycle_priv (s : State) : (s.countCycle).priv = s.priv := rfl
@[simp] theorem State.countCycle_mstatus (s : State) : (s.countCycle).mstatus = s.mstatus := rfl
@[simp] theorem State.countCycle_csr (s : State) : (s.countCycle).csr = s.csr := rfl
@[simp] theorem State.countCycle_mcycle (s : State) : (s.countCycle).mcycle = s.mcycle + 1 := rfl
@[simp] theorem State.countCycle_minstret (s : State) : (s.countCycle).minstret = s.minstret := rfl
@[simp] theorem State.countCycle_eip0 (s : State) : (s.countCycle).eip0 = s.eip0 := rfl
@[simp] theorem State.countCycle_eip1 (s : State) : (s.countCycle).eip1 = s.eip1 := rfl
@[simp] theorem State.countCycle_resv (s : State) : (s.countCycle).resv = s.resv := rfl
@[simp] theorem State.countCycle_tlb (s : State) : (s.countCycle).tlb = s.tlb := rfl
@[simp] theorem State.countCycle_tlbDraws (s : State) : (s.countCycle).tlbDraws = s.tlbDraws := rfl
@[simp] theorem State.countCycle_tlbDrawn (s : State) : (s.countCycle).tlbDrawn = s.tlbDrawn := rfl
@[simp] theorem State.countCycle_dram (s : State) : (s.countCycle).dram = s.dram := rfl
@[simp] theorem State.countCycle_clint (s : State) : (s.countCycle).clint = s.clint := rfl
@[simp] theorem State.countCycle_plic (s : State) : (s.countCycle).plic = s.plic := rfl
@[simp] theorem State.countCycle_uart (s : State) : (s.countCycle).uart = s.uart := rfl
@[simp] theorem State.countCycle_virtio (s : State) : (s.countCycle).virtio = s.virtio := rfl
@[simp] theorem State.countCycle_disk (s : State) : (s.countCycle).disk = s.disk := rfl
@[simp] theorem State.countCycle_ttyIn (s : State) : (s.countCycle).ttyIn = s.ttyIn := rfl
@[simp] theorem State.countCycle_ttyOut (s : State) : (s.countCycle).ttyOut = s.ttyOut := rfl
@[simp] theorem State.countCycle_tohost (s : State) : (s.countCycle).tohost = s.tohost := rfl
@[simp] theorem State.countCycle_fatal (s : State) : (s.countCycle).fatal = s.fatal := rfl
@[simp] theorem State.countCycle_refused (s : State) : (s.countCycle).refused = s.refused := rfl

/-! ### countRetired -/

@[simp] theorem State.countRetired_xlen (s : State) : (s.countRetired).xlen = s.xlen := rfl
@[simp] theorem State.countRetired_dramSize (s : State) : (s.countRetired).dramSize = s.dramSize := rfl
@[simp] theorem State.countRetired_x (s : State) : (s.countRetired).x = s.x := rfl
@[simp] theorem State.countRetired_f (s : State) : (s.countRetired).f = s.f := rfl
@[simp] theorem State.countRetired_pc (s : State) : (s.countRetired).pc = s.pc := rfl
@[simp] theorem State.countRetired_priv (s : State) : (s.countRetired).priv = s.priv := rfl
@[simp] theorem State.countRetired_mstatus (s : State) : (s.countRetired).mstatus = s.mstatus := rfl
@[simp] theorem State.countRetired_csr (s : State) : (s.countRetired).csr = s.csr := rfl
@[simp] theorem State.countRetired_mcycle (s : State) : (s.countRetired).mcycle = s.mcycle + 1 := rfl
@[simp] theorem State.countRetired_minstret (s : State) : (s.countRetired).minstret = s.minstret + 1 := rfl
@[simp] theorem State.countRetired_eip0 (s : State) : (s.countRetired).eip0 = s.eip0 := rfl
@[simp] theorem State.countRetired_eip1 (s : State) : (s.countRetired).eip1 = s.eip1 := rfl
@[simp] theorem State.countRetired_resv (s : State) : (s.countRetired).resv = s.resv := rfl
@[simp] theorem State.countRetired_tlb (s : State) : (s.countRetired).tlb = s.tlb := rfl
@[simp] theorem State.countRetired_tlbDraws (s : State) : (s.countRetired).tlbDraws = s.tlbDraws := rfl
@[simp] theorem State.countRetired_tlbDrawn (s : State) : (s.countRetired).tlbDrawn = s.tlbDrawn := rfl
@[simp] theorem State.countRetired_dram (s : State) : (s.countRetired).dram = s.dram := rfl
@[simp] theorem State.countRetired_clint (s : State) : (s.countRetired).clint = s.clint := rfl
@[simp] theorem State.countRetired_plic (s : State) : (s.countRetired).plic = s.plic := rfl
@[simp] theorem State.countRetired_uart (s : State) : (s.countRetired).uart = s.uart := rfl
@[simp] theorem State.countRetired_virtio (s : State) : (s.countRetired).virtio = s.virtio := rfl
@[simp] theorem State.countRetired_disk (s : State) : (s.countRetired).disk = s.disk := rfl
@[simp] theorem State.countRetired_ttyIn (s : State) : (s.countRetired).ttyIn = s.ttyIn := rfl
@[simp] theorem State.countRetired_ttyOut (s : State) : (s.countRetired).ttyOut = s.ttyOut := rfl
@[simp] theorem State.countRetired_tohost (s : State) : (s.countRetired).tohost = s.tohost := rfl
@[simp] theorem State.countRetired_fatal (s : State) : (s.countRetired).fatal = s.fatal := rfl
@[simp] theorem State.countRetired_refused (s : State) : (s.countRetired).refused = s.refused := rfl

/-! ### retireAt -/

@[simp] theorem State.retireAt_xlen (s : State) (t : Word) : (s.retireAt t).xlen = s.xlen := rfl
@[simp] theorem State.retireAt_dramSize (s : State) (t : Word) : (s.retireAt t).dramSize = s.dramSize := rfl
@[simp] theorem State.retireAt_x (s : State) (t : Word) : (s.retireAt t).x = s.x := rfl
@[simp] theorem State.retireAt_f (s : State) (t : Word) : (s.retireAt t).f = s.f := rfl
@[simp] theorem State.retireAt_pc (s : State) (t : Word) : (s.retireAt t).pc = norm s.xlen t := rfl
@[simp] theorem State.retireAt_priv (s : State) (t : Word) : (s.retireAt t).priv = s.priv := rfl
@[simp] theorem State.retireAt_mstatus (s : State) (t : Word) : (s.retireAt t).mstatus = s.mstatus := rfl
@[simp] theorem State.retireAt_csr (s : State) (t : Word) : (s.retireAt t).csr = s.csr := rfl
@[simp] theorem State.retireAt_mcycle (s : State) (t : Word) : (s.retireAt t).mcycle = s.mcycle + 1 := rfl
@[simp] theorem State.retireAt_minstret (s : State) (t : Word) : (s.retireAt t).minstret = s.minstret + 1 := rfl
@[simp] theorem State.retireAt_eip0 (s : State) (t : Word) : (s.retireAt t).eip0 = s.eip0 := rfl
@[simp] theorem State.retireAt_eip1 (s : State) (t : Word) : (s.retireAt t).eip1 = s.eip1 := rfl
@[simp] theorem State.retireAt_resv (s : State) (t : Word) : (s.retireAt t).resv = s.resv := rfl
@[simp] theorem State.retireAt_tlb (s : State) (t : Word) : (s.retireAt t).tlb = s.tlb := rfl
@[simp] theorem State.retireAt_tlbDraws (s : State) (t : Word) : (s.retireAt t).tlbDraws = s.tlbDraws := rfl
@[simp] theorem State.retireAt_tlbDrawn (s : State) (t : Word) : (s.retireAt t).tlbDrawn = s.tlbDrawn := rfl
@[simp] theorem State.retireAt_dram (s : State) (t : Word) : (s.retireAt t).dram = s.dram := rfl
@[simp] theorem State.retireAt_clint (s : State) (t : Word) : (s.retireAt t).clint = s.clint := rfl
@[simp] theorem State.retireAt_plic (s : State) (t : Word) : (s.retireAt t).plic = s.plic := rfl
@[simp] theorem State.retireAt_uart (s : State) (t : Word) : (s.retireAt t).uart = s.uart := rfl
@[simp] theorem State.retireAt_virtio (s : State) (t : Word) : (s.retireAt t).virtio = s.virtio := rfl
@[simp] theorem State.retireAt_disk (s : State) (t : Word) : (s.retireAt t).disk = s.disk := rfl
@[simp] theorem State.retireAt_ttyIn (s : State) (t : Word) : (s.retireAt t).ttyIn = s.ttyIn := rfl
@[simp] theorem State.retireAt_ttyOut (s : State) (t : Word) : (s.retireAt t).ttyOut = s.ttyOut := rfl
@[simp] theorem State.retireAt_tohost (s : State) (t : Word) : (s.retireAt t).tohost = s.tohost := rfl
@[simp] theorem State.retireAt_fatal (s : State) (t : Word) : (s.retireAt t).fatal = s.fatal := rfl
@[simp] theorem State.retireAt_refused (s : State) (t : Word) : (s.retireAt t).refused = s.refused := rfl

/-! ### retire -/

@[simp] theorem State.retire_xlen (s : State) (i : Instr) : (s.retire i).xlen = s.xlen := rfl
@[simp] theorem State.retire_dramSize (s : State) (i : Instr) : (s.retire i).dramSize = s.dramSize := rfl
@[simp] theorem State.retire_x (s : State) (i : Instr) : (s.retire i).x = s.x := rfl
@[simp] theorem State.retire_f (s : State) (i : Instr) : (s.retire i).f = s.f := rfl
@[simp] theorem State.retire_pc (s : State) (i : Instr) : (s.retire i).pc = s.npc i := norm_norm _ _
@[simp] theorem State.retire_priv (s : State) (i : Instr) : (s.retire i).priv = s.priv := rfl
@[simp] theorem State.retire_mstatus (s : State) (i : Instr) : (s.retire i).mstatus = s.mstatus := rfl
@[simp] theorem State.retire_csr (s : State) (i : Instr) : (s.retire i).csr = s.csr := rfl
@[simp] theorem State.retire_mcycle (s : State) (i : Instr) : (s.retire i).mcycle = s.mcycle + 1 := rfl
@[simp] theorem State.retire_minstret (s : State) (i : Instr) : (s.retire i).minstret = s.minstret + 1 := rfl
@[simp] theorem State.retire_eip0 (s : State) (i : Instr) : (s.retire i).eip0 = s.eip0 := rfl
@[simp] theorem State.retire_eip1 (s : State) (i : Instr) : (s.retire i).eip1 = s.eip1 := rfl
@[simp] theorem State.retire_resv (s : State) (i : Instr) : (s.retire i).resv = s.resv := rfl
@[simp] theorem State.retire_tlb (s : State) (i : Instr) : (s.retire i).tlb = s.tlb := rfl
@[simp] theorem State.retire_tlbDraws (s : State) (i : Instr) : (s.retire i).tlbDraws = s.tlbDraws := rfl
@[simp] theorem State.retire_tlbDrawn (s : State) (i : Instr) : (s.retire i).tlbDrawn = s.tlbDrawn := rfl
@[simp] theorem State.retire_dram (s : State) (i : Instr) : (s.retire i).dram = s.dram := rfl
@[simp] theorem State.retire_clint (s : State) (i : Instr) : (s.retire i).clint = s.clint := rfl
@[simp] theorem State.retire_plic (s : State) (i : Instr) : (s.retire i).plic = s.plic := rfl
@[simp] theorem State.retire_uart (s : State) (i : Instr) : (s.retire i).uart = s.uart := rfl
@[simp] theorem State.retire_virtio (s : State) (i : Instr) : (s.retire i).virtio = s.virtio := rfl
@[simp] theorem State.retire_disk (s : State) (i : Instr) : (s.retire i).disk = s.disk := rfl
@[simp] theorem State.retire_ttyIn (s : State) (i : Instr) : (s.retire i).ttyIn = s.ttyIn := rfl
@[simp] theorem State.retire_ttyOut (s : State) (i : Instr) : (s.retire i).ttyOut = s.ttyOut := rfl
@[simp] theorem State.retire_tohost (s : State) (i : Instr) : (s.retire i).tohost = s.tohost := rfl
@[simp] theorem State.retire_fatal (s : State) (i : Instr) : (s.retire i).fatal = s.fatal := rfl
@[simp] theorem State.retire_refused (s : State) (i : Instr) : (s.retire i).refused = s.refused := rfl

/-! ### dropResv -/

@[simp] theorem State.dropResv_xlen (s : State) : (s.dropResv).xlen = s.xlen := rfl
@[simp] theorem State.dropResv_dramSize (s : State) : (s.dropResv).dramSize = s.dramSize := rfl
@[simp] theorem State.dropResv_x (s : State) : (s.dropResv).x = s.x := rfl
@[simp] theorem State.dropResv_f (s : State) : (s.dropResv).f = s.f := rfl
@[simp] theorem State.dropResv_pc (s : State) : (s.dropResv).pc = s.pc := rfl
@[simp] theorem State.dropResv_priv (s : State) : (s.dropResv).priv = s.priv := rfl
@[simp] theorem State.dropResv_mstatus (s : State) : (s.dropResv).mstatus = s.mstatus := rfl
@[simp] theorem State.dropResv_csr (s : State) : (s.dropResv).csr = s.csr := rfl
@[simp] theorem State.dropResv_mcycle (s : State) : (s.dropResv).mcycle = s.mcycle := rfl
@[simp] theorem State.dropResv_minstret (s : State) : (s.dropResv).minstret = s.minstret := rfl
@[simp] theorem State.dropResv_eip0 (s : State) : (s.dropResv).eip0 = s.eip0 := rfl
@[simp] theorem State.dropResv_eip1 (s : State) : (s.dropResv).eip1 = s.eip1 := rfl
@[simp] theorem State.dropResv_resv (s : State) : (s.dropResv).resv = none := rfl
@[simp] theorem State.dropResv_tlb (s : State) : (s.dropResv).tlb = s.tlb := rfl
@[simp] theorem State.dropResv_tlbDraws (s : State) : (s.dropResv).tlbDraws = s.tlbDraws := rfl
@[simp] theorem State.dropResv_tlbDrawn (s : State) : (s.dropResv).tlbDrawn = s.tlbDrawn := rfl
@[simp] theorem State.dropResv_dram (s : State) : (s.dropResv).dram = s.dram := rfl
@[simp] theorem State.dropResv_clint (s : State) : (s.dropResv).clint = s.clint := rfl
@[simp] theorem State.dropResv_plic (s : State) : (s.dropResv).plic = s.plic := rfl
@[simp] theorem State.dropResv_uart (s : State) : (s.dropResv).uart = s.uart := rfl
@[simp] theorem State.dropResv_virtio (s : State) : (s.dropResv).virtio = s.virtio := rfl
@[simp] theorem State.dropResv_disk (s : State) : (s.dropResv).disk = s.disk := rfl
@[simp] theorem State.dropResv_ttyIn (s : State) : (s.dropResv).ttyIn = s.ttyIn := rfl
@[simp] theorem State.dropResv_ttyOut (s : State) : (s.dropResv).ttyOut = s.ttyOut := rfl
@[simp] theorem State.dropResv_tohost (s : State) : (s.dropResv).tohost = s.tohost := rfl
@[simp] theorem State.dropResv_fatal (s : State) : (s.dropResv).fatal = s.fatal := rfl
@[simp] theorem State.dropResv_refused (s : State) : (s.dropResv).refused = s.refused := rfl

/-! ### setCsr -/

@[simp] theorem State.setCsr_xlen (s : State) (g : Csrs → Csrs) : (s.setCsr g).xlen = s.xlen := rfl
@[simp] theorem State.setCsr_dramSize (s : State) (g : Csrs → Csrs) : (s.setCsr g).dramSize = s.dramSize := rfl
@[simp] theorem State.setCsr_x (s : State) (g : Csrs → Csrs) : (s.setCsr g).x = s.x := rfl
@[simp] theorem State.setCsr_f (s : State) (g : Csrs → Csrs) : (s.setCsr g).f = s.f := rfl
@[simp] theorem State.setCsr_pc (s : State) (g : Csrs → Csrs) : (s.setCsr g).pc = s.pc := rfl
@[simp] theorem State.setCsr_priv (s : State) (g : Csrs → Csrs) : (s.setCsr g).priv = s.priv := rfl
@[simp] theorem State.setCsr_mstatus (s : State) (g : Csrs → Csrs) : (s.setCsr g).mstatus = s.mstatus := rfl
@[simp] theorem State.setCsr_csr (s : State) (g : Csrs → Csrs) : (s.setCsr g).csr = g s.csr := rfl
@[simp] theorem State.setCsr_mcycle (s : State) (g : Csrs → Csrs) : (s.setCsr g).mcycle = s.mcycle := rfl
@[simp] theorem State.setCsr_minstret (s : State) (g : Csrs → Csrs) : (s.setCsr g).minstret = s.minstret := rfl
@[simp] theorem State.setCsr_eip0 (s : State) (g : Csrs → Csrs) : (s.setCsr g).eip0 = s.eip0 := rfl
@[simp] theorem State.setCsr_eip1 (s : State) (g : Csrs → Csrs) : (s.setCsr g).eip1 = s.eip1 := rfl
@[simp] theorem State.setCsr_resv (s : State) (g : Csrs → Csrs) : (s.setCsr g).resv = s.resv := rfl
@[simp] theorem State.setCsr_tlb (s : State) (g : Csrs → Csrs) : (s.setCsr g).tlb = s.tlb := rfl
@[simp] theorem State.setCsr_tlbDraws (s : State) (g : Csrs → Csrs) : (s.setCsr g).tlbDraws = s.tlbDraws := rfl
@[simp] theorem State.setCsr_tlbDrawn (s : State) (g : Csrs → Csrs) : (s.setCsr g).tlbDrawn = s.tlbDrawn := rfl
@[simp] theorem State.setCsr_dram (s : State) (g : Csrs → Csrs) : (s.setCsr g).dram = s.dram := rfl
@[simp] theorem State.setCsr_clint (s : State) (g : Csrs → Csrs) : (s.setCsr g).clint = s.clint := rfl
@[simp] theorem State.setCsr_plic (s : State) (g : Csrs → Csrs) : (s.setCsr g).plic = s.plic := rfl
@[simp] theorem State.setCsr_uart (s : State) (g : Csrs → Csrs) : (s.setCsr g).uart = s.uart := rfl
@[simp] theorem State.setCsr_virtio (s : State) (g : Csrs → Csrs) : (s.setCsr g).virtio = s.virtio := rfl
@[simp] theorem State.setCsr_disk (s : State) (g : Csrs → Csrs) : (s.setCsr g).disk = s.disk := rfl
@[simp] theorem State.setCsr_ttyIn (s : State) (g : Csrs → Csrs) : (s.setCsr g).ttyIn = s.ttyIn := rfl
@[simp] theorem State.setCsr_ttyOut (s : State) (g : Csrs → Csrs) : (s.setCsr g).ttyOut = s.ttyOut := rfl
@[simp] theorem State.setCsr_tohost (s : State) (g : Csrs → Csrs) : (s.setCsr g).tohost = s.tohost := rfl
@[simp] theorem State.setCsr_fatal (s : State) (g : Csrs → Csrs) : (s.setCsr g).fatal = s.fatal := rfl
@[simp] theorem State.setCsr_refused (s : State) (g : Csrs → Csrs) : (s.setCsr g).refused = s.refused := rfl

/-! ### ttyPut -/

@[simp] theorem State.ttyPut_xlen (s : State) (b : Byte) : (s.ttyPut b).xlen = s.xlen := rfl
@[simp] theorem State.ttyPut_dramSize (s : State) (b : Byte) : (s.ttyPut b).dramSize = s.dramSize := rfl
@[simp] theorem State.ttyPut_x (s : State) (b : Byte) : (s.ttyPut b).x = s.x := rfl
@[simp] theorem State.ttyPut_f (s : State) (b : Byte) : (s.ttyPut b).f = s.f := rfl
@[simp] theorem State.ttyPut_pc (s : State) (b : Byte) : (s.ttyPut b).pc = s.pc := rfl
@[simp] theorem State.ttyPut_priv (s : State) (b : Byte) : (s.ttyPut b).priv = s.priv := rfl
@[simp] theorem State.ttyPut_mstatus (s : State) (b : Byte) : (s.ttyPut b).mstatus = s.mstatus := rfl
@[simp] theorem State.ttyPut_csr (s : State) (b : Byte) : (s.ttyPut b).csr = s.csr := rfl
@[simp] theorem State.ttyPut_mcycle (s : State) (b : Byte) : (s.ttyPut b).mcycle = s.mcycle := rfl
@[simp] theorem State.ttyPut_minstret (s : State) (b : Byte) : (s.ttyPut b).minstret = s.minstret := rfl
@[simp] theorem State.ttyPut_eip0 (s : State) (b : Byte) : (s.ttyPut b).eip0 = s.eip0 := rfl
@[simp] theorem State.ttyPut_eip1 (s : State) (b : Byte) : (s.ttyPut b).eip1 = s.eip1 := rfl
@[simp] theorem State.ttyPut_resv (s : State) (b : Byte) : (s.ttyPut b).resv = s.resv := rfl
@[simp] theorem State.ttyPut_tlb (s : State) (b : Byte) : (s.ttyPut b).tlb = s.tlb := rfl
@[simp] theorem State.ttyPut_tlbDraws (s : State) (b : Byte) : (s.ttyPut b).tlbDraws = s.tlbDraws := rfl
@[simp] theorem State.ttyPut_tlbDrawn (s : State) (b : Byte) : (s.ttyPut b).tlbDrawn = s.tlbDrawn := rfl
@[simp] theorem State.ttyPut_dram (s : State) (b : Byte) : (s.ttyPut b).dram = s.dram := rfl
@[simp] theorem State.ttyPut_clint (s : State) (b : Byte) : (s.ttyPut b).clint = s.clint := rfl
@[simp] theorem State.ttyPut_plic (s : State) (b : Byte) : (s.ttyPut b).plic = s.plic := rfl
@[simp] theorem State.ttyPut_uart (s : State) (b : Byte) : (s.ttyPut b).uart = s.uart := rfl
@[simp] theorem State.ttyPut_virtio (s : State) (b : Byte) : (s.ttyPut b).virtio = s.virtio := rfl
@[simp] theorem State.ttyPut_disk (s : State) (b : Byte) : (s.ttyPut b).disk = s.disk := rfl
@[simp] theorem State.ttyPut_ttyIn (s : State) (b : Byte) : (s.ttyPut b).ttyIn = s.ttyIn := rfl
@[simp] theorem State.ttyPut_ttyOut (s : State) (b : Byte) : (s.ttyPut b).ttyOut = s.ttyOut ++ [b] := rfl
@[simp] theorem State.ttyPut_tohost (s : State) (b : Byte) : (s.ttyPut b).tohost = s.tohost := rfl
@[simp] theorem State.ttyPut_fatal (s : State) (b : Byte) : (s.ttyPut b).fatal = s.fatal := rfl
@[simp] theorem State.ttyPut_refused (s : State) (b : Byte) : (s.ttyPut b).refused = s.refused := rfl

/-! ### sfence -/

@[simp] theorem State.sfence_xlen (s : State) (r1 r2 : Reg) : (s.sfence r1 r2).xlen = s.xlen := rfl
@[simp] theorem State.sfence_dramSize (s : State) (r1 r2 : Reg) : (s.sfence r1 r2).dramSize = s.dramSize := rfl
@[simp] theorem State.sfence_x (s : State) (r1 r2 : Reg) : (s.sfence r1 r2).x = s.x := rfl
@[simp] theorem State.sfence_f (s : State) (r1 r2 : Reg) : (s.sfence r1 r2).f = s.f := rfl
@[simp] theorem State.sfence_pc (s : State) (r1 r2 : Reg) : (s.sfence r1 r2).pc = s.pc := rfl
@[simp] theorem State.sfence_priv (s : State) (r1 r2 : Reg) : (s.sfence r1 r2).priv = s.priv := rfl
@[simp] theorem State.sfence_mstatus (s : State) (r1 r2 : Reg) : (s.sfence r1 r2).mstatus = s.mstatus := rfl
@[simp] theorem State.sfence_csr (s : State) (r1 r2 : Reg) : (s.sfence r1 r2).csr = s.csr := rfl
@[simp] theorem State.sfence_mcycle (s : State) (r1 r2 : Reg) : (s.sfence r1 r2).mcycle = s.mcycle := rfl
@[simp] theorem State.sfence_minstret (s : State) (r1 r2 : Reg) : (s.sfence r1 r2).minstret = s.minstret := rfl
@[simp] theorem State.sfence_eip0 (s : State) (r1 r2 : Reg) : (s.sfence r1 r2).eip0 = s.eip0 := rfl
@[simp] theorem State.sfence_eip1 (s : State) (r1 r2 : Reg) : (s.sfence r1 r2).eip1 = s.eip1 := rfl
@[simp] theorem State.sfence_resv (s : State) (r1 r2 : Reg) : (s.sfence r1 r2).resv = s.resv := rfl
@[simp] theorem State.sfence_tlbDraws (s : State) (r1 r2 : Reg) : (s.sfence r1 r2).tlbDraws = s.tlbDraws := rfl
@[simp] theorem State.sfence_tlbDrawn (s : State) (r1 r2 : Reg) : (s.sfence r1 r2).tlbDrawn = s.tlbDrawn := rfl
@[simp] theorem State.sfence_dram (s : State) (r1 r2 : Reg) : (s.sfence r1 r2).dram = s.dram := rfl
@[simp] theorem State.sfence_clint (s : State) (r1 r2 : Reg) : (s.sfence r1 r2).clint = s.clint := rfl
@[simp] theorem State.sfence_plic (s : State) (r1 r2 : Reg) : (s.sfence r1 r2).plic = s.plic := rfl
@[simp] theorem State.sfence_uart (s : State) (r1 r2 : Reg) : (s.sfence r1 r2).uart = s.uart := rfl
@[simp] theorem State.sfence_virtio (s : State) (r1 r2 : Reg) : (s.sfence r1 r2).virtio = s.virtio := rfl
@[simp] theorem State.sfence_disk (s : State) (r1 r2 : Reg) : (s.sfence r1 r2).disk = s.disk := rfl
@[simp] theorem State.sfence_ttyIn (s : State) (r1 r2 : Reg) : (s.sfence r1 r2).ttyIn = s.ttyIn := rfl
@[simp] theorem State.sfence_ttyOut (s : State) (r1 r2 : Reg) : (s.sfence r1 r2).ttyOut = s.ttyOut := rfl
@[simp] theorem State.sfence_tohost (s : State) (r1 r2 : Reg) : (s.sfence r1 r2).tohost = s.tohost := rfl
@[simp] theorem State.sfence_fatal (s : State) (r1 r2 : Reg) : (s.sfence r1 r2).fatal = s.fatal := rfl
@[simp] theorem State.sfence_refused (s : State) (r1 r2 : Reg) : (s.sfence r1 r2).refused = s.refused := rfl

/-! ### Registers after an update -/

/-- x0 reads 0 in every state (R51). -/
@[simp] theorem State.readX_zero (s : State) : s.readX 0#5 = 0 := by simp [State.readX]

theorem State.readX_of_x {s t : State} (hx : t.x = s.x) (hm : t.xlen = s.xlen) (r : Reg) : t.readX r = s.readX r := by
  simp [State.readX, hx, hm]

/-- A register other than the one written keeps its value. -/
theorem State.readX_writeX_ne (s : State) {r q : Reg} (v : Word) (h : q ≠ r) : (s.writeX r v).readX q = s.readX q := by
  unfold State.writeX
  split
  · rfl
  · have hn : r.toNat ≠ q.toNat := fun e => h (BitVec.eq_of_toNat_eq e.symm)
    simp [State.readX, Vector.getElem_set_ne, hn]

/-- A register other than x0 reads the XLEN-bit value written. -/
theorem State.readX_writeX_self (s : State) {r : Reg} (v : Word) (h : r ≠ 0#5) :
    (s.writeX r v).readX r = norm s.xlen v := by
  unfold State.writeX State.readX
  cases s.xlen <;> simp [h, norm]

/-- A write to x0 changes nothing (R51). -/
@[simp] theorem State.writeX_zero (s : State) (v : Word) : s.writeX 0#5 v = s := by simp [State.writeX]

@[simp] theorem State.readF_writeF_self (s : State) (r : Reg) (v : BitVec 64) : (s.writeF r v).readF r = v := by
  simp [State.readF, State.writeF]

theorem State.readF_writeF_ne (s : State) {r q : Reg} (v : BitVec 64) (h : q ≠ r) :
    (s.writeF r v).readF q = s.readF q := by
  have hn : r.toNat ≠ q.toNat := fun e => h (BitVec.eq_of_toNat_eq e.symm)
  simp [State.readF, State.writeF, Vector.getElem_set_ne, hn]

end Sys2Proof.Machine
end

