-- ==== Sys2Proof/Laws/Ops.lean ====
section
/-! SUPPORT. What the shared operations of a step can do: results that may trap, trap entry and return. -/

namespace Sys2Proof.Machine

open Sys2Proof

/-! ### Results -/

@[simp] theorem Res.bind_ok {α β : Type} (a : α) (s : State) (k : α → State → Res β) : (Res.ok a s).bind k = k a s := rfl
@[simp] theorem Res.bind_trap {α β : Type} (e : Exc) (t : Word) (s : State) (k : α → State → Res β) :
    (Res.trap e t s : Res α).bind k = .trap e t s := rfl
@[simp] theorem Res.bind_fatal {α β : Type} (f : Fault) (k : α → State → Res β) : (Res.fatal f : Res α).bind k = .fatal f := rfl

theorem Res.bind_eq_ok {α β : Type} {r : Res α} {k : α → State → Res β} {b : β} {t : State} (h : r.bind k = .ok b t) :
    ∃ a s, r = .ok a s ∧ k a s = .ok b t := by
  cases r with
  | ok a s => exact ⟨a, s, rfl, h⟩
  | trap e v s => cases h
  | fatal f => cases h

theorem Res.bind_eq_trap {α β : Type} {r : Res α} {k : α → State → Res β} {e : Exc} {v : Word} {t : State}
    (h : r.bind k = .trap e v t) : r = .trap e v t ∨ ∃ a s, r = .ok a s ∧ k a s = .trap e v t := by
  cases r with
  | ok a s => exact .inr ⟨a, s, rfl, h⟩
  | trap e' v' s => exact .inl (by cases h; rfl)
  | fatal f => cases h

/-- An instruction whose last operation is `r` completes, or takes the exception `r` raised. -/
theorem Res.complete_eq_next {α : Type} {r : Res α} {k : α → State → State} {t : State} (h : r.complete k = .next t) :
    (∃ a s, r = .ok a s ∧ t = k a s) ∨ ∃ e v s, r = .trap e v s ∧ t = trapStep (.exception e) v s := by
  cases r with
  | ok a s => exact .inl ⟨a, s, rfl, by cases h; rfl⟩
  | trap e v s => exact .inr ⟨e, v, s, rfl, by cases h; rfl⟩
  | fatal f => cases h

theorem Res.complete_ne_refused {α : Type} {r : Res α} {k : α → State → State} {q : Refusal} :
    r.complete k ≠ .refused q := by
  cases r <;> intro h <;> cases h

@[simp] theorem raise_eq (e : Exc) (v : Word) (s : State) : raise e v s = .next (trapStep (.exception e) v s) := rfl

theorem inMode_of_eq {x : Xlen} {i : Instr} {s : State} {k : Host.Outcome State Fault Refusal} (h : s.xlen = x) :
    inMode x i s k = k := if_pos h

theorem inMode_of_ne {x : Xlen} {i : Instr} {s : State} {k : Host.Outcome State Fault Refusal} (h : s.xlen ≠ x) :
    inMode x i s k = raiseIllegal i s := if_neg h

/-! ### Trap entry (R730) -/

theorem takeTrap_toS {c : Cause} {v : Word} {s : State} (h : s.trapsToS c = true) :
    takeTrap c v s = { s with
      csr := { s.csr with scause := causeValue s.xlen c, sepc := s.pc &&& ~~~1#64, stval := norm s.xlen v }
      mstatus := { s.mstatus with spp := decide (s.priv = .S), spie := s.mstatus.sie, sie := false }
      priv := .S
      pc := trapVector s.xlen s.csr.stvec c } := if_pos h

theorem takeTrap_toM {c : Cause} {v : Word} {s : State} (h : s.trapsToS c = false) :
    takeTrap c v s = { s with
      csr := { s.csr with mcause := causeValue s.xlen c, mepc := s.pc &&& ~~~1#64, mtval := norm s.xlen v }
      mstatus := { s.mstatus with mpp := s.priv, mpie := s.mstatus.mie, mie := false }
      priv := .M
      pc := trapVector s.xlen s.csr.mtvec c } := if_neg (by simp [h])

/-- An exception raised in M-mode is taken in M (R731). -/
theorem trapsToS_of_M {s : State} (e : Exc) (h : s.priv = .M) : s.trapsToS (.exception e) = false := by
  simp [State.trapsToS, h]

@[simp] theorem takeTrap_xlen (c : Cause) (v : Word) (s : State) : (takeTrap c v s).xlen = s.xlen := by
  unfold takeTrap; dsimp only; split <;> rfl
@[simp] theorem takeTrap_dramSize (c : Cause) (v : Word) (s : State) : (takeTrap c v s).dramSize = s.dramSize := by
  unfold takeTrap; dsimp only; split <;> rfl
@[simp] theorem takeTrap_x (c : Cause) (v : Word) (s : State) : (takeTrap c v s).x = s.x := by
  unfold takeTrap; dsimp only; split <;> rfl
@[simp] theorem takeTrap_f (c : Cause) (v : Word) (s : State) : (takeTrap c v s).f = s.f := by
  unfold takeTrap; dsimp only; split <;> rfl
@[simp] theorem takeTrap_mcycle (c : Cause) (v : Word) (s : State) : (takeTrap c v s).mcycle = s.mcycle := by
  unfold takeTrap; dsimp only; split <;> rfl
@[simp] theorem takeTrap_minstret (c : Cause) (v : Word) (s : State) : (takeTrap c v s).minstret = s.minstret := by
  unfold takeTrap; dsimp only; split <;> rfl
@[simp] theorem takeTrap_eip0 (c : Cause) (v : Word) (s : State) : (takeTrap c v s).eip0 = s.eip0 := by
  unfold takeTrap; dsimp only; split <;> rfl
@[simp] theorem takeTrap_eip1 (c : Cause) (v : Word) (s : State) : (takeTrap c v s).eip1 = s.eip1 := by
  unfold takeTrap; dsimp only; split <;> rfl
@[simp] theorem takeTrap_resv (c : Cause) (v : Word) (s : State) : (takeTrap c v s).resv = s.resv := by
  unfold takeTrap; dsimp only; split <;> rfl
@[simp] theorem takeTrap_tlb (c : Cause) (v : Word) (s : State) : (takeTrap c v s).tlb = s.tlb := by
  unfold takeTrap; dsimp only; split <;> rfl
@[simp] theorem takeTrap_tlbDraws (c : Cause) (v : Word) (s : State) : (takeTrap c v s).tlbDraws = s.tlbDraws := by
  unfold takeTrap; dsimp only; split <;> rfl
@[simp] theorem takeTrap_tlbDrawn (c : Cause) (v : Word) (s : State) : (takeTrap c v s).tlbDrawn = s.tlbDrawn := by
  unfold takeTrap; dsimp only; split <;> rfl
@[simp] theorem takeTrap_dram (c : Cause) (v : Word) (s : State) : (takeTrap c v s).dram = s.dram := by
  unfold takeTrap; dsimp only; split <;> rfl
@[simp] theorem takeTrap_clint (c : Cause) (v : Word) (s : State) : (takeTrap c v s).clint = s.clint := by
  unfold takeTrap; dsimp only; split <;> rfl
@[simp] theorem takeTrap_plic (c : Cause) (v : Word) (s : State) : (takeTrap c v s).plic = s.plic := by
  unfold takeTrap; dsimp only; split <;> rfl
@[simp] theorem takeTrap_uart (c : Cause) (v : Word) (s : State) : (takeTrap c v s).uart = s.uart := by
  unfold takeTrap; dsimp only; split <;> rfl
@[simp] theorem takeTrap_virtio (c : Cause) (v : Word) (s : State) : (takeTrap c v s).virtio = s.virtio := by
  unfold takeTrap; dsimp only; split <;> rfl
@[simp] theorem takeTrap_disk (c : Cause) (v : Word) (s : State) : (takeTrap c v s).disk = s.disk := by
  unfold takeTrap; dsimp only; split <;> rfl
@[simp] theorem takeTrap_ttyIn (c : Cause) (v : Word) (s : State) : (takeTrap c v s).ttyIn = s.ttyIn := by
  unfold takeTrap; dsimp only; split <;> rfl
@[simp] theorem takeTrap_ttyOut (c : Cause) (v : Word) (s : State) : (takeTrap c v s).ttyOut = s.ttyOut := by
  unfold takeTrap; dsimp only; split <;> rfl
@[simp] theorem takeTrap_tohost (c : Cause) (v : Word) (s : State) : (takeTrap c v s).tohost = s.tohost := by
  unfold takeTrap; dsimp only; split <;> rfl
@[simp] theorem takeTrap_fatal (c : Cause) (v : Word) (s : State) : (takeTrap c v s).fatal = s.fatal := by
  unfold takeTrap; dsimp only; split <;> rfl
@[simp] theorem takeTrap_refused (c : Cause) (v : Word) (s : State) : (takeTrap c v s).refused = s.refused := by
  unfold takeTrap; dsimp only; split <;> rfl

@[simp] theorem trapStep_xlen (c : Cause) (v : Word) (s : State) : (trapStep c v s).xlen = s.xlen := by simp [trapStep]
@[simp] theorem trapStep_dramSize (c : Cause) (v : Word) (s : State) : (trapStep c v s).dramSize = s.dramSize := by simp [trapStep]
@[simp] theorem trapStep_x (c : Cause) (v : Word) (s : State) : (trapStep c v s).x = s.x := by simp [trapStep]
@[simp] theorem trapStep_f (c : Cause) (v : Word) (s : State) : (trapStep c v s).f = s.f := by simp [trapStep]
@[simp] theorem trapStep_mcycle (c : Cause) (v : Word) (s : State) : (trapStep c v s).mcycle = s.mcycle + 1 := by simp [trapStep]
@[simp] theorem trapStep_minstret (c : Cause) (v : Word) (s : State) : (trapStep c v s).minstret = s.minstret := by simp [trapStep]
@[simp] theorem trapStep_eip0 (c : Cause) (v : Word) (s : State) : (trapStep c v s).eip0 = s.eip0 := by simp [trapStep]
@[simp] theorem trapStep_eip1 (c : Cause) (v : Word) (s : State) : (trapStep c v s).eip1 = s.eip1 := by simp [trapStep]
@[simp] theorem trapStep_resv (c : Cause) (v : Word) (s : State) : (trapStep c v s).resv = s.resv := by simp [trapStep]
@[simp] theorem trapStep_tlb (c : Cause) (v : Word) (s : State) : (trapStep c v s).tlb = s.tlb := by simp [trapStep]
@[simp] theorem trapStep_tlbDraws (c : Cause) (v : Word) (s : State) : (trapStep c v s).tlbDraws = s.tlbDraws := by simp [trapStep]
@[simp] theorem trapStep_tlbDrawn (c : Cause) (v : Word) (s : State) : (trapStep c v s).tlbDrawn = s.tlbDrawn := by simp [trapStep]
@[simp] theorem trapStep_dram (c : Cause) (v : Word) (s : State) : (trapStep c v s).dram = s.dram := by simp [trapStep]
@[simp] theorem trapStep_clint (c : Cause) (v : Word) (s : State) : (trapStep c v s).clint = s.clint := by simp [trapStep]
@[simp] theorem trapStep_plic (c : Cause) (v : Word) (s : State) : (trapStep c v s).plic = s.plic := by simp [trapStep]
@[simp] theorem trapStep_uart (c : Cause) (v : Word) (s : State) : (trapStep c v s).uart = s.uart := by simp [trapStep]
@[simp] theorem trapStep_virtio (c : Cause) (v : Word) (s : State) : (trapStep c v s).virtio = s.virtio := by simp [trapStep]
@[simp] theorem trapStep_disk (c : Cause) (v : Word) (s : State) : (trapStep c v s).disk = s.disk := by simp [trapStep]
@[simp] theorem trapStep_ttyIn (c : Cause) (v : Word) (s : State) : (trapStep c v s).ttyIn = s.ttyIn := by simp [trapStep]
@[simp] theorem trapStep_ttyOut (c : Cause) (v : Word) (s : State) : (trapStep c v s).ttyOut = s.ttyOut := by simp [trapStep]
@[simp] theorem trapStep_tohost (c : Cause) (v : Word) (s : State) : (trapStep c v s).tohost = s.tohost := by simp [trapStep]
@[simp] theorem trapStep_fatal (c : Cause) (v : Word) (s : State) : (trapStep c v s).fatal = s.fatal := by simp [trapStep]
@[simp] theorem trapStep_refused (c : Cause) (v : Word) (s : State) : (trapStep c v s).refused = s.refused := by simp [trapStep]
@[simp] theorem trapStep_pc (c : Cause) (v : Word) (s : State) : (trapStep c v s).pc = (takeTrap c v s).pc := rfl
@[simp] theorem trapStep_priv (c : Cause) (v : Word) (s : State) : (trapStep c v s).priv = (takeTrap c v s).priv := rfl
@[simp] theorem trapStep_csr (c : Cause) (v : Word) (s : State) : (trapStep c v s).csr = (takeTrap c v s).csr := rfl
@[simp] theorem trapStep_mstatus (c : Cause) (v : Word) (s : State) : (trapStep c v s).mstatus = (takeTrap c v s).mstatus := rfl

/-- Trap entry never lowers the mode (R731): it ends in M, or in S from S or U. -/
theorem takeTrap_priv (c : Cause) (v : Word) (s : State) :
    (takeTrap c v s).priv = (if s.trapsToS c then .S else .M) := by
  unfold takeTrap; dsimp only; split <;> rfl

/-- A trap target is even (R733). -/
theorem trapVector_even (x : Xlen) (tvec : Word) (c : Cause) : (trapVector x tvec c).getLsbD 0 = false := by
  unfold trapVector
  split
  · rw [getLsbD_norm_low _ _ (by omega)]
    refine even_add (by simp) ?_
    rw [getLsbD_zero, decide_eq_false_iff_not, BitVec.toNat_ofNat]
    omega
  · simp

/-- A trap target is an XLEN-bit value where the vector register is. -/
theorem norm_trapVector {x : Xlen} {tvec : Word} (c : Cause) (h : norm x tvec = tvec) :
    norm x (trapVector x tvec c) = trapVector x tvec c := by
  unfold trapVector
  split
  · exact norm_norm _ _
  · exact norm_and_left _ h

/-! ### Res.mapTval and Res.stateOr -/

@[simp] theorem Res.mapTval_ok {α : Type} (a : α) (s : State) (f : Exc → Word → Word) :
    (Res.ok a s).mapTval f = .ok a s := rfl
@[simp] theorem Res.mapTval_trap {α : Type} (e : Exc) (v : Word) (s : State) (f : Exc → Word → Word) :
    (Res.trap e v s : Res α).mapTval f = .trap e (f e v) s := rfl
@[simp] theorem Res.mapTval_fatal {α : Type} (g : Fault) (f : Exc → Word → Word) :
    (Res.fatal g : Res α).mapTval f = .fatal g := rfl
@[simp] theorem Res.stateOr_ok {α : Type} (a : α) (s t : State) : (Res.ok a t).stateOr s = t := rfl
@[simp] theorem Res.stateOr_trap {α : Type} (e : Exc) (v : Word) (s t : State) :
    (Res.trap e v t : Res α).stateOr s = t := rfl
@[simp] theorem Res.stateOr_fatal {α : Type} (g : Fault) (s : State) : (Res.fatal g : Res α).stateOr s = s := rfl

end Sys2Proof.Machine
end

