-- ==== Sys2Proof/Laws/Access.lean ====
section
/-! SUPPORT. What the hart's accesses can change: translation, reads and writes through the bus, and that they keep the
invariants of DRAM and of the PLIC. -/

namespace Sys2Proof.Machine

open Sys2Proof

/-! ### DRAM -/

theorem inRange_iff {base size pa : Nat} : inRange base size pa = true ↔ base ≤ pa ∧ pa < base + size := by
  simp [inRange]

theorem region_eq_dram {s : State} {pa : Nat} : s.region pa = .dram ↔ Config.dramBase ≤ pa ∧ pa < Config.dramBase + s.dramSize := by
  unfold State.region
  constructor
  · intro h
    split at h
    · exact inRange_iff.mp (by assumption)
    · repeat' split at h
      all_goals cases h
  · intro h
    rw [if_pos (inRange_iff.mpr h)]

theorem inDram_iff {s : State} {pa n : Nat} :
    s.inDram pa n = true ↔ Config.dramBase ≤ pa ∧ pa + n ≤ Config.dramBase + s.dramSize := by
  simp [State.inDram]

/-- A store of bytes that lie in DRAM keeps DRAM well-formed. -/
theorem dramOk_writeLE {s : State} {a n : Nat} (v : Word) (h : s.dramOk) (ha : n = 0 ∨ s.inDram a n = true) :
    ({ s with dram := Memory.writeLE s.dram a n v } : State).dramOk := by
  refine ⟨Memory.writeLE_wf _ _ _ h.1, fun c hc => ?_⟩
  rcases Memory.mem_writeLE hc with hc | hc
  · exact h.2 c hc
  · rcases ha with ha | ha
    · omega
    · rw [inDram_iff] at ha
      show Config.dramBase ≤ c.1 ∧ c.1 < Config.dramBase + s.dramSize
      omega

theorem dramOk_writeBytes {s : State} {a : Nat} (bs : List Byte) (h : s.dramOk)
    (ha : bs.length = 0 ∨ s.inDram a bs.length = true) :
    ({ s with dram := Memory.writeBytes s.dram a bs } : State).dramOk := by
  refine ⟨Memory.writeBytes_wf _ _ h.1, fun c hc => ?_⟩
  rcases Memory.mem_writeBytes hc with hc | hc
  · exact h.2 c hc
  · rcases ha with ha | ha
    · omega
    · rw [inDram_iff] at ha
      show Config.dramBase ≤ c.1 ∧ c.1 < Config.dramBase + s.dramSize
      omega

theorem dramOk_of_eq {s t : State} (hd : t.dram = s.dram) (hz : t.dramSize = s.dramSize) (h : s.dramOk) : t.dramOk := by
  unfold State.dramOk at *
  rw [hd, hz]
  exact h

theorem sizeOk_of_eq {s t : State} (hz : t.dramSize = s.dramSize) (h : s.sizeOk) : t.sizeOk := by
  unfold State.sizeOk; rw [hz]; exact h

theorem plicOk_of_eq {s t : State} (hp : t.plic = s.plic) (h : s.plicOk) : t.plicOk := by
  unfold State.plicOk at *
  rw [hp]
  exact h

/-! ### The relation -/

/-- `t` comes from `s` by accesses: only memory, the TLB with its choices, the devices and the TTY's output may differ, and DRAM
and the PLIC stay well-formed. -/
structure Accessed (s t : State) : Prop where
  eq   : t = { s with tlb := t.tlb, tlbDraws := t.tlbDraws, tlbDrawn := t.tlbDrawn, dram := t.dram, clint := t.clint,
                      plic := t.plic, uart := t.uart, virtio := t.virtio, ttyOut := t.ttyOut }
  dram : s.dramOk → t.dramOk
  plic : s.plicOk → t.plicOk

theorem Accessed.refl (s : State) : Accessed s s := ⟨rfl, id, id⟩

theorem Accessed.trans {s t u : State} (h : Accessed s t) (k : Accessed t u) : Accessed s u := by
  refine ⟨?_, fun x => k.dram (h.dram x), fun x => k.plic (h.plic x)⟩
  have e1 := h.eq
  have e2 := k.eq
  rw [e1] at e2
  exact e2

theorem Accessed.xlen {s t : State} (h : Accessed s t) : t.xlen = s.xlen := by rw [h.eq]
theorem Accessed.dramSize {s t : State} (h : Accessed s t) : t.dramSize = s.dramSize := by rw [h.eq]
theorem Accessed.pc {s t : State} (h : Accessed s t) : t.pc = s.pc := by rw [h.eq]
theorem Accessed.x {s t : State} (h : Accessed s t) : t.x = s.x := by rw [h.eq]
theorem Accessed.csr {s t : State} (h : Accessed s t) : t.csr = s.csr := by rw [h.eq]
theorem Accessed.priv {s t : State} (h : Accessed s t) : t.priv = s.priv := by rw [h.eq]
theorem Accessed.mstatus {s t : State} (h : Accessed s t) : t.mstatus = s.mstatus := by rw [h.eq]
theorem Accessed.resv {s t : State} (h : Accessed s t) : t.resv = s.resv := by rw [h.eq]

/-! ### Translation -/

/-- `t` comes from `s` by translations: only the TLB with its choices and PTEs in DRAM may differ. -/
structure Translated (s t : State) : Prop where
  eq   : t = { s with tlb := t.tlb, tlbDraws := t.tlbDraws, tlbDrawn := t.tlbDrawn, dram := t.dram }
  dram : s.dramOk → t.dramOk

theorem Translated.refl (s : State) : Translated s s := ⟨rfl, id⟩

theorem Translated.trans {s t u : State} (h : Translated s t) (k : Translated t u) : Translated s u := by
  refine ⟨?_, fun x => k.dram (h.dram x)⟩
  have e1 := h.eq
  have e2 := k.eq
  rw [e1] at e2
  exact e2

theorem Translated.accessed {s t : State} (h : Translated s t) : Accessed s t := by
  refine ⟨?_, h.dram, fun x => plicOk_of_eq (by rw [h.eq]) x⟩
  have e := h.eq
  rw [e]

/-- The PTE that a walk ends at lies in DRAM and is what was read there. -/
theorem walk_leaf {s : State} {k : Access} {va : Word} {i a : Nat} {l : Leaf} (h : s.walk k va i a = .ok l) :
    s.inDram l.addr (pteSize s.xlen) = true ∧ l.pte = Memory.readLE s.dram l.addr (pteSize s.xlen) := by
  have hr : ∀ {x : Nat} {p : Word}, s.readPte k x = .ok p →
      s.inDram x (pteSize s.xlen) = true ∧ p = Memory.readLE s.dram x (pteSize s.xlen) := by
    intro x p hp
    unfold State.readPte at hp
    split at hp
    · split at hp
      · cases hp; exact ⟨‹_›, rfl⟩
      · cases hp
    · cases hp
  induction i generalizing a with
  | zero =>
    unfold State.walk at h
    split at h
    · cases h
    · split at h
      · cases h; exact hr ‹_›
      · cases h
  | succ i ih =>
    unfold State.walk at h
    split at h
    · cases h
    · split at h
      · cases h; exact hr ‹_›
      · exact ih h

theorem findLeaf_inDram {s : State} {k : Access} {va : Word} {l : Leaf} (h : s.findLeaf k va = .ok l) :
    s.inDram l.addr (pteSize s.xlen) = true := by
  unfold State.findLeaf at h
  split at h
  · cases h
  · split at h
    · cases h; exact (walk_leaf ‹_›).1
    · cases h

theorem writeBack_translated {s : State} (k : Access) {l : Leaf} (h : s.inDram l.addr (pteSize s.xlen) = true) :
    Translated s (s.writeBack k l) := by
  unfold State.writeBack
  split
  · exact .refl s
  · exact ⟨rfl, fun d => dramOk_writeLE _ d (.inr h)⟩

/-- The PTE that a walk leaves in memory: the leaf with A set, and with D set for a write (R252). -/
theorem readLE_writeBack {s : State} (k : Access) {l : Leaf} (hd : s.dramOk)
    (hl : l.pte = Memory.readLE s.dram l.addr (pteSize s.xlen)) :
    Memory.readLE (s.writeBack k l).dram l.addr (pteSize s.xlen) = pteUpdate k l.pte := by
  unfold State.writeBack
  split
  · rename_i h; rw [h, ← hl]
  · apply BitVec.eq_of_getLsbD_eq
    intro i _
    rw [Memory.readLE_writeLE _ _ _ hd.1]
    by_cases h : i < 8 * pteSize s.xlen
    · simp [h]
    · have h8 : 8 ≤ i := by cases hx : s.xlen <;> rw [hx, pteSize] at h <;> omega
      have h0 : l.pte.getLsbD i = false := by rw [hl]; exact Memory.readLE_above (by omega)
      have hb : ∀ b : Byte, (b.setWidth 64).getLsbD i = false := fun b => by
        rw [BitVec.getLsbD_setWidth, BitVec.getLsbD_of_ge _ _ h8, Bool.and_false]
      have h6 : (0x40#64).getLsbD i = false := hb 0x40
      have h7 : ((if k.writes then 0x80#64 else 0 : Word)).getLsbD i = false := by
        split
        · exact hb 0x80
        · exact hb 0
      rw [pteUpdate, BitVec.getLsbD_or, BitVec.getLsbD_or, h0, h6, h7, decide_eq_false h, Bool.false_and]
      rfl

/-- A drawn choice changes only the choices to come. -/
theorem drawTlb_eq (s : State) :
    s.drawTlb.2 = { s with tlbDraws := s.drawTlb.2.tlbDraws, tlbDrawn := s.drawTlb.2.tlbDrawn } := by
  unfold State.drawTlb; split <;> rfl

/-- The flags of a PTE that was written back (R252). -/
theorem pteFlags_update (k : Access) (pte : Word) :
    pteFlags (pteUpdate k pte)
      = { pteFlags pte with a := true, d := pte.getLsbD 7 || decide (k = .store ∨ k = .amo) } := by
  cases k <;> simp [pteFlags, pteUpdate, Access.writes]

theorem keepFrom_sublist (drop : List Nat) (n : Nat) (es : List TlbEntry) : (keepFrom drop n es).Sublist es := by
  induction es generalizing n with
  | nil => exact List.Sublist.refl _
  | cons e es ih =>
    rw [keepFrom]; split
    · exact (ih _).cons _
    · exact (ih _).cons_cons _

/-- A translation, after a choice was drawn and entries were dropped, is by the walk or by an entry that may be used (R262,
R263). -/
theorem translateOn_cases (s : State) (k : Access) (va : Word) : ∃ (u : State) (refill : Bool),
    u = { s with tlb := u.tlb, tlbDraws := u.tlbDraws, tlbDrawn := u.tlbDrawn } ∧ u.tlb.Sublist s.tlb
    ∧ (s.translateOn k va = u.translateByWalk k va refill
      ∨ ∃ e ∈ u.tlb, s.translateOn k va = u.translateByEntry k va e ∧ u.usable k va e = true) := by
  have key : s.translateOn k va = (let u : State := { s.drawTlb.2 with tlb := keepFrom s.drawTlb.1.drop 0 s.tlb }
      match u.chosenEntry k va s.drawTlb.1 with
      | some e => u.translateByEntry k va e
      | none => u.translateByWalk k va s.drawTlb.1.fill) := rfl
  rw [key]
  obtain ⟨u, hu⟩ : ∃ u : State, u = { s.drawTlb.2 with tlb := keepFrom s.drawTlb.1.drop 0 s.tlb } := ⟨_, rfl⟩
  refine ⟨u, s.drawTlb.1.fill, by rw [hu, drawTlb_eq], by rw [hu]; exact keepFrom_sublist .., ?_⟩
  rw [← hu]; dsimp only
  cases he : u.chosenEntry k va s.drawTlb.1 with
  | none => exact .inl rfl
  | some e =>
    refine .inr ⟨e, ?_⟩
    unfold State.chosenEntry at he
    split at he
    · cases he
    · split at he
      · cases he
      · rename_i hn
        split at he
        · cases he; exact ⟨List.mem_of_getElem? hn, rfl, ‹_›⟩
        · cases he

/-- A result whose state, if it has one, is related to the state it started from. -/
def Res.Reaches {α : Type} (R : State → State → Prop) (s : State) (r : Res α) : Prop :=
  match r with
  | .ok _ t => R s t
  | .trap _ _ t => R s t
  | .fatal _ => True

theorem Res.Reaches.bind {α β : Type} {R : State → State → Prop} (htr : ∀ {a b c}, R a b → R b c → R a c) {s : State}
    {r : Res α} {k : α → State → Res β} (h : r.Reaches R s) (hk : ∀ a t, r = .ok a t → (k a t).Reaches R t) :
    (r.bind k).Reaches R s := by
  cases r with
  | ok a t =>
    have h2 := hk a t rfl
    have h1 : R s t := h
    revert h2
    show (k a t).Reaches R t → (k a t).Reaches R s
    cases k a t with
    | ok b u => exact fun h2 => htr h1 h2
    | trap e v u => exact fun h2 => htr h1 h2
    | fatal f => exact fun _ => trivial
  | trap e v t => exact h
  | fatal f => trivial

theorem translateByWalk_reaches (s : State) (k : Access) (va : Word) (fill : Bool) :
    (s.translateByWalk k va fill).Reaches Translated s := by
  unfold State.translateByWalk
  split
  · exact .refl s
  · rename_i l hl
    have hw := writeBack_translated k (findLeaf_inDram hl)
    show Translated s (if fill then _ else _)
    split
    · refine hw.trans ⟨rfl, fun d => d⟩
    · exact hw

theorem translateByEntry_reaches (s : State) (k : Access) (va : Word) (e : TlbEntry) :
    (s.translateByEntry k va e).Reaches Translated s := by
  unfold State.translateByEntry
  split <;> exact .refl s

theorem translate_reaches (s : State) (k : Access) (va : Word) : (s.translate k va).Reaches Translated s := by
  unfold State.translate
  split
  · split
    · obtain ⟨u, fill, hu, -, h⟩ := translateOn_cases s k va
      have h1 : Translated s u := ⟨by rw [hu], fun d => dramOk_of_eq (by rw [hu]) (by rw [hu]) d⟩
      have h2 : (s.translateOn k va).Reaches Translated u := by
        rcases h with h | ⟨e, -, h, -⟩ <;> rw [h]
        · exact translateByWalk_reaches u k va fill
        · exact translateByEntry_reaches u k va e
      revert h2
      cases s.translateOn k va with
      | ok a t => exact fun h2 => h1.trans h2
      | trap e v t => exact fun h2 => h1.trans h2
      | fatal f => exact fun _ => trivial
    · exact .refl s
  · exact .refl s

/-- The trap value of a fault of the first piece is the access's address. -/
@[simp] theorem pieceTval_self (k : Access) (ea : Word) (e : Exc) : pieceTval k ea e ea = ea := by simp [pieceTval]

/-- An access fault in a piece's walk has the access's address. -/
@[simp] theorem pieceTval_accessFault (k : Access) (ea va : Word) : pieceTval k ea k.accessFault va = ea := by
  simp [pieceTval]

/-- A page fault keeps the piece's address. -/
@[simp] theorem pieceTval_pageFault (k : Access) (ea va : Word) : pieceTval k ea k.pageFault va = va := by
  cases k <;> simp [pieceTval, Access.pageFault, Access.accessFault]

theorem Res.Reaches.mapTval {α : Type} {R : State → State → Prop} {s : State} {r : Res α} (h : r.Reaches R s)
    (f : Exc → Word → Word) : (r.mapTval f).Reaches R s := by
  cases r with
  | ok a t => exact h
  | trap e v t => exact h
  | fatal g => exact h

theorem translatePieces_reaches (s : State) (k : Access) (ea : Word) (ps : List (Word × Nat)) :
    (s.translatePieces k ea ps).Reaches Translated s := by
  induction ps generalizing s with
  | nil => exact .refl s
  | cons p ps ih =>
    unfold State.translatePieces
    refine Res.Reaches.bind (fun h k => h.trans k) ((translate_reaches s k p.1).mapTval _) fun a t _ => ?_
    refine Res.Reaches.bind (fun h k => h.trans k) (ih t) fun b u _ => ?_
    exact Translated.refl u

theorem checkAccess_reaches (s : State) (k : Access) (va : Word) (n : Nat) :
    (s.checkAccess k va n).Reaches Translated s := by
  unfold State.checkAccess
  refine Res.Reaches.bind (fun h k => h.trans k) (translatePieces_reaches s k _ _) fun a t _ => ?_
  split
  · exact Translated.refl t
  · exact Translated.refl t

/-- The pieces of a checked access are all mapped and in one region. -/
theorem checkAccess_ok {s t : State} {k : Access} {va : Word} {n : Nat} {ps : List Piece}
    (h : s.checkAccess k va n = .ok ps t) : t.piecesOk ps = true := by
  unfold State.checkAccess at h
  obtain ⟨qs, u, -, h2⟩ := Res.bind_eq_ok h
  split at h2
  · cases h2; assumption
  · cases h2

theorem atomicAddr_reaches (s : State) (k : Access) (va : Word) (n : Nat) : (s.atomicAddr k va n).Reaches Translated s := by
  unfold State.atomicAddr
  split
  · exact Translated.refl s
  · refine Res.Reaches.bind (fun h k => h.trans k) (translate_reaches s k va) fun a t _ => ?_
    split
    · exact Translated.refl t
    · exact Translated.refl t

/-- An LR, SC or AMO that is not turned away reaches aligned DRAM. -/
theorem atomicAddr_inDram {s t : State} {k : Access} {va : Word} {n pa : Nat} (h : s.atomicAddr k va n = .ok pa t) :
    t.inDram pa n = true := by
  unfold State.atomicAddr at h
  split at h
  · cases h
  · obtain ⟨a, u, -, h2⟩ := Res.bind_eq_ok h
    split at h2
    · cases h2; assumption
    · cases h2

theorem fetch16_reaches (s : State) (va : Word) : (s.fetch16 va).Reaches Translated s := by
  unfold State.fetch16
  refine Res.Reaches.bind (fun h k => h.trans k) (translate_reaches s .fetch va) fun a t _ => ?_
  split
  · exact Translated.refl t
  · exact Translated.refl t

theorem fetchInstr_reaches (s : State) : s.fetchInstr.Reaches Translated s := by
  unfold State.fetchInstr
  refine Res.Reaches.bind (fun h k => h.trans k) (fetch16_reaches s s.pc) fun a t _ => ?_
  split
  · exact Translated.refl t
  · refine Res.Reaches.bind (fun h k => h.trans k) (fetch16_reaches t _) fun b u _ => ?_
    exact Translated.refl u

/-! ### The PLIC -/

theorem mask_or {a b m : BitVec 64} (ha : a &&& ~~~m = 0) (hb : b &&& ~~~m = 0) : (a ||| b) &&& ~~~m = 0 := by
  refine word_ext fun i => ?_
  have h1 := congrArg (fun v : BitVec 64 => v.getLsbD i) ha
  have h2 := congrArg (fun v : BitVec 64 => v.getLsbD i) hb
  simp only [BitVec.getLsbD_and, BitVec.getLsbD_or] at h1 h2 ⊢
  cases h : (~~~m).getLsbD i <;> simp_all

theorem mask_and_left {a m : BitVec 64} (b : BitVec 64) (ha : a &&& ~~~m = 0) : (a &&& b) &&& ~~~m = 0 := by
  rw [BitVec.and_assoc, BitVec.and_comm b, ← BitVec.and_assoc, ha]; simp

theorem mask_and_self (a m : BitVec 64) : (a &&& m) &&& ~~~m = 0 := by
  rw [BitVec.and_assoc]; simp

theorem sourceBit_mask {s : Nat} (h1 : 1 ≤ s) (h2 : s ≤ 53) : sourceBit s &&& ~~~plicMask = 0 := by
  have h : s ∈ (List.range 53).map (· + 1) := by
    rw [List.mem_map]
    exact ⟨s - 1, List.mem_range.mpr (by omega), by omega⟩
  exact (by decide : ∀ t ∈ (List.range 53).map (· + 1), sourceBit t &&& ~~~plicMask = 0) s h

/-- The bits of the PLIC belong to its sources. -/
def Plic.ok (p : Plic) : Prop :=
  p.pending &&& ~~~plicMask = 0 ∧ p.claimed &&& ~~~plicMask = 0 ∧ p.enable0 &&& ~~~plicMask = 0
    ∧ p.enable1 &&& ~~~plicMask = 0

theorem plicOk_iff (s : State) : s.plicOk ↔ s.plic.ok := Iff.rfl

/-- A claim returns 0 or a source. -/
theorem Plic.best_source (p : Plic) (c : Context) : p.best c = 0 ∨ (1 ≤ p.best c ∧ p.best c ≤ 53) := by
  have H : ∀ (l : List Nat) (b : Nat), (∀ s ∈ l, 1 ≤ s ∧ s ≤ 53) → (b = 0 ∨ (1 ≤ b ∧ b ≤ 53)) →
      (l.foldl (fun b s => if p.ready c s && decide (p.prio b < p.prio s) then s else b) b = 0 ∨
       (1 ≤ l.foldl (fun b s => if p.ready c s && decide (p.prio b < p.prio s) then s else b) b ∧
        l.foldl (fun b s => if p.ready c s && decide (p.prio b < p.prio s) then s else b) b ≤ 53)) := by
    intro l
    induction l with
    | nil => intro b _ hb; exact hb
    | cons a l ih =>
      intro b hl hb
      simp only [List.foldl_cons]
      refine ih _ (fun s hs => hl s (List.mem_cons_of_mem _ hs)) ?_
      split
      · exact .inr (hl a (List.mem_cons_self ..))
      · exact hb
  refine H plicIds 0 (fun s hs => ?_) (.inl rfl)
  simp only [plicIds, Config.plicSources, List.mem_map, List.mem_range] at hs
  omega

theorem Plic.ok_claim {p : Plic} (c : Context) (h : p.ok) : (p.claim c).2.ok := by
  unfold Plic.claim
  dsimp only
  split
  · exact h
  · rename_i hne
    have hb := (p.best_source c).resolve_left hne
    exact ⟨mask_and_left _ h.1, mask_or h.2.1 (sourceBit_mask hb.1 hb.2), h.2.2.1, h.2.2.2⟩

theorem Plic.ok_complete {p : Plic} (c : Context) (s : Nat) (h : p.ok) : (p.complete c s).ok := by
  unfold Plic.complete
  split
  · exact ⟨h.1, mask_and_left _ h.2.1, h.2.2.1, h.2.2.2⟩
  · exact h

theorem Plic.ok_readReg {p : Plic} (off : Nat) (h : p.ok) : (p.readReg off).2.ok := by
  unfold Plic.readReg
  repeat' split
  all_goals first | exact h | exact Plic.ok_claim _ h

theorem Plic.ok_writeReg {p : Plic} (off : Nat) (v : BitVec 32) (h : p.ok) : (p.writeReg off v).ok := by
  unfold Plic.writeReg Plic.setPriority
  repeat' split
  all_goals first
    | exact h
    | exact Plic.ok_complete _ _ h
    | exact ⟨h.1, h.2.1, mask_and_self _ _, h.2.2.2⟩
    | exact ⟨h.1, h.2.1, h.2.2.1, mask_and_self _ _⟩

theorem Plic.ok_gateway {p : Plic} {s : Nat} (h1 : 1 ≤ s) (h2 : s ≤ 53) (h : p.ok) : (p.gateway s).ok := by
  unfold Plic.gateway
  split
  · exact h
  · exact ⟨mask_or h.1 (sourceBit_mask h1 h2), h.2.1, h.2.2.1, h.2.2.2⟩

theorem Plic.ok_update {p : Plic} {l : List Nat} (hl : ∀ s ∈ l, 1 ≤ s ∧ s ≤ 53) (h : p.ok) : (p.update l).ok := by
  unfold Plic.update
  induction l generalizing p with
  | nil => exact h
  | cons a l ih =>
    have ha := hl a (List.mem_cons_self ..)
    exact ih (fun s hs => hl s (List.mem_cons_of_mem _ hs)) (Plic.ok_gateway ha.1 ha.2 h)

/-! ### Physical accesses -/

theorem deviceRead32_accessed (s : State) (r : Region) (off : Nat) : Accessed s (s.deviceRead32 r off).2 := by
  cases r with
  | plic => exact ⟨rfl, fun d => d, fun h => Plic.ok_readReg off h⟩
  | clint => exact .refl s
  | uart => exact .refl s
  | virtio => exact .refl s
  | dram => exact .refl s
  | unmapped => exact .refl s

theorem deviceWrite32_accessed (s : State) (r : Region) (off : Nat) (v : BitVec 32) :
    Accessed s (s.deviceWrite32 r off v) := by
  cases r with
  | plic => exact ⟨rfl, fun d => d, fun h => Plic.ok_writeReg off v h⟩
  | clint => exact ⟨rfl, fun d => d, fun h => h⟩
  | uart => exact .refl s
  | virtio => exact ⟨rfl, fun d => d, fun h => h⟩
  | dram => exact .refl s
  | unmapped => exact .refl s

theorem uartReads_accessed (s : State) (off n : Nat) : Accessed s (s.uartReads off n).2 := by
  induction n generalizing s off with
  | zero => exact .refl s
  | succ n ih =>
    have h1 : Accessed s (s.uartRead off).2 := ⟨rfl, fun d => d, fun h => h⟩
    exact h1.trans (ih _ _)

theorem uartWrite_accessed (s : State) (off : Nat) (v : Byte) : Accessed s (s.uartWrite off v) := by
  unfold State.uartWrite
  dsimp only
  split
  · exact ⟨rfl, fun d => d, fun h => h⟩
  · exact ⟨rfl, fun d => d, fun h => h⟩

theorem uartWrites_accessed (s : State) (off n : Nat) (v : Word) : Accessed s (s.uartWrites off n v) := by
  induction n generalizing s off v with
  | zero => exact .refl s
  | succ n ih => exact (uartWrite_accessed s off _).trans (ih _ _ _)

theorem wordDeviceRead_reaches (s : State) (r : Region) (off n : Nat) : (s.wordDeviceRead r off n).Reaches Accessed s := by
  unfold State.wordDeviceRead
  split
  · exact deviceRead32_accessed s r off
  · split
    · exact (deviceRead32_accessed s r off).trans (deviceRead32_accessed _ r _)
    · trivial

theorem wordDeviceWrite_reaches (s : State) (r : Region) (off n : Nat) (v : Word) :
    (s.wordDeviceWrite r off n v).Reaches Accessed s := by
  unfold State.wordDeviceWrite
  split
  · exact deviceWrite32_accessed s r off _
  · split
    · exact (deviceWrite32_accessed s r off _).trans (deviceWrite32_accessed _ r _ _)
    · trivial

theorem physRead_reaches (s : State) (pa n : Nat) : (s.physRead pa n).Reaches Accessed s := by
  unfold State.physRead
  cases s.region pa with
  | dram => exact Accessed.refl s
  | clint => exact wordDeviceRead_reaches s _ _ _
  | plic => exact wordDeviceRead_reaches s _ _ _
  | virtio => exact wordDeviceRead_reaches s _ _ _
  | uart => exact uartReads_accessed s _ _
  | unmapped => exact Accessed.refl s

/-- A physical write whose ends lie in one region. -/
theorem physWrite_reaches (s : State) {pa n : Nat} (v : Word) (h : s.region (pa + n - 1) = s.region pa) :
    (s.physWrite pa n v).Reaches Accessed s := by
  unfold State.physWrite
  cases hr : s.region pa with
  | dram =>
    refine ⟨rfl, fun d => dramOk_writeLE v d ?_, fun h => h⟩
    rw [hr, region_eq_dram] at h
    rw [region_eq_dram] at hr
    rw [inDram_iff]
    omega
  | clint => exact wordDeviceWrite_reaches s _ _ _ _
  | plic => exact wordDeviceWrite_reaches s _ _ _ _
  | virtio => exact wordDeviceWrite_reaches s _ _ _ _
  | uart => exact uartWrites_accessed s _ _ _
  | unmapped => exact Accessed.refl s

theorem readPieces_reaches (s : State) (ps : List Piece) : (s.readPieces ps).Reaches Accessed s := by
  induction ps generalizing s with
  | nil => exact Accessed.refl s
  | cons p ps ih =>
    unfold State.readPieces
    refine Res.Reaches.bind (fun h k => h.trans k) (physRead_reaches s p.1 p.2) fun a t _ => ?_
    refine Res.Reaches.bind (fun h k => h.trans k) (ih t) fun b u _ => ?_
    exact Accessed.refl u

theorem region_of_dramSize {s t : State} (h : t.dramSize = s.dramSize) (pa : Nat) : t.region pa = s.region pa := by
  unfold State.region; rw [h]

theorem writePieces_reaches (s : State) (ps : List Piece) (v : Word) {r : Region} (h : s.allIn r ps = true) :
    (s.writePieces ps v).Reaches Accessed s := by
  induction ps generalizing s v with
  | nil => exact Accessed.refl s
  | cons p ps ih =>
    unfold State.writePieces
    simp only [State.allIn, List.all_cons, Bool.and_eq_true, decide_eq_true_eq] at h
    have hw := physWrite_reaches s (pa := p.1) (n := p.2) v (by rw [h.1.1, h.1.2])
    refine Res.Reaches.bind (fun h k => h.trans k) hw fun a t ht => ?_
    rw [ht] at hw
    have hz : t.dramSize = s.dramSize := Accessed.dramSize hw
    refine ih t _ ?_
    have h2 := h.2
    simp only [State.allIn, List.all_eq_true, Bool.and_eq_true, decide_eq_true_eq, region_of_dramSize hz] at h2 ⊢
    exact h2

theorem memRead_reaches (s : State) (va : Word) (n : Nat) : (s.memRead va n).Reaches Accessed s := by
  unfold State.memRead
  have h := checkAccess_reaches s .load va n
  cases hc : s.checkAccess .load va n with
  | ok ps t =>
    rw [hc] at h
    have h1 : Accessed s t := Translated.accessed h
    have h2 := readPieces_reaches t ps
    simp only [Res.bind_ok]
    revert h2
    cases t.readPieces ps with
    | ok a u => exact fun h2 => h1.trans h2
    | trap e v u => exact fun h2 => h1.trans h2
    | fatal f => exact fun _ => trivial
  | trap e v t => rw [hc] at h; exact Translated.accessed h
  | fatal f => trivial

/-- A store that completes has accessed memory and dropped the reservation (R540); one that raises has only translated. -/
theorem memWrite_cases (s : State) (va : Word) (n : Nat) (v : Word) :
    (∃ t, s.memWrite va n v = .ok () t.dropResv ∧ Accessed s t)
      ∨ (∃ e w t, s.memWrite va n v = .trap e w t ∧ Accessed s t) ∨ ∃ f, s.memWrite va n v = .fatal f := by
  unfold State.memWrite
  have h := checkAccess_reaches s .store va n
  cases hc : s.checkAccess .store va n with
  | ok ps t =>
    rw [hc] at h
    have h1 : Accessed s t := Translated.accessed h
    have hp := checkAccess_ok hc
    have h2 : (t.writePieces ps v).Reaches Accessed t := by
      cases ps with
      | nil => exact Accessed.refl t
      | cons p ps =>
        simp only [State.piecesOk, Bool.and_eq_true] at hp
        exact writePieces_reaches t _ v hp.2
    simp only [Res.bind_ok]
    cases hw : t.writePieces ps v with
    | ok a u => rw [hw] at h2; exact .inl ⟨u, rfl, h1.trans h2⟩
    | trap e w u => rw [hw] at h2; exact .inr (.inl ⟨e, w, u, rfl, h1.trans h2⟩)
    | fatal f => exact .inr (.inr ⟨f, rfl⟩)
  | trap e w t => rw [hc] at h; exact .inr (.inl ⟨e, w, t, rfl, Translated.accessed h⟩)
  | fatal f => exact .inr (.inr ⟨f, rfl⟩)

/-- The memory at reset has the canonical form. -/
theorem reset_dram_wf : Memory.wf State.reset.dram = true := rfl

end Sys2Proof.Machine
end

