-- ==== Sys2Proof/Laws/Encoding.lean ====
section
/-! SUPPORT. The fields of an encoded word: the decoder's field functions read back what the encoder's formats put in. -/

namespace Sys2Proof

/-- Two bit vectors are equal where their bits below the width are. -/
theorem bits_ext {n : Nat} {a b : BitVec n} (h : ∀ i, i < n → a.getLsbD i = b.getLsbD i) : a = b :=
  BitVec.eq_of_getLsbD_eq h

/-- Bit `i` of an R-format word. -/
theorem formatR_bit (f7 : BitVec 7) (rs2 rs1 : Reg) (f3 : BitVec 3) (rd : Reg) (op : BitVec 7) (i : Nat) :
    (formatR f7 rs2 rs1 f3 rd op).getLsbD i =
      if i < 7 then op.getLsbD i
      else if i < 12 then rd.getLsbD (i - 7)
      else if i < 15 then f3.getLsbD (i - 12)
      else if i < 20 then rs1.getLsbD (i - 15)
      else if i < 25 then rs2.getLsbD (i - 20)
      else f7.getLsbD (i - 25) := by
  show ((f7 ++ rs2 ++ rs1 ++ f3 ++ rd ++ op : BitVec (7 + 5 + 5 + 3 + 5 + 7))).getLsbD i = _
  simp only [BitVec.getLsbD_append]
  repeat' split
  all_goals first | rfl | (exfalso; omega) | (congr 1; omega)

/-- A field cut out of an R-format word, bit by bit. -/
theorem extract_formatR {hi lo : Nat} (f7 : BitVec 7) (rs2 rs1 : Reg) (f3 : BitVec 3) (rd : Reg) (op : BitVec 7) (i : Nat) :
    ((formatR f7 rs2 rs1 f3 rd op).extractLsb hi lo).getLsbD i =
      (decide (i ≤ hi - lo) && (formatR f7 rs2 rs1 f3 rd op).getLsbD (lo + i)) := by
  simp

section Fields

variable (f7 : BitVec 7) (rs2 rs1 rd : Reg) (f3 : BitVec 3) (op : BitVec 7)

@[simp] theorem opcode_formatR : opcode (formatR f7 rs2 rs1 f3 rd op) = op := bits_ext fun i hi => by
  have h : i < 7 := hi
  rw [opcode, extract_formatR, formatR_bit]
  simp [h, show i ≤ 6 - 0 by omega]

@[simp] theorem fieldRd_formatR : fieldRd (formatR f7 rs2 rs1 f3 rd op) = rd := bits_ext fun i hi => by
  have h : i < 5 := hi
  rw [fieldRd, extract_formatR, formatR_bit]
  simp [h, show i ≤ 11 - 7 by omega, show ¬ 7 + i < 7 by omega, show 7 + i < 12 by omega]

@[simp] theorem funct3_formatR : funct3 (formatR f7 rs2 rs1 f3 rd op) = f3 := bits_ext fun i hi => by
  have h : i < 3 := hi
  rw [funct3, extract_formatR, formatR_bit]
  simp [h, show i ≤ 14 - 12 by omega, show ¬ 12 + i < 7 by omega, show ¬ 12 + i < 12 by omega,
    show 12 + i < 15 by omega]

@[simp] theorem fieldRs1_formatR : fieldRs1 (formatR f7 rs2 rs1 f3 rd op) = rs1 := bits_ext fun i hi => by
  have h : i < 5 := hi
  rw [fieldRs1, extract_formatR, formatR_bit]
  simp [h, show i ≤ 19 - 15 by omega, show ¬ 15 + i < 7 by omega, show ¬ 15 + i < 12 by omega,
    show ¬ 15 + i < 15 by omega, show 15 + i < 20 by omega]

@[simp] theorem fieldRs2_formatR : fieldRs2 (formatR f7 rs2 rs1 f3 rd op) = rs2 := bits_ext fun i hi => by
  have h : i < 5 := hi
  rw [fieldRs2, extract_formatR, formatR_bit]
  simp [h, show i ≤ 24 - 20 by omega, show ¬ 20 + i < 7 by omega, show ¬ 20 + i < 12 by omega,
    show ¬ 20 + i < 15 by omega, show ¬ 20 + i < 20 by omega, show 20 + i < 25 by omega]

@[simp] theorem funct7_formatR : funct7 (formatR f7 rs2 rs1 f3 rd op) = f7 := bits_ext fun i hi => by
  have h : i < 7 := hi
  rw [funct7, extract_formatR, formatR_bit]
  simp [h, show i ≤ 31 - 25 by omega, show ¬ 25 + i < 7 by omega, show ¬ 25 + i < 12 by omega,
    show ¬ 25 + i < 15 by omega, show ¬ 25 + i < 20 by omega, show ¬ 25 + i < 25 by omega]

/-- The I immediate of an I-format word. -/
@[simp] theorem immI_formatI (imm : BitVec 12) : immI (formatI imm rs1 f3 rd op) = imm := bits_ext fun i hi => by
  have h : i < 12 := hi
  rw [immI, formatI, extract_formatR, formatR_bit]
  by_cases h5 : i < 5
  · simp [h, h5, show i ≤ 31 - 20 by omega, show ¬ 20 + i < 7 by omega, show ¬ 20 + i < 12 by omega,
      show ¬ 20 + i < 15 by omega, show ¬ 20 + i < 20 by omega, show 20 + i < 25 by omega]
  · simp [h, show i ≤ 31 - 20 by omega, show ¬ 20 + i < 7 by omega, show ¬ 20 + i < 12 by omega,
      show ¬ 20 + i < 15 by omega, show ¬ 20 + i < 20 by omega, show ¬ 20 + i < 25 by omega,
      show 5 + (20 + i - 25) = i by omega, show 20 + i - 25 < 7 by omega]

end Fields

/-- Bit `i` of a compressed parcel. -/
theorem formatC_bit (f3 : BitVec 3) (b12 : BitVec 1) (hi lo : BitVec 5) (op : BitVec 2) (i : Nat) :
    (formatC f3 b12 hi lo op).getLsbD i =
      if i < 2 then op.getLsbD i
      else if i < 7 then lo.getLsbD (i - 2)
      else if i < 12 then hi.getLsbD (i - 7)
      else if i < 13 then b12.getLsbD (i - 12)
      else f3.getLsbD (i - 13) := by
  show ((f3 ++ b12 ++ hi ++ lo ++ op : BitVec (3 + 1 + 5 + 5 + 2))).getLsbD i = _
  simp only [BitVec.getLsbD_append]
  repeat' split
  all_goals first | rfl | (exfalso; omega) | (congr 1; omega)

end Sys2Proof
end

