-- ==== Sys2Proof/Laws/Pieces.lean ====
section
/-! SUPPORT. An access piece by piece: how it splits, what its pieces translate to, which region they lie in, and the numbers
that are read and written through them (spec/20_memory.md R205, R211, R232 to R237). -/

namespace Sys2Proof.Machine

open Sys2Proof

/-! ### Little-endian numbers (R205) -/

/-- A byte below a number of at most 56 bits. -/
theorem byteOr_toNat (b : Byte) (w : Word) (h : w.toNat < 2 ^ 56) :
    (b.setWidth 64 ||| (w <<< 8)).toNat = b.toNat + 256 * w.toNat := by
  have hb := b.isLt
  have e : (w <<< 8).toNat = 2 ^ 8 * w.toNat := by
    rw [BitVec.toNat_shiftLeft, Nat.shiftLeft_eq]; omega
  rw [BitVec.toNat_or, e, Nat.or_comm, BitVec.toNat_setWidth, Nat.mod_eq_of_lt (by omega), ← Nat.two_pow_add_eq_or_of_lt hb]
  omega

theorem leNat_lt (s : State) (a n : Nat) : s.leNat a n < 256 ^ n := by
  induction n generalizing a with
  | zero => simp [State.leNat]
  | succ n ih =>
    have := ih (a + 1); have hb := (s.byteAt a).isLt
    simp only [State.leNat, Nat.pow_succ]; omega

/-- A little-endian read is the number of the bytes. -/
theorem readLE_toNat (s : State) {a n : Nat} (h : n ≤ 8) : (Memory.readLE s.dram a n).toNat = s.leNat a n := by
  induction n generalizing a with
  | zero => rfl
  | succ n ih =>
    have e := ih (a := a + 1) (by omega)
    have hl := leNat_lt s (a + 1) n
    have : (256:Nat) ^ n ≤ 256 ^ 7 := Nat.pow_le_pow_right (by omega) (by omega)
    rw [Memory.readLE, byteOr_toNat _ _ (by rw [e]; omega), e]; rfl

/-- The number of bytes, from the first byte on. -/
theorem bytesNat_succ' (b : Nat → Byte) (n : Nat) :
    bytesNat b (n + 1) = (b 0).toNat + 256 * bytesNat (fun k => b (k + 1)) n := by
  induction n with
  | zero => simp [bytesNat]
  | succ n ih =>
    rw [bytesNat, ih, bytesNat, Nat.pow_succ, Nat.mul_add]
    rw [Nat.mul_comm (256 ^ n) 256, Nat.mul_assoc]; omega

theorem bytesNat_lt (b : Nat → Byte) (n : Nat) : bytesNat b n < 256 ^ n := by
  induction n with
  | zero => simp [bytesNat]
  | succ n ih =>
    have hb := (b n).isLt
    have : 256 ^ n * (b n).toNat ≤ 256 ^ n * 255 := Nat.mul_le_mul_left _ (by omega)
    simp only [bytesNat, Nat.pow_succ]; omega

/-- Byte `k` of a word, as a number. -/
theorem byte_eq_ofInt (w : Word) (k : Nat) :
    (w >>> (8 * k)).setWidth 8 = BitVec.ofInt 8 ((w.toNat : Int) / 256 ^ k) := by
  apply BitVec.eq_of_toNat_eq
  have e : ((w.toNat : Int) / 256 ^ k) = ((w.toNat / 256 ^ k : Nat) : Int) := by rw [Int.natCast_ediv, Int.natCast_pow]; rfl
  rw [e, BitVec.ofInt_natCast, BitVec.toNat_setWidth, BitVec.toNat_ushiftRight, BitVec.toNat_ofNat,
    Nat.shiftRight_eq_div_pow, Nat.pow_mul]

/-! ### Addresses -/

/-- The effective address as a number (R480). -/
theorem ea_toNat (s : State) (rs1 : Reg) (imm : BitVec 12) : (s.ea rs1 imm).toNat = s.address rs1 imm := by
  unfold State.ea State.address State.num
  rw [norm_toNat]
  have : ((s.readX rs1 + imm.signExtend 64).toNat : Int) = (((s.readX rs1).toNat : Int) + imm.toInt) % 2 ^ 64 := by
    rw [BitVec.toNat_add, BitVec.signExtend, BitVec.toNat_ofInt]
    omega
  have e : (s.readX rs1 + imm.signExtend 64).toNat % 2 ^ xlenBits s.xlen
      = ((((s.readX rs1).toNat : Int) + imm.toInt) % 2 ^ xlenBits s.xlen).toNat := by
    cases s.xlen <;> simp only [xlenBits] <;> omega
  exact e

theorem address_lt (s : State) (rs1 : Reg) (imm : BitVec 12) : s.address rs1 imm < 2 ^ xlenBits s.xlen := by
  rw [← ea_toNat, State.ea, norm_toNat]; exact Nat.mod_lt _ (Nat.two_pow_pos _)

/-- The address of byte `k` of an access (R232). -/
theorem pieceAddress_eq (s : State) (va : Word) (k : Nat) :
    norm s.xlen (va + BitVec.ofNat 64 k) = BitVec.ofNat 64 (s.byteAddress va.toNat k) := by
  apply BitVec.eq_of_toNat_eq
  rw [norm_toNat, BitVec.toNat_add, BitVec.toNat_ofNat, BitVec.toNat_ofNat, State.byteAddress]
  cases s.xlen <;> simp only [xlenBits] <;> omega

/-- Where a mapped region begins and ends (R202). -/
def Region.first : Region → Nat
  | .dram => 0x80000000
  | .clint => 0x02000000
  | .plic => 0x0C000000
  | .uart => 0x10000000
  | .virtio => 0x10001000
  | .unmapped => 0
def State.regionEnd (s : State) : Region → Nat
  | .dram => 0x80000000 + s.dramSize
  | .clint => 0x02010000
  | .plic => 0x10000000
  | .uart => 0x10001000
  | .virtio => 0x10002000
  | .unmapped => 0

/-- A mapped region is the addresses from its first to its end. -/
theorem region_iff (s : State) {r : Region} (p : Nat) (hr : r ≠ .unmapped) :
    s.region p = r ↔ r.first ≤ p ∧ p < s.regionEnd r := by
  have key : ∀ q, s.region q = (if 0x80000000 ≤ q ∧ q < 0x80000000 + s.dramSize then .dram
      else if 0x02000000 ≤ q ∧ q < 0x02010000 then .clint else if 0x0C000000 ≤ q ∧ q < 0x10000000 then .plic
      else if 0x10000000 ≤ q ∧ q < 0x10001000 then .uart
      else if 0x10001000 ≤ q ∧ q < 0x10002000 then .virtio else .unmapped) := by
    intro q
    unfold State.region
    simp only [inRange_iff]
    rfl
  rw [key]
  cases r <;> simp only [Region.first, State.regionEnd]
  all_goals first
    | exact absurd rfl hr
    | (constructor
       · intro h; repeat' split at h
         all_goals first | assumption | cases h
       · intro h
         repeat rw [if_neg (by omega)]
         first | rw [if_pos h] | skip)

/-- Between two addresses of one mapped region lies that region. -/
theorem region_interval (s : State) {p q n : Nat} (h : s.region (p + n) = s.region p) (hq : q ≤ n)
    (hu : s.region p ≠ .unmapped) :
    s.region (p + q) = s.region p := by
  rw [region_iff s _ hu] at *
  have := (region_iff s p hu).mp rfl
  omega

/-! ### Translating pieces (R232, R233) -/

/-- The one-byte pieces `j` to `j + c - 1` at the addresses `f`. -/
def bytePieces (f : Nat → Nat) (j c : Nat) : List Piece := (List.range' j c).map fun k => (f k, 1)

@[simp] theorem bytePieces_succ (f : Nat → Nat) (j c : Nat) : bytePieces f j (c + 1) = (f j, 1) :: bytePieces f (j + 1) c := by
  simp [bytePieces, List.range'_succ]

theorem splitAccess_aligned {x : Xlen} {va : Word} {n : Nat} (h : va.toNat % n = 0) : splitAccess x va n = [(va, n)] := if_pos h

theorem splitAccess_misaligned (s : State) {va : Word} {n : Nat} (h : va.toNat % n ≠ 0) :
    splitAccess s.xlen va n = (List.range' 0 n).map fun k => (BitVec.ofNat 64 (s.byteAddress va.toNat k), 1) := by
  rw [splitAccess, if_neg h, List.range_eq_range']
  simp only [pieceAddress_eq]

/-- Pieces that all translate, one after the other. -/
theorem translatePieces_ok (k : Access) (ea : Word) (va : Nat → Word) (ss : Nat → State) (pas : Nat → Nat) (j c : Nat)
    (h : ∀ i, j ≤ i → i < j + c → (ss i).translate k (va i) = .ok (pas i) (ss (i + 1))) :
    (ss j).translatePieces k ea ((List.range' j c).map fun k => (va k, 1)) = .ok (bytePieces pas j c) (ss (j + c)) := by
  induction c generalizing j with
  | zero => rfl
  | succ c ih =>
    rw [List.range'_succ, List.map_cons, State.translatePieces, h j (by omega) (by omega)]
    simp only [Res.mapTval, Res.bind_ok]
    rw [ih (j + 1) fun i h1 h2 => h i (by omega) (by omega)]
    simp only [Res.bind_ok, bytePieces, List.range'_succ, List.map_cons]
    rw [show j + 1 + c = j + (c + 1) by omega]

/-- The first piece `m` that raises. -/
theorem translatePieces_trap (k : Access) (ea : Word) (va : Nat → Word) (ss : Nat → State) (pas : Nat → Nat) (u : State)
    (e : Exc) (j c m : Nat) (hj : j ≤ m) (hm : m < j + c)
    (h : ∀ i, j ≤ i → i < m → (ss i).translate k (va i) = .ok (pas i) (ss (i + 1)))
    (ht : (ss m).translate k (va m) = .trap e (va m) u) :
    (ss j).translatePieces k ea ((List.range' j c).map fun k => (va k, 1)) = .trap e (pieceTval k ea e (va m)) u := by
  induction c generalizing j with
  | zero => omega
  | succ c ih =>
    rw [List.range'_succ, List.map_cons, State.translatePieces]
    rcases Nat.lt_or_ge j m with hlt | hge
    · rw [h j (by omega) (by omega)]
      simp only [Res.mapTval, Res.bind_ok]
      rw [ih (j + 1) (by omega) (by omega) fun i h1 h2 => h i (by omega) (by omega)]
      rfl
    · have : j = m := by omega
      subst this
      rw [ht]; rfl

/-- With translation off an address is its own translation (R241). -/
theorem translate_off {s : State} {k : Access} (h : s.translating k = false) (va : Word) : s.translate k va = .ok va.toNat s := by
  simp [State.translate, h]

/-- What a translation raises has the address as its trap value. -/
theorem translate_tval {s t : State} {k : Access} {va w : Word} {e : Exc} (h : s.translate k va = .trap e w t) : w = va := by
  revert h
  unfold State.translate
  split
  · split
    · unfold State.translateOn; dsimp only
      split
      · unfold State.translateByEntry; split <;> intro h <;> cases h; rfl
      · unfold State.translateByWalk; split <;> intro h <;> cases h; rfl
    · intro h; cases h; rfl
  · intro h; cases h

theorem checkAccess_aligned (s : State) (k : Access) {va : Word} {n : Nat} (h : va.toNat % n = 0) :
    s.checkAccess k va n = (s.translate k va).bind fun pa u =>
      if u.piecesOk [(pa, n)] then .ok [(pa, n)] u else .trap k.accessFault va u := by
  rw [State.checkAccess, splitAccess_aligned h]
  simp only [State.translatePieces]
  cases ht : s.translate k va with
  | ok a t => rfl
  | fatal f => rfl
  | trap e w t =>
    obtain rfl := translate_tval ht
    simp [Res.mapTval]

theorem checkAccess_misaligned (s : State) (k : Access) {va : Word} {n : Nat} (h : va.toNat % n ≠ 0) :
    s.checkAccess k va n = (s.translatePieces k va ((List.range' 0 n).map fun k => (BitVec.ofNat 64 (s.byteAddress va.toNat k), 1))).bind
      fun ps u => if u.piecesOk ps then .ok ps u else .trap k.accessFault va u := by
  rw [State.checkAccess, splitAccess_misaligned s h]

theorem leafAddress_offset (x : Xlen) (va : Word) (p l : Nat) : leafAddress x va p l % 4096 = va.toNat % 4096 := by
  unfold leafAddress Config.pageSize
  dsimp only
  omega

/-- A translation keeps the offset in the page (R253). -/
theorem translate_offset {s t : State} {k : Access} {va : Word} {pa : Nat} (h : s.translate k va = .ok pa t) :
    pa % 4096 = va.toNat % 4096 := by
  revert h
  unfold State.translate
  split
  · split
    · unfold State.translateOn; dsimp only
      split
      · unfold State.translateByEntry; split <;> intro h <;> cases h; exact leafAddress_offset ..
      · unfold State.translateByWalk; split <;> intro h <;> cases h; exact leafAddress_offset ..
    · intro h; cases h
  · intro h; cases h; rfl

/-! ### Regions of pieces (R211, R233) -/

theorem piecesOk_one (u : State) (pa n : Nat) :
    u.piecesOk [(pa, n)] = true ↔ u.region pa ≠ .unmapped ∧ u.region (pa + n - 1) = u.region pa := by
  simp [State.piecesOk, State.allIn]

theorem piecesOk_bytes (u : State) (f : Nat → Nat) (n : Nat) (hn : 0 < n) :
    u.piecesOk (bytePieces f 0 n) = true ↔ ∃ r, r ≠ .unmapped ∧ ∀ k, k < n → u.region (f k) = r := by
  obtain ⟨m, rfl⟩ : ∃ m, n = m + 1 := ⟨n - 1, by omega⟩
  rw [bytePieces_succ, State.piecesOk, ← bytePieces_succ]
  simp only [State.allIn, bytePieces, List.all_map, Bool.and_eq_true, decide_eq_true_eq, List.all_eq_true,
    List.mem_range'_1, Function.comp]
  constructor
  · rintro ⟨h1, h2⟩
    exact ⟨_, h1, fun k hk => (h2 k (by omega)).1⟩
  · rintro ⟨r, h1, h2⟩
    have h0 := h2 0 (by omega)
    refine ⟨by simpa [h0] using h1, fun k hk => ?_⟩
    have := h2 k (by omega)
    simp [this, h0]

/-! ### Reading and writing pieces (R234, R236, R237) -/

/-- One-byte pieces in DRAM are read as the number of their bytes. -/
theorem readPieces_dram (u : State) (f : Nat → Nat) (j c : Nat) (hc : c ≤ 8)
    (h : ∀ k, j ≤ k → k < j + c → u.region (f k) = .dram) :
    ∃ w, u.readPieces (bytePieces f j c) = .ok w u ∧ w.toNat = bytesNat (fun k => u.byteAt (f (j + k))) c := by
  induction c generalizing j with
  | zero => exact ⟨0, rfl, rfl⟩
  | succ c ih =>
    obtain ⟨w, e1, e2⟩ := ih (j + 1) (by omega) fun k h1 h2 => h k (by omega) (by omega)
    have hl := bytesNat_lt (fun k => u.byteAt (f (j + 1 + k))) c
    have h7 : (256:Nat) ^ c ≤ 256 ^ 7 := Nat.pow_le_pow_right (by omega) (by omega)
    refine ⟨(u.byteAt (f j)).setWidth 64 ||| (w <<< 8), ?_, ?_⟩
    · rw [bytePieces_succ, State.readPieces, State.physRead, h j (by omega) (by omega)]
      simp only [Res.bind_ok, e1]
      simp [Memory.readLE, State.byteAt]
    · rw [byteOr_toNat _ _ (by rw [e2]; omega), e2, bytesNat_succ']
      simp only [Nat.add_zero, Nat.add_assoc, Nat.add_comm 1]

/-- One-byte pieces in DRAM at distinct addresses get the bytes of the value, and no other byte changes. -/
theorem writePieces_dram (u : State) (f : Nat → Nat) (j c : Nat) (v : Word)
    (h : ∀ k, j ≤ k → k < j + c → u.region (f k) = .dram)
    (hd : u.dramOk) (hf : ∀ a b, j ≤ a → a < b → b < j + c → f a ≠ f b) :
    ∃ m, u.writePieces (bytePieces f j c) v = .ok () { u with dram := m }
      ∧ (∀ k, k < c → Memory.read m (f (j + k)) = (v >>> (8 * k)).setWidth 8)
      ∧ (∀ b, (∀ k, k < c → b ≠ f (j + k)) → Memory.read m b = Memory.read u.dram b) := by
  induction c generalizing j u v with
  | zero => exact ⟨u.dram, rfl, by omega, fun _ _ => rfl⟩
  | succ c ih =>
    have hj := h j (by omega) (by omega)
    have hin : u.inDram (f j) 1 = true := by
      rw [region_eq_dram] at hj; rw [inDram_iff]; omega
    obtain ⟨m, e1, e2, e3⟩ := ih { u with dram := Memory.writeLE u.dram (f j) 1 v } (j + 1) (v >>> 8)
      (fun k h1 h2 => h k (by omega) (by omega)) (dramOk_writeLE v hd (.inr hin))
      (fun a b h1 h2 h3 => hf a b (by omega) h2 (by omega))
    refine ⟨m, ?_, ?_, ?_⟩
    · rw [bytePieces_succ, State.writePieces, State.physWrite, hj]
      simp only [Res.bind_ok]
      exact e1
    · intro k hk
      cases k with
      | zero =>
        rw [Nat.add_zero, e3 (f j) fun k hk => hf _ _ (by omega) (by omega) (by omega)]
        exact Memory.read_writeLE_in (a := f j) (n := 1) (k := 0) v (by omega) hd.1
      | succ k =>
        have := e2 k (by omega)
        rw [show j + (k + 1) = j + 1 + k by omega, this, ← BitVec.shiftRight_add]
        congr 2; omega
    · intro b hb
      rw [e3 b fun k hk => by have := hb (k + 1) (by omega); rwa [show j + (k + 1) = j + 1 + k by omega] at this]
      have : b ≠ f j := hb 0 (by omega)
      exact Memory.read_writeLE_out (n := 1) _ v (by omega)

/-- One-byte pieces in the UART are read in order (R214). -/
theorem readPieces_uart (u : State) (off j c : Nat)
    (h : ∀ k, j ≤ k → k < j + c → u.region (0x10000000 + (off + k)) = .uart) :
    u.readPieces (bytePieces (fun k => 0x10000000 + (off + k)) j c)
      = .ok (u.uartReads (off + j) c).1 (u.uartReads (off + j) c).2 := by
  induction c generalizing j u with
  | zero => rfl
  | succ c ih =>
    rw [bytePieces_succ, State.readPieces, State.physRead, h j (by omega) (by omega)]
    simp only [Res.bind_ok, Config.uartBase, Nat.add_sub_cancel_left]
    have hz : (u.uartReads (off + j) 1).2.dramSize = u.dramSize := (uartReads_accessed u (off + j) 1).dramSize
    rw [ih _ (j + 1) fun k h1 h2 => by rw [region_of_dramSize hz]; exact h k (by omega) (by omega)]
    simp [State.uartReads, Nat.add_assoc]

theorem writePieces_uart (u : State) (off j c : Nat) (v : Word)
    (h : ∀ k, j ≤ k → k < j + c → u.region (0x10000000 + (off + k)) = .uart) :
    u.writePieces (bytePieces (fun k => 0x10000000 + (off + k)) j c) v = .ok () (u.uartWrites (off + j) c v) := by
  induction c generalizing j u v with
  | zero => rfl
  | succ c ih =>
    rw [bytePieces_succ, State.writePieces, State.physWrite, h j (by omega) (by omega)]
    simp only [Res.bind_ok, Config.uartBase, Nat.add_sub_cancel_left]
    have hz : (u.uartWrites (off + j) 1 v).dramSize = u.dramSize := (uartWrites_accessed u (off + j) 1 v).dramSize
    rw [ih _ (j + 1) _ fun k h1 h2 => by rw [region_of_dramSize hz]; exact h k (by omega) (by omega)]
    simp [State.uartWrites, Nat.add_assoc]

theorem uartReads_lt (s : State) (off n : Nat) (hn : n ≤ 8) : (s.uartReads off n).1.toNat < 256 ^ n := by
  induction n generalizing s off with
  | zero => simp [State.uartReads]
  | succ n ih =>
    have := ih (s.uartRead off).2 (off + 1) (by omega)
    have h7 : (256:Nat) ^ n ≤ 256 ^ 7 := Nat.pow_le_pow_right (by omega) (by omega)
    have hb := (s.uartRead off).1.isLt
    rw [State.uartReads]; dsimp only
    rw [byteOr_toNat _ _ (by omega), Nat.pow_succ]; omega

/-- What a store that retires leaves. -/
theorem retire_dropResv (t : State) (i : Instr) :
    t.dropResv.retire i = { t with resv := none, pc := t.npc i, mcycle := t.mcycle + 1, minstret := t.minstret + 1 } := by
  have h : norm t.xlen (t.npc i) = t.npc i := State.norm_npc t i
  show ({ t with resv := none, pc := norm t.xlen (t.npc i), mcycle := t.mcycle + 1, minstret := t.minstret + 1 } : State) = _
  rw [h]

end Sys2Proof.Machine
end

