-- ==== Sys2Proof/Laws/Forms.lean ====
section
/-! SUPPORT. The load and store forms that statements speak of: what each does with the access it makes, and what the pieces of an
access do on each device (spec/20_memory.md R212 to R215, R234, 42_loadstore.md). -/

namespace Sys2Proof.Machine

open Sys2Proof

/-! ### The forms -/

theorem loadForm_width {s : State} {rd rs1 : Reg} {imm : BitVec 12} {i : Instr} {n : Nat} {put : State → Nat → State}
    (h : LoadForm s rd rs1 imm i n put) : n = 1 ∨ n = 2 ∨ n = 4 ∨ n = 8 := by cases h <;> simp

theorem storeForm_width {s : State} {rs1 rs2 : Reg} {imm : BitVec 12} {i : Instr} {n : Nat} {v : Word}
    (h : StoreForm s rs1 rs2 imm i n v) : n = 1 ∨ n = 2 ∨ n = 4 ∨ n = 8 := by cases h <;> simp

theorem writeX_norm (s : State) (r : Reg) (v : Word) : s.writeX r (norm s.xlen v) = s.writeX r v := by
  unfold State.writeX; simp

/-- The number of a word's low bits, read as signed. -/
theorem signedAt_toInt {w : Nat} (hw : 0 < w) (v : Word) : signedAt w v.toNat = (v.setWidth w : BitVec w).toInt := by
  rw [BitVec.toInt_eq_toNat_cond, BitVec.toNat_setWidth]
  unfold signedAt
  obtain ⟨k, rfl⟩ : ∃ k, w = k + 1 := ⟨w - 1, by omega⟩
  have e : ((v.toNat : Int) % 2 ^ (k + 1)) = ((v.toNat % 2 ^ (k + 1) : Nat) : Int) := by
    rw [Int.natCast_emod, Int.natCast_pow]; rfl
  have e2 : (2 : Int) ^ (k + 1) = ((2 ^ (k + 1) : Nat) : Int) := by rw [Int.natCast_pow]; rfl
  have e3 : (2 : Int) ^ (k + 1 - 1) = ((2 ^ k : Nat) : Int) := by rw [Int.natCast_pow]; rfl
  rw [e, e2, e3, Nat.pow_succ]
  generalize v.toNat % (2 ^ k * 2) = q
  split <;> split <;> omega

theorem writeX_signed (s : State) (r : Reg) {w : Nat} (hw : 0 < w) (v : Word) :
    s.writeX r (sextX s.xlen (v.setWidth w : BitVec w)) = s.writeX r (BitVec.ofInt 64 (signedAt w v.toNat)) := by
  rw [sextX, writeX_norm, signedAt_toInt hw]; rfl

theorem writeX_unsigned (s : State) (r : Reg) {w : Nat} (_h64 : w ≤ 64) {v : Word} (hv : v.toNat < 2 ^ w) :
    s.writeX r (zextX s.xlen (v.setWidth w : BitVec w)) = s.writeX r (BitVec.ofNat 64 v.toNat) := by
  rw [zextX, writeX_norm]
  congr 1
  apply BitVec.eq_of_toNat_eq
  simp only [BitVec.toNat_setWidth, Nat.mod_eq_of_lt hv, BitVec.toNat_ofNat]

/-- A load form reads memory and gives its destination what it read. -/
theorem loadForm_exec {s : State} {rd rs1 : Reg} {imm : BitVec 12} {i : Instr} {n : Nat} {put : State → Nat → State}
    (h : LoadForm s rd rs1 imm i n put) : ∃ g : State → Word → State,
      exec i s = (s.memRead (s.ea rs1 imm) n).complete (fun v t => (g t v).retire i)
      ∧ ∀ t v, t.xlen = s.xlen → v.toNat < 256 ^ n → g t v = put t v.toNat := by
  cases h with
  | lb => exact ⟨_, rfl, fun t v hx _ => by rw [← hx]; exact writeX_signed t rd (by omega) v⟩
  | lh => exact ⟨_, rfl, fun t v hx _ => by rw [← hx]; exact writeX_signed t rd (by omega) v⟩
  | lw => exact ⟨_, rfl, fun t v hx _ => by rw [← hx]; exact writeX_signed t rd (by omega) v⟩
  | ld h64 => exact ⟨_, inMode_of_eq h64, fun t v _ _ => by simp [double]⟩
  | lbu => exact ⟨_, rfl, fun t v hx hv => by rw [← hx]; exact writeX_unsigned t rd (by omega) (by simpa using hv)⟩
  | lhu => exact ⟨_, rfl, fun t v hx hv => by rw [← hx]; exact writeX_unsigned t rd (by omega) (by simpa using hv)⟩
  | lwu h64 => exact ⟨_, inMode_of_eq h64, fun t v hx hv => by
      rw [← hx]; exact writeX_unsigned t rd (by omega) (by simpa using hv)⟩
  | flw hf => exact ⟨_, by
      rw [exec, execFlw, fpLoad, fpGate, if_neg (by simpa [Mstatus.fsOff] using hf)], fun t v _ _ => by
      simp only [State.setFsDirty, boxSingle, nanBox, State.writeF]
      rw [show (v.setWidth 32 : BitVec 32) = BitVec.ofNat 32 v.toNat from by
        apply BitVec.eq_of_toNat_eq; simp]⟩
  | fld hf => exact ⟨_, by
      rw [exec, execFld, fpLoad, fpGate, if_neg (by simpa [Mstatus.fsOff] using hf)], fun t v _ _ => by
      simp [State.setFsDirty, boxDouble, State.writeF]⟩

/-- A store form writes its value to memory. -/
theorem storeForm_exec {s : State} {rs1 rs2 : Reg} {imm : BitVec 12} {i : Instr} {n : Nat} {v : Word}
    (h : StoreForm s rs1 rs2 imm i n v) :
    exec i s = (s.memWrite (s.ea rs1 imm) n v).complete fun _ t => t.retire i := by
  cases h with
  | sd h64 => exact inMode_of_eq h64
  | fsw hf => rw [exec, execFsw, fpStore, fpGate, if_neg (by simpa [Mstatus.fsOff] using hf)]; rfl
  | fsd hf => rw [exec, execFsd, fpStore, fpGate, if_neg (by simpa [Mstatus.fsOff] using hf)]; rfl
  | _ => rfl

/-! ### An access without translation (R211, R232, R233) -/

/-- Its pieces are its own addresses. -/
theorem checkAccess_off {s : State} {k : Access} (h : s.translating k = false) {ea : Word} {n : Nat} :
    s.checkAccess k ea n
      = (let ps := if ea.toNat % n = 0 then [(ea.toNat, n)] else bytePieces (s.byteAddress ea.toNat) 0 n
        if s.piecesOk ps then .ok ps s else .trap k.accessFault ea s) := by
  by_cases ha : ea.toNat % n = 0
  · rw [checkAccess_aligned s k ha, translate_off h]; simp [ha]
  · rw [checkAccess_misaligned s k ha]
    have := translatePieces_ok k ea (fun i => BitVec.ofNat 64 (s.byteAddress ea.toNat i)) (fun _ => s)
      (fun i => s.byteAddress ea.toNat i) 0 n (fun i _ _ => by
        rw [translate_off h, BitVec.toNat_ofNat]
        congr 1; rw [State.byteAddress]; cases s.xlen <;> simp only [xlenBits] <;> omega)
    rw [this]; simp [ha]

/-- They pass the region check exactly when the bytes lie in one mapped region. -/
theorem piecesOk_liesIn (s : State) {a n : Nat} (hn : n = 1 ∨ n = 2 ∨ n = 4 ∨ n = 8) (ha : a < 2 ^ xlenBits s.xlen) :
    s.piecesOk (if a % n = 0 then [(a, n)] else bytePieces (s.byteAddress a) 0 n) = true
      ↔ ∃ r, r ≠ .unmapped ∧ s.liesIn r a n := by
  split
  · rename_i h
    have ha' : a + n ≤ 2 ^ xlenBits s.xlen := by
      cases hx : s.xlen <;> rw [hx] at ha <;> simp only [xlenBits] at ha ⊢ <;> rcases hn with rfl | rfl | rfl | rfl <;> omega
    have hb : ∀ k, k < n → s.byteAddress a k = a + k := fun k hk => by
      exact Nat.mod_eq_of_lt (by omega)
    rw [piecesOk_one]
    constructor
    · rintro ⟨h1, h2⟩
      refine ⟨_, h1, fun k hk => ?_⟩
      rw [hb k hk]
      exact region_interval s (n := n - 1) (by rw [← h2]; congr 1; omega) (by omega) h1
    · rintro ⟨r, h1, h2⟩
      have e0 := h2 0 (by omega); have e1 := h2 (n - 1) (by omega)
      rw [hb 0 (by omega)] at e0; rw [hb (n-1) (by omega)] at e1
      rw [Nat.add_zero] at e0
      rw [e0, show a + n - 1 = a + (n - 1) by omega, e1]; exact ⟨h1, rfl⟩
  · exact piecesOk_bytes s _ n (by omega)

/-! ### Pieces on the devices -/

theorem wordDevice_mapped {r : Region} {base : Nat} (h : WordDevice r base) : r ≠ .unmapped := by cases h <;> decide

/-- An access of a device of 32-bit registers. -/
theorem physRead_word {u : State} {r : Region} {base off : Nat} (h : WordDevice r base) (hr : u.region (base + off) = r)
    (n : Nat) : u.physRead (base + off) n = u.wordDeviceRead r off n := by
  rw [State.physRead, hr]
  cases h <;> simp only [Config.clintBase, Config.plicBase, Config.virtioBase, Nat.add_sub_cancel_left]

theorem physWrite_word {u : State} {r : Region} {base off : Nat} (h : WordDevice r base) (hr : u.region (base + off) = r)
    (n : Nat) (v : Word) : u.physWrite (base + off) n v = u.wordDeviceWrite r off n v := by
  rw [State.physWrite, hr]
  cases h <;> simp only [Config.clintBase, Config.plicBase, Config.virtioBase, Nat.add_sub_cancel_left]

/-- A piece of one or two bytes there is fatal, whatever follows it (R212). -/
theorem readPieces_narrow {u : State} {r : Region} {base pa n : Nat} {ps : List Piece} (h : WordDevice r base)
    (hr : u.region pa = r) (hn : n < 4) : u.readPieces ((pa, n) :: ps) = .fatal .mmioWidth := by
  rw [State.readPieces, State.physRead, hr]
  cases h <;> simp only [State.wordDeviceRead, if_neg (show ¬ n = 4 by omega), if_neg (show ¬ n = 8 by omega)] <;> rfl

theorem writePieces_narrow {u : State} {r : Region} {base pa n : Nat} {ps : List Piece} {v : Word} (h : WordDevice r base)
    (hr : u.region pa = r) (hn : n < 4) : u.writePieces ((pa, n) :: ps) v = .fatal .mmioWidth := by
  rw [State.writePieces, State.physWrite, hr]
  cases h <;> simp only [State.wordDeviceWrite, if_neg (show ¬ n = 4 by omega), if_neg (show ¬ n = 8 by omega)] <;> rfl

/-- The one piece of an aligned access of a word or a doubleword there (R213). -/
theorem readPieces_word4 {u : State} {r : Region} {base off : Nat} (h : WordDevice r base) (hr : u.region (base + off) = r) :
    u.readPieces [(base + off, 4)] = .ok ((u.deviceRead32 r off).1.setWidth 64) (u.deviceRead32 r off).2 := by
  simp [State.readPieces, physRead_word h hr, State.wordDeviceRead]

theorem readPieces_word8 {u : State} {r : Region} {base off : Nat} (h : WordDevice r base) (hr : u.region (base + off) = r) :
    u.readPieces [(base + off, 8)]
      = (let low := u.deviceRead32 r off; let high := low.2.deviceRead32 r (off + 4); .ok (high.1 ++ low.1) high.2) := by
  simp [State.readPieces, physRead_word h hr, State.wordDeviceRead]

theorem writePieces_word4 {u : State} {r : Region} {base off : Nat} {v : Word} (h : WordDevice r base)
    (hr : u.region (base + off) = r) :
    u.writePieces [(base + off, 4)] v = .ok () (u.deviceWrite32 r off (v.setWidth 32)) := by
  simp [State.writePieces, physWrite_word h hr, State.wordDeviceWrite]

theorem writePieces_word8 {u : State} {r : Region} {base off : Nat} {v : Word} (h : WordDevice r base)
    (hr : u.region (base + off) = r) :
    u.writePieces [(base + off, 8)] v
      = .ok () ((u.deviceWrite32 r off (v.setWidth 32)).deviceWrite32 r (off + 4) (v.extractLsb 63 32)) := by
  simp [State.writePieces, physWrite_word h hr, State.wordDeviceWrite]

/-- One-byte pieces anywhere in the UART are read in order, each in the state that the one before left (R214, R234). -/
theorem readPieces_uartBytes (us : Nat → State) (f offs : Nat → Nat) (j c : Nat) (hc : c ≤ 8)
    (hr : ∀ k, j ≤ k → k < j + c → (us j).region (f k) = .uart ∧ f k = 0x10000000 + offs k)
    (hu : ∀ k, j ≤ k → k < j + c → us (k + 1) = ((us k).uartRead (offs k)).2) :
    ∃ w, (us j).readPieces (bytePieces f j c) = .ok w (us (j + c))
      ∧ w.toNat = bytesNat (fun k => ((us (j + k)).uartRead (offs (j + k))).1) c := by
  induction c generalizing j with
  | zero => exact ⟨0, rfl, rfl⟩
  | succ c ih =>
    have hz : (us (j + 1)).dramSize = (us j).dramSize := by rw [hu j (by omega) (by omega)]; rfl
    obtain ⟨w, e1, e2⟩ := ih (j + 1) (by omega)
      (fun k h1 h2 => by rw [region_of_dramSize hz]; exact hr k (by omega) (by omega))
      (fun k h1 h2 => hu k (by omega) (by omega))
    have hl := bytesNat_lt (fun k => ((us (j + 1 + k)).uartRead (offs (j + 1 + k))).1) c
    have h7 : (256:Nat) ^ c ≤ 256 ^ 7 := Nat.pow_le_pow_right (by omega) (by omega)
    refine ⟨((us j).uartRead (offs j)).1.setWidth 64 ||| (w <<< 8), ?_, ?_⟩
    · have h0 := hr j (by omega) (by omega)
      have e0 : f j - Config.uartBase = offs j := by rw [h0.2]; exact Nat.add_sub_cancel_left ..
      rw [bytePieces_succ, State.readPieces, State.physRead, h0.1]
      simp only [Res.bind_ok, e0]
      have e3 : ((us j).uartReads (offs j) 1).2 = us (j + 1) := by rw [hu j (by omega) (by omega)]; rfl
      rw [e3, e1, show j + 1 + c = j + (c + 1) by omega]
      simp [State.uartReads]
    · rw [byteOr_toNat _ _ (by rw [e2]; omega), e2, bytesNat_succ']
      simp only [Nat.add_zero, Nat.add_assoc, Nat.add_comm 1]

theorem writePieces_uartBytes (us : Nat → State) (f offs : Nat → Nat) (v : Word) (j c : Nat)
    (hr : ∀ k, j ≤ k → k < j + c → (us j).region (f k) = .uart ∧ f k = 0x10000000 + offs k)
    (hu : ∀ k, j ≤ k → k < j + c → us (k + 1) = (us k).uartWrite (offs k) ((v >>> (8 * (k - j))).setWidth 8)) :
    (us j).writePieces (bytePieces f j c) v = .ok () (us (j + c)) := by
  induction c generalizing j v with
  | zero => rfl
  | succ c ih =>
    have e := hu j (by omega) (by omega)
    rw [Nat.sub_self] at e
    have hz : (us (j + 1)).dramSize = (us j).dramSize := by rw [e]; exact (uartWrite_accessed ..).dramSize
    have h0 := hr j (by omega) (by omega)
    have e0 : f j - Config.uartBase = offs j := by rw [h0.2]; exact Nat.add_sub_cancel_left ..
    rw [bytePieces_succ, State.writePieces, State.physWrite, h0.1]
    simp only [Res.bind_ok, e0]
    have e3 : (us j).uartWrites (offs j) 1 v = us (j + 1) := by rw [e]; simp [State.uartWrites]
    rw [e3, show j + (c + 1) = j + 1 + c by omega]
    refine ih (v >>> (8 * 1)) (j + 1) (fun k h1 h2 => by rw [region_of_dramSize hz]; exact hr k (by omega) (by omega))
      fun k h1 h2 => ?_
    rw [hu k (by omega) (by omega), ← BitVec.shiftRight_add,
      show 8 * 1 + 8 * (k - (j + 1)) = 8 * (k - j) by omega]

end Sys2Proof.Machine
end

