-- ==== Sys2Proof/Laws/Tick.lean ====
section
/-! SUPPORT. What the bus tick can change, and that it keeps the invariants of DRAM and of the PLIC. -/

namespace Sys2Proof.Machine

open Sys2Proof

/-- `t` comes from `s` by DMA: only DRAM, the reservation, the disk and the virtio registers may differ; a reservation is kept or
dropped; DRAM stays well-formed. -/
structure DmaDone (s t : State) : Prop where
  eq   : t = { s with dram := t.dram, resv := t.resv, disk := t.disk, virtio := t.virtio }
  dram : s.dramOk → t.dramOk
  resv : t.resv = s.resv ∨ t.resv = none

theorem DmaDone.refl (s : State) : DmaDone s s := ⟨rfl, id, .inl rfl⟩

theorem DmaDone.trans {s t u : State} (h : DmaDone s t) (k : DmaDone t u) : DmaDone s u := by
  refine ⟨?_, fun x => k.dram (h.dram x), ?_⟩
  · have e1 := h.eq
    have e2 := k.eq
    rw [e1] at e2
    exact e2
  · rcases k.resv with e | e
    · rw [e]; exact h.resv
    · exact .inr e

theorem DmaDone.of_disk (s : State) (d : List Byte) : DmaDone s { s with disk := d } := ⟨rfl, id, .inl rfl⟩

theorem DmaDone.of_virtio (s : State) (v : Virtio) : DmaDone s { s with virtio := v } := ⟨rfl, id, .inl rfl⟩

theorem dmaWriteBytes_done {s t : State} {pa : Nat} {bs : List Byte} (h : s.dmaWriteBytes pa bs = .ok t) : DmaDone s t := by
  unfold State.dmaWriteBytes at h
  split at h
  · cases h; exact .refl _
  · split at h
    · cases h
      refine ⟨rfl, fun d => ?_, .inr rfl⟩
      exact dramOk_of_eq rfl rfl (dramOk_writeBytes bs d (.inr (by assumption)))
    · cases h

theorem scatter_done {s t : State} {data : List Byte} {bufs : List Buffer} (h : s.scatter data bufs = .ok t) :
    DmaDone s t := by
  induction bufs generalizing s data with
  | nil => cases h; exact .refl _
  | cons b bs ih =>
    unfold State.scatter at h
    split at h
    · exact (dmaWriteBytes_done (by assumption)).trans (ih h)
    · cases h

theorem gather_done {s t : State} {off : Nat} {bufs : List Buffer} (h : s.gather off bufs = .ok t) : DmaDone s t := by
  induction bufs generalizing s off with
  | nil => cases h; exact .refl _
  | cons b bs ih =>
    unfold State.gather at h
    split at h
    · exact (DmaDone.of_disk s _).trans (ih h)
    · cases h

theorem transfer_done {s t : State} {kind sector used : Nat} {status : Byte} {data : List Buffer}
    (h : s.transfer kind sector data = .ok (t, status, used)) : DmaDone s t := by
  unfold State.transfer at h
  dsimp only at h
  split at h
  · split at h
    · split at h
      · cases h; exact scatter_done (by assumption)
      · cases h
    · cases h; exact .refl _
  · split at h
    · split at h
      · split at h
        · cases h; exact gather_done (by assumption)
        · cases h
      · cases h; exact .refl _
    · cases h; exact .refl _

theorem request_done {s t : State} {i n : Nat} (h : s.request i = .ok (t, n)) : DmaDone s t := by
  unfold State.request at h
  split at h
  · cases h
  · split at h
    · dsimp only at h
      split at h
      · cases h
      · split at h
        · cases h
        · cases h
          exact (transfer_done (by assumption)).trans (dmaWriteBytes_done (by assumption))
    · cases h
  · cases h

theorem usedUpdate_done {s t : State} {i n : Nat} (h : s.usedUpdate i n = .ok t) : DmaDone s t := by
  unfold State.usedUpdate at h
  dsimp only at h
  split at h
  · cases h
  · split at h
    · cases h
    · split at h
      · cases h
      · cases h
        exact ((dmaWriteBytes_done (by assumption)).trans (dmaWriteBytes_done (by assumption))).trans (.of_virtio _ _)

theorem serve_done {fuel : Nat} {s t : State} (h : State.serve fuel s = .ok t) : DmaDone s t := by
  induction fuel generalizing s with
  | zero => cases h
  | succ fuel ih =>
    unfold State.serve at h
    split at h
    · cases h
    · split at h
      · cases h; exact .refl _
      · split at h
        · cases h
        · split at h
          · cases h
          · split at h
            · cases h
            · exact ((request_done (by assumption)).trans (usedUpdate_done (by assumption))).trans
                ((DmaDone.of_virtio _ _).trans (ih h))

theorem virtioTick_done {s t : State} (h : s.virtioTick = .ok t) : DmaDone s t := by
  unfold State.virtioTick at h
  split at h
  · dsimp only at h
    split at h
    · exact (DmaDone.of_virtio s _).trans (serve_done h)
    · cases h; exact .of_virtio _ _
  · cases h; exact .refl _

/-! ### What a fatal case leaves (R807) -/

theorem dmaRead_left {s : State} {pa n : Nat} {e : Fault × State} (h : s.dmaRead pa n = .error e) : e.2 = s := by
  unfold State.dmaRead at h
  split at h
  · cases h
  · cases h; rfl

theorem dmaReadBytes_left {s : State} {pa n : Nat} {e : Fault × State} (h : s.dmaReadBytes pa n = .error e) : e.2 = s := by
  unfold State.dmaReadBytes at h
  split at h
  · cases h
  · split at h
    · cases h
    · cases h; rfl

theorem dmaWriteBytes_left {s : State} {pa : Nat} {bs : List Byte} {e : Fault × State} (h : s.dmaWriteBytes pa bs = .error e) :
    e.2 = s := by
  unfold State.dmaWriteBytes at h
  split at h
  · cases h
  · split at h
    · cases h
    · cases h; rfl

theorem chain_left {s : State} {fuel j : Nat} {e : Fault × State} (h : s.chain fuel j = .error e) : e.2 = s := by
  induction fuel generalizing j with
  | zero => cases h; rfl
  | succ fuel ih =>
    unfold State.chain at h
    split at h
    · cases h; rfl
    · dsimp only at h
      split at h
      · split at h
        · split at h
          · cases h
          · cases h; exact ih (by assumption)
        · cases h
      · cases h; rfl

theorem scatter_left {s : State} {data : List Byte} {bufs : List Buffer} {e : Fault × State}
    (h : s.scatter data bufs = .error e) : DmaDone s e.2 := by
  induction bufs generalizing s data with
  | nil => cases h
  | cons b bs ih =>
    unfold State.scatter at h
    split at h
    · exact (dmaWriteBytes_done (by assumption)).trans (ih h)
    · cases h
      rw [dmaWriteBytes_left (by assumption)]
      exact .refl s

theorem gather_left {s : State} {off : Nat} {bufs : List Buffer} {e : Fault × State} (h : s.gather off bufs = .error e) :
    DmaDone s e.2 := by
  induction bufs generalizing s off with
  | nil => cases h
  | cons b bs ih =>
    unfold State.gather at h
    split at h
    · exact (DmaDone.of_disk s _).trans (ih h)
    · cases h
      rw [dmaReadBytes_left (by assumption)]
      exact .refl s

theorem transfer_left {s : State} {kind sector : Nat} {data : List Buffer} {e : Fault × State}
    (h : s.transfer kind sector data = .error e) : DmaDone s e.2 := by
  unfold State.transfer at h
  dsimp only at h
  split at h
  · split at h
    · split at h
      · cases h
      · cases h; exact scatter_left (by assumption)
    · cases h
  · split at h
    · split at h
      · split at h
        · cases h
        · cases h; exact gather_left (by assumption)
      · cases h
    · cases h

theorem request_left {s : State} {i : Nat} {e : Fault × State} (h : s.request i = .error e) : DmaDone s e.2 := by
  unfold State.request at h
  split at h
  · cases h
    rw [chain_left (by assumption)]
    exact .refl s
  · split at h
    · dsimp only at h
      split at h
      · cases h; exact transfer_left (by assumption)
      · split at h
        · cases h
          rw [dmaWriteBytes_left (by assumption)]
          exact transfer_done (by assumption)
        · cases h
    · cases h; exact .refl s
  · cases h; exact .refl s

theorem usedUpdate_left {s : State} {i n : Nat} {e : Fault × State} (h : s.usedUpdate i n = .error e) : DmaDone s e.2 := by
  unfold State.usedUpdate at h
  dsimp only at h
  split at h
  · cases h
    rw [dmaRead_left (by assumption)]
    exact .refl s
  · split at h
    · cases h
      rw [dmaWriteBytes_left (by assumption)]
      exact .refl s
    · split at h
      · cases h
        rw [dmaWriteBytes_left (by assumption)]
        exact dmaWriteBytes_done (by assumption)
      · cases h

theorem serve_left {fuel : Nat} {s : State} {e : Fault × State} (h : State.serve fuel s = .error e) : DmaDone s e.2 := by
  induction fuel generalizing s with
  | zero => cases h; exact .refl s
  | succ fuel ih =>
    unfold State.serve at h
    split at h
    · cases h
      rw [dmaRead_left (by assumption)]
      exact .refl s
    · split at h
      · cases h
      · split at h
        · cases h
          rw [dmaRead_left (by assumption)]
          exact .refl s
        · split at h
          · cases h; exact request_left (by assumption)
          · split at h
            · cases h
              exact (request_done (by assumption)).trans (usedUpdate_left (by assumption))
            · exact ((request_done (by assumption)).trans (usedUpdate_done (by assumption))).trans
                ((DmaDone.of_virtio _ _).trans (ih h))

/-- A bus tick that ends in a fatal case leaves DMA and nothing else. -/
theorem tickLeft_done (s : State) : DmaDone s s.tickLeft := by
  unfold State.tickLeft
  split
  · rename_i e h
    unfold State.virtioTick at h
    split at h
    · dsimp only at h
      split at h
      · exact (DmaDone.of_virtio s _).trans (serve_left h)
      · cases h
    · cases h
  · exact virtioTick_done (by assumption)

theorem Res.Reaches.stateOr {α : Type} {s : State} {r : Res α} (h : r.Reaches Translated s) : Translated s (r.stateOr s) := by
  cases r with
  | ok a t => exact h
  | trap e v t => exact h
  | fatal g => exact .refl s

theorem accessLeft_translated (s : State) (i : Instr) : Translated s (s.accessLeft i) := by
  unfold State.accessLeft
  split
  · exact .refl s
  · exact (checkAccess_reaches s _ _ _).stateOr

/-- An instruction that ends in a final outcome leaves translations and nothing else. -/
theorem hartLeft_translated (s : State) : Translated s s.hartLeft := by
  have h := fetchInstr_reaches s
  unfold State.hartLeft
  split
  · rename_i r s1 hf
    rw [hf] at h
    split
    · exact h.trans (accessLeft_translated s1 _)
    · exact h
  · rename_i hf
    rw [hf] at h
    exact h
  · exact .refl s

/-- `t` comes from `s` by a bus tick. -/
structure Ticked (s t : State) : Prop where
  eq   : t = { s with dram := t.dram, resv := t.resv, disk := t.disk, virtio := t.virtio, clint := t.clint, uart := t.uart,
                      ttyIn := t.ttyIn, plic := t.plic, eip0 := t.eip0, eip1 := t.eip1 }
  dram : s.dramOk → t.dramOk
  plic : s.plicOk → t.plicOk
  resv : t.resv = s.resv ∨ t.resv = none
  time : t.clint = s.clint.tick

theorem asserted_sources (s : State) : ∀ i ∈ s.asserted, 1 ≤ i ∧ i ≤ 53 := by
  intro i hi
  unfold State.asserted at hi
  rcases List.mem_append.mp hi with h | h
  · split at h
    · simp only [List.mem_singleton, Config.virtioIrqId] at h; omega
    · cases h
  · split at h
    · simp only [List.mem_singleton, Config.uartIrqId] at h; omega
    · cases h

/-- The transmitter's part of the UART's tick (R786). -/
theorem Uart.sent_eq (u : Uart) : u.sent = { u with txBusy := false, threIp := u.threIp || u.txBusy } := by
  obtain ⟨_, _, _, _, _, _, _, _, _, busy⟩ := u
  cases busy <;> simp [Uart.sent]

/-- The UART's tick changes the UART and the TTY's answers only. -/
theorem uartTick_eq (s : State) : s.uartTick = { s with uart := s.uartTick.uart, ttyIn := s.uartTick.ttyIn } := by
  unfold State.uartTick State.ttyGet
  dsimp only
  split
  · rfl
  · split <;> rfl

/-- What a bus tick can do (R702). -/
theorem busTick_ticked {s t : State} (h : busTick s = .next t) : Ticked s t := by
  unfold busTick at h
  split at h
  · cases h
  · rename_i s1 h1
    cases h
    have hd := virtioTick_done h1
    have hu := uartTick_eq { s1 with clint := s1.clint.tick }
    rw [hu]
    refine ⟨?_, fun d => ?_, fun p => ?_, hd.resv, ?_⟩
    · unfold State.plicTick
      rw [hd.eq]
    · exact dramOk_of_eq (s := s1) rfl rfl (hd.dram d)
    · have hp : s1.plicOk := plicOk_of_eq (by rw [hd.eq]) p
      exact Plic.ok_update (asserted_sources _) hp
    · show s1.clint.tick = s.clint.tick
      rw [hd.eq]

/-! ### The state after a step, and the run -/

@[simp] theorem State.settle_next (s t : State) : s.settle (.next t) = t := rfl
@[simp] theorem State.settle_fault (s : State) (f : Fault) : s.settle (.fault f) = { s.left with fatal := some f } := rfl
@[simp] theorem State.settle_refused (s : State) (q : Refusal) :
    s.settle (.refused q) = { s.left with refused := some q } := rfl

@[simp] theorem State.run_zero (s : State) : s.run 0 = (.running, s) := rfl

theorem State.run_succ_of_running {s : State} (h : verdict (step s) = .running) (n : Nat) :
    s.run (n + 1) = (s.settle (step s)).run n := by simp [State.run, h]

theorem State.run_succ_of_stop {s : State} (h : verdict (step s) ≠ .running) (n : Nat) :
    s.run (n + 1) = (verdict (step s), s.settle (step s)) := by simp [State.run, h]

/-- A step that is already final leaves nothing new. -/
theorem State.left_of_fatal {s : State} {f : Fault} (h : s.fatal = some f) : s.left = s := by
  unfold State.left
  rw [h]

end Sys2Proof.Machine
end

