-- ==== Sys2Proof/Laws/Inv.lean ====
section
/-! SUPPORT. Which updates keep the invariant `State.Inv`. -/

namespace Sys2Proof.Machine

open Sys2Proof

/-! ### XLEN-bit registers -/

/-- `widthOk` register by register. -/
theorem widthOk_iff (s : State) : s.widthOk ↔
    (∀ v ∈ s.x.toList, norm s.xlen v = v) ∧ norm s.xlen s.pc = s.pc ∧ norm s.xlen s.csr.mtvec = s.csr.mtvec
      ∧ norm s.xlen s.csr.stvec = s.csr.stvec ∧ norm s.xlen s.csr.mepc = s.csr.mepc ∧ norm s.xlen s.csr.sepc = s.csr.sepc
      ∧ norm s.xlen s.csr.mcause = s.csr.mcause ∧ norm s.xlen s.csr.scause = s.csr.scause
      ∧ norm s.xlen s.csr.mtval = s.csr.mtval ∧ norm s.xlen s.csr.stval = s.csr.stval
      ∧ norm s.xlen s.csr.mscratch = s.csr.mscratch ∧ norm s.xlen s.csr.sscratch = s.csr.sscratch
      ∧ norm s.xlen s.csr.satp = s.csr.satp := by
  unfold State.widthOk State.xlenWords
  simp only [List.mem_append, List.mem_cons, List.not_mem_nil, or_false, or_imp, forall_and, forall_eq]

/-- The XLEN-bit value of a register write is XLEN-bit. -/
theorem width_writeX (s : State) (r : Reg) (v : Word) (h : ∀ u ∈ s.x.toList, norm s.xlen u = u) :
    ∀ u ∈ (s.writeX r v).x.toList, norm s.xlen u = u := by
  intro u hu
  unfold State.writeX at hu
  split at hu
  · exact h u hu
  · rw [Vector.toList_set] at hu
    rcases List.mem_or_eq_of_mem_set hu with hu | hu
    · exact h u hu
    · rw [hu, norm_norm]

/-! ### Keeping the invariant -/

theorem inv_writeX {s : State} (r : Reg) (v : Word) (h : s.Inv) : (s.writeX r v).Inv := by
  have hw := (widthOk_iff s).mp h.width
  refine ⟨?_, dramOk_of_eq (by simp) (by simp) h.dram, ?_, ?_, plicOk_of_eq (by simp) h.plic, ?_, by simpa using h.marks,
    sizeOk_of_eq (by simp) h.size⟩
  · simpa [State.pcsEven] using h.pcs
  · simpa [State.csrsLegal] using h.csrs
  · rw [widthOk_iff]
    simp only [State.writeX_xlen, State.writeX_pc, State.writeX_csr]
    exact ⟨width_writeX s r v hw.1, hw.2⟩
  · intro q hq
    rw [region_of_dramSize (s := s) (by simp)]
    exact h.resv q (by simpa using hq)

/-- An update of fields that the invariant does not read. -/
theorem inv_of_eq {s t : State} (h : s.Inv)
    (e : t = { s with f := t.f, priv := t.priv, mstatus := t.mstatus, mcycle := t.mcycle, minstret := t.minstret,
                      eip0 := t.eip0, eip1 := t.eip1, tlb := t.tlb, tlbDraws := t.tlbDraws, tlbDrawn := t.tlbDrawn,
                      clint := t.clint, uart := t.uart, virtio := t.virtio, disk := t.disk, ttyIn := t.ttyIn,
                      ttyOut := t.ttyOut, tohost := t.tohost }) : t.Inv := by
  rw [e]
  exact ⟨h.pcs, h.dram, h.csrs, h.width, h.plic, h.resv, h.marks, h.size⟩

theorem inv_dropResv {s : State} (h : s.Inv) : s.dropResv.Inv :=
  ⟨h.pcs, h.dram, h.csrs, h.width, h.plic, (fun _ hr => nomatch hr), h.marks, h.size⟩

theorem inv_setPc {s : State} {t : Word} (h : s.Inv) (he : t.getLsbD 0 = false) (hn : norm s.xlen t = t) :
    ({ s with pc := t } : State).Inv := by
  have hw := (widthOk_iff s).mp h.width
  exact ⟨⟨he, h.pcs.2⟩, h.dram, h.csrs, (widthOk_iff _).mpr ⟨hw.1, hn, hw.2.2⟩, h.plic, h.resv, h.marks, h.size⟩

theorem inv_retireAt {s : State} {t : Word} (h : s.Inv) (he : t.getLsbD 0 = false) : (s.retireAt t).Inv :=
  inv_of_eq (inv_setPc h (t := norm s.xlen t) (by rw [getLsbD_norm_low _ _ (by omega)]; exact he) (norm_norm _ _)) rfl

/-- An instruction is 2 or 4 bytes long. -/
theorem length_cases (i : Instr) : i.length = 2 ∨ i.length = 4 := by
  cases i <;> first | exact .inl rfl | exact .inr rfl

theorem npc_even {s : State} (i : Instr) (h : s.pc.getLsbD 0 = false) : (s.npc i).getLsbD 0 = false := by
  unfold State.npc
  rw [getLsbD_norm_low _ _ (by omega)]
  refine even_add h ?_
  rcases length_cases i with e | e <;> rw [e] <;> decide

theorem inv_retire {s : State} (i : Instr) (h : s.Inv) : (s.retire i).Inv := inv_retireAt h (npc_even i h.pcs.1)

theorem inv_accessed {s t : State} (h : s.Inv) (a : Accessed s t) : t.Inv := by
  have e := a.eq
  refine ⟨?_, a.dram h.dram, ?_, ?_, a.plic h.plic, ?_, ?_, sizeOk_of_eq a.dramSize h.size⟩
  · unfold State.pcsEven; rw [a.pc, a.csr]; exact h.pcs
  · unfold State.csrsLegal; rw [a.csr, a.xlen]; exact h.csrs
  · have hw := (widthOk_iff s).mp h.width
    rw [widthOk_iff, a.xlen, a.x, a.pc, a.csr]
    exact hw
  · intro q hq
    rw [region_of_dramSize a.dramSize]
    exact h.resv q (by rw [← a.resv]; exact hq)
  · rw [e]; exact h.marks

theorem inv_translated {s t : State} (h : s.Inv) (a : Translated s t) : t.Inv := inv_accessed h a.accessed

theorem inv_writeLE {s : State} {a n : Nat} (v : Word) (h : s.Inv) (ha : s.inDram a n = true) :
    ({ s with dram := Memory.writeLE s.dram a n v } : State).Inv :=
  ⟨h.pcs, dramOk_writeLE v h.dram (.inr ha), h.csrs, h.width, h.plic, h.resv, h.marks, h.size⟩

/-- A cause value is XLEN-bit. -/
theorem norm_causeValue (x : Xlen) (c : Cause) : norm x (causeValue x c) = causeValue x c := by
  cases x
  · rcases c with e | i
    · cases e <;> decide
    · cases i <;> decide
  · rfl

theorem epc_even (v : Word) : (v &&& ~~~1#64).getLsbD 0 = false := by simp

theorem inv_takeTrap {s : State} (c : Cause) (v : Word) (h : s.Inv) : (takeTrap c v s).Inv := by
  have hw := (widthOk_iff s).mp h.width
  obtain ⟨w1, w2, w3, w4, w5, w6, w7, w8, w9, w10, w11, w12, w13⟩ := hw
  cases ht : s.trapsToS c
  · rw [takeTrap_toM ht]
    refine ⟨⟨trapVector_even _ _ _, epc_even _, h.pcs.2.2⟩, h.dram, h.csrs, ?_, h.plic, h.resv, h.marks, h.size⟩
    rw [widthOk_iff]
    exact ⟨w1, norm_trapVector c w3, w3, w4, norm_and_left _ w2, w6, norm_causeValue _ _, w8, norm_norm _ _, w10, w11, w12, w13⟩
  · rw [takeTrap_toS ht]
    refine ⟨⟨trapVector_even _ _ _, h.pcs.2.1, epc_even _⟩, h.dram, h.csrs, ?_, h.plic, h.resv, h.marks, h.size⟩
    rw [widthOk_iff]
    exact ⟨w1, norm_trapVector c w4, w3, w4, w5, norm_and_left _ w2, w7, norm_causeValue _ _, w9, norm_norm _ _, w11, w12, w13⟩

theorem inv_trapStep {s : State} (c : Cause) (v : Word) (h : s.Inv) : (trapStep c v s).Inv :=
  inv_of_eq (inv_takeTrap c v h) rfl

theorem inv_returnFromM {s : State} (h : s.Inv) : (returnFromM s).countRetired.Inv :=
  inv_of_eq (inv_setPc h h.pcs.2.1 ((widthOk_iff s).mp h.width).2.2.2.2.1) rfl

theorem inv_returnFromS {s : State} (h : s.Inv) : (returnFromS s).countRetired.Inv :=
  inv_of_eq (inv_setPc h h.pcs.2.2 ((widthOk_iff s).mp h.width).2.2.2.2.2.1) rfl

theorem inv_ticked {s t : State} (h : s.Inv) (k : Ticked s t) : t.Inv := by
  have e := k.eq
  have hpc : t.pc = s.pc := by rw [e]
  have hcsr : t.csr = s.csr := by rw [e]
  have hx : t.x = s.x := by rw [e]
  have hxl : t.xlen = s.xlen := by rw [e]
  have hds : t.dramSize = s.dramSize := by rw [e]
  refine ⟨?_, k.dram h.dram, ?_, ?_, k.plic h.plic, ?_, ?_, sizeOk_of_eq hds h.size⟩
  · unfold State.pcsEven; rw [hpc, hcsr]; exact h.pcs
  · unfold State.csrsLegal; rw [hcsr, hxl]; exact h.csrs
  · have hw := (widthOk_iff s).mp h.width
    rw [widthOk_iff, hxl, hx, hpc, hcsr]
    exact hw
  · intro q hq
    rw [region_of_dramSize hds]
    rcases k.resv with r | r
    · exact h.resv q (by rw [← r]; exact hq)
    · rw [r] at hq; cases hq
  · rw [e]; exact h.marks

/-! ### CSR writes -/

theorem satpWrite_legal {x : Xlen} {old : Word} (v : Word) (h : satpLegal x old) : satpLegal x (satpWrite x old v) := by
  cases x
  · trivial
  · simp only [satpWrite]
    split
    · rename_i hv
      simpa [satpLegal] using hv
    · exact h

theorem norm_satpWrite {x : Xlen} {old : Word} (v : Word) (h : norm x old = old) :
    norm x (satpWrite x old v) = satpWrite x old v := by
  cases x
  · exact norm_norm _ _
  · rfl

theorem inv_csrWrite {s : State} (r : CsrReg) (v : Word) (h : s.Inv) : (s.csrWrite r v).Inv := by
  have hw := (widthOk_iff s).mp h.width
  obtain ⟨w1, w2, w3, w4, w5, w6, w7, w8, w9, w10, w11, w12, w13⟩ := hw
  obtain ⟨p1, p2, p3⟩ := h.pcs
  obtain ⟨c1, c2, c3, c4, c5, c6⟩ := h.csrs
  -- a write of a CSR that holds no XLEN-bit value and no WARL field
  have plain : ∀ g : Csrs → Csrs, (∀ c, (g c).medeleg = c.medeleg ∧ (g c).mideleg = c.mideleg ∧ (g c).mie = c.mie
      ∧ (g c).mtvec = c.mtvec ∧ (g c).stvec = c.stvec ∧ (g c).mepc = c.mepc ∧ (g c).sepc = c.sepc
      ∧ (g c).mcause = c.mcause ∧ (g c).scause = c.scause ∧ (g c).mtval = c.mtval ∧ (g c).stval = c.stval
      ∧ (g c).mscratch = c.mscratch ∧ (g c).sscratch = c.sscratch ∧ (g c).satp = c.satp) → (s.setCsr g).Inv := by
    intro g hg
    obtain ⟨g1, g2, g3, g4, g5, g6, g7, g8, g9, g10, g11, g12, g13, g14⟩ := hg s.csr
    refine ⟨?_, h.dram, ?_, ?_, h.plic, h.resv, h.marks, h.size⟩
    · simp only [State.pcsEven, State.setCsr, g6, g7]; exact ⟨p1, p2, p3⟩
    · simp only [State.csrsLegal, State.setCsr, g1, g2, g3, g4, g5, g14]; exact ⟨c1, c2, c3, c4, c5, c6⟩
    · rw [widthOk_iff]
      simp only [State.setCsr, g4, g5, g6, g7, g8, g9, g10, g11, g12, g13, g14]
      exact ⟨w1, w2, w3, w4, w5, w6, w7, w8, w9, w10, w11, w12, w13⟩
  have tv : ∀ u : Word, (norm s.xlen u &&& tvecMask).getLsbD 1 = false := by intro u; simp [tvecMask]
  have ev : ∀ u : Word, (norm s.xlen u &&& epcMask).getLsbD 0 = false := by intro u; simp [epcMask]
  have nn := norm_norm s.xlen
  have na : ∀ u m : Word, norm s.xlen (norm s.xlen u &&& m) = norm s.xlen u &&& m := fun u m => norm_and_left m (nn u)
  cases r
  case stvec =>
    exact ⟨h.pcs, h.dram, ⟨c1, c2, c3, c4, tv v, c6⟩,
      (widthOk_iff _).mpr ⟨w1, w2, w3, na _ _, w5, w6, w7, w8, w9, w10, w11, w12, w13⟩, h.plic, h.resv, h.marks, h.size⟩
  case mtvec =>
    exact ⟨h.pcs, h.dram, ⟨c1, c2, c3, tv v, c5, c6⟩,
      (widthOk_iff _).mpr ⟨w1, w2, na _ _, w4, w5, w6, w7, w8, w9, w10, w11, w12, w13⟩, h.plic, h.resv, h.marks, h.size⟩
  case mepc =>
    exact ⟨⟨p1, ev v, p3⟩, h.dram, h.csrs,
      (widthOk_iff _).mpr ⟨w1, w2, w3, w4, na _ _, w6, w7, w8, w9, w10, w11, w12, w13⟩, h.plic, h.resv, h.marks, h.size⟩
  case sepc =>
    exact ⟨⟨p1, p2, ev v⟩, h.dram, h.csrs,
      (widthOk_iff _).mpr ⟨w1, w2, w3, w4, w5, na _ _, w7, w8, w9, w10, w11, w12, w13⟩, h.plic, h.resv, h.marks, h.size⟩
  case mcause =>
    exact ⟨h.pcs, h.dram, h.csrs,
      (widthOk_iff _).mpr ⟨w1, w2, w3, w4, w5, w6, nn _, w8, w9, w10, w11, w12, w13⟩, h.plic, h.resv, h.marks, h.size⟩
  case scause =>
    exact ⟨h.pcs, h.dram, h.csrs,
      (widthOk_iff _).mpr ⟨w1, w2, w3, w4, w5, w6, w7, nn _, w9, w10, w11, w12, w13⟩, h.plic, h.resv, h.marks, h.size⟩
  case mtval =>
    exact ⟨h.pcs, h.dram, h.csrs,
      (widthOk_iff _).mpr ⟨w1, w2, w3, w4, w5, w6, w7, w8, nn _, w10, w11, w12, w13⟩, h.plic, h.resv, h.marks, h.size⟩
  case stval =>
    exact ⟨h.pcs, h.dram, h.csrs,
      (widthOk_iff _).mpr ⟨w1, w2, w3, w4, w5, w6, w7, w8, w9, nn _, w11, w12, w13⟩, h.plic, h.resv, h.marks, h.size⟩
  case mscratch =>
    exact ⟨h.pcs, h.dram, h.csrs,
      (widthOk_iff _).mpr ⟨w1, w2, w3, w4, w5, w6, w7, w8, w9, w10, nn _, w12, w13⟩, h.plic, h.resv, h.marks, h.size⟩
  case sscratch =>
    exact ⟨h.pcs, h.dram, h.csrs,
      (widthOk_iff _).mpr ⟨w1, w2, w3, w4, w5, w6, w7, w8, w9, w10, w11, nn _, w13⟩, h.plic, h.resv, h.marks, h.size⟩
  case satp =>
    exact ⟨h.pcs, h.dram, ⟨c1, c2, c3, c4, c5, satpWrite_legal v c6⟩,
      (widthOk_iff _).mpr ⟨w1, w2, w3, w4, w5, w6, w7, w8, w9, w10, w11, w12, norm_satpWrite v w13⟩, h.plic, h.resv, h.marks, h.size⟩
  case medeleg =>
    exact ⟨h.pcs, h.dram, ⟨mask_and_self _ _, c2, c3, c4, c5, c6⟩, h.width, h.plic, h.resv, h.marks, h.size⟩
  case mideleg =>
    exact ⟨h.pcs, h.dram, ⟨c1, mask_and_self _ _, c3, c4, c5, c6⟩, h.width, h.plic, h.resv, h.marks, h.size⟩
  case mie =>
    exact ⟨h.pcs, h.dram, ⟨c1, c2, mask_and_self _ _, c4, c5, c6⟩, h.width, h.plic, h.resv, h.marks, h.size⟩
  case sie =>
    refine ⟨h.pcs, h.dram, ⟨c1, c2, mask_or (mask_and_left _ c3) ?_, c4, c5, c6⟩, h.width, h.plic, h.resv, h.marks, h.size⟩
    have hm : s.csr.mideleg &&& ~~~mieMask = 0 := by
      refine word_ext fun i => ?_
      have e := congrArg (fun u : Word => u.getLsbD i) c2
      have k : midelegMask &&& ~~~mieMask = 0 := by decide
      have e2 := congrArg (fun u : Word => u.getLsbD i) k
      simp only [BitVec.getLsbD_and, BitVec.getLsbD_not] at e e2 ⊢
      cases h1 : s.csr.mideleg.getLsbD i <;> cases h2 : midelegMask.getLsbD i <;> cases h3 : mieMask.getLsbD i <;>
        cases h4 : decide (i < 64) <;> simp_all
    rw [BitVec.and_comm v]
    exact mask_and_left _ hm
  case sip =>
    unfold State.csrWrite
    dsimp only
    split
    · exact plain _ fun c => by refine ⟨rfl, rfl, rfl, rfl, rfl, rfl, rfl, rfl, rfl, rfl, rfl, rfl, rfl, rfl⟩
    · exact h
  case fflags => exact inv_of_eq (plain (fun c => { c with fcsr := frmOf c.fcsr ++ v.extractLsb 4 0 }) fun c => by
      refine ⟨rfl, rfl, rfl, rfl, rfl, rfl, rfl, rfl, rfl, rfl, rfl, rfl, rfl, rfl⟩) rfl
  case frm => exact inv_of_eq (plain (fun c => { c with fcsr := v.extractLsb 2 0 ++ fflagsOf c.fcsr }) fun c => by
      refine ⟨rfl, rfl, rfl, rfl, rfl, rfl, rfl, rfl, rfl, rfl, rfl, rfl, rfl, rfl⟩) rfl
  case fcsr => exact inv_of_eq (plain (fun c => { c with fcsr := v.setWidth 8 }) fun c => by
      refine ⟨rfl, rfl, rfl, rfl, rfl, rfl, rfl, rfl, rfl, rfl, rfl, rfl, rfl, rfl⟩) rfl
  case scounteren =>
    exact plain (fun c => { c with scounteren := v.setWidth 32 }) fun c => by refine ⟨rfl, rfl, rfl, rfl, rfl, rfl, rfl, rfl, rfl, rfl, rfl, rfl, rfl, rfl⟩
  case mcounteren =>
    exact plain (fun c => { c with mcounteren := v.setWidth 32 }) fun c => by refine ⟨rfl, rfl, rfl, rfl, rfl, rfl, rfl, rfl, rfl, rfl, rfl, rfl, rfl, rfl⟩
  case mip =>
    exact plain (fun c => { c with ssip := v.getLsbD 1, stip := v.getLsbD 5, seipSw := v.getLsbD 9 }) fun c => by refine ⟨rfl, rfl, rfl, rfl, rfl, rfl, rfl, rfl, rfl, rfl, rfl, rfl, rfl, rfl⟩
  all_goals exact inv_of_eq h rfl

end Sys2Proof.Machine
end

