-- ==== Sys2Proof/Laws/Virtio.lean ====
section
/-! SUPPORT. What the virtio block's DMA does, operation by operation: a descriptor chain read, bytes moved, a request executed
and the used ring updated (spec/60_exceptions.md R802 to R807). -/

namespace Sys2Proof.Machine

open Sys2Proof

/-! ### Bytes -/

/-- Byte `k` of the bytes stored. -/
theorem Memory.read_writeBytes_in {m : Memory} {a k : Nat} (bs : List Byte) (hk : k < bs.length) (hm : Memory.wf m = true) :
    Memory.read (Memory.writeBytes m a bs) (a + k) = bs[k] := by
  induction bs generalizing m a k with
  | nil => simp at hk
  | cons b bs ih =>
    rw [Memory.writeBytes]
    cases k with
    | zero =>
      rw [Nat.add_zero, Memory.read_writeBytes_out _ _ (by omega)]
      exact Memory.read_write_self a _ hm
    | succ k =>
      rw [show a + (k + 1) = a + 1 + k by omega, ih (by simpa using hk) (Memory.write_wf _ _ hm)]
      rfl

@[simp] theorem Memory.length_readBytes (m : Memory) (a n : Nat) : (Memory.readBytes m a n).length = n := by
  induction n generalizing a with
  | zero => rfl
  | succ n ih => simp [Memory.readBytes, ih]

theorem Memory.getElem?_readBytes (m : Memory) {a n k : Nat} (hk : k < n) :
    (Memory.readBytes m a n)[k]? = some (m.read (a + k)) := by
  induction n generalizing a k with
  | zero => omega
  | succ n ih =>
    cases k with
    | zero => rfl
    | succ k =>
      rw [Memory.readBytes, List.getElem?_cons_succ, ih (by omega)]
      congr 2; omega

@[simp] theorem length_leBytes (n v : Nat) : (leBytes n v).length = n := by
  induction n generalizing v with
  | zero => rfl
  | succ n ih => simp [leBytes, ih]

/-- Bytes that are those of a number give it, modulo their width. -/
theorem leNat_of_bytes {s : State} {a n v : Nat} (h : ∀ k (hk : k < n), s.byteAt (a + k) = (leBytes n v)[k]'(by simpa using hk)) :
    s.leNat a n = v % 256 ^ n := by
  induction n generalizing a v with
  | zero => simp [State.leNat, Nat.mod_one]
  | succ n ih =>
    have h0 : s.byteAt a = BitVec.ofNat 8 v := h 0 (by omega)
    have hr : s.leNat (a + 1) n = v / 256 % 256 ^ n := ih fun k hk => by
      have := h (k + 1) (by omega)
      rw [show a + 1 + k = a + (k + 1) by omega, this]
      rfl
    rw [State.leNat, h0, hr, BitVec.toNat_ofNat, show (256:Nat) ^ (n + 1) = 256 * 256 ^ n from by rw [Nat.pow_succ, Nat.mul_comm],
      Nat.mod_mul]

/-- Bit 0 of a number that is read. -/
theorem readLE_bit0 (s : State) (a : Nat) : (Memory.readLE s.dram a 2).getLsbD 0 = decide (s.leNat a 2 % 2 = 1) := by
  rw [← readLE_toNat s (by omega), BitVec.getLsbD, Nat.testBit_zero]

/-- Reading depends on the bytes only. -/
theorem leNat_congr {s t : State} {a n : Nat} (h : ∀ k, k < n → t.byteAt (a + k) = s.byteAt (a + k)) : t.leNat a n = s.leNat a n := by
  induction n generalizing a with
  | zero => rfl
  | succ n ih =>
    rw [State.leNat, State.leNat, ih fun k hk => by simpa [Nat.add_assoc, Nat.add_comm 1] using h (k + 1) (by omega)]
    have := h 0 (by omega)
    rw [Nat.add_zero] at this; rw [this]

/-! ### A DMA write (R540, R807) -/

/-- What a DMA write in DRAM does. -/
theorem dmaWriteBytes_ok {s : State} {pa : Nat} {bs : List Byte} (hb : bs ≠ []) (hd : s.dramOk) (h : s.inDram pa bs.length = true) :
    ∃ t, s.dmaWriteBytes pa bs = .ok t ∧ t = { s with dram := t.dram, resv := none }
      ∧ (∀ k (hk : k < bs.length), t.byteAt (pa + k) = bs[k])
      ∧ ∀ a, a < pa ∨ pa + bs.length ≤ a → t.byteAt a = s.byteAt a := by
  refine ⟨{ s with dram := Memory.writeBytes s.dram pa bs, resv := none }, ?_, rfl, fun k hk => ?_, fun a ha => ?_⟩
  · have : bs.length ≠ 0 := by simpa using hb
    simp [State.dmaWriteBytes, this, h]
  · exact Memory.read_writeBytes_in bs hk hd.1
  · exact Memory.read_writeBytes_out _ bs ha

/-! ### The chain (R803, R807) -/

theorem chain_of_hasChain {s : State} {fuel j : Nat} {bs : List Buffer} (h : s.HasChain j bs) :
    s.chain fuel j = if bs.length ≤ fuel then .ok bs else .error (.virtioChain, s) := by
  induction bs generalizing fuel j with
  | nil => exact absurd h id
  | cons b bs ih =>
    obtain ⟨h1, h2, h3, h4, h5, h6⟩ := h
    cases fuel with
    | zero => simp [State.chain]
    | succ fuel =>
      have h1' : ¬ s.virtio.queueNum.toNat ≤ j := by omega
      have h2' : s.inDram (s.virtio.descBase + 16 * j) 16 = true := h2
      have hb : ({ addr := (Memory.readLE s.dram (s.virtio.descBase + 16 * j) 8).toNat,
                   len := (Memory.readLE s.dram (s.virtio.descBase + 16 * j + 8) 4).toNat } : Buffer) = b := by
        rw [readLE_toNat s (by omega), readLE_toNat s (by omega)]
        obtain ⟨x, y⟩ := b
        exact congr (congrArg Buffer.mk h3) h4
      have h5' : s.leNat (s.virtio.descBase + 16 * j + 12) 2 % 2 = (if bs = [] then 0 else 1) := h5
      rw [State.chain, if_neg h1']
      dsimp only
      rw [if_pos h2', hb, readLE_bit0, h5']
      by_cases hn : bs = []
      · simp [hn]
      · have e : s.chain fuel (s.leNat (s.virtio.descBase + 16 * j + 14) 2)
            = if bs.length ≤ fuel then .ok bs else .error (.virtioChain, s) := ih (h6 hn)
        rw [readLE_toNat s (by omega), e]
        by_cases hl : bs.length ≤ fuel
        · simp [hn, hl]
        · simp [hn, hl]

/-- A chain that stops, after `m` descriptors with NEXT, with an error. -/
theorem chain_stops {s : State} {e : Fault × State} (js : Nat → Nat) (m fuel i : Nat)
    (h : ∀ k, i ≤ k → k < i + m → js k < s.virtio.queueNum.toNat ∧ s.inDram (s.queueBase + 16 * js k) 16 = true
      ∧ s.leNat (s.queueBase + 16 * js k + 12) 2 % 2 = 1 ∧ js (k + 1) = s.leNat (s.queueBase + 16 * js k + 14) 2)
    (he : s.chain fuel (js (i + m)) = .error e) : s.chain (fuel + m) (js i) = .error e := by
  induction m generalizing i with
  | zero => exact he
  | succ m ih =>
    obtain ⟨h1, h2, h3, h4⟩ := h i (Nat.le_refl _) (by omega)
    have h1' : ¬ s.virtio.queueNum.toNat ≤ js i := by omega
    have h2' : s.inDram (s.virtio.descBase + 16 * js i) 16 = true := h2
    have h3' : s.leNat (s.virtio.descBase + 16 * js i + 12) 2 % 2 = 1 := h3
    have h4' : js (i + 1) = s.leNat (s.virtio.descBase + 16 * js i + 14) 2 := h4
    rw [← Nat.add_assoc, State.chain, if_neg h1']
    dsimp only
    rw [if_pos h2', readLE_bit0, h3', readLE_toNat s (by omega), ← h4', ih (i + 1) (fun k h1 h2 => h k (by omega) (by omega))
      (by rwa [show i + 1 + m = i + (m + 1) by omega])]
    simp

/-! ### The data (R804) -/

@[simp] theorem totalLen_nil : totalLen [] = 0 := rfl
@[simp] theorem totalLen_cons (b : Buffer) (bs : List Buffer) : totalLen (b :: bs) = b.len + totalLen bs := by simp [totalLen]

/-- Byte `k` of buffer `b` of `data` is byte `n` of the data. -/
def DataByte (data : List Buffer) (b : Buffer) (after : List Buffer) (k n : Nat) : Prop :=
  ∃ before, data = before ++ b :: after ∧ k < b.len ∧ n = totalLen before + k

theorem dataByte_cons {c b : Buffer} {cs after : List Buffer} {k n : Nat} (h : DataByte (c :: cs) b after k n) :
    (b = c ∧ after = cs ∧ k < b.len ∧ n = k) ∨ ∃ m, DataByte cs b after k m ∧ n = c.len + m := by
  obtain ⟨before, h1, h2, h3⟩ := h
  cases before with
  | nil =>
    obtain ⟨rfl, rfl⟩ := List.cons.inj h1
    exact .inl ⟨rfl, rfl, h2, by simpa using h3⟩
  | cons d before =>
    obtain ⟨rfl, rfl⟩ := List.cons.inj h1
    exact .inr ⟨_, ⟨before, rfl, h2, rfl⟩, by rw [h3, totalLen_cons]; omega⟩

/-- Bytes copied into buffers in order, those in DRAM or empty. -/
theorem scatter_ok {s : State} {data : List Byte} {bufs : List Buffer} (hd : s.dramOk)
    (hb : ∀ b ∈ bufs, 0 < b.len → s.inDram b.addr b.len = true) (hl : totalLen bufs ≤ data.length) :
    ∃ t, s.scatter data bufs = .ok t ∧ t = { s with dram := t.dram, resv := t.resv } ∧ t.dramOk
      ∧ (∀ b after k n, DataByte bufs b after k n → (∀ c ∈ after, b.addr + k < c.addr ∨ c.addr + c.len ≤ b.addr + k) →
          data[n]? = some (t.byteAt (b.addr + k)))
      ∧ ∀ a, (∀ b ∈ bufs, a < b.addr ∨ b.addr + b.len ≤ a) → t.byteAt a = s.byteAt a := by
  induction bufs generalizing s data with
  | nil =>
    refine ⟨s, rfl, rfl, hd, ?_, fun _ _ => rfl⟩
    rintro b after k n ⟨before, h, _⟩
    cases before <;> cases h
  | cons c cs ih =>
    rw [totalLen_cons] at hl
    have hlen : (data.take c.len).length = c.len := by rw [List.length_take]; omega
    -- the first buffer
    obtain ⟨u, e1, e2, e3, e4, e5⟩ : ∃ u, s.dmaWriteBytes c.addr (data.take c.len) = .ok u
        ∧ u = { s with dram := u.dram, resv := u.resv } ∧ u.dramOk
        ∧ (∀ k, k < c.len → data[k]? = some (u.byteAt (c.addr + k)))
        ∧ ∀ a, a < c.addr ∨ c.addr + c.len ≤ a → u.byteAt a = s.byteAt a := by
      by_cases h0 : c.len = 0
      · exact ⟨s, by simp [State.dmaWriteBytes, h0], rfl, hd, by omega, fun _ _ => rfl⟩
      · have hin := hb c (List.mem_cons_self ..) (by omega)
        obtain ⟨u, e1, e2, e3, e4⟩ := dmaWriteBytes_ok (s := s) (pa := c.addr) (bs := data.take c.len)
          (by intro h; rw [h] at hlen; simp at hlen; omega) hd (by rw [hlen]; exact hin)
        refine ⟨u, e1, ?_, (dmaWriteBytes_done e1).dram hd, fun k hk => ?_, by simpa only [hlen] using e4⟩
        · rw [e2]
        · rw [e3 k (by omega), List.getElem_take, List.getElem?_eq_getElem (by omega)]
    have hz : u.dramSize = s.dramSize := by rw [e2]
    obtain ⟨t, f1, f2, f3, f4, f5⟩ := ih (s := u) (data := data.drop c.len) e3
      (fun b hm h0 => by have := hb b (List.mem_cons_of_mem _ hm) h0; rw [inDram_iff] at *; rw [hz]; exact this)
      (by rw [List.length_drop]; omega)
    refine ⟨t, ?_, ?_, f3, ?_, ?_⟩
    · rw [State.scatter, e1]; exact f1
    · rw [f2, e2]
    · intro b after k n hdb hk
      rcases dataByte_cons hdb with ⟨rfl, rfl, h1, rfl⟩ | ⟨m, hm, rfl⟩
      · rw [f5 _ hk]; exact e4 _ h1
      · have := f4 b after k m hm hk
        rwa [List.getElem?_drop] at this
    · intro a ha
      rw [f5 a fun b hm => ha b (List.mem_cons_of_mem _ hm), e5 a (ha c (List.mem_cons_self ..))]

theorem length_diskWrite {disk bs : List Byte} {off : Nat} (h : off + bs.length ≤ disk.length) :
    (diskWrite disk off bs).length = disk.length := by
  simp only [diskWrite, List.length_append, List.length_take, List.length_drop]; omega

theorem diskWrite_in {disk bs : List Byte} {off k : Nat} (h : off + bs.length ≤ disk.length) (hk : k < bs.length) :
    (diskWrite disk off bs)[off + k]? = bs[k]? := by
  have : (disk.take off).length = off := by rw [List.length_take]; omega
  rw [diskWrite, List.append_assoc, List.getElem?_append_right (by omega), this, List.getElem?_append_left (by omega)]
  congr 1; omega

theorem diskWrite_out {disk bs : List Byte} {off j : Nat} (h : off + bs.length ≤ disk.length) (hj : j < off ∨ off + bs.length ≤ j) :
    (diskWrite disk off bs)[j]? = disk[j]? := by
  have : (disk.take off).length = off := by rw [List.length_take]; omega
  rw [diskWrite, List.append_assoc]
  rcases hj with hj | hj
  · rw [List.getElem?_append_left (by omega), List.getElem?_take_of_lt hj]
  · rw [List.getElem?_append_right (by omega), this, List.getElem?_append_right (by omega), List.getElem?_drop]
    congr 1; omega

/-- Buffers copied in order to the disk, those in DRAM or empty. -/
theorem gather_ok {s : State} {off : Nat} {bufs : List Buffer}
    (hb : ∀ b ∈ bufs, 0 < b.len → s.inDram b.addr b.len = true) (hl : off + totalLen bufs ≤ s.disk.length) :
    ∃ t, s.gather off bufs = .ok t ∧ t = { s with disk := t.disk } ∧ t.disk.length = s.disk.length
      ∧ (∀ b after k n, DataByte bufs b after k n → t.disk[off + n]? = some (s.byteAt (b.addr + k)))
      ∧ ∀ j, j < off ∨ off + totalLen bufs ≤ j → t.disk[j]? = s.disk[j]? := by
  induction bufs generalizing s off with
  | nil =>
    refine ⟨s, rfl, rfl, rfl, ?_, fun _ _ => rfl⟩
    rintro b after k n ⟨before, h, _⟩
    cases before <;> cases h
  | cons c cs ih =>
    rw [totalLen_cons] at hl
    obtain ⟨x, e1, e2, e3⟩ : ∃ x, s.dmaReadBytes c.addr c.len = .ok x ∧ x.length = c.len
        ∧ ∀ k, k < c.len → x[k]? = some (s.byteAt (c.addr + k)) := by
      by_cases h0 : c.len = 0
      · exact ⟨[], by simp [State.dmaReadBytes, h0], by simp [h0], by omega⟩
      · refine ⟨Memory.readBytes s.dram c.addr c.len, ?_, by simp, fun k hk => Memory.getElem?_readBytes _ hk⟩
        simp [State.dmaReadBytes, h0, hb c (List.mem_cons_self ..) (by omega)]
    have hlen := length_diskWrite (disk := s.disk) (bs := x) (off := off) (by omega)
    obtain ⟨t, f1, f2, f3, f4, f5⟩ := ih (s := { s with disk := diskWrite s.disk off x }) (off := off + c.len)
      (fun b hm h0 => hb b (List.mem_cons_of_mem _ hm) h0) (by show _ ≤ (diskWrite s.disk off x).length; omega)
    refine ⟨t, ?_, ?_, f3.trans hlen, ?_, ?_⟩
    · rw [State.gather, e1]; exact f1
    · exact f2
    · intro b after k n hdb
      rcases dataByte_cons hdb with ⟨rfl, rfl, h1, rfl⟩ | ⟨m, hm, rfl⟩
      · rw [f5 _ (.inl (by omega))]
        show (diskWrite s.disk off x)[off + n]? = _
        rw [diskWrite_in (by omega) (by omega), e3 _ h1]
      · rw [← Nat.add_assoc]; exact f4 b after k m hm
    · intro j hj
      rw [totalLen_cons] at hj
      rw [f5 j (by omega)]
      exact diskWrite_out (by omega) (by omega)

/-- The three ends of a data phase (R804). -/
theorem transfer_in {s t : State} {sector : Nat} {data : List Buffer} (hl : sector * 512 + totalLen data ≤ s.disk.length)
    (h : s.scatter ((s.disk.drop (sector * 512)).take (totalLen data)) data = .ok t) :
    s.transfer 0 sector data = .ok (t, 0, totalLen data + 1) := by
  have h' : s.scatter ((s.disk.drop (sector * Config.sectorSize)).take (totalLen data)) data = .ok t := h
  unfold State.transfer; dsimp only
  rw [if_pos rfl, if_pos (show sector * Config.sectorSize + _ ≤ _ from hl), h']

theorem transfer_out {s t : State} {sector : Nat} {data : List Buffer} (hl : sector * 512 + totalLen data ≤ s.disk.length)
    (h : s.gather (sector * 512) data = .ok t) : s.transfer 1 sector data = .ok (t, 0, 1) := by
  have h' : s.gather (sector * Config.sectorSize) data = .ok t := h
  unfold State.transfer; dsimp only
  rw [if_neg (by omega), if_pos rfl, if_pos (show sector * Config.sectorSize + _ ≤ _ from hl), h']

theorem transfer_refused {s : State} {kind sector : Nat} {data : List Buffer} {status : Byte}
    (h : (kind ≤ 1 ∧ s.disk.length < sector * 512 + totalLen data ∧ status = 1) ∨ (1 < kind ∧ status = 2)) :
    s.transfer kind sector data = .ok (s, status, 1) := by
  unfold State.transfer; dsimp only
  rcases h with ⟨h1, h2, rfl⟩ | ⟨h1, rfl⟩
  · have hl : ¬ sector * Config.sectorSize + totalLen data ≤ s.disk.length := Nat.not_le.mpr h2
    rw [if_neg hl, if_neg hl]
    split <;> (try split) <;> first | rfl | omega
  · rw [if_neg (by omega), if_neg (by omega)]

/-! ### A request (R803, R804) -/

/-- A chain with its header in DRAM: the transfer, then the status byte. -/
theorem request_of_hasChain {s : State} {h : Nat} {head st : Buffer} {data : List Buffer} (hc : s.HasChain h (head :: (data ++ [st])))
    (hn : data.length + 2 ≤ s.virtio.queueNum.toNat) (hh : s.inDram head.addr 16 = true) :
    s.request h = (s.transfer (s.leNat head.addr 4) (s.leNat (head.addr + 8) 8) data).bind fun r =>
      (r.1.dmaWriteBytes st.addr [r.2.1]).bind fun t => .ok (t, r.2.2) := by
  have e := chain_of_hasChain (fuel := s.virtio.queueNum.toNat) hc
  rw [if_pos (by simp; omega)] at e
  have key : ∀ l : List Buffer, l = data ++ [st] →
      (match (Except.ok (head :: l) : Dma (List Buffer)) with
        | .error e => .error e
        | .ok (head :: b :: bs) =>
          if s.inDram head.addr 16 then
            let kind := (Memory.readLE s.dram head.addr 4).toNat
            let sector := (Memory.readLE s.dram (head.addr + 8) 8).toNat
            match s.transfer kind sector (b :: bs).dropLast with
            | .error e => .error e
            | .ok (s', status, used) =>
              match s'.dmaWriteBytes ((b :: bs).getLast (by simp)).addr [status] with
              | .error e => .error e
              | .ok s'' => .ok (s'', used)
          else .error (.dmaRange, s)
        | .ok _ => .error (.virtioChain, s) : Dma (State × Nat))
      = (s.transfer (s.leNat head.addr 4) (s.leNat (head.addr + 8) 8) data).bind fun r =>
        (r.1.dmaWriteBytes st.addr [r.2.1]).bind fun t => .ok (t, r.2.2) := by
    intro l hl
    cases l with
    | nil => simp at hl
    | cons b bs =>
      have hd : (b :: bs).dropLast = data := by rw [hl, List.dropLast_concat]
      have hg : (b :: bs).getLast (by simp) = st := by simp only [hl, List.getLast_concat]
      simp only [hh, if_true, hd, hg, readLE_toNat s (show 4 ≤ 8 by omega), readLE_toNat s (show 8 ≤ 8 by omega)]
      cases s.transfer (s.leNat head.addr 4) (s.leNat (head.addr + 8) 8) data with
      | error e => rfl
      | ok r =>
        simp only [Except.bind]
        cases r.1.dmaWriteBytes st.addr [r.2.1] <;> rfl
  rw [State.request, e]
  exact key _ rfl

/-- The status byte of a request (R804). -/
theorem status_ok {s : State} {pa : Nat} (b : Byte) (hd : s.dramOk) (h : s.inDram pa 1 = true) :
    ∃ t, s.dmaWriteBytes pa [b] = .ok t ∧ t = { s with dram := t.dram, resv := none } ∧ t.byteAt pa = b
      ∧ ∀ a, a ≠ pa → t.byteAt a = s.byteAt a := by
  obtain ⟨t, e1, e2, e3, e4⟩ := dmaWriteBytes_ok (bs := [b]) (by simp) hd h
  exact ⟨t, e1, e2, e3 0 (by simp), fun a ha => e4 a (by simp; omega)⟩

/-! ### The used ring (R802, R805) -/

/-- The least multiple that is not below. -/
theorem alignUp_spec {n a : Nat} (h : a ≠ 0) : alignUp n a % a = 0 ∧ n ≤ alignUp n a ∧ alignUp n a < n + a := by
  rw [alignUp, if_neg h]
  have h1 := Nat.div_add_mod (n + a - 1) a
  have h2 := Nat.mod_lt (n + a - 1) (Nat.pos_of_ne_zero h)
  rw [Nat.mul_comm] at h1
  exact ⟨Nat.mul_mod_left _ _, by omega, by omega⟩

theorem usedUpdate_ok {s : State} {h n : Nat} (hd : s.dramOk) (hi : s.inDram (s.virtio.usedBase + 2) 2 = true)
    (he : s.inDram (s.virtio.usedBase + 4 + 8 * (s.leNat (s.virtio.usedBase + 2) 2 % s.virtio.queueNum.toNat)) 8 = true) :
    let u := s.virtio.usedBase
    let k := s.leNat (u + 2) 2 % s.virtio.queueNum.toNat
    ∃ t, s.usedUpdate h n = .ok t
      ∧ t = { s with dram := t.dram, resv := none,
                     virtio := { s.virtio with interruptStatus := s.virtio.interruptStatus ||| 1 } }
      ∧ t.leNat (u + 4 + 8 * k) 4 = h % 2 ^ 32 ∧ t.leNat (u + 8 + 8 * k) 4 = n % 2 ^ 32
      ∧ t.leNat (u + 2) 2 = (s.leNat (u + 2) 2 + 1) % 2 ^ 16
      ∧ ∀ a, a < u + 2 ∨ u + 4 ≤ a → a < u + 4 + 8 * k ∨ u + 12 + 8 * k ≤ a → t.byteAt a = s.byteAt a := by
  intro u k
  obtain ⟨s1, a1, a2, a3, a4⟩ := dmaWriteBytes_ok (s := s) (pa := u + 4 + 8 * k) (bs := leBytes 4 h ++ leBytes 4 n)
    (by intro h; have := congrArg List.length h; simp at this) hd (by simpa using he)
  have hz : s1.dramSize = s.dramSize := by rw [a2]
  obtain ⟨s2, b1, b2, b3, b4⟩ := dmaWriteBytes_ok (s := s1) (pa := u + 2) (bs := leBytes 2 (s.leNat (u + 2) 2 + 1))
    (by intro h; have := congrArg List.length h; simp at this) ((dmaWriteBytes_done a1).dram hd)
    (by rw [inDram_iff] at *; rw [hz]; simpa using hi)
  simp only [List.length_append, length_leBytes] at a3 a4 b3 b4
  refine ⟨{ s2 with virtio := { s2.virtio with interruptStatus := s2.virtio.interruptStatus ||| 1 } }, ?_, ?_, ?_, ?_, ?_, ?_⟩
  · have hi' : s.inDram (s.virtio.usedBase + 2) 2 = true := hi
    simp only [State.usedUpdate, State.dmaRead, hi', if_true, readLE_toNat s (show 2 ≤ 8 by omega), State.dmaWrite]
    rw [a1]
    dsimp only
    rw [b1]
  · rw [b2, a2]
  · refine (leNat_of_bytes (v := h) fun i hi => ?_).trans rfl
    show s2.byteAt _ = _
    rw [b4 _ (by omega), a3 i (by omega), List.getElem_append_left]
  · refine (leNat_of_bytes (v := n) fun i hi => ?_).trans rfl
    show s2.byteAt _ = _
    rw [b4 _ (by omega), show u + 8 + 8 * k + i = u + 4 + 8 * k + (4 + i) by omega, a3 (4 + i) (by omega),
      List.getElem_append_right (by simp)]
    simp only [length_leBytes, Nat.add_sub_cancel_left]
  · refine (leNat_of_bytes (v := s.leNat (u + 2) 2 + 1) fun i hi => ?_).trans rfl
    show s2.byteAt _ = _
    rw [b3 i (by omega)]
  · intro a h1 h2
    show s2.byteAt _ = _
    rw [b4 _ (by omega), a4 _ (by omega)]

/-! ### The loop (R806) -/

/-- The loop ends where the requests do, if its fuel lasts (log 10). -/
theorem serve_of_serves {s t : State} {n fuel : Nat} (h : s.Serves n t) (hf : n < fuel) : State.serve fuel s = .ok t := by
  induction n generalizing s fuel with
  | zero =>
    obtain ⟨h1, h2, rfl⟩ := h
    obtain ⟨fuel, rfl⟩ : ∃ m, fuel = m + 1 := ⟨fuel - 1, by omega⟩
    have h1' : t.inDram (t.virtio.availBase + 2) 2 = true := h1
    have h2' : t.leNat (t.virtio.availBase + 2) 2 = t.virtio.lastAvail.toNat := h2
    rw [State.serve, State.dmaRead, if_pos h1', readLE_toNat t (by omega), h2']
    simp
  | succ n ih =>
    obtain ⟨h1, h2, h3, u, used, w, h4, h5, h6⟩ := h
    obtain ⟨fuel, rfl⟩ : ∃ m, fuel = m + 1 := ⟨fuel - 1, by omega⟩
    have h1' : s.inDram (s.virtio.availBase + 2) 2 = true := h1
    have h2' : ¬ s.virtio.lastAvail.toNat = s.leNat (s.virtio.availBase + 2) 2 := fun e => h2 e.symm
    have h3' : s.inDram (s.virtio.availBase + 4 + 2 * (s.virtio.lastAvail.toNat % s.virtio.queueNum.toNat)) 2 = true := h3
    rw [State.serve, State.dmaRead, if_pos h1', readLE_toNat s (by omega)]
    dsimp only
    rw [if_neg h2', State.dmaRead, if_pos h3', readLE_toNat s (by omega)]
    dsimp only
    have h4' : s.request (s.leNat (s.virtio.availBase + 4 + 2 * (s.virtio.lastAvail.toNat % s.virtio.queueNum.toNat)) 2)
      = .ok (u, used) := h4
    have h5' : u.usedUpdate (s.leNat (s.virtio.availBase + 4 + 2 * (s.virtio.lastAvail.toNat % s.virtio.queueNum.toNat)) 2) used
      = .ok w := h5
    rw [h4']
    dsimp only
    rw [h5']
    exact ih h6 (by omega)

end Sys2Proof.Machine
end

