-- ==== Sys2Proof/Tests/Slice0.lean ====
section
/-! SUPPORT. Tests by decide: ill-formed terms, words written out from the spec's encodings, steps of the spec's vectors
(spec/95_test_vectors.md), and for every statement with hypotheses a state and operands that meet them. -/

namespace Sys2Proof.Tests

open Sys2Proof Sys2Proof.Machine

/-! ### Helpers -/

/-- The start state of the vectors: reset with DRAM_SIZE = 1 MiB and pc = 0x80000100 (95_test_vectors.md section 2). -/
def start (x : Xlen) : State := { State.reset with xlen := x, dramSize := 0x100000, pc := 0x80000100 }

/-- `n` bytes of `v` put at `a`. -/
def put (s : State) (a n : Nat) (v : Word) : State := { s with dram := Memory.writeLE s.dram a n v }

/-- The outcome is a next state that meets `p`. -/
def meets (o : Host.Outcome State Fault Refusal) (p : State → Bool) : Bool :=
  match o with
  | .next t => p t
  | .fault _ => false
  | .refused _ => false

/-- The fault of an outcome. -/
def faultOf (o : Host.Outcome State Fault Refusal) : Option Fault :=
  match o with
  | .next _ => none
  | .fault f => some f
  | .refused _ => none

/-- The refusal of an outcome. -/
def refusalOf (o : Host.Outcome State Fault Refusal) : Option Refusal :=
  match o with
  | .next _ => none
  | .fault _ => none
  | .refused r => some r

theorem next_of_meets {o : Host.Outcome State Fault Refusal} {p : State → Bool} (h : meets o p = true) :
    ∃ t, o = .next t ∧ p t = true := by
  cases o with
  | next t => exact ⟨t, rfl, h⟩
  | fault f => cases h
  | refused r => cases h

/-- The TLB choice of a walk that fills the TLB, and of the use of entry 0. -/
def walkDraw : Config.TlbDraw := { drop := [], use := none, fill := true }
def hitDraw : Config.TlbDraw := { drop := [], use := some 0, fill := true }

/-- Sv39 in S-mode: the root at 0x80040000 maps 0x0 by tables to a page and 0x80000000 to itself by a leaf at the root. -/
def mapped : State :=
  let s := start .rv64
  let s := { s with priv := .S, csr := { s.csr with satp := 0x8000000000080040#64 }, tlbDraws := [walkDraw, walkDraw, walkDraw] }
  let s := put s 0x80040010 8 0x200000CF#64
  let s := put s 0x80040000 8 (0x80041#64 <<< 10 ||| 1#64)
  let s := put s 0x80041000 8 (0x80042#64 <<< 10 ||| 1#64)
  let s := put s 0x80042008 8 (0x80050#64 <<< 10 ||| 0x7#64)
  put s 0x80050000 8 0x1122334455667788#64

/-! ### Ill-formed terms, one for each check of WellFormed.lean -/

theorem test_ill_formed_shamtFits : (Instr.slli 1#5 1#5 32#6).wf .rv32 = false := by decide
theorem test_ill_formed_xlen_rv64 : (Instr.addiw 1#5 1#5 0#12).wf .rv32 = false := by decide
theorem test_ill_formed_evenOffset_jal : (Instr.jal 1#5 3#21).wf .rv64 = false := by decide
theorem test_ill_formed_evenOffset_branch : (Instr.beq 1#5 2#5 1#13).wf .rv64 = false := by decide
theorem test_ill_formed_cAddi4spn_zero : (Instr.cAddi4spn 0#3 0#10).wf .rv64 = false := by decide
theorem test_ill_formed_cAddi4spn_scale : (Instr.cAddi4spn 0#3 6#10).wf .rv64 = false := by decide
theorem test_ill_formed_cFld_scale : (Instr.cFld 0#3 0#3 4#8).wf .rv64 = false := by decide
theorem test_ill_formed_cLw_scale : (Instr.cLw 0#3 0#3 2#7).wf .rv64 = false := by decide
theorem test_ill_formed_cFlw_mode : (Instr.cFlw 0#3 0#3 4#7).wf .rv64 = false := by decide
theorem test_ill_formed_cLd_mode : (Instr.cLd 0#3 0#3 8#8).wf .rv32 = false := by decide
theorem test_ill_formed_cAddi_rd : (Instr.cAddi 0#5 1#6).wf .rv64 = false := by decide
theorem test_ill_formed_cJal_mode : (Instr.cJal 2#12).wf .rv64 = false := by decide
theorem test_ill_formed_cJal_even : (Instr.cJal 1#12).wf .rv32 = false := by decide
theorem test_ill_formed_cAddiw_rd : (Instr.cAddiw 0#5 1#6).wf .rv64 = false := by decide
theorem test_ill_formed_cAddi16sp_zero : (Instr.cAddi16sp 0#10).wf .rv64 = false := by decide
theorem test_ill_formed_cAddi16sp_scale : (Instr.cAddi16sp 8#10).wf .rv64 = false := by decide
theorem test_ill_formed_cLui_rd : (Instr.cLui 2#5 1#6).wf .rv64 = false := by decide
theorem test_ill_formed_cLui_zero : (Instr.cLui 1#5 0#6).wf .rv64 = false := by decide
theorem test_ill_formed_cSrli_shamt : (Instr.cSrli 0#3 32#6).wf .rv32 = false := by decide
theorem test_ill_formed_cSubw_mode : (Instr.cSubw 0#3 0#3).wf .rv32 = false := by decide
theorem test_ill_formed_cBeqz_even : (Instr.cBeqz 0#3 1#9).wf .rv64 = false := by decide
theorem test_ill_formed_cLwsp_rd : (Instr.cLwsp 0#5 4#8).wf .rv64 = false := by decide
theorem test_ill_formed_cLdsp_rd : (Instr.cLdsp 0#5 8#9).wf .rv64 = false := by decide
theorem test_ill_formed_cJr_zero : (Instr.cJr 0#5).wf .rv64 = false := by decide
theorem test_ill_formed_cMv_rs2 : (Instr.cMv 1#5 0#5).wf .rv64 = false := by decide
theorem test_ill_formed_cJalr_zero : (Instr.cJalr 0#5).wf .rv64 = false := by decide
theorem test_ill_formed_cAdd_rs2 : (Instr.cAdd 1#5 0#5).wf .rv64 = false := by decide
theorem test_ill_formed_cFswsp_mode : (Instr.cFswsp 1#5 4#8).wf .rv64 = false := by decide
theorem test_ill_formed_cSdsp_scale : (Instr.cSdsp 1#5 4#9).wf .rv64 = false := by decide

/-! ### Every constructor from a word written out from the encoding tables of spec/ -/

theorem test_decode_integer1 :
    decode32 .rv64 0b1010101_11100_11011_110_00111_0110111#32 = some (.lui 7#5 0xABCDE#20)
    ∧ decode32 .rv64 0b1010101_11100_11011_110_00111_0010111#32 = some (.auipc 7#5 0xABCDE#20)
    ∧ decode32 .rv64 0b1001101_00110_00101_000_00111_0010011#32 = some (.addi 7#5 5#5 0x9A6#12)
    ∧ decode32 .rv64 0b1001101_00110_00101_010_00111_0010011#32 = some (.slti 7#5 5#5 0x9A6#12)
    ∧ decode32 .rv64 0b1001101_00110_00101_011_00111_0010011#32 = some (.sltiu 7#5 5#5 0x9A6#12)
    ∧ decode32 .rv64 0b1001101_00110_00101_100_00111_0010011#32 = some (.xori 7#5 5#5 0x9A6#12)
    ∧ decode32 .rv64 0b1001101_00110_00101_110_00111_0010011#32 = some (.ori 7#5 5#5 0x9A6#12)
    ∧ decode32 .rv64 0b1001101_00110_00101_111_00111_0010011#32 = some (.andi 7#5 5#5 0x9A6#12)
    ∧ decode32 .rv64 0b0000001_00110_00101_001_00111_0010011#32 = some (.slli 7#5 5#5 0b100110#6)
    ∧ decode32 .rv64 0b0000001_00110_00101_101_00111_0010011#32 = some (.srli 7#5 5#5 0b100110#6)
    ∧ decode32 .rv64 0b0100001_00110_00101_101_00111_0010011#32 = some (.srai 7#5 5#5 0b100110#6)
    ∧ decode32 .rv64 0b0000000_00110_00101_000_00111_0110011#32 = some (.add 7#5 5#5 6#5) := by decide

theorem test_decode_integer2 :
    decode32 .rv64 0b0100000_00110_00101_000_00111_0110011#32 = some (.sub 7#5 5#5 6#5)
    ∧ decode32 .rv64 0b0000000_00110_00101_001_00111_0110011#32 = some (.sll 7#5 5#5 6#5)
    ∧ decode32 .rv64 0b0000000_00110_00101_010_00111_0110011#32 = some (.slt 7#5 5#5 6#5)
    ∧ decode32 .rv64 0b0000000_00110_00101_011_00111_0110011#32 = some (.sltu 7#5 5#5 6#5)
    ∧ decode32 .rv64 0b0000000_00110_00101_100_00111_0110011#32 = some (.xor 7#5 5#5 6#5)
    ∧ decode32 .rv64 0b0000000_00110_00101_101_00111_0110011#32 = some (.srl 7#5 5#5 6#5)
    ∧ decode32 .rv64 0b0100000_00110_00101_101_00111_0110011#32 = some (.sra 7#5 5#5 6#5)
    ∧ decode32 .rv64 0b0000000_00110_00101_110_00111_0110011#32 = some (.or 7#5 5#5 6#5)
    ∧ decode32 .rv64 0b0000000_00110_00101_111_00111_0110011#32 = some (.and 7#5 5#5 6#5)
    ∧ decode32 .rv64 0b1001101_00110_00101_000_00111_0011011#32 = some (.addiw 7#5 5#5 0x9A6#12)
    ∧ decode32 .rv64 0b0000000_10011_00101_001_00111_0011011#32 = some (.slliw 7#5 5#5 0b10011#5)
    ∧ decode32 .rv64 0b0000000_10011_00101_101_00111_0011011#32 = some (.srliw 7#5 5#5 0b10011#5) := by decide

theorem test_decode_integer3 :
    decode32 .rv64 0b0100000_10011_00101_101_00111_0011011#32 = some (.sraiw 7#5 5#5 0b10011#5)
    ∧ decode32 .rv64 0b0000000_00110_00101_000_00111_0111011#32 = some (.addw 7#5 5#5 6#5)
    ∧ decode32 .rv64 0b0100000_00110_00101_000_00111_0111011#32 = some (.subw 7#5 5#5 6#5)
    ∧ decode32 .rv64 0b0000000_00110_00101_001_00111_0111011#32 = some (.sllw 7#5 5#5 6#5)
    ∧ decode32 .rv64 0b0000000_00110_00101_101_00111_0111011#32 = some (.srlw 7#5 5#5 6#5)
    ∧ decode32 .rv64 0b0100000_00110_00101_101_00111_0111011#32 = some (.sraw 7#5 5#5 6#5) := by decide

theorem test_decode_control :
    decode32 .rv64 0b1101101_00110_01011_010_00111_1101111#32 = some (.jal 7#5 0x15A5A6#21)
    ∧ decode32 .rv64 0b1001101_00110_00101_000_00111_1100111#32 = some (.jalr 7#5 5#5 0x9A6#12)
    ∧ decode32 .rv64 0b1001101_00110_00101_000_00111_1100011#32 = some (.beq 5#5 6#5 0x19A6#13)
    ∧ decode32 .rv64 0b1001101_00110_00101_001_00111_1100011#32 = some (.bne 5#5 6#5 0x19A6#13)
    ∧ decode32 .rv64 0b1001101_00110_00101_100_00111_1100011#32 = some (.blt 5#5 6#5 0x19A6#13)
    ∧ decode32 .rv64 0b1001101_00110_00101_101_00111_1100011#32 = some (.bge 5#5 6#5 0x19A6#13)
    ∧ decode32 .rv64 0b1001101_00110_00101_110_00111_1100011#32 = some (.bltu 5#5 6#5 0x19A6#13)
    ∧ decode32 .rv64 0b1001101_00110_00101_111_00111_1100011#32 = some (.bgeu 5#5 6#5 0x19A6#13) := by decide

theorem test_decode_loadstore1 :
    decode32 .rv64 0b1001101_00110_00101_000_00111_0000011#32 = some (.lb 7#5 5#5 0x9A6#12)
    ∧ decode32 .rv64 0b1001101_00110_00101_001_00111_0000011#32 = some (.lh 7#5 5#5 0x9A6#12)
    ∧ decode32 .rv64 0b1001101_00110_00101_010_00111_0000011#32 = some (.lw 7#5 5#5 0x9A6#12)
    ∧ decode32 .rv64 0b1001101_00110_00101_011_00111_0000011#32 = some (.ld 7#5 5#5 0x9A6#12)
    ∧ decode32 .rv64 0b1001101_00110_00101_100_00111_0000011#32 = some (.lbu 7#5 5#5 0x9A6#12)
    ∧ decode32 .rv64 0b1001101_00110_00101_101_00111_0000011#32 = some (.lhu 7#5 5#5 0x9A6#12)
    ∧ decode32 .rv64 0b1001101_00110_00101_110_00111_0000011#32 = some (.lwu 7#5 5#5 0x9A6#12)
    ∧ decode32 .rv64 0b1001101_00110_00101_000_00110_0100011#32 = some (.sb 5#5 6#5 0x9A6#12)
    ∧ decode32 .rv64 0b1001101_00110_00101_001_00110_0100011#32 = some (.sh 5#5 6#5 0x9A6#12)
    ∧ decode32 .rv64 0b1001101_00110_00101_010_00110_0100011#32 = some (.sw 5#5 6#5 0x9A6#12)
    ∧ decode32 .rv64 0b1001101_00110_00101_011_00110_0100011#32 = some (.sd 5#5 6#5 0x9A6#12)
    ∧ decode32 .rv64 0b1001101_00110_00101_010_00111_0000111#32 = some (.flw 7#5 5#5 0x9A6#12) := by decide

theorem test_decode_loadstore2 :
    decode32 .rv64 0b1001101_00110_00101_011_00111_0000111#32 = some (.fld 7#5 5#5 0x9A6#12)
    ∧ decode32 .rv64 0b1001101_00110_00101_010_00110_0100111#32 = some (.fsw 5#5 6#5 0x9A6#12)
    ∧ decode32 .rv64 0b1001101_00110_00101_011_00110_0100111#32 = some (.fsd 5#5 6#5 0x9A6#12) := by decide

theorem test_decode_muldiv1 :
    decode32 .rv64 0b0000001_00110_00101_000_00111_0110011#32 = some (.mul 7#5 5#5 6#5)
    ∧ decode32 .rv64 0b0000001_00110_00101_001_00111_0110011#32 = some (.mulh 7#5 5#5 6#5)
    ∧ decode32 .rv64 0b0000001_00110_00101_010_00111_0110011#32 = some (.mulhsu 7#5 5#5 6#5)
    ∧ decode32 .rv64 0b0000001_00110_00101_011_00111_0110011#32 = some (.mulhu 7#5 5#5 6#5)
    ∧ decode32 .rv64 0b0000001_00110_00101_100_00111_0110011#32 = some (.div 7#5 5#5 6#5)
    ∧ decode32 .rv64 0b0000001_00110_00101_101_00111_0110011#32 = some (.divu 7#5 5#5 6#5)
    ∧ decode32 .rv64 0b0000001_00110_00101_110_00111_0110011#32 = some (.rem 7#5 5#5 6#5)
    ∧ decode32 .rv64 0b0000001_00110_00101_111_00111_0110011#32 = some (.remu 7#5 5#5 6#5)
    ∧ decode32 .rv64 0b0000001_00110_00101_000_00111_0111011#32 = some (.mulw 7#5 5#5 6#5)
    ∧ decode32 .rv64 0b0000001_00110_00101_100_00111_0111011#32 = some (.divw 7#5 5#5 6#5)
    ∧ decode32 .rv64 0b0000001_00110_00101_101_00111_0111011#32 = some (.divuw 7#5 5#5 6#5)
    ∧ decode32 .rv64 0b0000001_00110_00101_110_00111_0111011#32 = some (.remw 7#5 5#5 6#5) := by decide

theorem test_decode_muldiv2 :
    decode32 .rv64 0b0000001_00110_00101_111_00111_0111011#32 = some (.remuw 7#5 5#5 6#5) := by decide

theorem test_decode_atomic_word :
    decode32 .rv64 0b0001010_00000_00101_010_00111_0101111#32 = some (.lrW 7#5 5#5 true false)
    ∧ decode32 .rv64 0b0001110_00110_00101_010_00111_0101111#32 = some (.scW 7#5 5#5 6#5 true false)
    ∧ decode32 .rv64 0b0000110_00110_00101_010_00111_0101111#32 = some (.amoswapW 7#5 5#5 6#5 true false)
    ∧ decode32 .rv64 0b0000010_00110_00101_010_00111_0101111#32 = some (.amoaddW 7#5 5#5 6#5 true false)
    ∧ decode32 .rv64 0b0010010_00110_00101_010_00111_0101111#32 = some (.amoxorW 7#5 5#5 6#5 true false)
    ∧ decode32 .rv64 0b0110010_00110_00101_010_00111_0101111#32 = some (.amoandW 7#5 5#5 6#5 true false)
    ∧ decode32 .rv64 0b0100010_00110_00101_010_00111_0101111#32 = some (.amoorW 7#5 5#5 6#5 true false)
    ∧ decode32 .rv64 0b1000010_00110_00101_010_00111_0101111#32 = some (.amominW 7#5 5#5 6#5 true false)
    ∧ decode32 .rv64 0b1010010_00110_00101_010_00111_0101111#32 = some (.amomaxW 7#5 5#5 6#5 true false)
    ∧ decode32 .rv64 0b1100010_00110_00101_010_00111_0101111#32 = some (.amominuW 7#5 5#5 6#5 true false)
    ∧ decode32 .rv64 0b1110010_00110_00101_010_00111_0101111#32 = some (.amomaxuW 7#5 5#5 6#5 true false) := by decide

theorem test_decode_atomic_double :
    decode32 .rv64 0b0001010_00000_00101_011_00111_0101111#32 = some (.lrD 7#5 5#5 true false)
    ∧ decode32 .rv64 0b0001110_00110_00101_011_00111_0101111#32 = some (.scD 7#5 5#5 6#5 true false)
    ∧ decode32 .rv64 0b0000110_00110_00101_011_00111_0101111#32 = some (.amoswapD 7#5 5#5 6#5 true false)
    ∧ decode32 .rv64 0b0000010_00110_00101_011_00111_0101111#32 = some (.amoaddD 7#5 5#5 6#5 true false)
    ∧ decode32 .rv64 0b0010010_00110_00101_011_00111_0101111#32 = some (.amoxorD 7#5 5#5 6#5 true false)
    ∧ decode32 .rv64 0b0110010_00110_00101_011_00111_0101111#32 = some (.amoandD 7#5 5#5 6#5 true false)
    ∧ decode32 .rv64 0b0100010_00110_00101_011_00111_0101111#32 = some (.amoorD 7#5 5#5 6#5 true false)
    ∧ decode32 .rv64 0b1000010_00110_00101_011_00111_0101111#32 = some (.amominD 7#5 5#5 6#5 true false)
    ∧ decode32 .rv64 0b1010010_00110_00101_011_00111_0101111#32 = some (.amomaxD 7#5 5#5 6#5 true false)
    ∧ decode32 .rv64 0b1100010_00110_00101_011_00111_0101111#32 = some (.amominuD 7#5 5#5 6#5 true false)
    ∧ decode32 .rv64 0b1110010_00110_00101_011_00111_0101111#32 = some (.amomaxuD 7#5 5#5 6#5 true false) := by decide

theorem test_decode_csr :
    decode32 .rv64 0b0011010_00001_00101_001_00111_1110011#32 = some (.csrrw 7#5 5#5 0x341#12)
    ∧ decode32 .rv64 0b0011010_00001_00101_010_00111_1110011#32 = some (.csrrs 7#5 5#5 0x341#12)
    ∧ decode32 .rv64 0b0011010_00001_00101_011_00111_1110011#32 = some (.csrrc 7#5 5#5 0x341#12)
    ∧ decode32 .rv64 0b0011010_00001_10110_101_00111_1110011#32 = some (.csrrwi 7#5 0b10110#5 0x341#12)
    ∧ decode32 .rv64 0b0011010_00001_10110_110_00111_1110011#32 = some (.csrrsi 7#5 0b10110#5 0x341#12)
    ∧ decode32 .rv64 0b0011010_00001_10110_111_00111_1110011#32 = some (.csrrci 7#5 0b10110#5 0x341#12) := by decide

theorem test_decode_system :
    decode32 .rv64 0b1000001_10101_00101_000_00111_0001111#32 = some (.fence 8#4 3#4 5#4 5#5 7#5)
    ∧ decode32 .rv64 0b1001101_00110_00101_001_00111_0001111#32 = some (.fenceI 0x9A6#12 5#5 7#5)
    ∧ decode32 .rv64 0b0000000_00000_00000_000_00000_1110011#32 = some .ecall
    ∧ decode32 .rv64 0b0000000_00001_00000_000_00000_1110011#32 = some .ebreak
    ∧ decode32 .rv64 0b0001000_00010_00000_000_00000_1110011#32 = some .sret
    ∧ decode32 .rv64 0b0011000_00010_00000_000_00000_1110011#32 = some .mret
    ∧ decode32 .rv64 0b0001000_00101_00000_000_00000_1110011#32 = some .wfi
    ∧ decode32 .rv64 0b0001001_00110_00101_000_00000_1110011#32 = some (.sfenceVma 5#5 6#5) := by decide

theorem test_decode_float :
    decode32 .rv64 0b0010001_00110_00101_101_00111_1000011#32 = some (.fpMadd 7#5 5#5 6#5 5#3 0b0010001#7)
    ∧ decode32 .rv64 0b0010001_00110_00101_101_00111_1000111#32 = some (.fpMsub 7#5 5#5 6#5 5#3 0b0010001#7)
    ∧ decode32 .rv64 0b0010001_00110_00101_101_00111_1001011#32 = some (.fpNmsub 7#5 5#5 6#5 5#3 0b0010001#7)
    ∧ decode32 .rv64 0b0010001_00110_00101_101_00111_1001111#32 = some (.fpNmadd 7#5 5#5 6#5 5#3 0b0010001#7)
    ∧ decode32 .rv64 0b0010001_00110_00101_101_00111_1010011#32 = some (.fpOp 7#5 5#5 6#5 5#3 0b0010001#7) := by decide

/-! The examples of 47_compressed.md R650 to R691: the parcel, its instruction, and the word it expands to. -/

theorem test_decode_compressed1 :
    (decode16 .rv64 0b000_0_10000_00000_00#16 = some (.cAddi4spn 0#3 16#10) ∧ decompress .rv64 0x0800#16 = some 0x01010413#32)
    ∧ (decode16 .rv64 0b001_0_01010_00001_00#16 = some (.cFld 1#3 2#3 8#8) ∧ decompress .rv64 0x2504#16 = some 0x00853487#32)
    ∧ (decode16 .rv64 0b010_0_00010_10001_00#16 = some (.cLw 1#3 2#3 4#7) ∧ decompress .rv64 0x4144#16 = some 0x00452483#32)
    ∧ (decode16 .rv32 0b011_0_00010_10001_00#16 = some (.cFlw 1#3 2#3 4#7) ∧ decompress .rv32 0x6144#16 = some 0x00452487#32)
    ∧ (decode16 .rv64 0b011_0_01010_00001_00#16 = some (.cLd 1#3 2#3 8#8) ∧ decompress .rv64 0x6504#16 = some 0x00853483#32)
    ∧ (decode16 .rv64 0b101_0_01010_00001_00#16 = some (.cFsd 2#3 1#3 8#8) ∧ decompress .rv64 0xA504#16 = some 0x00953427#32)
    ∧ (decode16 .rv64 0b110_0_00010_10001_00#16 = some (.cSw 2#3 1#3 4#7) ∧ decompress .rv64 0xC144#16 = some 0x00952223#32)
    ∧ (decode16 .rv32 0b111_0_00010_10001_00#16 = some (.cFsw 2#3 1#3 4#7) ∧ decompress .rv32 0xE144#16 = some 0x00952227#32)
    ∧ (decode16 .rv64 0b111_0_01010_00001_00#16 = some (.cSd 2#3 1#3 8#8) ∧ decompress .rv64 0xE504#16 = some 0x00953423#32)
    ∧ (decode16 .rv64 0b000_0_00000_00000_01#16 = some (.cNop 0#6) ∧ decompress .rv64 0x0001#16 = some 0x00000013#32)
    ∧ (decode16 .rv64 0b000_1_01010_11111_01#16 = some (.cAddi 10#5 0x3F#6) ∧ decompress .rv64 0x157D#16 = some 0xFFF50513#32) := by decide

theorem test_decode_compressed2 :
    (decode16 .rv32 0b001_0_10000_00000_01#16 = some (.cJal 16#12) ∧ decompress .rv32 0x2801#16 = some 0x010000EF#32)
    ∧ (decode16 .rv64 0b001_0_01010_00001_01#16 = some (.cAddiw 10#5 1#6) ∧ decompress .rv64 0x2505#16 = some 0x0015051B#32)
    ∧ (decode16 .rv64 0b010_1_01010_11110_01#16 = some (.cLi 10#5 0x3E#6) ∧ decompress .rv64 0x5579#16 = some 0xFFE00513#32)
    ∧ (decode16 .rv64 0b011_1_00010_01110_01#16 = some (.cAddi16sp 0x3C0#10) ∧ decompress .rv64 0x7139#16 = some 0xFC010113#32)
    ∧ (decode16 .rv64 0b011_0_01010_00001_01#16 = some (.cLui 10#5 1#6) ∧ decompress .rv64 0x6505#16 = some 0x00001537#32)
    ∧ (decode16 .rv64 0b011_1_01010_11111_01#16 = some (.cLui 10#5 0x3F#6) ∧ decompress .rv64 0x757D#16 = some 0xFFFFF537#32)
    ∧ (decode16 .rv64 0b100_1_00000_00001_01#16 = some (.cSrli 0#3 33#6) ∧ decompress .rv64 0x9005#16 = some 0x02145413#32)
    ∧ (decode16 .rv64 0b100_0_01000_00011_01#16 = some (.cSrai 0#3 3#6) ∧ decompress .rv64 0x840D#16 = some 0x40345413#32)
    ∧ (decode16 .rv64 0b100_1_10000_11111_01#16 = some (.cAndi 0#3 0x3F#6) ∧ decompress .rv64 0x987D#16 = some 0xFFF47413#32)
    ∧ (decode16 .rv64 0b100_0_11000_00001_01#16 = some (.cSub 0#3 1#3) ∧ decompress .rv64 0x8C05#16 = some 0x40940433#32)
    ∧ (decode16 .rv64 0b100_0_11000_01001_01#16 = some (.cXor 0#3 1#3) ∧ decompress .rv64 0x8C25#16 = some 0x00944433#32) := by decide

theorem test_decode_compressed3 :
    (decode16 .rv64 0b100_0_11000_10001_01#16 = some (.cOr 0#3 1#3) ∧ decompress .rv64 0x8C45#16 = some 0x00946433#32)
    ∧ (decode16 .rv64 0b100_0_11000_11001_01#16 = some (.cAnd 0#3 1#3) ∧ decompress .rv64 0x8C65#16 = some 0x00947433#32)
    ∧ (decode16 .rv64 0b100_1_11000_00001_01#16 = some (.cSubw 0#3 1#3) ∧ decompress .rv64 0x9C05#16 = some 0x4094043B#32)
    ∧ (decode16 .rv64 0b100_1_11000_01001_01#16 = some (.cAddw 0#3 1#3) ∧ decompress .rv64 0x9C25#16 = some 0x0094043B#32)
    ∧ (decode16 .rv64 0b101_1_11111_11101_01#16 = some (.cJ 0xFFC#12) ∧ decompress .rv64 0xBFF5#16 = some 0xFFDFF06F#32)
    ∧ (decode16 .rv64 0b110_0_01000_00000_01#16 = some (.cBeqz 0#3 8#9) ∧ decompress .rv64 0xC401#16 = some 0x00040463#32)
    ∧ (decode16 .rv64 0b111_1_11000_11001_01#16 = some (.cBnez 0#3 0x1F8#9) ∧ decompress .rv64 0xFC65#16 = some 0xFE041CE3#32)
    ∧ (decode16 .rv64 0b000_0_01010_00100_10#16 = some (.cSlli 10#5 4#6) ∧ decompress .rv64 0x0512#16 = some 0x00451513#32)
    ∧ (decode16 .rv64 0b001_0_01001_11000_10#16 = some (.cFldsp 9#5 24#9) ∧ decompress .rv64 0x24E2#16 = some 0x01813487#32)
    ∧ (decode16 .rv64 0b010_0_01001_01100_10#16 = some (.cLwsp 9#5 12#8) ∧ decompress .rv64 0x44B2#16 = some 0x00C12483#32)
    ∧ (decode16 .rv32 0b011_0_01001_01100_10#16 = some (.cFlwsp 9#5 12#8) ∧ decompress .rv32 0x64B2#16 = some 0x00C12487#32) := by decide

theorem test_decode_compressed4 :
    (decode16 .rv64 0b011_0_00001_01000_10#16 = some (.cLdsp 1#5 8#9) ∧ decompress .rv64 0x60A2#16 = some 0x00813083#32)
    ∧ (decode16 .rv64 0b100_0_00001_00000_10#16 = some (.cJr 1#5) ∧ decompress .rv64 0x8082#16 = some 0x00008067#32)
    ∧ (decode16 .rv64 0b100_0_01010_01011_10#16 = some (.cMv 10#5 11#5) ∧ decompress .rv64 0x852E#16 = some 0x00B00533#32)
    ∧ (decode16 .rv64 0b100_1_00000_00000_10#16 = some .cEbreak ∧ decompress .rv64 0x9002#16 = some 0x00100073#32)
    ∧ (decode16 .rv64 0b100_1_00101_00000_10#16 = some (.cJalr 5#5) ∧ decompress .rv64 0x9282#16 = some 0x000280E7#32)
    ∧ (decode16 .rv64 0b100_1_01010_01011_10#16 = some (.cAdd 10#5 11#5) ∧ decompress .rv64 0x952E#16 = some 0x00B50533#32)
    ∧ (decode16 .rv64 0b101_0_11000_01001_10#16 = some (.cFsdsp 9#5 24#9) ∧ decompress .rv64 0xAC26#16 = some 0x00913C27#32)
    ∧ (decode16 .rv64 0b110_0_01100_01001_10#16 = some (.cSwsp 9#5 12#8) ∧ decompress .rv64 0xC626#16 = some 0x00912623#32)
    ∧ (decode16 .rv32 0b111_0_01100_01001_10#16 = some (.cFswsp 9#5 12#8) ∧ decompress .rv32 0xE626#16 = some 0x00912627#32)
    ∧ (decode16 .rv64 0b111_0_01000_00001_10#16 = some (.cSdsp 1#5 8#9) ∧ decompress .rv64 0xE406#16 = some 0x00113423#32) := by decide

/-- Words and parcels that are no instruction (95_test_vectors.md V40.15, V40.41, V41.5, V42.13, V44.5, V46.16, V47.15 to V47.23). -/
theorem test_rejected :
    decode32 .rv32 0x02029393#32 = none ∧ decode32 .rv32 0x006283BB#32 = none ∧ decode32 .rv64 0x000290E7#32 = none
    ∧ decode32 .rv64 0x0002F383#32 = none ∧ decode32 .rv64 0x1012A3AF#32 = none ∧ decode32 .rv64 0x000000F3#32 = none
    ∧ decode16 .rv64 0x0000#16 = none ∧ decode16 .rv64 0x6101#16 = none ∧ decode16 .rv64 0x8002#16 = none
    ∧ decode16 .rv64 0x4002#16 = none ∧ decode16 .rv32 0x9001#16 = none ∧ decode16 .rv64 0x8000#16 = none := by decide

/-- The host's two entry points: a row's word is decoded, in the mode that has it, and stored where the next step fetches. -/
theorem test_table_words :
    decodeTableWord 32 0x006283B3 = some (.add 7#5 5#5 6#5) ∧ decodeTableWord 16 0x157D = some (.cAddi 10#5 0x3F#6)
    ∧ decodeTableWord 16 0x2801 = some (.cAddiw 16#5 0#6) ∧ decodeTableWord 32 0xFFFFFFFF = none := by decide

theorem test_fetch_word :
    meets (step (State.reset.withFetchWord 32 0x80000437)) (fun t =>
      decide (t.readX 8#5 = 0xFFFFFFFF80000000#64 ∧ t.pc = 0x80000004#64)) = true := by decide

/-! ### Steps: rows of 95_test_vectors.md, by their numbers -/

theorem test_v40_1_add :
    meets (step (((put (start .rv64) 0x80000100 4 0x006283B3).writeX 5 0x7fffffffffffffff).writeX 6 0x1)) (fun t => decide (t.readX 7 = 0x8000000000000000 ∧ t.pc = 0x80000104)) = true := by decide
theorem test_v40_2_sub :
    meets (step (((put (start .rv64) 0x80000100 4 0x406283B3).writeX 5 0x0).writeX 6 0x1)) (fun t => decide (t.readX 7 = 0xffffffffffffffff ∧ t.pc = 0x80000104)) = true := by decide
theorem test_v40_4_addi :
    meets (step ((put (start .rv64) 0x80000100 4 0xFFF28393).writeX 5 0x0)) (fun t => decide (t.readX 7 = 0xffffffffffffffff ∧ t.pc = 0x80000104)) = true := by decide
theorem test_v40_6_slti :
    meets (step ((put (start .rv64) 0x80000100 4 0xFFF2A393).writeX 5 0xfffffffffffffffe)) (fun t => decide (t.readX 7 = 0x1 ∧ t.pc = 0x80000104)) = true := by decide
theorem test_v40_7_sltiu :
    meets (step ((put (start .rv64) 0x80000100 4 0xFFF2B393).writeX 5 0x5)) (fun t => decide (t.readX 7 = 0x1 ∧ t.pc = 0x80000104)) = true := by decide
theorem test_v40_9_xori :
    meets (step ((put (start .rv64) 0x80000100 4 0xFFF2C393).writeX 5 0xf)) (fun t => decide (t.readX 7 = 0xfffffffffffffff0 ∧ t.pc = 0x80000104)) = true := by decide
theorem test_v40_10_ori :
    meets (step ((put (start .rv64) 0x80000100 4 0x7F02E393).writeX 5 0xf)) (fun t => decide (t.readX 7 = 0x7ff ∧ t.pc = 0x80000104)) = true := by decide
theorem test_v40_11_andi :
    meets (step ((put (start .rv64) 0x80000100 4 0xFF02F393).writeX 5 0x12345)) (fun t => decide (t.readX 7 = 0x12340 ∧ t.pc = 0x80000104)) = true := by decide
theorem test_v40_12_slli :
    meets (step ((put (start .rv64) 0x80000100 4 0x03F29393).writeX 5 0x1)) (fun t => decide (t.readX 7 = 0x8000000000000000 ∧ t.pc = 0x80000104)) = true := by decide
theorem test_v40_13_srli :
    meets (step ((put (start .rv64) 0x80000100 4 0x03C2D393).writeX 5 0xffffffffffffffff)) (fun t => decide (t.readX 7 = 0xf ∧ t.pc = 0x80000104)) = true := by decide
theorem test_v40_14_srai :
    meets (step ((put (start .rv64) 0x80000100 4 0x43C2D393).writeX 5 0x8000000000000000)) (fun t => decide (t.readX 7 = 0xfffffffffffffff8 ∧ t.pc = 0x80000104)) = true := by decide
theorem test_v40_15_slli :
    meets (step ((put (start .rv32) 0x80000100 4 0x02029393).writeX 5 0x1)) (fun t => decide (t.csr.mcause = 2 ∧ t.csr.mtval = 0x2029393 ∧ t.csr.mepc = 0x80000100 ∧ t.priv = .M)) = true := by decide
theorem test_v40_16_srai :
    meets (step ((put (start .rv32) 0x80000100 4 0x41F2D393).writeX 5 0x80000000)) (fun t => decide (t.readX 7 = 0xffffffff ∧ t.pc = 0x80000104)) = true := by decide
theorem test_v40_17_sll :
    meets (step (((put (start .rv64) 0x80000100 4 0x006293B3).writeX 5 0x3).writeX 6 0x41)) (fun t => decide (t.readX 7 = 0x6 ∧ t.pc = 0x80000104)) = true := by decide
theorem test_v40_18_sll :
    meets (step (((put (start .rv32) 0x80000100 4 0x006293B3).writeX 5 0x3).writeX 6 0x21)) (fun t => decide (t.readX 7 = 0x6 ∧ t.pc = 0x80000104)) = true := by decide
theorem test_v40_19_slt :
    meets (step (((put (start .rv64) 0x80000100 4 0x0062A3B3).writeX 5 0xffffffffffffffff).writeX 6 0x1)) (fun t => decide (t.readX 7 = 0x1 ∧ t.pc = 0x80000104)) = true := by decide
theorem test_v40_20_sltu :
    meets (step (((put (start .rv64) 0x80000100 4 0x0062B3B3).writeX 5 0xffffffffffffffff).writeX 6 0x1)) (fun t => decide (t.readX 7 = 0x0 ∧ t.pc = 0x80000104)) = true := by decide
theorem test_v40_22_xor :
    meets (step (((put (start .rv64) 0x80000100 4 0x0062C3B3).writeX 5 0xff00).writeX 6 0xff0)) (fun t => decide (t.readX 7 = 0xf0f0 ∧ t.pc = 0x80000104)) = true := by decide
theorem test_v40_23_srl :
    meets (step (((put (start .rv64) 0x80000100 4 0x0062D3B3).writeX 5 0xffffffffffffffff).writeX 6 0x4)) (fun t => decide (t.readX 7 = 0xfffffffffffffff ∧ t.pc = 0x80000104)) = true := by decide
theorem test_v40_24_sra :
    meets (step (((put (start .rv64) 0x80000100 4 0x4062D3B3).writeX 5 0xffffffffffffff00).writeX 6 0x4)) (fun t => decide (t.readX 7 = 0xfffffffffffffff0 ∧ t.pc = 0x80000104)) = true := by decide
theorem test_v40_27_lui :
    meets (step (put (start .rv64) 0x80000100 4 0x800003B7)) (fun t => decide (t.readX 7 = 0xffffffff80000000 ∧ t.pc = 0x80000104)) = true := by decide
theorem test_v40_29_auipc :
    meets (step (put (start .rv64) 0x80000100 4 0xFFFFF397)) (fun t => decide (t.readX 7 = 0x7ffff100 ∧ t.pc = 0x80000104)) = true := by decide
theorem test_v40_30_addiw :
    meets (step ((put (start .rv64) 0x80000100 4 0x0012839B).writeX 5 0x7fffffff)) (fun t => decide (t.readX 7 = 0xffffffff80000000 ∧ t.pc = 0x80000104)) = true := by decide
theorem test_v40_32_slliw :
    meets (step ((put (start .rv64) 0x80000100 4 0x01F2939B).writeX 5 0x1)) (fun t => decide (t.readX 7 = 0xffffffff80000000 ∧ t.pc = 0x80000104)) = true := by decide
theorem test_v40_34_srliw :
    meets (step ((put (start .rv64) 0x80000100 4 0x0042D39B).writeX 5 0xffffffff80000000)) (fun t => decide (t.readX 7 = 0x8000000 ∧ t.pc = 0x80000104)) = true := by decide
theorem test_v40_35_sraiw :
    meets (step ((put (start .rv64) 0x80000100 4 0x4042D39B).writeX 5 0x80000000)) (fun t => decide (t.readX 7 = 0xfffffffff8000000 ∧ t.pc = 0x80000104)) = true := by decide
theorem test_v40_36_addw :
    meets (step (((put (start .rv64) 0x80000100 4 0x006283BB).writeX 5 0x7fffffff).writeX 6 0x1)) (fun t => decide (t.readX 7 = 0xffffffff80000000 ∧ t.pc = 0x80000104)) = true := by decide
theorem test_v40_37_subw :
    meets (step (((put (start .rv64) 0x80000100 4 0x406283BB).writeX 5 0x0).writeX 6 0x1)) (fun t => decide (t.readX 7 = 0xffffffffffffffff ∧ t.pc = 0x80000104)) = true := by decide
theorem test_v40_38_sllw :
    meets (step (((put (start .rv64) 0x80000100 4 0x006293BB).writeX 5 0x40000000).writeX 6 0x21)) (fun t => decide (t.readX 7 = 0xffffffff80000000 ∧ t.pc = 0x80000104)) = true := by decide
theorem test_v40_39_srlw :
    meets (step (((put (start .rv64) 0x80000100 4 0x0062D3BB).writeX 5 0xffffffffffffffff).writeX 6 0x0)) (fun t => decide (t.readX 7 = 0xffffffffffffffff ∧ t.pc = 0x80000104)) = true := by decide
theorem test_v40_40_sraw :
    meets (step (((put (start .rv64) 0x80000100 4 0x4062D3BB).writeX 5 0x80000000).writeX 6 0x1f)) (fun t => decide (t.readX 7 = 0xffffffffffffffff ∧ t.pc = 0x80000104)) = true := by decide
theorem test_v40_41_addw_on_rv32 :
    meets (step (((put (start .rv32) 0x80000100 4 0x006283BB).writeX 5 0x1).writeX 6 0x1)) (fun t => decide (t.csr.mcause = 2 ∧ t.csr.mtval = 0x6283bb ∧ t.csr.mepc = 0x80000100 ∧ t.priv = .M)) = true := by decide
theorem test_v41_1_jal :
    meets (step (put (start .rv64) 0x80000100 4 0x008000EF)) (fun t => decide (t.readX 1 = 0x80000104 ∧ t.pc = 0x80000108)) = true := by decide
theorem test_v41_3_jalr :
    meets (step ((put (start .rv64) 0x80000100 4 0x003280E7).writeX 5 0x80000200)) (fun t => decide (t.readX 1 = 0x80000104 ∧ t.pc = 0x80000202)) = true := by decide
theorem test_v41_4_jalr :
    meets (step ((put (start .rv64) 0x80000100 4 0x000282E7).writeX 5 0x80000300)) (fun t => decide (t.readX 5 = 0x80000104 ∧ t.pc = 0x80000300)) = true := by decide
theorem test_v41_6_beq :
    meets (step (((put (start .rv64) 0x80000100 4 0x00628863).writeX 5 0x7).writeX 6 0x7)) (fun t => decide (t.pc = 0x80000110)) = true := by decide
theorem test_v41_7_bne :
    meets (step (((put (start .rv64) 0x80000100 4 0x00629863).writeX 5 0x7).writeX 6 0x7)) (fun t => decide (t.pc = 0x80000104)) = true := by decide
theorem test_v41_8_blt :
    meets (step (((put (start .rv64) 0x80000100 4 0xFE62CEE3).writeX 5 0xffffffffffffffff).writeX 6 0x1)) (fun t => decide (t.pc = 0x800000fc)) = true := by decide
theorem test_v41_9_bge :
    meets (step (((put (start .rv64) 0x80000100 4 0x0062D463).writeX 5 0xffffffffffffffff).writeX 6 0xffffffffffffffff)) (fun t => decide (t.pc = 0x80000108)) = true := by decide
theorem test_v41_10_bltu :
    meets (step (((put (start .rv64) 0x80000100 4 0xFE62EEE3).writeX 5 0xffffffffffffffff).writeX 6 0x1)) (fun t => decide (t.pc = 0x80000104)) = true := by decide
theorem test_v41_11_bgeu :
    meets (step (((put (start .rv64) 0x80000100 4 0x0062F463).writeX 5 0xffffffffffffffff).writeX 6 0x1)) (fun t => decide (t.pc = 0x80000108)) = true := by decide
theorem test_v42_1_lb :
    meets (step (put ((put (start .rv64) 0x80000100 4 0x00728383).writeX 5 0x80001000) 0x80001000 8 0x8877665544332211)) (fun t => decide (t.readX 7 = 0xffffffffffffff88 ∧ t.pc = 0x80000104)) = true := by decide
theorem test_v42_2_lbu :
    meets (step (put ((put (start .rv64) 0x80000100 4 0x0072C383).writeX 5 0x80001000) 0x80001000 8 0x8877665544332211)) (fun t => decide (t.readX 7 = 0x88 ∧ t.pc = 0x80000104)) = true := by decide
theorem test_v42_3_lh :
    meets (step (put ((put (start .rv64) 0x80000100 4 0x00629383).writeX 5 0x80001000) 0x80001000 8 0x8877665544332211)) (fun t => decide (t.readX 7 = 0xffffffffffff8877 ∧ t.pc = 0x80000104)) = true := by decide
theorem test_v42_4_lhu :
    meets (step (put ((put (start .rv64) 0x80000100 4 0x0062D383).writeX 5 0x80001000) 0x80001000 8 0x8877665544332211)) (fun t => decide (t.readX 7 = 0x8877 ∧ t.pc = 0x80000104)) = true := by decide
theorem test_v42_5_lw :
    meets (step (put ((put (start .rv64) 0x80000100 4 0x0042A383).writeX 5 0x80001000) 0x80001000 8 0x8877665544332211)) (fun t => decide (t.readX 7 = 0xffffffff88776655 ∧ t.pc = 0x80000104)) = true := by decide
theorem test_v42_6_lwu :
    meets (step (put ((put (start .rv64) 0x80000100 4 0x0042E383).writeX 5 0x80001000) 0x80001000 8 0x8877665544332211)) (fun t => decide (t.readX 7 = 0x88776655 ∧ t.pc = 0x80000104)) = true := by decide
theorem test_v42_7_ld :
    meets (step (put ((put (start .rv64) 0x80000100 4 0x0002B383).writeX 5 0x80001000) 0x80001000 8 0x8877665544332211)) (fun t => decide (t.readX 7 = 0x8877665544332211 ∧ t.pc = 0x80000104)) = true := by decide
theorem test_v42_8_lw :
    meets (step (put ((put (start .rv64) 0x80000100 4 0x0012A383).writeX 5 0x80001000) 0x80001000 8 0x8877665544332211)) (fun t => decide (t.readX 7 = 0x55443322 ∧ t.pc = 0x80000104)) = true := by decide
theorem test_v42_10_lw :
    meets (step ((put (start .rv64) 0x80000100 4 0x0002A383).writeX 5 0x0)) (fun t => decide (t.csr.mcause = 5 ∧ t.csr.mtval = 0x0 ∧ t.csr.mepc = 0x80000100 ∧ t.priv = .M)) = true := by decide
theorem test_v42_11_ld :
    meets (step ((put (start .rv64) 0x80000100 4 0x0002B383).writeX 5 0x800ffffc)) (fun t => decide (t.csr.mcause = 5 ∧ t.csr.mtval = 0x800ffffc ∧ t.csr.mepc = 0x80000100 ∧ t.priv = .M)) = true := by decide
theorem test_v42_14_sb :
    meets (step (((put (start .rv64) 0x80000100 4 0x006280A3).writeX 5 0x80001000).writeX 6 0xabcd)) (fun t => decide (t.pc = 0x80000104 ∧ Memory.readLE t.dram 0x80001000 8 = 0xcd00)) = true := by decide
theorem test_v42_15_sh :
    meets (step (((put (start .rv64) 0x80000100 4 0x00629123).writeX 5 0x80001000).writeX 6 0xabcd)) (fun t => decide (t.pc = 0x80000104 ∧ Memory.readLE t.dram 0x80001000 8 = 0xabcd0000)) = true := by decide
theorem test_v42_16_sw :
    meets (step (((put (start .rv64) 0x80000100 4 0x0062A1A3).writeX 5 0x80001000).writeX 6 0x11223344)) (fun t => decide (t.pc = 0x80000104 ∧ Memory.readLE t.dram 0x80001000 8 = 0x11223344000000)) = true := by decide
theorem test_v42_17_sd :
    meets (step (((put (start .rv64) 0x80000100 4 0x0062B023).writeX 5 0x80001000).writeX 6 0x102030405060708)) (fun t => decide (t.pc = 0x80000104 ∧ t.byteAt 0x80001000 = 0x8)) = true := by decide
theorem test_v42_18_sw :
    meets (step (((put (start .rv64) 0x80000100 4 0x0062A023).writeX 5 0x1000).writeX 6 0x1)) (fun t => decide (t.csr.mcause = 7 ∧ t.csr.mtval = 0x1000 ∧ t.csr.mepc = 0x80000100 ∧ t.priv = .M)) = true := by decide
theorem test_v42_20_lb : faultOf (step ((put (start .rv64) 0x80000100 4 0x00028383).writeX 5 0x2000000)) = some .mmioWidth := by decide
theorem test_v42_21_lw :
    meets (step ((put (start .rv64) 0x80000100 4 0x0002A383).writeX 5 0x10000005)) (fun t => decide (t.readX 7 = 0x60 ∧ t.pc = 0x80000104)) = true := by decide
theorem test_v42_22_ld :
    meets (step ((put (start .rv64) 0x80000100 4 0x0002B383).writeX 5 0x10001000)) (fun t => decide (t.readX 7 = 0x174726976 ∧ t.pc = 0x80000104)) = true := by decide
theorem test_v42_23_flw_f7 :
    meets (step ((put (start .rv64) 0x80000100 4 0x0002A387).writeX 5 0x80001000)) (fun t => decide (t.csr.mcause = 2 ∧ t.csr.mtval = 0x2a387 ∧ t.csr.mepc = 0x80000100 ∧ t.priv = .M)) = true := by decide
theorem test_v43_1_mul :
    meets (step (((put (start .rv64) 0x80000100 4 0x026283B3).writeX 5 0xfffffffffffffffd).writeX 6 0x7)) (fun t => decide (t.readX 7 = 0xffffffffffffffeb ∧ t.pc = 0x80000104)) = true := by decide
theorem test_v43_3_mulh :
    meets (step (((put (start .rv64) 0x80000100 4 0x026293B3).writeX 5 0x8000000000000000).writeX 6 0x8000000000000000)) (fun t => decide (t.readX 7 = 0x4000000000000000 ∧ t.pc = 0x80000104)) = true := by decide
theorem test_v43_4_mulhsu :
    meets (step (((put (start .rv64) 0x80000100 4 0x0262A3B3).writeX 5 0xffffffffffffffff).writeX 6 0xffffffffffffffff)) (fun t => decide (t.readX 7 = 0xffffffffffffffff ∧ t.pc = 0x80000104)) = true := by decide
theorem test_v43_5_mulhu :
    meets (step (((put (start .rv64) 0x80000100 4 0x0262B3B3).writeX 5 0xffffffffffffffff).writeX 6 0xffffffffffffffff)) (fun t => decide (t.readX 7 = 0xfffffffffffffffe ∧ t.pc = 0x80000104)) = true := by decide
theorem test_v43_7_div :
    meets (step (((put (start .rv64) 0x80000100 4 0x0262C3B3).writeX 5 0x5).writeX 6 0x0)) (fun t => decide (t.readX 7 = 0xffffffffffffffff ∧ t.pc = 0x80000104)) = true := by decide
theorem test_v43_8_div :
    meets (step (((put (start .rv64) 0x80000100 4 0x0262C3B3).writeX 5 0x8000000000000000).writeX 6 0xffffffffffffffff)) (fun t => decide (t.readX 7 = 0x8000000000000000 ∧ t.pc = 0x80000104)) = true := by decide
theorem test_v43_9_divu :
    meets (step (((put (start .rv64) 0x80000100 4 0x0262D3B3).writeX 5 0x5).writeX 6 0x0)) (fun t => decide (t.readX 7 = 0xffffffffffffffff ∧ t.pc = 0x80000104)) = true := by decide
theorem test_v43_11_rem :
    meets (step (((put (start .rv64) 0x80000100 4 0x0262E3B3).writeX 5 0xfffffffffffffff9).writeX 6 0x0)) (fun t => decide (t.readX 7 = 0xfffffffffffffff9 ∧ t.pc = 0x80000104)) = true := by decide
theorem test_v43_12_rem :
    meets (step (((put (start .rv64) 0x80000100 4 0x0262E3B3).writeX 5 0x8000000000000000).writeX 6 0xffffffffffffffff)) (fun t => decide (t.readX 7 = 0x0 ∧ t.pc = 0x80000104)) = true := by decide
theorem test_v43_13_remu :
    meets (step (((put (start .rv64) 0x80000100 4 0x0262F3B3).writeX 5 0xffffffffffffffff).writeX 6 0xa)) (fun t => decide (t.readX 7 = 0x5 ∧ t.pc = 0x80000104)) = true := by decide
theorem test_v43_14_mulw :
    meets (step (((put (start .rv64) 0x80000100 4 0x026283BB).writeX 5 0x10000).writeX 6 0x10000)) (fun t => decide (t.readX 7 = 0x0 ∧ t.pc = 0x80000104)) = true := by decide
theorem test_v43_15_divw :
    meets (step (((put (start .rv64) 0x80000100 4 0x0262C3BB).writeX 5 0x80000000).writeX 6 0xffffffffffffffff)) (fun t => decide (t.readX 7 = 0xffffffff80000000 ∧ t.pc = 0x80000104)) = true := by decide
theorem test_v43_16_divuw :
    meets (step (((put (start .rv64) 0x80000100 4 0x0262D3BB).writeX 5 0x5).writeX 6 0x0)) (fun t => decide (t.readX 7 = 0xffffffffffffffff ∧ t.pc = 0x80000104)) = true := by decide
theorem test_v43_17_remw :
    meets (step (((put (start .rv64) 0x80000100 4 0x0262E3BB).writeX 5 0xfffffffffffffff9).writeX 6 0x100000002)) (fun t => decide (t.readX 7 = 0xffffffffffffffff ∧ t.pc = 0x80000104)) = true := by decide
theorem test_v43_18_remuw :
    meets (step (((put (start .rv64) 0x80000100 4 0x0262F3BB).writeX 5 0x180000000).writeX 6 0x0)) (fun t => decide (t.readX 7 = 0xffffffff80000000 ∧ t.pc = 0x80000104)) = true := by decide
theorem test_v44_1_lr_w :
    meets (step (put ((put (start .rv64) 0x80000100 4 0x1002A3AF).writeX 5 0x80001000) 0x80001000 4 0xffffffff)) (fun t => decide (t.readX 7 = 0xffffffffffffffff ∧ t.pc = 0x80000104 ∧ t.resv = some { paddr := 0x80001000, width := .w })) = true := by decide
theorem test_v44_2_sc_w :
    meets (step (put (((put (start .rv64) 0x80000100 4 0x1862A3AF).writeX 5 0x80001000).writeX 6 0x9) 0x80001000 4 0x5)) (fun t => decide (t.readX 7 = 0x1 ∧ t.pc = 0x80000104 ∧ Memory.readLE t.dram 0x80001000 4 = 0x5)) = true := by decide
theorem test_v44_3_sc_w :
    meets (step ({ (put (((put (start .rv64) 0x80000100 4 0x1862A3AF).writeX 5 0x80001000).writeX 6 0x9) 0x80001000 4 0x5) with resv := some { paddr := 0x80001000, width := .w } })) (fun t => decide (t.readX 7 = 0x0 ∧ t.pc = 0x80000104 ∧ Memory.readLE t.dram 0x80001000 4 = 0x9 ∧ t.resv = none)) = true := by decide
theorem test_v44_6_lr_d :
    meets (step ((put (start .rv64) 0x80000100 4 0x1002B3AF).writeX 5 0x80001004)) (fun t => decide (t.csr.mcause = 4 ∧ t.csr.mtval = 0x80001004 ∧ t.csr.mepc = 0x80000100 ∧ t.priv = .M)) = true := by decide
theorem test_v44_7_amoadd_w :
    meets (step ((put (start .rv64) 0x80000100 4 0x0062A3AF).writeX 5 0x80001002)) (fun t => decide (t.csr.mcause = 6 ∧ t.csr.mtval = 0x80001002 ∧ t.csr.mepc = 0x80000100 ∧ t.priv = .M)) = true := by decide
theorem test_v44_8_amoswap_w :
    meets (step (put (((put (start .rv64) 0x80000100 4 0x0862A3AF).writeX 5 0x80001000).writeX 6 0x9) 0x80001000 4 0x5)) (fun t => decide (t.readX 7 = 0x5 ∧ t.pc = 0x80000104 ∧ Memory.readLE t.dram 0x80001000 4 = 0x9)) = true := by decide
theorem test_v44_9_amoadd_w :
    meets (step (put (((put (start .rv64) 0x80000100 4 0x0662A3AF).writeX 5 0x80001000).writeX 6 0x1) 0x80001000 4 0x7fffffff)) (fun t => decide (t.readX 7 = 0x7fffffff ∧ t.pc = 0x80000104 ∧ Memory.readLE t.dram 0x80001000 4 = 0x80000000)) = true := by decide
theorem test_v44_10_amoadd_d :
    meets (step (put (((put (start .rv64) 0x80000100 4 0x0062B3AF).writeX 5 0x80001000).writeX 6 0xffffffffffffffff) 0x80001000 8 0x0)) (fun t => decide (t.readX 7 = 0x0 ∧ t.pc = 0x80000104 ∧ Memory.readLE t.dram 0x80001000 8 = 0xffffffffffffffff)) = true := by decide
theorem test_v44_11_amoxor_w :
    meets (step (put (((put (start .rv64) 0x80000100 4 0x2062A3AF).writeX 5 0x80001000).writeX 6 0xff) 0x80001000 4 0xf)) (fun t => decide (t.readX 7 = 0xf ∧ t.pc = 0x80000104 ∧ Memory.readLE t.dram 0x80001000 4 = 0xf0)) = true := by decide
theorem test_v44_13_amoor_w :
    meets (step (put (((put (start .rv64) 0x80000100 4 0x4062A3AF).writeX 5 0x80001000).writeX 6 0x80000000) 0x80001000 4 0x1)) (fun t => decide (t.readX 7 = 0x1 ∧ t.pc = 0x80000104 ∧ Memory.readLE t.dram 0x80001000 4 = 0x80000001)) = true := by decide
theorem test_v44_14_amomin_w :
    meets (step (put (((put (start .rv64) 0x80000100 4 0x8062A3AF).writeX 5 0x80001000).writeX 6 0x1) 0x80001000 4 0xffffffff)) (fun t => decide (t.readX 7 = 0xffffffffffffffff ∧ t.pc = 0x80000104 ∧ Memory.readLE t.dram 0x80001000 4 = 0xffffffff)) = true := by decide
theorem test_v44_15_amomax_w :
    meets (step (put (((put (start .rv64) 0x80000100 4 0xA062A3AF).writeX 5 0x80001000).writeX 6 0x1) 0x80001000 4 0xffffffff)) (fun t => decide (t.readX 7 = 0xffffffffffffffff ∧ t.pc = 0x80000104 ∧ Memory.readLE t.dram 0x80001000 4 = 0x1)) = true := by decide
theorem test_v44_16_amominu_w :
    meets (step (put (((put (start .rv64) 0x80000100 4 0xC062A3AF).writeX 5 0x80001000).writeX 6 0x1) 0x80001000 4 0xffffffff)) (fun t => decide (t.readX 7 = 0xffffffffffffffff ∧ t.pc = 0x80000104 ∧ Memory.readLE t.dram 0x80001000 4 = 0x1)) = true := by decide
theorem test_v44_17_amomaxu_d :
    meets (step (put (((put (start .rv64) 0x80000100 4 0xE062B3AF).writeX 5 0x80001000).writeX 6 0x1) 0x80001000 8 0xffffffffffffffff)) (fun t => decide (t.readX 7 = 0xffffffffffffffff ∧ t.pc = 0x80000104 ∧ Memory.readLE t.dram 0x80001000 8 = 0xffffffffffffffff)) = true := by decide
theorem test_v44_18_amoswap_w :
    meets (step (((put (start .rv64) 0x80000100 4 0x0862A3AF).writeX 5 0x10000000).writeX 6 0x1)) (fun t => decide (t.csr.mcause = 7 ∧ t.csr.mtval = 0x10000000 ∧ t.csr.mepc = 0x80000100 ∧ t.priv = .M)) = true := by decide
theorem test_v45_1_csrrw :
    meets (step (((put (start .rv64) 0x80000100 4 0x340313F3).writeX 6 0x9).csrWrite .mscratch 5)) (fun t => decide (t.readX 7 = 0x5 ∧ t.pc = 0x80000104 ∧ t.csr.mscratch = 9)) = true := by decide
theorem test_v45_5_csrrw :
    meets (step ((put (start .rv64) 0x80000100 4 0xF1431073).writeX 6 0x1)) (fun t => decide (t.csr.mcause = 2 ∧ t.csr.mtval = 0xf1431073 ∧ t.csr.mepc = 0x80000100 ∧ t.priv = .M)) = true := by decide
theorem test_v45_7_csrrw :
    meets (step (((put (start .rv64) 0x80000100 4 0x30031073).writeX 6 0x1088).csrWrite .mstatus 0x800)) (fun t => decide (t.pc = 0x80000104 ∧ t.csrRead .mstatus &&& 0xFFFFFFFF = 0x888)) = true := by decide
theorem test_v45_10_csrrwi :
    meets (step (put (start .rv64) 0x80000100 4 0x3051D073)) (fun t => decide (t.pc = 0x80000104 ∧ t.csr.mtvec = 0x1)) = true := by decide
theorem test_v45_11_csrrsi :
    meets (step (put (start .rv64) 0x80000100 4 0x304FE3F3)) (fun t => decide (t.readX 7 = 0x0 ∧ t.pc = 0x80000104 ∧ t.csr.mie = 0xa)) = true := by decide
theorem test_v45_12_csrrc :
    meets (step (((put (start .rv64) 0x80000100 4 0x300333F3).writeX 6 0x8).csrWrite .mstatus 0x88)) (fun t => decide (t.readX 7 = 0xa00000088 ∧ t.pc = 0x80000104 ∧ t.csrRead .mstatus &&& 0xFFFFFFFF = 0x80)) = true := by decide
theorem test_v45_13_csrrci :
    meets (step ((put (start .rv64) 0x80000100 4 0x100173F3).csrWrite .mstatus 0x1822)) (fun t => decide (t.readX 7 = 0x200000022 ∧ t.pc = 0x80000104 ∧ t.csrRead .mstatus &&& 0xFFFFFFFF = 0x1820)) = true := by decide
theorem test_v45_18_csrrs :
    meets (step ({ (put (start .rv64) 0x80000100 4 0xC00023F3) with priv := .U })) (fun t => decide (t.csr.mcause = 2 ∧ t.csr.mtval = 0xc00023f3 ∧ t.csr.mepc = 0x80000100 ∧ t.priv = .M)) = true := by decide
theorem test_v45_20_csrrs :
    meets (step (({ (put (start .rv64) 0x80000100 4 0x180023F3) with priv := .S }).csrWrite .mstatus 0x100000)) (fun t => decide (t.csr.mcause = 2 ∧ t.csr.mtval = 0x180023f3 ∧ t.csr.mepc = 0x80000100 ∧ t.priv = .M)) = true := by decide
theorem test_v45_21_csrrw :
    meets (step ((put (start .rv64) 0x80000100 4 0x18031073).writeX 6 0x9000000000000000)) (fun t => decide (t.pc = 0x80000104 ∧ t.csr.satp = 0x0)) = true := by decide
theorem test_v45_22_csrrw :
    meets (step ((put (start .rv64) 0x80000100 4 0xB0031073).writeX 6 0x64)) (fun t => decide (t.pc = 0x80000104 ∧ t.mcycle = 100 ∧ t.minstret = 1)) = true := by decide
theorem test_v46_1_ecall_in_m_mode :
    meets (step (put (start .rv64) 0x80000100 4 0x00000073)) (fun t => decide (t.csr.mcause = 11 ∧ t.csr.mtval = 0x0 ∧ t.csr.mepc = 0x80000100 ∧ t.priv = .M)) = true := by decide
theorem test_v46_2_ecall_in_u_mode :
    meets (step ((({ (put (start .rv64) 0x80000100 4 0x00000073) with priv := .U }).csrWrite .medeleg 0x100).csrWrite .stvec 0x80000800)) (fun t => decide (t.csr.scause = 8 ∧ t.csr.stval = 0 ∧ t.priv = .S ∧ t.csr.sepc = 0x80000100 ∧ t.pc = 0x80000800 ∧ t.mstatus.spp = false)) = true := by decide
theorem test_v46_3_ebreak_in_m_mode :
    meets (step (put (start .rv64) 0x80000100 4 0x00100073)) (fun t => decide (t.csr.mcause = 3 ∧ t.csr.mtval = 0x0 ∧ t.csr.mepc = 0x80000100 ∧ t.priv = .M)) = true := by decide
theorem test_v46_4_mret :
    meets (step (((put (start .rv64) 0x80000100 4 0x30200073).csrWrite .mstatus 0x880).csrWrite .mepc 0x80002000)) (fun t => decide (t.pc = 0x80002000 ∧ t.priv.code = 1 ∧ t.csrRead .mstatus &&& 0xFFFFFFFF = 0x88)) = true := by decide
theorem test_v46_5_mret_in_s_mode :
    meets (step ({ (put (start .rv64) 0x80000100 4 0x30200073) with priv := .S })) (fun t => decide (t.csr.mcause = 2 ∧ t.csr.mtval = 0x30200073 ∧ t.csr.mepc = 0x80000100 ∧ t.priv = .M)) = true := by decide
theorem test_v46_6_sret :
    meets (step ((({ (put (start .rv64) 0x80000100 4 0x10200073) with priv := .S }).csrWrite .mstatus 0x20).csrWrite .sepc 0x80003000)) (fun t => decide (t.pc = 0x80003000 ∧ t.priv.code = 0 ∧ t.csrRead .mstatus &&& 0xFFFFFFFF = 0x22)) = true := by decide
theorem test_v46_7_sret_in_s_mode :
    meets (step (({ (put (start .rv64) 0x80000100 4 0x10200073) with priv := .S }).csrWrite .mstatus 0x400000)) (fun t => decide (t.csr.mcause = 2 ∧ t.csr.mtval = 0x10200073 ∧ t.csr.mepc = 0x80000100 ∧ t.priv = .M)) = true := by decide
theorem test_v46_9_wfi_in_u_mode :
    meets (step ({ (put (start .rv64) 0x80000100 4 0x10500073) with priv := .U })) (fun t => decide (t.csr.mcause = 2 ∧ t.csr.mtval = 0x10500073 ∧ t.csr.mepc = 0x80000100 ∧ t.priv = .M)) = true := by decide
theorem test_v46_11_sfence_vma_in_s_mode :
    meets (step (({ (put (start .rv64) 0x80000100 4 0x12000073) with priv := .S }).csrWrite .mstatus 0x100000)) (fun t => decide (t.csr.mcause = 2 ∧ t.csr.mtval = 0x12000073 ∧ t.csr.mepc = 0x80000100 ∧ t.priv = .M)) = true := by decide
theorem test_v47_1_c_addi :
    meets (step ((put (start .rv64) 0x80000100 2 0x157D).writeX 10 0x5)) (fun t => decide (t.readX 10 = 0x4 ∧ t.pc = 0x80000102)) = true := by decide
theorem test_v47_3_c_lui :
    meets (step (put (start .rv64) 0x80000100 2 0x7501)) (fun t => decide (t.readX 10 = 0xfffffffffffe0000 ∧ t.pc = 0x80000102)) = true := by decide
theorem test_v47_6_c_j_4 :
    meets (step (put (start .rv64) 0x80000100 2 0xBFF5)) (fun t => decide (t.pc = 0x800000fc)) = true := by decide
theorem test_v47_7_c_jal_4 :
    meets (step (put (start .rv32) 0x80000100 2 0x2011)) (fun t => decide (t.readX 1 = 0x80000102 ∧ t.pc = 0x80000104)) = true := by decide
theorem test_v47_9_c_jalr :
    meets (step ((put (start .rv64) 0x80000100 2 0x9502).writeX 10 0x80000400)) (fun t => decide (t.readX 1 = 0x80000102 ∧ t.pc = 0x80000400)) = true := by decide
theorem test_v47_12_c_lw :
    meets (step (put ((put (start .rv64) 0x80000100 2 0x4044).writeX 8 0x80001000) 0x80001000 8 0x8877665544332211)) (fun t => decide (t.readX 9 = 0xffffffff88776655 ∧ t.pc = 0x80000102)) = true := by decide
theorem test_v47_13_c_sdsp :
    meets (step (((put (start .rv64) 0x80000100 2 0xE42A).writeX 2 0x80001000).writeX 10 0x55)) (fun t => decide (t.pc = 0x80000102 ∧ Memory.readLE t.dram 0x80001008 8 = 0x55)) = true := by decide
theorem test_v47_14_c_ebreak :
    meets (step (put (start .rv64) 0x80000100 2 0x9002)) (fun t => decide (t.csr.mcause = 3 ∧ t.csr.mtval = 0x0 ∧ t.csr.mepc = 0x80000100 ∧ t.priv = .M)) = true := by decide
theorem test_v47_15_0x0000 :
    meets (step (put (start .rv64) 0x80000100 2 0x0000)) (fun t => decide (t.csr.mcause = 2 ∧ t.csr.mtval = 0x0 ∧ t.csr.mepc = 0x80000100 ∧ t.priv = .M)) = true := by decide

/-! ### Witnesses: for every statement with hypotheses, states and operands that meet them, at the ends of their ranges -/

/-- The value of a translation's or an access's success, and the trap of a failure. -/
def okOf {α : Type} : Res α → Option α
  | .ok a _ => some a
  | .trap _ _ _ => none
  | .fatal _ => none
def trapOf {α : Type} : Res α → Option (Exc × Word)
  | .ok _ _ => none
  | .trap e v _ => some (e, v)
  | .fatal _ => none

theorem ok_of_okOf {α : Type} {r : Res α} {a : α} (h : okOf r = some a) : ∃ u, r = .ok a u := by
  cases r with
  | ok b u => cases h; exact ⟨u, rfl⟩
  | trap e v u => cases h
  | fatal f => cases h

theorem trap_of_trapOf {α : Type} {r : Res α} {e : Exc} {v : Word} (h : trapOf r = some (e, v)) : ∃ u, r = .trap e v u := by
  cases r with
  | ok b u => cases h
  | trap e v u => cases h; exact ⟨u, rfl⟩
  | fatal f => cases h

/-- The start state with FS = 3 and x2, x5, x8 holding `a`, x6 and x9 a value; x6 is -1 where `a` is a divisor's dividend. -/
def at_ (x : Xlen) (a v : Word) : State :=
  let s := start x
  let s := { s with mstatus := { s.mstatus with fs := 3 }, clint := { s.clint with mtimecmp0 := 0xFFFFFFFFFFFFFFFF#64 } }
  ((((s.writeX 2#5 a).writeX 5#5 a).writeX 8#5 a).writeX 6#5 v).writeX 9#5 v

/-- U-mode with the machine software interrupt pending and enabled. -/
def withMsi : State :=
  let s := at_ .rv64 0 0
  { s with csr := { s.csr with mie := 8, ssip := true }, clint := { s.clint with msip0 := true }, priv := .U }

theorem dramOk_at (x : Xlen) (a v : Word) : (at_ x a v).dramOk := by
  refine ⟨?_, fun c h => ?_⟩
  · rfl
  · exact absurd h List.not_mem_nil

theorem test_witness_DecodeEncodeRoundTrip :
    (Instr.slli 1#5 31#5 63#6).wf .rv64 = true ∧ (Instr.slli 1#5 31#5 31#6).wf .rv32 = true
    ∧ (Instr.jal 0#5 0x1FFFFE#21).wf .rv32 = true ∧ (Instr.cJal 0xFFE#12).wf .rv32 = true
    ∧ (Instr.cAddi4spn 7#3 1020#10).wf .rv64 = true ∧ (Instr.cSdsp 31#5 504#9).wf .rv64 = true
    ∧ (Instr.csrrci 31#5 31#5 0xFFF#12).wf .rv64 = true ∧ Instr.mret.wf .rv64 = true := by decide

theorem test_witness_DecodedInstructionKeepsItsBits :
    decodeRaw .rv64 (.compressed 0x157D#16) = .ok (.cAddi 10#5 0x3F#6)
    ∧ decodeRaw .rv32 (.compressed 0x2005#16) = .ok (.cJal 32#12)
    ∧ decodeRaw .rv64 (.full 0x0062B023#32) = .ok (.sd 5#5 6#5 0#12)
    ∧ decode16 .rv64 0x9002#16 = some .cEbreak := ⟨rfl, rfl, rfl, rfl⟩

theorem test_witness_CompressedRunsAsItsExpansion :
    (∀ i ∈ [Instr.cAdd 5#5 6#5, .cJr 5#5, .cJalr 1#5, .cEbreak, .cBeqz 0#3 0xFE#9, .cLdsp 6#5 0#9],
      i.length = 2 ∧ i.wf (at_ .rv64 0x800FFFF8 1).xlen = true ∧ meets (exec i.expand (at_ .rv64 0x800FFFF8 1)) (fun _ => true) = true)
    ∧ meets (exec (Instr.cAdd 5#5 6#5).expand (at_ .rv64 0x800FFFF8 1)) (fun t => decide (t.minstret = 1)) = true
    ∧ meets (exec (Instr.cLdsp 6#5 0#9).expand (at_ .rv64 0x800FFFF9 1)) (fun t => decide (t.minstret = 0)) = true
    ∧ (start .rv64).mstatus.fs = 0 ∧ (Instr.cLd 0#3 0#3 0#8).wf (start .rv64).xlen = true
    ∧ meets (exec (Instr.cLd 0#3 0#3 0#8).expand (start .rv64)) (fun t => decide (t.csr.mcause = 5)) = true
    ∧ (at_ .rv64 0x800FFFF8 1).mstatus.fs ≠ 0 ∧ (Instr.cFld 0#3 0#3 0#8).wf .rv64 = true
    ∧ meets (exec (Instr.cFld 0#3 0#3 0#8).expand (at_ .rv64 0x800FFFF8 1)) (fun _ => true) = true
    ∧ (Instr.cAdd 5#5 6#5).computes = true ∧ (Instr.cLdsp 6#5 0#9).accesses = true := by decide

theorem test_witness_RegisterFile : (31#5 : Reg) ≠ 0#5 ∧ (0#5 : Reg) ≠ 31#5 := by decide

theorem test_witness_UpperImmediateAndShiftResults :
    (63#6).toNat < xlenBits (start .rv64).xlen ∧ (31#6).toNat < xlenBits (start .rv32).xlen
    ∧ xlenBits (start .rv32).xlen ≤ (32#6).toNat ∧ (Instr.slli 1#5 1#5 63#6).wf .rv64 = true
    ∧ (Instr.srai 1#5 1#5 31#6).wf .rv32 = true := by decide

theorem test_witness_MultiplyDivideResults :
    (at_ .rv64 0x8000000000000000#64 (-1)).signed 5#5 = -2 ^ (xlenBits .rv64 - 1)
    ∧ (at_ .rv64 0x8000000000000000#64 (-1)).signed 6#5 = -1
    ∧ (at_ .rv32 0x80000000#64 0xFFFFFFFF#64).signed 5#5 = -2 ^ (xlenBits .rv32 - 1)
    ∧ (at_ .rv32 0x80000000#64 0xFFFFFFFF#64).signed 6#5 = -1
    ∧ (at_ .rv64 1#64 0#64).num 6#5 = 0 := by decide

theorem test_witness_WordResults :
    (start .rv64).xlen = .rv64 ∧ (start .rv32).xlen = .rv32 ∧ (Instr.addiw 1#5 2#5 0x800#12).wf .rv64 = true := by decide

theorem test_witness_MultiplyDivideWordResults :
    (start .rv64).xlen = .rv64 ∧ (start .rv32).xlen = .rv32 ∧ (Instr.divw 1#5 2#5 3#5).wf .rv64 = true := by decide

theorem test_witness_ComputationFrame :
    (Instr.srai 7#5 5#5 63#6).computes = true ∧ (Instr.srai 7#5 5#5 63#6).wf (start .rv64).xlen = true
    ∧ (Instr.cLui 31#5 0x20#6).computes = true ∧ (Instr.cLui 31#5 0x20#6).wf (start .rv32).xlen = true
    ∧ (Instr.cLui 31#5 0x20#6).dest ≠ some 0#5 := by decide

theorem test_witness_CompressedComputationResults :
    (start .rv64).xlen = .rv64 ∧ (start .rv32).xlen = .rv32 ∧ (63#6).toNat < xlenBits (start .rv64).xlen
    ∧ (31#6).toNat < xlenBits (start .rv32).xlen ∧ xlenBits (start .rv32).xlen ≤ (32#6).toNat := by decide

theorem test_witness_JumpResults :
    evenOffset 0x1FFFFE#21 = true ∧ (Instr.jal 0#5 0x1FFFFE#21).wf .rv32 = true := by decide

theorem test_witness_BranchResults :
    evenOffset 0x1FFE#13 = true ∧ (Instr.beq 5#5 5#5 0x1FFE#13).wf .rv32 = true
    ∧ (at_ .rv64 1 2).num 5#5 = (at_ .rv64 1 2).num 2#5 ∧ (at_ .rv64 1 2).num 5#5 ≠ (at_ .rv64 1 2).num 6#5
    ∧ (at_ .rv64 (-1) 1).signed 5#5 < (at_ .rv64 (-1) 1).signed 6#5
    ∧ (at_ .rv64 (-1) 1).num 6#5 < (at_ .rv64 (-1) 1).num 5#5 := by decide

theorem test_witness_CompressedControlResults :
    (start .rv64).xlen = .rv64 ∧ (start .rv32).xlen = .rv32 ∧ (start .rv64).num (creg 0#3) = 0
    ∧ (at_ .rv64 1 2).num (creg 0#3) ≠ 0 := by decide

/-- The last byte of DRAM, its last word and its last doubleword, and an unaligned word before its end. -/
theorem test_witness_LoadResults :
    (at_ .rv64 0x80100000 1).translating .load = false ∧ (at_ .rv64 0x80100000 1).dramSize ≤ Config.dramSizeDefault
    ∧ (at_ .rv64 0x80100000 1).inDram ((at_ .rv64 0x80100000 1).address 5#5 0xFFF#12) 1 = true
    ∧ (at_ .rv64 0x80100000 1).inDram ((at_ .rv64 0x80100000 1).address 5#5 0xFFE#12) 2 = true
    ∧ (at_ .rv64 0x80100000 1).inDram ((at_ .rv64 0x80100000 1).address 5#5 0xFFB#12) 4 = true
    ∧ (at_ .rv64 0x80100000 1).inDram ((at_ .rv64 0x80100000 1).address 5#5 0xFF8#12) 8 = true
    ∧ (at_ .rv32 0x80000000 1).translating .load = false
    ∧ (at_ .rv32 0x80000000 1).inDram ((at_ .rv32 0x80000000 1).address 5#5 0#12) 4 = true := by decide

theorem test_witness_StoreResults :
    (at_ .rv64 0x80100000 1).translating .store = false ∧ (at_ .rv64 0x80100000 1).dramSize ≤ Config.dramSizeDefault
    ∧ (at_ .rv64 0x80100000 1).dramOk
    ∧ (at_ .rv64 0x80100000 1).inDram ((at_ .rv64 0x80100000 1).address 5#5 0xFFF#12) 1 = true
    ∧ (at_ .rv64 0x80100000 1).inDram ((at_ .rv64 0x80100000 1).address 5#5 0xFFE#12) 2 = true
    ∧ (at_ .rv64 0x80100000 1).inDram ((at_ .rv64 0x80100000 1).address 5#5 0xFFB#12) 4 = true
    ∧ (at_ .rv64 0x80100000 1).inDram ((at_ .rv64 0x80100000 1).address 5#5 0xFF8#12) 8 = true
    ∧ (at_ .rv32 0x80100000 1).xlen = .rv32 :=
  ⟨by decide, by decide, dramOk_at _ _ _, by decide⟩

theorem test_witness_CompressedAccessResults :
    (at_ .rv64 0x800FFFF8 1).dramSize ≤ Config.dramSizeDefault ∧ (at_ .rv64 0x800FFFF8 1).dramOk
    ∧ (at_ .rv64 0x800FFFF8 1).translating .load = false ∧ (at_ .rv64 0x800FFFF8 1).translating .store = false
    ∧ (at_ .rv64 0x800FFFF8 1).inDram ((at_ .rv64 0x800FFFF8 1).address (creg 0#3) ((4#7).setWidth 12)) 4 = true
    ∧ (at_ .rv64 0x800FFFF8 1).inDram ((at_ .rv64 0x800FFFF8 1).address (creg 0#3) ((0#8).setWidth 12)) 8 = true
    ∧ (at_ .rv64 0x800FFFF8 1).inDram ((at_ .rv64 0x800FFFF8 1).address 2#5 ((4#8).setWidth 12)) 4 = true
    ∧ (at_ .rv64 0x800FFE08 1).inDram ((at_ .rv64 0x800FFE08 1).address 2#5 ((496#9).setWidth 12)) 8 = true
    ∧ (at_ .rv32 0x800FFFF8 1).xlen = .rv32 :=
  ⟨by decide, dramOk_at _ _ _, by decide⟩

theorem test_witness_FloatLoadResults :
    (at_ .rv64 0x80100000 1).mstatus.fs ≠ 0 ∧ (at_ .rv64 0x80100000 1).translating .load = false
    ∧ (at_ .rv64 0x80100000 1).dramSize ≤ Config.dramSizeDefault
    ∧ (at_ .rv64 0x80100000 1).inDram ((at_ .rv64 0x80100000 1).address 5#5 0xFFC#12) 4 = true
    ∧ (at_ .rv64 0x80100000 1).inDram ((at_ .rv64 0x80100000 1).address 5#5 0xFF8#12) 8 = true
    ∧ (at_ .rv64 0x800FFFF8 1).inDram ((at_ .rv64 0x800FFFF8 1).address (creg 0#3) ((0#8).setWidth 12)) 8 = true
    ∧ (at_ .rv64 0x800FFFF8 1).inDram ((at_ .rv64 0x800FFFF8 1).address 2#5 ((0#9).setWidth 12)) 8 = true
    ∧ (at_ .rv32 0x800FFFF8 1).mstatus.fs ≠ 0 ∧ (at_ .rv32 0x800FFFF8 1).translating .load = false
    ∧ (at_ .rv32 0x800FFFF8 1).inDram ((at_ .rv32 0x800FFFF8 1).address (creg 0#3) ((4#7).setWidth 12)) 4 = true
    ∧ (at_ .rv32 0x800FFFF8 1).inDram ((at_ .rv32 0x800FFFF8 1).address 2#5 ((4#8).setWidth 12)) 4 = true := by decide

theorem test_witness_FloatStoreResults :
    (at_ .rv64 0x80100000 1).mstatus.fs ≠ 0 ∧ (at_ .rv64 0x80100000 1).translating .store = false
    ∧ (at_ .rv64 0x80100000 1).dramSize ≤ Config.dramSizeDefault ∧ (at_ .rv64 0x80100000 1).dramOk
    ∧ (at_ .rv64 0x80100000 1).inDram ((at_ .rv64 0x80100000 1).address 5#5 0xFFC#12) 4 = true
    ∧ (at_ .rv64 0x80100000 1).inDram ((at_ .rv64 0x80100000 1).address 5#5 0xFF8#12) 8 = true
    ∧ (at_ .rv64 0x800FFFF8 1).inDram ((at_ .rv64 0x800FFFF8 1).address (creg 0#3) ((0#8).setWidth 12)) 8 = true
    ∧ (at_ .rv64 0x800FFFF8 1).inDram ((at_ .rv64 0x800FFFF8 1).address 2#5 ((0#9).setWidth 12)) 8 = true
    ∧ (at_ .rv32 0x800FFFF8 1).mstatus.fs ≠ 0 ∧ (at_ .rv32 0x800FFFF8 1).translating .store = false
    ∧ (at_ .rv32 0x800FFFF8 1).dramOk
    ∧ (at_ .rv32 0x800FFFF8 1).inDram ((at_ .rv32 0x800FFFF8 1).address (creg 0#3) ((4#7).setWidth 12)) 4 = true
    ∧ (at_ .rv32 0x800FFFF8 1).inDram ((at_ .rv32 0x800FFFF8 1).address 2#5 ((4#8).setWidth 12)) 4 = true :=
  ⟨by decide, by decide, by decide, dramOk_at _ _ _, by decide, by decide, by decide, by decide, by decide, by decide,
    dramOk_at _ _ _, by decide⟩

theorem test_witness_FloatIsGatedByFs :
    (start .rv64).mstatus.fs = 0 ∧ (at_ .rv64 0 0).mstatus.fs ≠ 0
    ∧ (∃ rd rs1 rs2 rm hi, Instr.fpOp 1#5 2#5 3#5 0#3 0#7 = .fpOp rd rs1 rs2 rm hi)
    ∧ (∃ r o, Instr.cFswsp 31#5 4#8 = .cFlwsp r o ∨ Instr.cFswsp 31#5 4#8 = .cFswsp r o) :=
  ⟨by decide, by decide, ⟨_, _, _, _, _, rfl⟩, ⟨_, _, .inr rfl⟩⟩

/-- `State.liesIn` as a check. -/
def liesInB (s : State) (r : Region) (a n : Nat) : Bool := (List.range n).all fun k => decide (s.region (s.byteAddress a k) = r)

theorem liesIn_of {s : State} {r : Region} {a n : Nat} (h : liesInB s r a n = true) : s.liesIn r a n := by
  intro k hk
  unfold liesInB at h
  rw [List.all_eq_true] at h
  exact of_decide_eq_true (h k (List.mem_range.mpr hk))

/-- Unmapped and straddling bytes; on each device the accesses at its two ends, aligned and not. -/
theorem test_witness_UnmappedAndDeviceAccesses :
    LoadForm (start .rv64) 7#5 5#5 0#12 (.lwu 7#5 5#5 0#12) 4 (fun t v => t.writeX 7#5 (BitVec.ofNat 64 v))
    ∧ (∃ put, LoadForm (at_ .rv32 0x10002000 1) 7#5 5#5 0#12 (.flw 7#5 5#5 0#12) 4 put)
    ∧ StoreForm (start .rv64) 5#5 6#5 0#12 (.sd 5#5 6#5 0#12) 8 ((start .rv64).readX 6#5)
    ∧ StoreForm (at_ .rv32 0x10002000 1) 5#5 6#5 0#12 (.fsd 5#5 6#5 0#12) 8 ((at_ .rv32 0x10002000 1).readF 6#5)
    ∧ WordDevice .clint 0x02000000 ∧ WordDevice .plic 0x0C000000 ∧ WordDevice .virtio 0x10001000
    ∧ (at_ .rv64 0x10002000 1).translating .load = false ∧ (at_ .rv64 0x10002000 1).translating .store = false
    ∧ (at_ .rv64 0x0200FFFD 1).address 5#5 0xFFF#12 = 0x0200FFFC ∧ (0x0200FFFC : Nat) = 0x02000000 + 0xFFFC
    ∧ (∀ r, r ≠ .unmapped → ¬ (start .rv64).liesIn r 0x10002000 1) ∧ (∀ r, r ≠ .unmapped → ¬ (start .rv64).liesIn r 0x10000FFD 4)
    ∧ (∀ r, r ≠ .unmapped → ¬ (start .rv32).liesIn r 0xFFFFFFFF 2)
    ∧ (∀ q ∈ [(Region.clint, 0x02000000, 1), (.clint, 0x0200FFF9, 4), (.clint, 0x0200FFFC, 4), (.clint, 0x0200FFF8, 8),
        (.plic, 0x0C000000, 2), (.plic, 0x0FFFFFF8, 8), (.virtio, 0x10001000, 4), (.virtio, 0x10001FF7, 8),
        (.uart, 0x10000000, 8), (.uart, 0x10000001, 4)], (start .rv64).liesIn q.1 q.2.1 q.2.2)
    ∧ (start .rv32).liesIn .uart 0x10000FFE 2 := by
  have ends : ∀ q ∈ [(Region.clint, 0x02000000, 1), (.clint, 0x0200FFF9, 4), (.clint, 0x0200FFFC, 4), (.clint, 0x0200FFF8, 8),
      (.plic, 0x0C000000, 2), (.plic, 0x0FFFFFF8, 8), (.virtio, 0x10001000, 4), (.virtio, 0x10001FF7, 8),
      (.uart, 0x10000000, 8), (.uart, 0x10000001, 4)], liesInB (start .rv64) q.1 q.2.1 q.2.2 = true := by decide
  exact ⟨.lwu rfl, ⟨_, .flw (by decide)⟩, .sd rfl, .fsd (by decide), .clint, .plic, .virtio, by decide, by decide, by decide, rfl,
    fun _ h k => h ((k 0 (by decide)).symm.trans (by decide)),
    fun _ _ k => absurd ((k 0 (by decide)).trans (k 3 (by decide)).symm) (by decide),
    fun _ h k => h ((k 0 (by decide)).symm.trans (by decide)),
    fun q h => liesIn_of (ends q h), liesIn_of (by decide)⟩

/-- Beside the page of `mapped`: 0x2000 maps to physical addresses nobody owns, 0x3000 to nothing, 0xA000 to the UART, 0xB000 to
the CLINT, 0x1FF000 to DRAM, and the table of 0x200000 lies outside DRAM; FS is 3. -/
def paged : State :=
  let s := put mapped 0x80042010 8 (0x10002#64 <<< 10 ||| 7#64)
  let s := put s 0x80042FF8 8 (0x80050#64 <<< 10 ||| 7#64)
  let s := put s 0x80041008 8 (0x20000#64 <<< 10 ||| 1#64)
  let s := put s 0x80042050 8 (0x10000#64 <<< 10 ||| 7#64)
  let s := put s 0x80042058 8 (0x02000#64 <<< 10 ||| 7#64)
  { s with tlbDraws := List.replicate 8 walkDraw, mstatus := { s.mstatus with fs := 3 } }

/-- The states that translating the bytes of an access at `a` goes through. -/
def pieceStates (k : Access) (a : Nat) (s : State) : Nat → State
  | 0 => s
  | n + 1 => ((pieceStates k a s n).translate k (BitVec.ofNat 64 (s.byteAddress a n))).stateOr s

/-- What the translation of byte `n` gives there. -/
def pieceAt (k : Access) (a : Nat) (n : Nat) : Res Nat :=
  (pieceStates k a paged n).translate k (BitVec.ofNat 64 (paged.byteAddress a n))

/-- The states that byte accesses of the UART go through. -/
def uartStates (f : Nat → State → State) (s : State) : Nat → State
  | 0 => s
  | k + 1 => f k (uartStates f s k)

/-- Aligned and misaligned accesses: in a page, across two mapped pages of which one has no memory, across into an unmapped
page, across into a page whose table lies outside DRAM, at the ends of a device, in it, and from one device into another. -/
theorem test_witness_TranslatedAccesses :
    LoadForm paged 7#5 5#5 0#12 (.ld 7#5 5#5 0#12) 8 (fun t v => t.writeX 7#5 (BitVec.ofNat 64 v))
    ∧ (∃ put, LoadForm paged 7#5 5#5 0#12 (.fld 7#5 5#5 0#12) 8 put)
    ∧ StoreForm paged 5#5 6#5 0#12 (.sh 5#5 6#5 0#12) 2 (paged.readX 6#5)
    ∧ StoreForm paged 5#5 6#5 0#12 (.fsw 5#5 6#5 0#12) 4 (paged.readF 6#5)
    ∧ (paged.writeX 5#5 0x1FFE).address 5#5 0#12 = 0x1FFE ∧ Memory.wf paged.dram = true
    ∧ okOf (pieceAt .load 0x1FF8 0) = some 0x80050FF8 ∧ paged.inDram 0x80050FF8 8 = true
    ∧ okOf (pieceAt .store 0x2000 0) = some 0x10002000 ∧ paged.region 0x10002000 = .unmapped
    ∧ okOf (pieceAt .load 0xB000 0) = some 0x02000000 ∧ okOf (pieceAt .store 0xBFF8 0) = some 0x02000FF8
    ∧ paged.region 0x02000000 = .clint ∧ paged.region 0x02000FFF = .clint
    ∧ okOf (pieceAt .load 0xA000 0) = some 0x10000000 ∧ okOf (pieceAt .store 0xAFF8 0) = some 0x10000FF8
    ∧ paged.region 0x10000000 = .uart ∧ paged.region 0x10000FFF = .uart
    ∧ trapOf (pieceAt .store 0x3000 0) = some (.storePage, 0x3000#64)
    ∧ (List.range 4).map (fun n => okOf (pieceAt .load 0x1001 n))
        = [some 0x80050001, some 0x80050002, some 0x80050003, some 0x80050004]
    ∧ (List.range 4).map (fun n => okOf (pieceAt .store 0x1FFE n))
        = [some 0x80050FFE, some 0x80050FFF, some 0x10002000, some 0x10002001]
    ∧ (List.range 2).map (fun n => okOf (pieceAt .store 0xB001 n)) = [some 0x02000001, some 0x02000002]
    ∧ (List.range 2).map (fun n => okOf (pieceAt .load 0xA00F n)) = [some 0x1000000F, some 0x10000010]
    ∧ (List.range 4).map (fun n => okOf (pieceAt .store 0xAFFD n))
        = [some 0x10000FFD, some 0x10000FFE, some 0x10000FFF, some 0x02000000]
    ∧ (List.range 2).map (fun n => okOf (pieceAt .load 0x2FFE n)) = [some 0x10002FFE, some 0x10002FFF]
    ∧ trapOf (pieceAt .load 0x2FFE 2) = some (.loadPage, 0x3000#64)
    ∧ (List.range 2).map (fun n => okOf (pieceAt .load 0x1FFFFE n)) = [some 0x80050FFE, some 0x80050FFF]
    ∧ trapOf (pieceAt .load 0x1FFFFE 2) = some (.loadAccess, 0x200000#64) :=
  ⟨.ld rfl, ⟨_, .fld (by decide)⟩, .sh, .fsw (by decide), by decide⟩

/-- The states that the bytes of a misaligned access of the UART go through, read and written. -/
theorem test_witness_TranslatedUartBytes (s : State) (offs : Nat → Nat) (v : Word) :
    (∃ us : Nat → State, us 0 = s ∧ ∀ k, k < 8 → us (k + 1) = ((us k).uartRead (offs k)).2)
    ∧ (∃ us : Nat → State, us 0 = s ∧ ∀ k, k < 8 → us (k + 1) = (us k).uartWrite (offs k) ((v >>> (8 * k)).setWidth 8)) :=
  ⟨⟨uartStates (fun k u => (u.uartRead (offs k)).2) s, rfl, fun _ _ => rfl⟩,
    ⟨uartStates (fun k u => u.uartWrite (offs k) ((v >>> (8 * k)).setWidth 8)) s, rfl, fun _ _ => rfl⟩⟩

/-- A misaligned store through translation to the UART from offset 3 on: LCR gets the first byte and MCR five bits of the second
(60_exceptions.md R781, R788). -/
theorem test_misaligned_store_to_the_uart :
    meets (exec (.sw 5#5 6#5 3#12) ((paged.writeX 5#5 0xA000).writeX 6#5 0x1122FF44#64))
      (fun t => decide (t.uart.lcr = 0x44 ∧ t.uart.mcr = 0x1F ∧ t.uart.scr = 0)) = true := by
  decide
/-- FLW through translation of a register of a device: msip0, boxed, with FS Dirty. -/
theorem test_float_load_of_a_device_register :
    meets (exec (.flw 7#5 5#5 0xFF8#12)
        { paged.writeX 5#5 0xB008 with clint := { paged.clint with msip0 := true }, mstatus := { paged.mstatus with fs := 1 } })
      (fun t => decide (t.readF 7#5 = 0xFFFFFFFF00000001#64 ∧ t.mstatus.fs = 3)) = true := by
  decide

/-- An access that crosses into an unmapped page has the byte's address as trap value, one whose second walk leaves DRAM the
access's (60_exceptions.md R722). -/
theorem test_trap_value_of_a_crossing_page_fault :
    meets (exec (.lw 7#5 5#5 0#12) (paged.writeX 5#5 0x2FFE)) (fun t => decide (t.csr.mcause = 13 ∧ t.csr.mtval = 0x3000)) = true := by
  decide
theorem test_trap_value_of_a_crossing_access_fault :
    meets (exec (.sw 5#5 6#5 0#12) (paged.writeX 5#5 0x1FFFFE)) (fun t => decide (t.csr.mcause = 7 ∧ t.csr.mtval = 0x1FFFFE)) = true := by
  decide

theorem test_witness_StatusAndInterruptViews : (start .rv64).priv = .M ∧ (31#5 : Reg) ≠ 0#5 := by decide

theorem test_witness_AccessFrame :
    (Instr.sd 5#5 6#5 0xFF8#12).accesses = true ∧ (Instr.sd 5#5 6#5 0xFF8#12).stores = true
    ∧ (Instr.sd 5#5 6#5 0xFF8#12).access = some (5#5, 0xFF8#12, 8)
    ∧ (∃ t, exec (.sd 5#5 6#5 0xFF8#12) (at_ .rv64 0x80100000 1) = .next t ∧ decide (t.minstret = 1) = true)
    ∧ (∃ t, exec (.cFld 1#3 0#3 0#8) (at_ .rv64 0x800FFFF8 1) = .next t ∧ decide (t.minstret = 1) = true)
    ∧ (Instr.cFld 1#3 0#3 0#8).fdest = some 9#5 ∧ (Instr.cFld 1#3 0#3 0#8).fdest ≠ some 1#5
    ∧ (Instr.cFld 1#3 0#3 0#8).accesses = true ∧ (Instr.cFld 1#3 0#3 0#8).stores = false
    ∧ (at_ .rv64 0x80100000 1).translating .store = false ∧ (at_ .rv64 0x80100000 1).translating .load = false :=
  ⟨by decide, by decide, by decide, next_of_meets (by decide), next_of_meets (by decide), by decide⟩

/-- The physical address of a translation, and whether `n` bytes there lie in DRAM after it. -/
def placed (r : Res Nat) (n : Nat) : Option (Nat × Bool) :=
  match r with
  | .ok pa u => some (pa, u.inDram pa n)
  | .trap _ _ _ => none
  | .fatal _ => none

theorem ok_of_placed {r : Res Nat} {n pa : Nat} {b : Bool} (h : placed r n = some (pa, b)) :
    ∃ u, r = .ok pa u ∧ u.inDram pa n = b := by
  unfold placed at h
  split at h
  · cases h; exact ⟨_, rfl, rfl⟩
  · cases h
  · cases h

theorem test_witness_LoadReservedAndStoreConditionalResults :
    (at_ .rv64 0x800FFFF8 1).translating .load = false ∧ (at_ .rv64 0x800FFFF8 1).translating .store = false
    ∧ ((at_ .rv64 0x800FFFF8 1).num 5#5).toNat % 8 = 0 ∧ ((at_ .rv64 0x800FFFFC 1).num 5#5).toNat % 4 = 0
    ∧ (∃ u, (at_ .rv64 0x800FFFFC 1).translate .load ((at_ .rv64 0x800FFFFC 1).readX 5#5) = .ok 0x800FFFFC u
        ∧ u.inDram 0x800FFFFC 4 = true)
    ∧ (∃ u, (paged.writeX 5#5 0x1FF8).translate .load ((paged.writeX 5#5 0x1FF8).readX 5#5) = .ok 0x80050FF8 u
        ∧ u.inDram 0x80050FF8 8 = true)
    ∧ (∃ u, (paged.writeX 5#5 0x1FFC).translate .store ((paged.writeX 5#5 0x1FFC).readX 5#5) = .ok 0x80050FFC u
        ∧ u.inDram 0x80050FFC 4 = true)
    ∧ ({ paged with resv := some { paddr := 0x80050FF8, width := .d } } : State).resv
        = some { paddr := BitVec.ofNat 64 0x80050FF8, width := .d }
    ∧ paged.resv ≠ some { paddr := BitVec.ofNat 64 0x80050FFC, width := .w } ∧ (at_ .rv32 0x800FFFFC 1).xlen = .rv32 :=
  ⟨by decide, by decide, by decide, by decide, ok_of_placed (by decide), ok_of_placed (by decide), ok_of_placed (by decide),
    by decide⟩

/-- The reservation holds the physical address, and an SC through another page that maps there succeeds (44_atomic.md R545,
R546, 20_memory.md R238). -/
theorem test_reservation_is_physical :
    meets (exec (.lrD 7#5 5#5 false false) (paged.writeX 5#5 0x1FF8)) (fun t =>
      decide (t.resv = some { paddr := 0x80050FF8, width := .d })
        && meets (exec (.scD 7#5 5#5 6#5 false false) (t.writeX 5#5 0x1FFFF8)) fun t => decide (t.readX 7 = 0 ∧ t.resv = none))
      = true := by decide

theorem test_witness_AtomicWordResults :
    (at_ .rv32 0x800FFFFC 1).translating .amo = false ∧ ((at_ .rv32 0x800FFFFC 1).num 5#5).toNat % 4 = 0
    ∧ (∃ u, (at_ .rv32 0x800FFFFC 1).translate .amo ((at_ .rv32 0x800FFFFC 1).readX 5#5) = .ok 0x800FFFFC u
        ∧ u.inDram 0x800FFFFC 4 = true)
    ∧ ((paged.writeX 5#5 0x1FFC).num 5#5).toNat % 4 = 0
    ∧ (∃ u, (paged.writeX 5#5 0x1FFC).translate .amo ((paged.writeX 5#5 0x1FFC).readX 5#5) = .ok 0x80050FFC u
        ∧ u.inDram 0x80050FFC 4 = true) :=
  ⟨by decide, by decide, ok_of_placed (by decide), by decide, ok_of_placed (by decide)⟩

theorem test_witness_AtomicDoubleResults :
    paged.xlen = .rv64 ∧ (at_ .rv64 0x800FFFF8 1).translating .amo = false
    ∧ ((paged.writeX 5#5 0x1FF8).num 5#5).toNat % 8 = 0
    ∧ (∃ u, (paged.writeX 5#5 0x1FF8).translate .amo ((paged.writeX 5#5 0x1FF8).readX 5#5) = .ok 0x80050FF8 u
        ∧ u.inDram 0x80050FF8 8 = true) :=
  ⟨by decide, by decide, by decide, ok_of_placed (by decide)⟩

theorem test_witness_AtomicTraps :
    ((at_ .rv64 0x80000FFF 1).num 5#5).toNat % 4 ≠ 0 ∧ ((at_ .rv64 0x80000004 1).num 5#5).toNat % 8 ≠ 0
    ∧ ((at_ .rv64 0x80100000 1).num 5#5).toNat % 4 = 0 ∧ ((at_ .rv64 0x7FFFFFF8 1).num 5#5).toNat % 8 = 0
    ∧ (∃ u, (at_ .rv64 0x80100000 1).translate .load ((at_ .rv64 0x80100000 1).readX 5#5) = .ok 0x80100000 u
        ∧ u.inDram 0x80100000 4 = false)
    ∧ (∃ u, (at_ .rv64 0x7FFFFFF8 1).translate .store ((at_ .rv64 0x7FFFFFF8 1).readX 5#5) = .ok 0x7FFFFFF8 u
        ∧ u.inDram 0x7FFFFFF8 8 = false)
    ∧ (∃ u, (paged.writeX 5#5 0x2000).translate .amo ((paged.writeX 5#5 0x2000).readX 5#5) = .ok 0x10002000 u
        ∧ u.inDram 0x10002000 8 = false)
    ∧ (∃ u, (paged.writeX 5#5 0x3000).translate .load ((paged.writeX 5#5 0x3000).readX 5#5) = .trap .loadPage 0x3000#64 u)
    ∧ (∃ u, (paged.writeX 5#5 0x3000).translate .store ((paged.writeX 5#5 0x3000).readX 5#5) = .trap .storePage 0x3000#64 u)
    ∧ (∃ u, (paged.writeX 5#5 0x200000).translate .amo ((paged.writeX 5#5 0x200000).readX 5#5)
        = .trap .storeAccess 0x200000#64 u)
    ∧ (at_ .rv64 0x80100000 1).translating .load = false ∧ (at_ .rv64 0x80100000 1).translating .store = false
    ∧ (at_ .rv64 0x80100000 1).translating .amo = false ∧ (at_ .rv32 0 0).xlen = .rv32 :=
  ⟨by decide, by decide, by decide, by decide, ok_of_placed (by decide), ok_of_placed (by decide), ok_of_placed (by decide),
    trap_of_trapOf (by decide), trap_of_trapOf (by decide), trap_of_trapOf (by decide), by decide⟩

/-- An AMO needs write permission too: on a read-only page it raises store/AMO page fault, and an LR succeeds (20_memory.md R238,
R250). -/
theorem test_amo_needs_both_permissions :
    (meets (exec (.amoaddW 7#5 6#5 5#5 false false)
        (put (paged.writeX 6#5 0x1FF8) 0x80042008 8 (0x80050#64 <<< 10 ||| 0x43#64)))
      (fun t => decide (t.csr.mcause = 15 ∧ t.csr.mtval = 0x1FF8)) = true)
    ∧ (meets (exec (.lrW 7#5 6#5 false false)
        (put (paged.writeX 6#5 0x1FF8) 0x80042008 8 (0x80050#64 <<< 10 ||| 0x43#64)))
      (fun t => decide (t.resv = some { paddr := 0x80050FF8, width := .w })) = true) := by decide

theorem test_witness_ReservationRule :
    (∃ t, exec (.scW 1#5 5#5 6#5 true false) (at_ .rv64 0x800FFFFC 1) = .next t ∧ decide (t.minstret = 1) = true)
    ∧ (Instr.scW 1#5 5#5 6#5 true false).stores = true
    ∧ (∃ t, exec (.sw 5#5 6#5 0#12) (at_ .rv64 0x80100000 1) = .next t ∧ decide (t.minstret = 0) = true)
    ∧ (∃ t, exec (.add 1#5 5#5 6#5) (at_ .rv64 0x800FFFFC 1) = .next t ∧ decide (t.minstret = 1) = true)
    ∧ (Instr.add 1#5 5#5 6#5).stores = false
    ∧ (∃ t, exec (.lrW 1#5 5#5 true false) (at_ .rv64 0x80000FFF 1) = .next t ∧ decide (t.minstret = 0) = true)
    ∧ (∃ rd rs1 aq rl, Instr.lrW 1#5 5#5 true false = .lrW rd rs1 aq rl ∨ Instr.lrW 1#5 5#5 true false = .lrD rd rs1 aq rl) :=
  ⟨next_of_meets (by decide), by decide, next_of_meets (by decide), next_of_meets (by decide), by decide,
    next_of_meets (by decide), ⟨_, _, _, _, .inl rfl⟩⟩

theorem test_witness_CsrInstructionResults :
    csrReg (start .rv64).xlen 0x300#12 = some .mstatus ∧ (start .rv64).csrAllowed 0x300#12 true = true
    ∧ csrReg (start .rv64).xlen 0xC00#12 ≠ none ∧ (start .rv64).csrAllowed 0xC00#12 true = false
    ∧ (start .rv64).csrAllowed 0xC00#12 false = true ∧ csrReg (start .rv64).xlen 0xFFF#12 = none := by decide

theorem test_witness_CsrReadAfterWrite :
    norm (start .rv64).xlen 0xFFFFFFFFFFFFFFFF#64 = 0xFFFFFFFFFFFFFFFF#64
    ∧ norm (start .rv32).xlen 0xFFFFFFFF#64 = 0xFFFFFFFF#64 := by decide

theorem test_witness_MstatusWriteThenRead :
    (start .rv64).xlen = .rv64 ∧ (1 : Nat) ∈ [1, 3, 5, 7, 8, 13, 14, 17, 18, 19, 20, 21, 22]
    ∧ (22 : Nat) ∈ [1, 3, 5, 7, 8, 13, 14, 17, 18, 19, 20, 21, 22]
    ∧ (36 : Nat) ∉ [1, 3, 5, 7, 8, 11, 12, 13, 14, 17, 18, 19, 20, 21, 22, xlenBits (start .rv64).xlen - 1]
    ∧ (23 : Nat) ∉ [1, 3, 5, 7, 8, 11, 12, 13, 14, 17, 18, 19, 20, 21, 22, xlenBits (start .rv32).xlen - 1] := by decide

theorem test_witness_SatpAndCounterWrites :
    norm (start .rv64).xlen 0x7FFFFFFFFFFFFFFF#64 = 0x7FFFFFFFFFFFFFFF#64
    ∧ norm (start .rv32).xlen 0xFFFFFFFF#64 = 0xFFFFFFFF#64 ∧ (start .rv64).xlen = .rv64 ∧ (start .rv32).xlen = .rv32
    ∧ (0x7FFFFFFFFFFFFFFF#64).toNat / 2 ^ 60 ≠ 0 ∧ (0x7FFFFFFFFFFFFFFF#64).toNat / 2 ^ 60 ≠ 8
    ∧ (0x8FFFFFFFFFFFFFFF#64).toNat / 2 ^ 60 = 8 := by
  decide

/-- The counters read in halves in RV32 and whole in RV64 (10_state.md R90, R91). -/
theorem test_counter_reads :
    ([CsrReg.mcycle, .cycle, .mcycleh, .cycleh, .minstret, .instret, .minstreth, .instreth, .time, .timeh].map
        ({ start .rv32 with mcycle := 0x1122334455667788, minstret := 0x99AABBCCDDEEFF00,
                            clint := { (start .rv32).clint with mtime := 0x0102030405060708 } } : State).csrRead)
      = [0x55667788, 0x55667788, 0x11223344, 0x11223344, 0xDDEEFF00, 0xDDEEFF00, 0x99AABBCC, 0x99AABBCC, 0x05060708, 0x01020304]
    ∧ ({ start .rv64 with mcycle := 0x1122334455667788 } : State).csrRead .cycle = 0x1122334455667788 := by decide

theorem test_witness_CsrFrame :
    (∃ t, exec (.csrrw 1#5 5#5 0x340#12) (at_ .rv64 7 1) = .next t ∧ decide (t.csr.mscratch = 7 ∧ t.readX 1 = 0) = true)
    ∧ (0#5 : Reg) ≠ 1#5 :=
  ⟨next_of_meets (by decide), by decide⟩

theorem test_witness_EnvironmentCallsAndReturns :
    (start .rv64).priv = .M
    ∧ (∃ t, exec .ecall (start .rv64) = .next t ∧ true = true)
    ∧ mapped.priv = .S ∧ mapped.priv ≠ .M ∧ mapped.mstatus.tsr = false
    ∧ ({ mapped with priv := .U } : State).priv = .U
    ∧ ({ mapped with mstatus := { mapped.mstatus with tsr := true } } : State).mstatus.tsr = true
    ∧ Instr.mret.wf .rv32 = true ∧ Instr.sret.wf .rv64 = true ∧ Instr.ecall.wf .rv64 = true ∧ Instr.ebreak.wf .rv64 = true :=
  ⟨by decide, next_of_meets (by decide), by decide⟩

theorem test_witness_FencesAndWfi :
    (start .rv64).priv = .M ∧ mapped.priv = .S ∧ mapped.mstatus.tw = false ∧ mapped.mstatus.tvm = false
    ∧ ({ mapped with priv := .U } : State).priv = .U
    ∧ ({ mapped with mstatus := { mapped.mstatus with tw := true } } : State).mstatus.tw = true
    ∧ ({ mapped with mstatus := { mapped.mstatus with tvm := true } } : State).mstatus.tvm = true := by decide

/-- A page of ASID 1, not global. -/
def page1 : TlbEntry :=
  { vpn := 1, asid := 1, ppn := 0x80050, level := 0,
    flags := { r := true, w := true, x := false, u := false, g := false, a := true, d := true }, valid := true }

theorem test_witness_SfenceRemovesStaleEntries :
    ([((0#5 : Reg), (0#5 : Reg)), (0#5, 6#5), (5#5, 0#5), (5#5, 6#5), (31#5, 30#5)].all fun r =>
      meets (exec (.sfenceVma r.1 r.2) { at_ .rv64 0x1FFF 1 with tlb := [page1, { page1 with vpn := 2 }] })
        fun t => decide (t.minstret = 1)) = true
    ∧ (at_ .rv64 0x1FFF 1).readX 31#5 = 0 ∧ (at_ .rv64 0x1FFF 1).readX 30#5 = 0
    ∧ page1.covers .rv64 ((at_ .rv64 0x1FFF 1).readX 5#5) = true
    ∧ page1.asid = ((at_ .rv64 0x1FFF 1).readX 6#5).toNat % 2 ^ 16 := by decide

theorem test_witness_TrapEntry :
    (mapped.csrWrite .medeleg 0x100).priv ≠ .M
    ∧ (mapped.csrWrite .medeleg 0x8000).csr.medeleg.getLsbD Exc.storePage.code = true
    ∧ (start .rv64 |>.csrWrite .mideleg 0x222).csr.mideleg.getLsbD Irq.ssi.code = true
    ∧ (start .rv64).csr.mideleg.getLsbD Irq.mei.code = false
    ∧ (start .rv64 |>.csrWrite .mtvec 0x80000801).csr.mtvec.getLsbD 0 = true ∧ (Cause.interrupt .mei).isInterrupt = true := by
  decide

theorem test_witness_PrivilegeTransitions :
    (∃ t, exec .mret ({ start .rv64 with mstatus := { (start .rv64).mstatus with mpp := .S } } : State) = .next t
      ∧ decide (t.priv = .S) = true)
    ∧ (∃ t, exec .sret mapped = .next t ∧ decide (t.priv = .U) = true)
    ∧ (start .rv64).priv = .M ∧ mapped.priv ≠ .U ∧ mapped.mstatus.tsr = false
    ∧ withMsi.selectInterrupt = some .msi :=
  ⟨next_of_meets (by decide), next_of_meets (by decide), by decide⟩

theorem test_witness_TranslationOffIsIdentity :
    ({ mapped with csr := { mapped.csr with satp := 0x0FFFFFFFFFFFFFFF#64 } } : State).translating .store = false
    ∧ (0x0FFFFFFFFFFFFFFF#64).toNat / 2 ^ 60 = 0 ∧ (0x7FFFFFFF#64).toNat / 2 ^ 31 % 2 = 0
    ∧ ({ mapped with priv := .M } : State).effPriv .fetch = .M
    ∧ ({ mapped with priv := .M } : State).csr.satp ≠ 0 ∧ mapped.translating .fetch = true
    ∧ ({ mapped with priv := .M, mstatus := { mapped.mstatus with mprv := true, mpp := .S } } : State).translating .load = true := by
  decide

/-- By the walk, and by an entry of the TLB. -/
theorem test_witness_TranslationIsPermitted :
    mapped.translating .store = true ∧ (∃ t, mapped.translate .store 0x1FFF#64 = .ok 0x80050FFF t)
    ∧ ({ mapped with tlb := [{ page1 with asid := 0 }], tlbDraws := [hitDraw] } : State).translating .load = true
    ∧ (∃ t, ({ mapped with tlb := [{ page1 with asid := 0 }], tlbDraws := [hitDraw] } : State).translate .load 0x1000#64
        = .ok 0x80050000 t) :=
  ⟨by decide, ok_of_okOf (by decide), by decide, ok_of_okOf (by decide)⟩

theorem test_witness_TranslationFrame :
    Memory.wf mapped.dram = true
    ∧ (∀ c ∈ mapped.dram, Config.dramBase ≤ c.1 ∧ c.1 < Config.dramBase + mapped.dramSize)
    ∧ okOf (mapped.translate .load 0x1000#64) = some 0x80050000
    ∧ trapOf (mapped.translate .load 0x2000#64) = some (.loadPage, 0x2000#64)
    ∧ (mapped.findLeaf .load 0x1000#64).toOption.map Leaf.addr = some 0x80042008 := by decide

theorem test_witness_WalkRules :
    mapped.translating .load = true ∧ canonical mapped.xlen 0x4000000000#64 = false
    ∧ ({ mapped with csr := { mapped.csr with satp := 0x8000000000080100#64 } } : State).inDram
        (satpPpn .rv64 0x8000000000080100#64 * 4096 + vpn .rv64 0 (rootLevel .rv64) * pteSize .rv64) 8 = false
    ∧ mapped.inDram (satpPpn .rv64 mapped.csr.satp * 4096 + vpn .rv64 0x7FFFFFFFFF#64 (rootLevel .rv64) * 8) 8 = true
    ∧ pteValid (Memory.readLE mapped.dram (satpPpn .rv64 mapped.csr.satp * 4096 + 511 * 8) 8) = false
    ∧ mapped.inDram (satpPpn .rv64 mapped.csr.satp * 4096 + vpn .rv64 0x80000000#64 (rootLevel .rv64) * 8) 8 = true
    ∧ (let pte := Memory.readLE mapped.dram (satpPpn .rv64 mapped.csr.satp * 4096 + 2 * 8) 8;
        pteValid pte = true ∧ pteLeaf pte = true
        ∧ permitted mapped.mstatus .store (mapped.effPriv .store) (pteFlags pte) = true
        ∧ superpageAligned mapped.xlen (ptePpn mapped.xlen pte) (rootLevel mapped.xlen) = true)
    ∧ Memory.wf mapped.dram = true
    ∧ (∀ c ∈ mapped.dram, Config.dramBase ≤ c.1 ∧ c.1 < Config.dramBase + mapped.dramSize) := by decide

/-- The tables of `mapped` with a misaligned superpage for 0x40000000 and a pointer at level 0 for 0x2000. -/
def walks : State := put (put mapped 0x80040008 8 (0x80041#64 <<< 10 ||| 0xCF#64)) 0x80042010 8 (0x80043#64 <<< 10 ||| 1#64)

/-- Walks below the root: to a leaf at level 0, to a pointer there, to one that does not admit a fetch, to a misaligned
superpage; a pointer PTE at the root, and PTEs of the lowest table outside DRAM and invalid. -/
theorem test_witness_WalkRulesBelowTheRoot :
    (walks.walk .store 0x1000#64 2 0x80040000).toOption = some { addr := 0x80042008, pte := 0x80050#64 <<< 10 ||| 7#64, level := 0 }
    ∧ permitted walks.mstatus .fetch (walks.effPriv .fetch) (pteFlags (0x80050#64 <<< 10 ||| 7#64)) = false
    ∧ (walks.walk .load 0x40000000#64 2 0x80040000).toOption
        = some { addr := 0x80040008, pte := 0x80041#64 <<< 10 ||| 0xCF#64, level := 2 }
    ∧ superpageAligned .rv64 (ptePpn .rv64 (0x80041#64 <<< 10 ||| 0xCF#64)) 2 = false
    ∧ (let entry := Memory.readLE walks.dram (0x80040000 + vpn .rv64 0x1000#64 2 * 8) 8;
        walks.inDram 0x80040000 8 = true ∧ pteValid entry = true ∧ pteLeaf entry = false)
    ∧ (let entry := Memory.readLE walks.dram (0x80042000 + vpn .rv64 0x2000#64 0 * 8) 8;
        pteValid entry = true ∧ pteLeaf entry = false)
    ∧ (walks.walk .load 0x2000#64 2 0x80040000).toOption = none
    ∧ walks.inDram (0x80100000 + vpn .rv64 0x1000#64 0 * 8) 8 = false
    ∧ pteValid (Memory.readLE walks.dram (0x80042000 + vpn .rv64 0x3000#64 0 * 8) 8) = false := by decide

/-- The entry a walk adds, and a translation that uses one (20_memory.md R260 to R263). -/
theorem test_walk_fills_the_tlb :
    ((mapped.translate .load 0x1234#64).stateOr mapped).tlb
      = [{ vpn := 1, asid := 0, ppn := 0x80050, level := 0, flags := ⟨true, true, false, false, false, true, false⟩, valid := true }]
    ∧ canonical mapped.xlen 0x1234#64 = true := by decide

/-- A page of code at 0x5000, whose last parcel begins a 32-bit instruction, and the PTE of the page after it. -/
def code (next : Word) : State :=
  let s := put paged 0x80042028 8 (0x80051#64 <<< 10 ||| 0xCF#64)
  { put (put s 0x80042030 8 next) 0x80051FFE 2 3 with pc := 0x5FFE }

/-- The first parcel of a fetch: whether it is in DRAM, its low bits, and the translation of the second. -/
def secondParcel (s : State) : Option (Bool × BitVec 2 × Res Nat) :=
  match s.translate .fetch s.pc with
  | .ok pa u => some (u.inDram pa 2, quadrant (BitVec.ofNat 16 (u.leNat pa 2)), u.translate .fetch (norm s.xlen (s.pc + 2)))
  | .trap _ _ _ => none
  | .fatal _ => none

/-- The first parcel raises, or lies outside DRAM, or is a whole instruction, or begins a word whose second parcel raises, lies
outside DRAM, or is read; with translation on and off. -/
theorem test_witness_FetchRules :
    (∃ u, ({ paged with pc := 0x3000 } : State).translate .fetch 0x3000#64 = .trap .instrPage 0x3000#64 u)
    ∧ (∃ u, ((start .rv64).setPc 0x80100000).translate .fetch ((start .rv64).setPc 0x80100000).pc = .ok 0x80100000 u
        ∧ u.inDram 0x80100000 2 = false)
    ∧ (secondParcel { put paged 0x80000100 2 1 with pc := 0x80000100 }).map (fun r => (r.1, r.2.1)) = some (true, 1#2)
    ∧ (secondParcel (code 0)).map (fun r => (r.1, r.2.1, trapOf r.2.2)) = some (true, 3#2, some (.instrPage, 0x6000#64))
    ∧ (secondParcel (code (0x10002#64 <<< 10 ||| 0xCF#64))).map (fun r => (r.1, r.2.1, placed r.2.2 2))
        = some (true, 3#2, some (0x10002000, false))
    ∧ (secondParcel (code (0x80050#64 <<< 10 ||| 0xCF#64))).map (fun r => (r.1, r.2.1, placed r.2.2 2))
        = some (true, 3#2, some (0x80050000, true))
    ∧ (start .rv64).translating .fetch = false ∧ (code 0).translating .fetch = true :=
  ⟨trap_of_trapOf (by decide), ok_of_placed (by decide), by decide, by decide, by decide, by decide, by decide, by decide⟩

/-- A second parcel that faults has its own address as trap value (30_encoding.md R301). -/
theorem test_trap_value_of_a_second_parcel : trapOf (code 0).fetchInstr = some (.instrPage, 0x6000#64) := by decide

theorem test_witness_ClintRegisters :
    0xBFFC ∈ [0x4000, 0x4004, 0xBFF8, 0xBFFC] ∧ (0 : Nat) ≠ 0x4000 ∧ 0x4 ∉ [0, 0x4000, 0x4004, 0xBFF8, 0xBFFC]
    ∧ 0xFFFC ∉ [0, 0x4000, 0x4004, 0xBFF8, 0xBFFC] := by decide

/-- Sources 1 and 53, pending and enabled with priority 7 each. -/
def twoSources : Plic :=
  { Plic.reset with priority := Vector.replicate 54 7, pending := 0x0020000000000002#64, enable0 := 0x0020000000000002#64 }

theorem test_witness_PlicClaimAndComplete :
    (twoSources.claim .m).1 = 1 ∧ (1 : Nat) ≠ 0 ∧ (twoSources.enable .s).getLsbD 53 = false
    ∧ (({ twoSources with pending := 0x0020000000000000#64 } : Plic).claim .m).1 = 53 ∧ (twoSources.claim .s).1 = 0
    ∧ ¬ (1 ≤ 54 ∧ 54 ≤ 53 ∧ (twoSources.enable .m).getLsbD 54 = true ∧ twoSources.claimed.getLsbD 54 = true)
    ∧ (let p : Plic := { twoSources with claimed := 0x0020000000000000#64 };
        1 ≤ 53 ∧ 53 ≤ 53 ∧ (p.enable .m).getLsbD 53 = true ∧ p.claimed.getLsbD 53 = true)
    ∧ 0x201000 ∈ [0x002080, 0x002080 + 4, 0x201000] ∧ (0x2000 ≠ 0x200000 ∨ Context.m ≠ .s) ∧ Context.s ≠ Context.m
    ∧ 0xD8 % 4 = 0 ∧ 4 * 53 < 0xD8
    ∧ 0xD8 ∉ [0x001000, 0x001004, 0x002000, 0x002004, 0x002080, 0x002084, 0x200000, 0x200004, 0x201000, 0x201004]
    ∧ 0x3FFFFFC ∉ [0x001000, 0x001004, 0x002000, 0x002004, 0x002080, 0x002084, 0x200000, 0x200004, 0x201000, 0x201004]
    ∧ 0x000000 ∉ [0x001000, 0x001004] := by
  decide

/-- Each DLAB; no interrupt, a received byte, an empty transmitter; ETBEI raised, kept and cleared; each answer of the TTY. -/
theorem test_witness_UartRules :
    Uart.reset.lcr.getLsbD 7 = false ∧ ({ Uart.reset with lcr := 0x80 } : Uart).lcr.getLsbD 7 = true
    ∧ Uart.reset.ier.getLsbD 1 = false ∧ (0x02#8).getLsbD 1 = true ∧ (0xFD#8).getLsbD 1 = false
    ∧ ({ Uart.reset with ier := 2 } : Uart).ier.getLsbD 1 = true
    ∧ (let u : Uart := { Uart.reset with ier := 1, dr := true }; u.ier.getLsbD 0 = true ∧ u.dr = true)
    ∧ (let u : Uart := { Uart.reset with ier := 2, dr := true, threIp := true };
        ¬ (u.ier.getLsbD 0 = true ∧ u.dr = true) ∧ u.ier.getLsbD 1 = true ∧ u.threIp = true)
    ∧ ¬ (Uart.reset.ier.getLsbD 0 = true ∧ Uart.reset.dr = true) ∧ ¬ (Uart.reset.ier.getLsbD 1 = true ∧ Uart.reset.threIp = true)
    ∧ 6 ∉ [2, 5] ∧ 6 ∈ [2, 5, 6] ∧ 8 ≤ 0xFFF ∧ Uart.reset.dr = false ∧ ({ Uart.reset with dr := true } : Uart).dr = true
    ∧ ({ start .rv64 with ttyIn := [some 0x41] } : State).ttyIn = some 0x41 :: []
    ∧ ({ start .rv64 with ttyIn := [none] } : State).ttyIn = none :: [] ∧ (start .rv64).ttyIn = [] := by
  decide

theorem test_witness_VirtioAndDmaRules :
    (1#32 : BitVec 32) ≠ 0 ∧ (start .rv64).virtio.queueSel = 0 ∧ ((start .rv64).virtio.writeReg 0x030 1).queueSel ≠ 0
    ∧ 0x040 ∈ [0x034, 0x038, 0x03C, 0x040]
    ∧ 0x064 ∉ [0x000, 0x004, 0x008, 0x00C, 0x014, 0x020, 0x024, 0x028, 0x030, 0x034, 0x038, 0x03C, 0x040, 0x060, 0x070, 0x100, 0x104]
    ∧ 0xFFC ∉ [0x000, 0x004, 0x008, 0x00C, 0x014, 0x020, 0x024, 0x028, 0x030, 0x034, 0x038, 0x03C, 0x040, 0x060, 0x070, 0x100, 0x104]
    ∧ 0x034 ∉ [0x014, 0x020, 0x024, 0x028, 0x030, 0x038, 0x03C, 0x040, 0x050, 0x064, 0x070]
    ∧ [0xAA#8, 0xBB#8] ≠ [] ∧ (start .rv64).inDram 0x800FFFFE [0xAA#8, 0xBB#8].length = true
    ∧ (start .rv64).inDram 0x800FFFFF [0xAA#8, 0xBB#8].length = false := by decide

/-- A queue of 4 at 0x80010000 with one write request: 4 bytes at 0x80030000, then 4 outside DRAM. -/
def brokenWrite : State :=
  let s := start .rv64
  let s := { s with disk := List.replicate 8 0, resv := some { paddr := 0x80000000, width := .w },
                    virtio := { s.virtio with queuePfn := 0x80010, queueNum := 4, status := 4, notify := true } }
  let s := put (put s 0x80010000 8 0x80020000) 0x80010008 8 0x0001000100000010#64
  let s := put (put s 0x80010010 8 0x80030000) 0x80010018 8 0x0002000100000004#64
  let s := put (put s 0x80010020 8 0x1000) 0x80010028 8 0x0003000100000004#64
  let s := put (put s 0x80010030 8 0x80020010) 0x80010038 8 0x0000000200000001#64
  let s := put (put s 0x80010040 8 0x0000000000010000#64) 0x80020000 8 1
  put s 0x80030000 4 0x44332211

/-- A queue of 4 at 0x80010000 with one request of type `kind` and sector `sector`, of 4 bytes at 0x80030000, and a disk of 8
bytes; its head is descriptor 1, and descriptor 0 names itself as the next. -/
def oneRequest (kind sector : Word) : State :=
  let s := start .rv64
  let s := { s with disk := [0xA0#8, 0xA1#8, 0xA2#8, 0xA3#8, 0xA4#8, 0xA5#8, 0xA6#8, 0xA7#8],
                    resv := some { paddr := 0x80000000, width := .w },
                    virtio := { s.virtio with queuePfn := 0x80010, queueNum := 4, status := 4, notify := true } }
  let s := put (put s 0x80010000 8 0x80020000) 0x80010008 8 0x0000000100000010#64
  let s := put (put s 0x80010010 8 0x80020000) 0x80010018 8 0x0002000100000010#64
  let s := put (put s 0x80010020 8 0x80030000) 0x80010028 8 0x0003000100000004#64
  let s := put (put s 0x80010030 8 0x80020010) 0x80010038 8 0x0000000200000001#64
  let s := put (put (put s 0x80010040 8 0x0000000100010000#64) 0x80020000 8 kind) 0x80020008 8 sector
  put s 0x80030000 4 0x44332211

/-- The chain of `oneRequest`. -/
def oneChain : List Buffer := [{ addr := 0x80020000, len := 16 }, { addr := 0x80030000, len := 4 }, { addr := 0x80020010, len := 1 }]

theorem hasChain_oneRequest : (oneRequest 0 0).HasChain 1 oneChain :=
  ⟨by decide, by decide, by decide, by decide, by decide, fun _ => ⟨by decide, by decide, by decide, by decide, by decide,
    fun _ => ⟨by decide, by decide, by decide, by decide, by decide, fun h => absurd rfl h⟩⟩⟩

/-- A request of each kind, in and out of the range of the disk; a chain of one descriptor and one that
does not end; a descriptor and a header outside DRAM. -/
theorem test_witness_VirtioRequests :
    (oneRequest 0 0).dramOk ∧ (oneRequest 0 0).HasChain 1 ({ addr := 0x80020000, len := 16 } ::
        ([{ addr := 0x80030000, len := 4 }] ++ [{ addr := 0x80020010, len := 1 }]))
    ∧ [({ addr := 0x80030000, len := 4 } : Buffer)].length + 2 ≤ (oneRequest 0 0).virtio.queueNum.toNat
    ∧ (oneRequest 0 0).inDram 0x80020000 16 = true ∧ (oneRequest 0 0).inDram 0x80020010 1 = true
    ∧ (oneRequest 0 0).inDram 0x80030000 4 = true
    ∧ (oneRequest 0 0).leNat 0x80020000 4 = 0 ∧ (oneRequest 1 0).leNat 0x80020000 4 = 1 ∧ (oneRequest 8 0).leNat 0x80020000 4 = 8
    ∧ 0 * 512 + ([({ addr := 0x80030000, len := 4 } : Buffer)].map Buffer.len).sum ≤ (oneRequest 0 0).disk.length
    ∧ (oneRequest 0 1).leNat (0x80020000 + 8) 8 = 1 ∧ (oneRequest 0 1).disk.length < 1 * 512 + 4
    ∧ (oneRequest 0 0).virtio.queueNum.toNat ≤ 4
    ∧ (oneRequest 0 0).HasChain 3 [{ addr := 0x80020010, len := 1 }]
    ∧ (let s := oneRequest 0 0; ∀ k, k < s.virtio.queueNum.toNat → 0 < s.virtio.queueNum.toNat
        ∧ s.inDram (s.queueBase + 16 * 0) 16 = true ∧ s.leNat (s.queueBase + 16 * 0 + 12) 2 % 2 = 1
        ∧ 0 = s.leNat (s.queueBase + 16 * 0 + 14) 2)
    ∧ (let s : State := { oneRequest 0 0 with virtio := { (oneRequest 0 0).virtio with queuePfn := 1 } };
        0 < s.virtio.queueNum.toNat ∧ s.inDram (s.queueBase + 16 * 0) 16 = false)
    ∧ (put (oneRequest 0 0) 0x80010010 8 0x1000).leNat 0x80010010 8 = 0x1000
    ∧ (put (oneRequest 0 0) 0x80010010 8 0x1000).inDram 0x1000 16 = false := by
  refine ⟨?_, hasChain_oneRequest, ?_⟩
  · unfold State.dramOk; decide
  · refine ⟨by decide, by decide, by decide, by decide, by decide, by decide, by decide, by decide, by decide, by decide, by decide,
      ⟨by decide, by decide, by decide, by decide, by decide, fun h => absurd rfl h⟩, ?_, by decide⟩
    intro s k _
    exact ⟨by decide, by decide⟩

/-- The result of DMA meets `p`. -/
def dmaMeets {α : Type} (r : Dma α) (p : α → Bool) : Bool :=
  match r with
  | .ok a => p a
  | .error _ => false

theorem ok_of_dmaMeets {α : Type} {r : Dma α} {p : α → Bool} (h : dmaMeets r p = true) : ∃ a, r = .ok a ∧ p a = true := by
  unfold dmaMeets at h
  split at h
  · exact ⟨_, rfl, h⟩
  · cases h

/-- A tick serves a read: the data, the status byte, the used ring and the interrupt (60_exceptions.md R804 to R806). -/
theorem test_tick_serves_a_read :
    dmaMeets (oneRequest 0 0).virtioTick (fun t => decide (t.leNat 0x80030000 4 = 0xA3A2A1A0 ∧ t.byteAt 0x80030004 = 0
      ∧ t.byteAt 0x80020010 = 0 ∧ t.leNat 0x80011002 2 = 1 ∧ t.leNat 0x80011004 4 = 1 ∧ t.leNat 0x80011008 4 = 5
      ∧ t.virtio.interruptStatus = 1 ∧ t.virtio.lastAvail = 1 ∧ t.resv = none)) = true := by decide

/-- A tick serves a write, and one past the end of the disk gets status 1 (60_exceptions.md R804). -/
theorem test_tick_serves_a_write :
    dmaMeets (oneRequest 1 0).virtioTick (fun t => decide (
        t.disk = [0x11#8, 0x22#8, 0x33#8, 0x44#8, 0xA4#8, 0xA5#8, 0xA6#8, 0xA7#8] ∧ t.leNat 0x80011008 4 = 1)) = true
    ∧ dmaMeets (oneRequest 1 1).virtioTick (fun t => decide (t.byteAt 0x80020010 = 1 ∧ t.leNat 0x80011008 4 = 1)) = true := by
  decide

/-- The fault of a tick, and the disk it leaves. -/
def tickFault (s : State) : Option (Fault × List Byte) :=
  match s.virtioTick with
  | .ok _ => none
  | .error e => some (e.1, e.2.disk)

/-- DMA before the fatal case has taken effect (60_exceptions.md R804, R807). -/
theorem test_dma_before_a_fatal_case_stays :
    tickFault brokenWrite = some (.dmaRange, [0x11#8, 0x22#8, 0x33#8, 0x44#8, 0#8, 0#8, 0#8, 0#8]) := by decide

theorem error_of_tickFault {s : State} {f : Fault} {d : List Byte} (h : tickFault s = some (f, d)) :
    ∃ w, s.virtioTick = .error (f, w) ∧ w.disk = d := by
  unfold tickFault at h
  split at h
  · cases h
  · rename_i e he
    cases h
    exact ⟨e.2, he, rfl⟩

theorem test_witness_VirtioFatalCase :
    (∃ w, brokenWrite.virtioTick = .error (.dmaRange, w) ∧ w.disk = [0x11#8, 0x22#8, 0x33#8, 0x44#8, 0#8, 0#8, 0#8, 0#8])
    ∧ 0 < 4 ∧ brokenWrite.inDram 0x80030000 4 = true ∧ brokenWrite.inDram 0x1000 4 = false
    ∧ 0 * 512 + (4 + 4) ≤ brokenWrite.disk.length :=
  ⟨error_of_tickFault test_dma_before_a_fatal_case_stays, by decide⟩

/-- One request of the loop, and the state after it. -/
def oneServed (s : State) (h : Nat) : Dma State :=
  match s.request h with
  | .ok (u, n) => u.usedUpdate h n
  | .error e => .error e

theorem serves_one {s : State} (h1 : s.inDram (s.queueBase + 16 * s.virtio.queueNum.toNat + 2) 2 = true)
    (h2 : s.leNat (s.queueBase + 16 * s.virtio.queueNum.toNat + 2) 2 ≠ s.virtio.lastAvail.toNat)
    (h3 : s.inDram (s.queueBase + 16 * s.virtio.queueNum.toNat + 4 + 2 * (s.virtio.lastAvail.toNat % s.virtio.queueNum.toNat)) 2 = true)
    (h4 : dmaMeets (oneServed s (s.leNat (s.queueBase + 16 * s.virtio.queueNum.toNat + 4
        + 2 * (s.virtio.lastAvail.toNat % s.virtio.queueNum.toNat)) 2)) (fun w =>
      w.inDram (w.queueBase + 16 * w.virtio.queueNum.toNat + 2) 2
        && decide (w.leNat (w.queueBase + 16 * w.virtio.queueNum.toNat + 2) 2 = (w.virtio.lastAvail + 1).toNat)) = true) :
    ∃ t, s.Serves 1 t := by
  obtain ⟨w, hw, hp⟩ := ok_of_dmaMeets h4
  simp only [Bool.and_eq_true, decide_eq_true_eq] at hp
  unfold oneServed at hw
  split at hw
  · rename_i u n hu
    exact ⟨_, h1, h2, h3, u, n, w, hu, hw, hp.1, hp.2, rfl⟩
  · cases hw

theorem test_witness_BusTickRules :
    (start .rv64).virtio.notify = false ∧ (∃ t, busTick (start .rv64) = .next t ∧ decide (t.clint.mtime = 1) = true)
    ∧ (let s : State := { start .rv64 with virtio := (start .rv64).virtio.writeReg 0x050 0 };
        s.virtio.notify = true ∧ s.virtio.queuePfn = 0)
    ∧ (let s := oneRequest 0 0; s.virtio.notify = true ∧ s.virtio.queuePfn ≠ 0 ∧ 1 ≤ s.virtio.queueNum.toNat
        ∧ s.virtio.queueNum.toNat ≤ 8 ∧ s.virtio.status ≠ 0 ∧ s.virtio.queueAlign ≠ 0
        ∧ s.inDram (s.virtio.usedBase + 2) 2 = true
        ∧ s.inDram (s.virtio.usedBase + 4 + 8 * (s.leNat (s.virtio.usedBase + 2) 2 % s.virtio.queueNum.toNat)) 8 = true)
    ∧ (∃ t, ({ oneRequest 0 0 with virtio := { (oneRequest 0 0).virtio with notify := false } } : State).Serves 1 t)
    ∧ (∃ t, (oneRequest 0 0).virtioTick = .ok t ∧ decide (t.virtio.lastAvail = 1) = true)
    ∧ (∃ w, brokenWrite.virtioTick = .error (.dmaRange, w) ∧ w.disk = [0x11#8, 0x22#8, 0x33#8, 0x44#8, 0#8, 0#8, 0#8, 0#8]) :=
  ⟨by decide, next_of_meets (by decide), by decide, by decide, serves_one (by decide) (by decide) (by decide) (by decide),
    ok_of_dmaMeets (by decide), error_of_tickFault test_dma_before_a_fatal_case_stays⟩

/-- A final outcome of each kind; an interrupt; a fetch that raises; bits that decode, and bits that do not. -/
theorem test_witness_StepRunsDecodedInstruction :
    ({ start .rv64 with fatal := some .mmioWidth } : State).fatal = some .mmioWidth
    ∧ ({ start .rv64 with refused := some .fpArith } : State).refused = some .fpArith
    ∧ (at_ .rv64 0 0).fatal = none ∧ (at_ .rv64 0 0).refused = none ∧ (at_ .rv64 0 0).selectInterrupt = none
    ∧ withMsi.selectInterrupt = some .msi
    ∧ (∃ u, ((at_ .rv64 0 0).setPc 0x80100000).fetchInstr = .trap .instrAccess 0x80100000 u)
    ∧ (∃ u, (put (at_ .rv64 0 0) 0x80000100 4 0x006283B3).fetchInstr = .ok (.full 0x006283B3#32) u)
    ∧ decodeRaw .rv64 (.full 0x006283B3#32) = .ok (.add 7#5 5#5 6#5)
    ∧ (∃ u, (at_ .rv64 0 0).fetchInstr = .ok (.compressed 0x0000#16) u)
    ∧ (∀ i, decodeRaw .rv64 (.compressed 0x0000#16) ≠ .ok i) :=
  ⟨rfl, rfl, rfl, rfl, by decide, by decide, trap_of_trapOf (by decide), ok_of_okOf (by decide), rfl, ok_of_okOf (by decide),
    fun _ h => nomatch h⟩

/-- An add at the pc. -/
def atAdd : State := put (at_ .rv64 3 4) 0x80000100 4 0x006283B3#64

theorem test_witness_StepKeepsInvariant : atAdd.Inv ∧ (∃ t, step atAdd = .next t ∧ decide (t.readX 7 = 7) = true) := by
  refine ⟨⟨?_, ?_, ?_, ?_, ?_, ?_, ?_, ?_⟩, next_of_meets (by decide)⟩
  · unfold State.pcsEven; decide
  · unfold State.dramOk; decide
  · exact ⟨by decide, by decide, by decide, by decide, by decide, .inl (by decide)⟩
  · exact fun _ _ => rfl
  · unfold State.plicOk; decide
  · intro r h; cases h
  · decide
  · unfold State.sizeOk; decide

theorem test_witness_ResetState : CsrReg.mscratch ∉ [CsrReg.mstatus, .sstatus, .misa, .mip, .sip] := by decide

theorem test_witness_StepKeepsConfiguration :
    ∃ t, step ({ atAdd with ttyIn := [some 0x41] } : State) = .next t ∧ decide (t.uart.rbr = 0x41) = true :=
  next_of_meets (by decide)

/-- Two sections that overlap in one byte, and one that does not fit. -/
def firstSection : Section := { addr := 0x80000000, payload := [0xAA#8, 0xBB#8] }
def lastSection : Section := { addr := 0x80000001, payload := [0xCC#8] }
def straySection : Section := { addr := 0x800FFFFF, payload := [0xAA#8, 0xBB#8] }

/-- A later section overwrites an earlier one where they overlap (70_reset_and_hazards.md R852). -/
theorem test_later_section_overwrites :
    (((start .rv64).loadProgram { xlen := .rv64, entry := 0x80000001, sections := [firstSection, lastSection], tohost := none }).map
      fun t => (t.byteAt 0x80000000, t.byteAt 0x80000001, t.pc)) = some (0xAA#8, 0xCC#8, 0x80000000#64) := by decide

/-- A run that stores 1 to the tohost cell ends with success after that step (R855). -/
def storesOne : State :=
  { put (at_ .rv64 0x80001000 1) 0x80000100 4 0x0062A023#64 with tohost := some 0x80001000 }

theorem test_run_passes : (storesOne.run 5).1 = .passed := by decide

theorem test_witness_DriverOperations :
    (∀ c ∈ [firstSection, lastSection], (start .rv64).inDram c.addr c.payload.length = true)
    ∧ (start .rv64).inDram straySection.addr straySection.payload.length = false
    ∧ (∃ t, (start .rv64).loadProgram { xlen := .rv64, entry := 0, sections := [firstSection, lastSection], tohost := none }
        = some t)
    ∧ (∃ before after, [firstSection, lastSection] = before ++ firstSection :: after
        ∧ ∀ d ∈ after, firstSection.addr + 0 < d.addr ∨ d.addr + d.payload.length ≤ firstSection.addr + 0)
    ∧ [0xAA#8].length ≤ (start .rv64).dramSize ∧ ¬ (0x100001 ≤ (start .rv64).dramSize)
    ∧ faultOf (step (put (at_ .rv64 0x02000001 1) 0x80000100 4 0x0002A303#64)) = some .mmioWidth
    ∧ refusalOf (step (put (at_ .rv64 0 1) 0x80000100 4 0x00000053#64)) = some .fpArith
    ∧ (∃ t, hartStep (put brokenWrite 0x80000100 4 0x00000013#64) = .next t ∧ decide (t.virtio.notify = true) = true)
    ∧ ({ put (start .rv64) 0x800FFFFC 4 1 with tohost := some 0x800FFFFC } : State).tohost = some 0x800FFFFC
    ∧ (0x800FFFFC#64).toNat % 4 = 0 ∧ (start .rv64).inDram (0x800FFFFC#64).toNat 4 = true
    ∧ 1 < (put (start .rv64) 0x800FFFFC 4 2).leNat 0x800FFFFC 4
    ∧ (put (start .rv64) 0x800FFFFC 4 1).leNat 0x800FFFFC 4 = 1 :=
  ⟨by decide, by decide, ⟨_, rfl⟩, ⟨[], [lastSection], rfl, by decide⟩, by decide, by decide, by decide, by decide,
    next_of_meets (by decide), by decide⟩


end Sys2Proof.Tests
end

/-! ## The step case by case (60_exceptions.md R700, R701) -/

namespace Sys2Proof.Machine

open Sys2Proof

/-! ### The hart part -/

theorem hartStep_of_interrupt {s : State} {i : Irq} (h : s.selectInterrupt = some i) :
    hartStep s = .next (trapStep (.interrupt i) 0 s) := by
  rw [hartStep, h]

theorem hartStep_of_no_interrupt {s : State} (h : s.selectInterrupt = none) : hartStep s = runInstr s := by
  rw [hartStep, h]

theorem runInstr_of_fetch_trap {s u : State} {e : Exc} {v : Word} (h : s.fetchInstr = .trap e v u) :
    runInstr s = .next (trapStep (.exception e) v u) := by
  rw [runInstr, h]

theorem runInstr_of_fetch_ok {s u : State} {r : RawInstr} (h : s.fetchInstr = .ok r u) : runInstr s = runRaw r u := by
  rw [runInstr, h]

theorem runRaw_of_decoded {s : State} {r : RawInstr} {i : Instr} (h : decodeRaw s.xlen r = .ok i) :
    runRaw r s = exec i s := by
  rw [runRaw, h]

theorem runRaw_of_undecoded {s : State} {r : RawInstr} (h : ∀ i, decodeRaw s.xlen r ≠ .ok i) :
    runRaw r s = .next (trapStep (.exception .illegalInstr) (rawBits r) s) := by
  cases hd : decodeRaw s.xlen r with
  | ok i => exact absurd hd (h i)
  | error e => rw [runRaw, hd, raise_eq]

/-! ### The whole step -/

theorem step_of_fatal {s : State} {f : Fault} (h : s.fatal = some f) : step s = .fault f := by
  simp only [step, systemStep, h]

theorem step_of_refused {s : State} {q : Refusal} (hf : s.fatal = none) (hr : s.refused = some q) :
    step s = .refused q := by
  simp only [step, systemStep, hf, hr]

section Unmarked

variable {s : State} (hf : s.fatal = none) (hr : s.refused = none)
include hf hr

theorem step_of_hart_next {u : State} (h : hartStep s = .next u) : step s = busTick u := by
  simp only [step, systemStep, hf, hr, h]

theorem step_of_hart_fault {f : Fault} (h : hartStep s = .fault f) : step s = .fault f := by
  simp only [step, systemStep, hf, hr, h]

theorem step_of_hart_refused {q : Refusal} (h : hartStep s = .refused q) : step s = .refused q := by
  simp only [step, systemStep, hf, hr, h]

end Unmarked

/-- Settles O55: the marks, the interrupt, the fetch and the decoder are the branches of the step, in R700's order. -/
theorem stepRunsDecodedInstruction : Obligations.StepRunsDecodedInstruction := by
  unfold Obligations.StepRunsDecodedInstruction
  refine fun s => ⟨fun f h => step_of_fatal h, fun q hf hr => step_of_refused hf hr, fun hf hr => ⟨fun i hi => ?_, fun hn => ?_⟩⟩
  · exact step_of_hart_next hf hr (hartStep_of_interrupt hi)
  have hart := hartStep_of_no_interrupt hn
  refine ⟨fun e v u ht => ?_, fun r u hk => ?_⟩
  · exact step_of_hart_next hf hr (hart.trans (runInstr_of_fetch_trap ht))
  have fetched := hart.trans (runInstr_of_fetch_ok hk)
  refine ⟨fun i hd => ?_, fun hd => ?_⟩
  · have run := fetched.trans (runRaw_of_decoded hd)
    cases he : exec i u with
    | next t => exact step_of_hart_next hf hr (run.trans he)
    | fault f => exact step_of_hart_fault hf hr (run.trans he)
    | refused q => exact step_of_hart_refused hf hr (run.trans he)
  · exact step_of_hart_next hf hr (fetched.trans (runRaw_of_undecoded hd))

/-! ## A final outcome (00_scope.md R11, log 8) -/

theorem left_of_refused {s : State} {q : Refusal} (h : s.refused = some q) : s.left = s := by
  cases hf : s.fatal <;> simp only [State.left, hf, h]

theorem left_of_hart_next {s u : State} (hf : s.fatal = none) (hr : s.refused = none) (h : hartStep s = .next u) :
    s.left = u.tickLeft := by
  simp only [State.left, hf, hr, h]

theorem left_of_hart_refused {s : State} {q : Refusal} (hf : s.fatal = none) (hr : s.refused = none)
    (h : hartStep s = .refused q) : s.left = s.hartLeft := by
  simp only [State.left, hf, hr, h]

theorem tickLeft_of_error {s w : State} {f : Fault} (h : s.virtioTick = .error (f, w)) : s.tickLeft = w := by
  simp only [State.tickLeft, h]

theorem busTick_of_error {s w : State} {f : Fault} (h : s.virtioTick = .error (f, w)) : busTick s = .fault f := by
  simp only [busTick, h]

theorem busTick_ne_refused (s : State) (q : Refusal) : busTick s ≠ .refused q := by
  unfold busTick
  split <;> nofun

/-- A refused step was refused before, or its hart part is. -/
theorem step_eq_refused {s : State} {q : Refusal} (h : step s = .refused q) :
    s.fatal = none ∧ (s.refused = some q ∨ s.refused = none ∧ hartStep s = .refused q) := by
  cases hf : s.fatal with
  | some f => rw [step_of_fatal hf] at h; cases h
  | none =>
    refine ⟨rfl, ?_⟩
    cases hr : s.refused with
    | some p => rw [step_of_refused hf hr] at h; cases h; exact .inl rfl
    | none =>
      cases hh : hartStep s with
      | next u => exact absurd ((step_of_hart_next hf hr hh).symm.trans h) (busTick_ne_refused u q)
      | fault f => rw [step_of_hart_fault hf hr hh] at h; cases h
      | refused p => rw [step_of_hart_refused hf hr hh] at h; cases h; exact .inr ⟨rfl, rfl⟩

/-- What a refused step leaves has no fatal mark. -/
theorem left_fatal_of_step_refused {s : State} {q : Refusal} (h : step s = .refused q) : s.left.fatal = none := by
  obtain ⟨hf, hr | ⟨hr, hh⟩⟩ := step_eq_refused h
  · rw [left_of_refused hr, hf]
  · rw [left_of_hart_refused hf hr hh, (hartLeft_translated s).eq, hf]

theorem step_settle_fault (s : State) (f : Fault) : step (s.settle (.fault f)) = .fault f :=
  step_of_fatal rfl

theorem step_settle_refused {s : State} {q : Refusal} (h : step s = .refused q) :
    step (s.settle (.refused q)) = .refused q :=
  step_of_refused (left_fatal_of_step_refused h) rfl

/-- A tick that ends in a fatal case leaves the DMA before it, and the mark (R807). -/
theorem settle_of_tick_error {s u w : State} {f : Fault} (hf : s.fatal = none) (hr : s.refused = none)
    (hh : hartStep s = .next u) (ht : u.virtioTick = .error (f, w)) :
    step s = .fault f ∧ s.settle (step s) = { w with fatal := some f } := by
  have hs : step s = .fault f := (step_of_hart_next hf hr hh).trans (busTick_of_error ht)
  rw [hs, State.settle_fault, left_of_hart_next hf hr hh, tickLeft_of_error ht]
  exact ⟨rfl, rfl⟩

end Sys2Proof.Machine

/-! ## The driver (70_reset_and_hazards.md R850 to R857) -/

namespace Sys2Proof.Machine

open Sys2Proof

/-! ### Sections in memory (R852) -/

/-- The memory after the sections `cs` were copied into it, in order. -/
def Memory.copySections (m : Memory) (cs : List Section) : Memory :=
  cs.foldl (fun d c => Memory.writeBytes d c.addr c.payload) m

@[simp] theorem Memory.copySections_nil (m : Memory) : m.copySections [] = m := rfl

@[simp] theorem Memory.copySections_cons (m : Memory) (c : Section) (cs : List Section) :
    m.copySections (c :: cs) = (Memory.writeBytes m c.addr c.payload).copySections cs := rfl

theorem Memory.copySections_append (m : Memory) (cs ds : List Section) :
    m.copySections (cs ++ ds) = (m.copySections cs).copySections ds :=
  List.foldl_append

theorem Memory.copySections_wf {m : Memory} (cs : List Section) (hm : Memory.wf m = true) :
    Memory.wf (m.copySections cs) = true := by
  induction cs generalizing m with
  | nil => exact hm
  | cons c cs ih => exact ih (Memory.writeBytes_wf _ _ hm)

theorem Memory.read_copySections_out (m : Memory) {b : Nat} (cs : List Section)
    (h : ∀ d ∈ cs, b < d.addr ∨ d.addr + d.payload.length ≤ b) : Memory.read (m.copySections cs) b = Memory.read m b := by
  induction cs generalizing m with
  | nil => rfl
  | cons c cs ih =>
    obtain ⟨hc, hcs⟩ := List.forall_mem_cons.mp h
    rw [Memory.copySections_cons, ih _ hcs, Memory.read_writeBytes_out _ _ hc]

/-- A section that no later one covers at byte `k` has its payload there. -/
theorem Memory.read_copySections_in {m : Memory} {c : Section} {k : Nat} (before after : List Section)
    (hm : Memory.wf m = true) (hk : k < c.payload.length)
    (h : ∀ d ∈ after, c.addr + k < d.addr ∨ d.addr + d.payload.length ≤ c.addr + k) :
    Memory.read (m.copySections (before ++ c :: after)) (c.addr + k) = c.payload[k] := by
  rw [Memory.copySections_append, Memory.copySections_cons, Memory.read_copySections_out _ _ h]
  exact Memory.read_writeBytes_in _ hk (Memory.copySections_wf before hm)

/-! ### Loading (R852, R857) -/

theorem loadSections_of_fit {s : State} {cs : List Section} (h : ∀ c ∈ cs, s.inDram c.addr c.payload.length = true) :
    s.loadSections cs = some { s with dram := Memory.copySections s.dram cs } := by
  induction cs generalizing s with
  | nil => rfl
  | cons c cs ih =>
    obtain ⟨hc, hcs⟩ := List.forall_mem_cons.mp h
    rw [State.loadSections, if_pos hc]
    exact ih hcs

theorem loadSections_of_misfit {s : State} {cs : List Section}
    (h : ∃ c ∈ cs, s.inDram c.addr c.payload.length = false) : s.loadSections cs = none := by
  obtain ⟨c, hc, hm⟩ := h
  induction hc generalizing s with
  | head cs => rw [State.loadSections, if_neg (by simp [hm])]
  | tail d _ ih =>
    rw [State.loadSections]
    split
    · exact ih hm
    · rfl

theorem loadProgram_of_fit {s : State} {elf : Elf} (h : ∀ c ∈ elf.sections, s.inDram c.addr c.payload.length = true) :
    s.loadProgram elf = some { s with
      xlen := elf.xlen, pc := norm elf.xlen elf.entry &&& ~~~1#64, tohost := elf.tohost,
      dram := Memory.copySections s.dram elf.sections } := by
  rw [State.loadProgram, loadSections_of_fit (s := { s with xlen := elf.xlen }) h]

theorem loadProgram_of_misfit {s : State} {elf : Elf}
    (h : ∃ c ∈ elf.sections, s.inDram c.addr c.payload.length = false) : s.loadProgram elf = none := by
  rw [State.loadProgram, loadSections_of_misfit (s := { s with xlen := elf.xlen }) h]

/-- A program that loads has its sections, all of which fit, copied in order. -/
theorem loadProgram_dram {s t : State} {elf : Elf} (h : s.loadProgram elf = some t) :
    t.dram = Memory.copySections s.dram elf.sections := by
  by_cases hfit : ∀ c ∈ elf.sections, s.inDram c.addr c.payload.length = true
  · rw [loadProgram_of_fit hfit] at h
    cases h
    rfl
  · have hmisfit : ∃ c ∈ elf.sections, s.inDram c.addr c.payload.length = false := by
      simpa only [Classical.not_forall, Bool.not_eq_true, exists_prop] using hfit
    rw [loadProgram_of_misfit hmisfit] at h
    cases h

/-! ### The pc (R853) -/

/-- Clearing bit 0 gives the even number below. -/
theorem toNat_and_not_one (v : Word) : (v &&& ~~~1#64).toNat = v.toNat / 2 * 2 := by
  have e : v &&& ~~~1#64 = v >>> 1 <<< 1 := by
    ext i hi
    cases i <;> simp [-BitVec.reduceNot, Nat.add_comm 1, BitVec.getLsbD_eq_getElem hi]
  rw [e, BitVec.toNat_shiftLeft, BitVec.toNat_ushiftRight, Nat.shiftLeft_eq, Nat.shiftRight_eq_div_pow]
  have := v.isLt
  omega

theorem setPc_pc_toNat (s : State) (addr : Word) :
    (s.setPc addr).pc.toNat = (addr.toNat % 2 ^ xlenBits s.xlen) / 2 * 2 := by
  rw [State.setPc, toNat_and_not_one, norm_toNat]

/-! ### The verdict (R855) -/

theorem read32Direct_of_inDram {s : State} {pa : Nat} (ha : pa % 4 = 0) (hd : s.inDram pa 4 = true) :
    s.read32Direct pa = some (BitVec.ofNat 32 (s.leNat pa 4)) := by
  rw [State.read32Direct, if_pos (by simp [ha, hd]), ← readLE_toNat s (by omega), BitVec.ofNat_toNat]

theorem inDram_of_read32Direct {s : State} {pa : Nat} {v : BitVec 32} (h : s.read32Direct pa = some v) :
    pa % 4 = 0 ∧ s.inDram pa 4 = true := by
  unfold State.read32Direct at h
  split at h
  · rename_i hc
    simpa using hc
  · cases h

/-- A word of DRAM is the number of its four bytes. -/
theorem ofNat_leNat_eq_iff (s : State) (pa : Nat) (v : BitVec 32) :
    BitVec.ofNat 32 (s.leNat pa 4) = v ↔ s.leNat pa 4 = v.toNat := by
  rw [← BitVec.toNat_inj, BitVec.toNat_ofNat, Nat.mod_eq_of_lt (show _ < 2 ^ 32 from leNat_lt s pa 4)]

/-- In test mode the verdict is read off the word at tohost. -/
theorem verdict_next_of_tohost {s : State} {a : Word} (ht : s.tohost = some a) (ha : a.toNat % 4 = 0)
    (hd : s.inDram a.toNat 4 = true) :
    verdict (.next s) = if s.leNat a.toNat 4 = 0 then .running else if s.leNat a.toNat 4 = 1 then .passed
      else .failed (BitVec.ofNat 32 (s.leNat a.toNat 4)) := by
  simp only [verdict, ht, read32Direct_of_inDram ha hd]
  have h0 : BitVec.ofNat 32 (s.leNat a.toNat 4) = 0 ↔ s.leNat a.toNat 4 = 0 := ofNat_leNat_eq_iff s _ 0
  have h1 : BitVec.ofNat 32 (s.leNat a.toNat 4) = 1 ↔ s.leNat a.toNat 4 = 1 := ofNat_leNat_eq_iff s _ 1
  simp only [h0, h1]

theorem verdict_next_eq_passed_iff {s : State} {a : Word} (ht : s.tohost = some a) (ha : a.toNat % 4 = 0)
    (hd : s.inDram a.toNat 4 = true) : verdict (.next s) = .passed ↔ s.leNat a.toNat 4 = 1 := by
  rw [verdict_next_of_tohost ht ha hd]
  by_cases h0 : s.leNat a.toNat 4 = 0
  · rw [if_pos h0, h0]
    exact iff_of_false nofun (by decide)
  · by_cases h1 : s.leNat a.toNat 4 = 1
    · rw [if_neg h0, if_pos h1]
      exact iff_of_true rfl h1
    · rw [if_neg h0, if_neg h1]
      exact iff_of_false nofun h1

theorem verdict_next_eq_running_iff {s : State} {a : Word} (ht : s.tohost = some a) (ha : a.toNat % 4 = 0)
    (hd : s.inDram a.toNat 4 = true) : verdict (.next s) = .running ↔ s.leNat a.toNat 4 = 0 := by
  rw [verdict_next_of_tohost ht ha hd]
  by_cases h0 : s.leNat a.toNat 4 = 0
  · rw [if_pos h0]
    exact iff_of_true rfl h0
  · rw [if_neg h0]
    refine iff_of_false ?_ h0
    split <;> nofun

theorem verdict_next_of_one_lt {s : State} {a : Word} (ht : s.tohost = some a) (ha : a.toNat % 4 = 0)
    (hd : s.inDram a.toNat 4 = true) (h : 1 < s.leNat a.toNat 4) :
    verdict (.next s) = .failed (BitVec.ofNat 32 (s.leNat a.toNat 4)) := by
  rw [verdict_next_of_tohost ht ha hd, if_neg (Nat.ne_of_gt (Nat.zero_lt_of_lt h)), if_neg (Nat.ne_of_gt h)]

/-- Only a step to a state whose tohost word is 1 ends a run with success. -/
theorem verdict_eq_passed {o : Host.Outcome State Fault Refusal} (h : verdict o = .passed) :
    ∃ t p, o = .next t ∧ t.tohost = some p ∧ t.leNat p.toNat 4 = 1 := by
  cases o with
  | fault f => cases h
  | refused q => cases h
  | next t =>
    cases ht : t.tohost with
    | none => simp [verdict, ht] at h
    | some p =>
      refine ⟨t, p, rfl, ht, ?_⟩
      cases hv : t.read32Direct p.toNat with
      | none => simp [verdict, ht, hv] at h
      | some v =>
        obtain ⟨ha, hd⟩ := inDram_of_read32Direct hv
        exact (verdict_next_eq_passed_iff ht ha hd).mp h

/-! ### The run (R855) -/

theorem run_one (s : State) : s.run 1 = (verdict (step s), s.settle (step s)) := by
  by_cases h : verdict (step s) = .running
  · rw [State.run_succ_of_running h, State.run_zero, h]
  · exact State.run_succ_of_stop h 0

/-- A run goes on from where a shorter one was still running. -/
theorem run_add (s : State) (m n : Nat) :
    s.run (m + n) = if (s.run m).1 = .running then (s.run m).2.run n else s.run m := by
  induction m generalizing s with
  | zero => simp
  | succ m ih =>
    rw [Nat.add_right_comm]
    by_cases h : verdict (step s) = .running
    · rw [State.run_succ_of_running h, State.run_succ_of_running h, ih]
    · rw [State.run_succ_of_stop h, State.run_succ_of_stop h, if_neg h]

theorem run_eq_passed {s : State} {n : Nat} (h : (s.run n).1 = .passed) :
    ∃ p, (s.run n).2.tohost = some p ∧ (s.run n).2.leNat p.toNat 4 = 1 := by
  induction n generalizing s with
  | zero => cases h
  | succ n ih =>
    by_cases hv : verdict (step s) = .running
    · rw [State.run_succ_of_running hv] at h ⊢
      exact ih h
    · rw [State.run_succ_of_stop hv] at h ⊢
      obtain ⟨t, p, hs, hp, h1⟩ := verdict_eq_passed h
      rw [hs]
      exact ⟨p, hp, h1⟩

theorem run_succ_of_fault {s : State} {f : Fault} (h : step s = .fault f) (n : Nat) :
    s.run (n + 1) = (.fatal f, s.settle (.fault f)) := by
  rw [State.run_succ_of_stop (by rw [h]; nofun), h]
  rfl

theorem run_succ_of_refused {s : State} {q : Refusal} (h : step s = .refused q) (n : Nat) :
    s.run (n + 1) = (.refused q, s.settle (.refused q)) := by
  rw [State.run_succ_of_stop (by rw [h]; nofun), h]
  rfl

/-! ### O60 -/

/-- Settles O60: loading by induction over the sections, the run by induction over its bound; a final outcome stays because
what a refused step leaves has no fatal mark. -/
theorem driverOperations : Obligations.DriverOperations := by
  unfold Obligations.DriverOperations
  refine fun s elf entry a bs m n =>
    -- load_program (R852, R857)
    ⟨fun h => loadProgram_of_fit h, fun t hd ht => ⟨?payload, ?frame⟩, fun h => loadProgram_of_misfit h,
    -- set_dram_data, set_disk_data, set_pc (R853)
    rfl, rfl, rfl, setPc_pc_toNat s entry,
    -- reset (R850): each field as `driverReset` writes it
    rfl, rfl, rfl, rfl, rfl, rfl, rfl,
    -- run (R855)
    fun ht ha hin => ⟨verdict_next_eq_passed_iff ht ha hin, verdict_next_eq_running_iff ht ha hin,
      verdict_next_of_one_lt ht ha hin⟩, State.run_zero s, run_one s, run_add s m n, run_eq_passed,
    -- final outcomes (R700, R807)
    fun f hs => ⟨run_succ_of_fault hs n, step_settle_fault s f⟩,
    fun q hs => ⟨run_succ_of_refused hs n, step_settle_refused hs⟩, fun u f w hf hr hh hw => ?tick⟩
  case payload =>
    intro before c after hcs k hk hafter
    rw [State.byteAt, loadProgram_dram ht, hcs]
    exact Memory.read_copySections_in before after hd.1 hk hafter
  case frame =>
    intro b hb
    rw [State.byteAt, loadProgram_dram ht]
    exact Memory.read_copySections_out _ _ hb
  case tick =>
    obtain ⟨hs, hleft⟩ := settle_of_tick_error hf hr hh hw
    exact ⟨hs, hleft, by rw [hleft]; rfl⟩

end Sys2Proof.Machine

/-! ## The fence and the MMU (20_memory.md R240 to R266) -/

namespace Sys2Proof.Machine

open Sys2Proof

/-! ### SFENCE.VMA (R266, R616) -/

theorem asidOf_rv32 (v : Word) : asidOf .rv32 v = v.toNat % 2 ^ 9 := by simp [asidOf]

theorem asidOf_rv64 (v : Word) : asidOf .rv64 v = v.toNat % 2 ^ 16 := by simp [asidOf]

/-- An SFENCE.VMA that retires has done its fence. -/
theorem execSfenceVma_of_retired {s t : State} {rs1 rs2 : Reg} (h : exec (.sfenceVma rs1 rs2) s = .next t)
    (hi : t.minstret = s.minstret + 1) : t = (s.sfence rs1 rs2).retire (.sfenceVma rs1 rs2) := by
  rw [exec, execSfenceVma, supervisorGate] at h
  split at h
  · cases h
    rw [trapStep_minstret] at hi
    exact absurd hi (by simp)
  · cases h
    rfl

theorem sfenceRemoves_iff {x : Xlen} {r1 r2 : Reg} {v1 v2 : Word} {e : TlbEntry} :
    sfenceRemoves x r1 v1 r2 v2 e = true ↔
      (v1 = 0 ∧ v2 = 0)
      ∨ (r1 = 0#5 ∧ (r2 = 0#5 ∨ (e.asid = asidOf x v2 ∧ e.flags.g = false)))
      ∨ (r1 ≠ 0#5 ∧ e.covers x v1 = true ∧ (r2 = 0#5 ∨ e.asid = asidOf x v2 ∨ e.flags.g = true)) := by
  by_cases h1 : r1 = 0#5 <;> by_cases h2 : r2 = 0#5 <;> simp [sfenceRemoves, h1, h2]

theorem mem_sfence_tlb {s : State} {rs1 rs2 : Reg} {e : TlbEntry} (h : e ∈ (s.sfence rs1 rs2).tlb) :
    ¬ sfenceRemoves s.xlen rs1 (s.readX rs1) rs2 (s.readX rs2) e = true := by
  simpa using (List.mem_filter.mp h).2

/-- Settles O41: an entry in the TLB after the fence is one that the fence does not remove. -/
theorem sfenceRemovesStaleEntries : Obligations.SfenceRemovesStaleEntries := by
  unfold Obligations.SfenceRemovesStaleEntries
  intro s t rs1 rs2 h hi v1 v2 asid
  have hasid : asidOf s.xlen v2 = asid := by
    cases hx : s.xlen with
    | rv32 => simp only [asid, hx, asidOf_rv32]
    | rv64 => simp only [asid, hx, asidOf_rv64]
  have kept : ∀ e ∈ t.tlb, ¬ sfenceRemoves s.xlen rs1 v1 rs2 v2 e = true := by
    rw [execSfenceVma_of_retired h hi]
    exact fun e he => mem_sfence_tlb he
  simp only [sfenceRemoves_iff, hasid] at kept
  refine ⟨fun h1 h2 => ?bothValues, fun h1 h2 => ?bothRegs, fun h1 h2 e he => ?asid, fun h1 h2 e he => ?address,
    fun h1 h2 e he hc => ?addressAsid⟩
  case bothValues => exact List.eq_nil_iff_forall_not_mem.mpr fun e he => kept e he (.inl ⟨h1, h2⟩)
  case bothRegs => exact List.eq_nil_iff_forall_not_mem.mpr fun e he => kept e he (.inr (.inl ⟨h1, .inl h2⟩))
  case asid => exact fun hag => kept e he (.inr (.inl ⟨h1, .inr hag⟩))
  case address => exact Bool.eq_false_iff.mpr fun hc => kept e he (.inr (.inr ⟨h1, hc, .inl h2⟩))
  case addressAsid =>
    exact ⟨fun ha => kept e he (.inr (.inr ⟨h1, hc, .inr (.inl ha)⟩)),
      Bool.eq_false_iff.mpr fun hg => kept e he (.inr (.inr ⟨h1, hc, .inr (.inr hg)⟩))⟩

/-! ### When translation applies (R240, R255) -/

theorem effPriv_eq (s : State) (k : Access) :
    s.effPriv k = if k ≠ .fetch ∧ s.priv = .M ∧ s.mstatus.mprv = true then s.mstatus.mpp else s.priv := by
  cases k <;> simp [State.effPriv]

/-- MODE is the top bit of satp where XLEN = 32 and its top four bits where XLEN = 64 (R86). -/
theorem satpOn_rv32 (v : Word) : satpOn .rv32 v = true ↔ v.toNat / 2 ^ 31 % 2 ≠ 0 := by
  simp only [satpOn, BitVec.getLsbD, Nat.testBit_eq_decide_div_mod_eq, decide_eq_true_eq]
  omega

theorem satpOn_rv64 (v : Word) : satpOn .rv64 v = true ↔ v.toNat / 2 ^ 60 ≠ 0 := by
  have hv := v.isLt
  simp only [satpOn, decide_eq_true_eq, ne_eq, ← BitVec.toNat_inj, BitVec.extractLsb_toNat, Nat.shiftRight_eq_div_pow,
    BitVec.ofNat_eq_ofNat, BitVec.toNat_ofNat]
  omega

theorem translating_iff (s : State) (k : Access) :
    s.translating k = true ↔ s.effPriv k ≠ .M ∧ satpOn s.xlen s.csr.satp = true := by
  simp [State.translating]

/-- Settles O45: each of the three cases makes `translating` false. -/
theorem translationOffIsIdentity : Obligations.TranslationOffIsIdentity := by
  unfold Obligations.TranslationOffIsIdentity
  intro s k va
  have off : ∀ k, s.effPriv k = .M → s.translate k va = .ok va.toNat s := fun k hp =>
    translate_off (by simp [State.translating, hp]) va
  rw [translating_iff]
  refine ⟨effPriv_eq s k, ?_, fun h => translate_off h va, fun h => translate_off ?_ va, off k, off .fetch⟩
  · cases hx : s.xlen with
    | rv32 => rw [satpOn_rv32]
    | rv64 => rw [satpOn_rv64]
  · rw [← Bool.not_eq_true, translating_iff]
    rintro ⟨-, hon⟩
    cases hx : s.xlen with
    | rv32 =>
      rw [hx] at h hon
      exact (satpOn_rv32 _).mp hon h
    | rv64 =>
      rw [hx] at h hon
      exact (satpOn_rv64 _).mp hon h

/-! ### The walk (R244, R254) -/

section Walk

variable {s : State} {k : Access}

theorem readPte_outside {a : Nat} (h : s.inDram a (pteSize s.xlen) = false) : s.readPte k a = .error k.accessFault := by
  simp [State.readPte, h]

theorem readPte_invalid {a : Nat} (h : s.inDram a (pteSize s.xlen) = true)
    (hv : pteValid (Memory.readLE s.dram a (pteSize s.xlen)) = false) : s.readPte k a = .error k.pageFault := by
  simp [State.readPte, h, hv]

theorem readPte_valid {a : Nat} (h : s.inDram a (pteSize s.xlen) = true)
    (hv : pteValid (Memory.readLE s.dram a (pteSize s.xlen)) = true) :
    s.readPte k a = .ok (Memory.readLE s.dram a (pteSize s.xlen)) := by
  simp [State.readPte, h, hv]

theorem readPte_ok_valid {a : Nat} {p : Word} (h : s.readPte k a = .ok p) : pteValid p = true := by
  unfold State.readPte at h
  split at h
  · split at h
    · cases h; assumption
    · cases h
  · cases h

theorem readPte_error_of_kind {a : Nat} {e : Exc} (h : s.readPte k a = .error e) : e = k.pageFault ∨ e = k.accessFault := by
  unfold State.readPte at h
  split at h
  · split at h
    · cases h
    · cases h; exact .inl rfl
  · cases h; exact .inr rfl

/-- One PTE of the walk: an error, a leaf or a pointer. -/
theorem walk_eq (s : State) (k : Access) (va : Word) (i a : Nat) :
    s.walk k va i a =
      match s.readPte k (a + vpn s.xlen va i * pteSize s.xlen) with
      | .error e => .error e
      | .ok p =>
        if pteLeaf p then .ok { addr := a + vpn s.xlen va i * pteSize s.xlen, pte := p, level := i }
        else if i = 0 then .error k.pageFault else s.walk k va (i - 1) (ptePpn s.xlen p * 4096) := by
  cases i <;> rfl

theorem walk_of_readPte_error {va : Word} {i a : Nat} {e : Exc}
    (h : s.readPte k (a + vpn s.xlen va i * pteSize s.xlen) = .error e) : s.walk k va i a = .error e := by
  rw [walk_eq, h]

theorem walk_of_leaf {va : Word} {i a : Nat} {p : Word}
    (h : s.readPte k (a + vpn s.xlen va i * pteSize s.xlen) = .ok p) (hl : pteLeaf p = true) :
    s.walk k va i a = .ok { addr := a + vpn s.xlen va i * pteSize s.xlen, pte := p, level := i } := by
  rw [walk_eq, h]
  exact if_pos hl

theorem walk_of_pointer {va : Word} {i a : Nat} {p : Word}
    (h : s.readPte k (a + vpn s.xlen va i * pteSize s.xlen) = .ok p) (hl : pteLeaf p = false) :
    s.walk k va i a = if i = 0 then .error k.pageFault else s.walk k va (i - 1) (ptePpn s.xlen p * 4096) := by
  rw [walk_eq, h]
  exact if_neg (by simp [hl])

/-- The PTE that a walk ends at is valid and a leaf. -/
theorem walk_leaf_valid {va : Word} {i a : Nat} {l : Leaf} (h : s.walk k va i a = .ok l) :
    pteValid l.pte = true ∧ pteLeaf l.pte = true := by
  induction i generalizing a with
  | zero =>
    rw [walk_eq] at h
    split at h
    · cases h
    · split at h
      · cases h
        exact ⟨readPte_ok_valid ‹_›, ‹_›⟩
      · cases h
  | succ i ih =>
    rw [walk_eq] at h
    split at h
    · cases h
    · split at h
      · cases h
        exact ⟨readPte_ok_valid ‹_›, ‹_›⟩
      · exact ih h

/-- A walk raises the page fault or the access fault of its kind (R230). -/
theorem walk_error_of_kind {va : Word} {i a : Nat} {e : Exc} (h : s.walk k va i a = .error e) :
    e = k.pageFault ∨ e = k.accessFault := by
  induction i generalizing a with
  | zero =>
    rw [walk_eq] at h
    split at h
    · cases h
      exact readPte_error_of_kind ‹_›
    · split at h
      · cases h
      · cases h
        exact .inl rfl
  | succ i ih =>
    rw [walk_eq] at h
    split at h
    · cases h
      exact readPte_error_of_kind ‹_›
    · split at h
      · cases h
      · exact ih h

/-- The walk reads DRAM, and nothing that a change of the TLB changes. -/
theorem walk_of_eq {u : State} (hx : u.xlen = s.xlen) (hd : u.dram = s.dram) (hz : u.dramSize = s.dramSize) (va : Word)
    (i a : Nat) : u.walk k va i a = s.walk k va i a := by
  have hr : ∀ a, u.readPte k a = s.readPte k a := fun a => by
    unfold State.readPte State.inDram
    rw [hx, hd, hz]
  induction i generalizing a with
  | zero =>
    rw [walk_eq, walk_eq, hr, hx]
    rfl
  | succ i ih =>
    rw [walk_eq, walk_eq, hr, hx]
    simp only [Nat.add_sub_cancel, ih]

/-! ### The leaf (R250, R251, R253) -/

theorem findLeaf_of_walk_error {va : Word} {e : Exc}
    (h : s.walk k va (rootLevel s.xlen) (satpPpn s.xlen s.csr.satp * 4096) = .error e) : s.findLeaf k va = .error e := by
  unfold State.findLeaf Config.pageSize
  rw [h]

theorem findLeaf_of_walk_ok {va : Word} {l : Leaf}
    (h : s.walk k va (rootLevel s.xlen) (satpPpn s.xlen s.csr.satp * 4096) = .ok l) :
    s.findLeaf k va = if permitted s.mstatus k (s.effPriv k) (pteFlags l.pte)
        && superpageAligned s.xlen (ptePpn s.xlen l.pte) l.level then .ok l else .error k.pageFault := by
  unfold State.findLeaf Config.pageSize
  rw [h]

theorem findLeaf_of_rejected {va : Word} {l : Leaf}
    (h : s.walk k va (rootLevel s.xlen) (satpPpn s.xlen s.csr.satp * 4096) = .ok l)
    (hr : (permitted s.mstatus k (s.effPriv k) (pteFlags l.pte)
      && superpageAligned s.xlen (ptePpn s.xlen l.pte) l.level) = false) : s.findLeaf k va = .error k.pageFault := by
  rw [findLeaf_of_walk_ok h, hr]
  rfl

theorem findLeaf_of_accepted {va : Word} {l : Leaf}
    (h : s.walk k va (rootLevel s.xlen) (satpPpn s.xlen s.csr.satp * 4096) = .ok l)
    (hp : permitted s.mstatus k (s.effPriv k) (pteFlags l.pte) = true)
    (ha : superpageAligned s.xlen (ptePpn s.xlen l.pte) l.level = true) : s.findLeaf k va = .ok l := by
  rw [findLeaf_of_walk_ok h, hp, ha]
  rfl

theorem findLeaf_ok_permitted {va : Word} {l : Leaf} (h : s.findLeaf k va = .ok l) :
    s.walk k va (rootLevel s.xlen) (satpPpn s.xlen s.csr.satp * 4096) = .ok l
      ∧ permitted s.mstatus k (s.effPriv k) (pteFlags l.pte) = true := by
  cases hw : s.walk k va (rootLevel s.xlen) (satpPpn s.xlen s.csr.satp * 4096) with
  | error e => rw [findLeaf_of_walk_error hw] at h; cases h
  | ok m =>
    rw [findLeaf_of_walk_ok hw] at h
    split at h
    · rename_i hp
      cases h
      exact ⟨rfl, ((Bool.and_eq_true _ _).mp hp).1⟩
    · cases h

theorem findLeaf_error_of_kind {va : Word} {e : Exc} (h : s.findLeaf k va = .error e) :
    e = k.pageFault ∨ e = k.accessFault := by
  cases hw : s.walk k va (rootLevel s.xlen) (satpPpn s.xlen s.csr.satp * 4096) with
  | error e' =>
    rw [findLeaf_of_walk_error hw] at h
    cases h
    exact walk_error_of_kind hw
  | ok m =>
    rw [findLeaf_of_walk_ok hw] at h
    split at h
    · cases h
    · cases h
      exact .inl rfl

end Walk

/-- What a permission check that passes says of the flags (R250). -/
theorem admits_of_permitted {m : Mstatus} {k : Access} {p : Priv} {f : PteFlags} (h : permitted m k p f = true) :
    (k = .fetch → f.x = true)
      ∧ (k = .load ∨ k = .amo → f.r = true ∨ (f.x = true ∧ m.mxr = true))
      ∧ (k = .store ∨ k = .amo → f.w = true)
      ∧ (p = .U → f.u = true)
      ∧ (p = .S → f.u = true → k ≠ .fetch ∧ m.sum = true) := by
  obtain ⟨hk, hp⟩ := (Bool.and_eq_true _ _).mp h
  have byMode : (p = .U → f.u = true) ∧ (p = .S → f.u = true → k ≠ .fetch ∧ m.sum = true) := by
    refine ⟨fun e => by simpa [e] using hp, fun e hu => by simpa [e, hu] using hp⟩
  cases k with
  | fetch => exact ⟨fun _ => hk, by simp, by simp, byMode⟩
  | load => exact ⟨by simp, fun _ => by simpa using hk, by simp, byMode⟩
  | store => exact ⟨by simp, by simp, fun _ => hk, byMode⟩
  | amo =>
    obtain ⟨hr, hw⟩ := (Bool.and_eq_true _ _).mp hk
    exact ⟨by simp, fun _ => by simpa using hr, fun _ => hw, byMode⟩

/-- Below bit 12 the address is that of the access, between there and the page of the leaf's level too, and above it the
PPN's (R253). -/
theorem leafAddress_testBit (x : Xlen) (va : Word) (ppn level j : Nat) :
    (leafAddress x va ppn level).testBit j =
      if j < 12 then va.getLsbD j else if j < 12 + level * vpnBits x then va.getLsbD j else ppn.testBit (j - 12) := by
  have page : 4096 = 2 ^ 12 := by decide
  have low : va.toNat % 2 ^ 12 < 2 ^ 12 := Nat.mod_lt _ (Nat.two_pow_pos _)
  have span : va.toNat / 2 ^ 12 % 2 ^ (vpnBits x * level) < 2 ^ (vpnBits x * level) := Nat.mod_lt _ (Nat.two_pow_pos _)
  have e : leafAddress x va ppn level = 4096 * (2 ^ (vpnBits x * level) * (ppn / 2 ^ (vpnBits x * level))
      + va.toNat / 4096 % 2 ^ (vpnBits x * level)) + va.toNat % 4096 := by
    simp only [leafAddress, Config.pageSize, Nat.mul_comm]
  rw [page] at e
  rw [e, Nat.testBit_two_pow_mul_add _ low, Nat.testBit_two_pow_mul_add _ span, Nat.mul_comm level]
  by_cases h12 : j < 12
  · rw [if_pos h12, if_pos h12, Nat.testBit_mod_two_pow, decide_eq_true h12, Bool.true_and, BitVec.testBit_toNat]
  rw [if_neg h12, if_neg h12]
  by_cases hs : j - 12 < vpnBits x * level
  · rw [if_pos hs, if_pos (by omega), Nat.testBit_mod_two_pow, decide_eq_true hs, Bool.true_and, Nat.testBit_div_two_pow,
      Nat.sub_add_cancel (Nat.le_of_not_lt h12), BitVec.testBit_toNat]
  · rw [if_neg hs, if_neg (by omega), Nat.testBit_div_two_pow, Nat.sub_add_cancel (Nat.le_of_not_lt hs)]

/-! ### The write-back (R252) -/

theorem pteUpdate_eq (k : Access) (pte : Word) :
    pteUpdate k pte = pte ||| 0x40#64 ||| (if k = .store ∨ k = .amo then 0x80#64 else 0#64) := by
  cases k <;> rfl

theorem writeBack_eq (s : State) (k : Access) (l : Leaf) : s.writeBack k l = { s with dram := (s.writeBack k l).dram } := by
  unfold State.writeBack
  split <;> rfl

theorem writeBack_byteAt (s : State) (k : Access) {l : Leaf} {b : Nat} (h : b < l.addr ∨ l.addr + pteSize s.xlen ≤ b) :
    (s.writeBack k l).byteAt b = s.byteAt b := by
  unfold State.writeBack
  split
  · rfl
  · exact Memory.read_writeLE_out _ _ h

/-! ### Translation by the walk and by an entry (R262, R263) -/

section Translate

variable {s : State} {k : Access} {va : Word}

theorem translateByWalk_of_error {e : Exc} (h : s.findLeaf k va = .error e) (fill : Bool) :
    s.translateByWalk k va fill = .trap e va s := by
  unfold State.translateByWalk
  rw [h]

theorem translateByWalk_of_ok {l : Leaf} (h : s.findLeaf k va = .ok l) (fill : Bool) :
    s.translateByWalk k va fill = .ok (leafAddress s.xlen va (ptePpn s.xlen l.pte) l.level)
      { s with dram := (s.writeBack k l).dram, tlb := if fill then s.entryOf k va l :: s.tlb else s.tlb } := by
  unfold State.translateByWalk
  rw [h]
  dsimp only
  rw [writeBack_eq s k l]
  cases fill <;> rfl

theorem translate_noncanonical (ht : s.translating k = true) (hc : canonical s.xlen va = false) :
    s.translate k va = .trap k.pageFault va s := by
  simp [State.translate, ht, hc]

theorem translate_canonical (ht : s.translating k = true) (hc : canonical s.xlen va = true) :
    s.translate k va = s.translateOn k va := by
  simp [State.translate, ht, hc]

theorem usable_iff {e : TlbEntry} : s.usable k va e = true ↔
    e.valid = true ∧ e.covers s.xlen va = true ∧ (e.flags.g = true ∨ e.asid = satpAsid s.xlen s.csr.satp)
      ∧ (k = .store ∨ k = .amo → e.flags.d = true) := by
  cases k <;> simp [State.usable, TlbEntry.hits, Access.writes, and_assoc]

end Translate

/-! ### A change of the TLB alone -/

/-- `u` is `s` but for the TLB and the choices drawn for it. -/
def TlbChanged (s u : State) : Prop := u = { s with tlb := u.tlb, tlbDraws := u.tlbDraws, tlbDrawn := u.tlbDrawn }

section TlbChanged

variable {s u : State} (h : TlbChanged s u)
include h

theorem TlbChanged.xlen : u.xlen = s.xlen := by rw [h]
theorem TlbChanged.dram : u.dram = s.dram := by rw [h]
theorem TlbChanged.dramSize : u.dramSize = s.dramSize := by rw [h]
theorem TlbChanged.mstatus : u.mstatus = s.mstatus := by rw [h]
theorem TlbChanged.csr : u.csr = s.csr := by rw [h]

theorem TlbChanged.effPriv (k : Access) : u.effPriv k = s.effPriv k := by
  rw [effPriv_eq, effPriv_eq, h]

theorem TlbChanged.findLeaf (k : Access) (va : Word) : u.findLeaf k va = s.findLeaf k va := by
  simp only [State.findLeaf, walk_of_eq h.xlen h.dram h.dramSize, h.xlen, h.csr, h.mstatus, h.effPriv]

theorem TlbChanged.writeBack_dram (k : Access) (l : Leaf) : (u.writeBack k l).dram = (s.writeBack k l).dram := by
  unfold State.writeBack
  rw [h.xlen, h.dram]
  split
  · exact h.dram
  · rfl

end TlbChanged

/-! ### A translation that succeeds -/

/-- The address comes from a TLB entry that may be used and admits the access. -/
def ByEntry (s t : State) (k : Access) (va : Word) (pa : Nat) : Prop :=
  ∃ e ∈ s.tlb, s.usable k va e = true ∧ permitted s.mstatus k (s.effPriv k) e.flags = true
    ∧ pa = leafAddress s.xlen va e.ppn e.level ∧ TlbChanged s t

/-- The address comes from the leaf that the walk finds, whose A and D bits are written back. -/
def ByLeaf (s t : State) (k : Access) (va : Word) (pa : Nat) : Prop :=
  ∃ l, s.findLeaf k va = .ok l ∧ pa = leafAddress s.xlen va (ptePpn s.xlen l.pte) l.level
    ∧ t = { s with tlb := t.tlb, tlbDraws := t.tlbDraws, tlbDrawn := t.tlbDrawn, dram := (s.writeBack k l).dram }

/-- What a translation at a canonical address can do (R244, R262): an entry or the walk gives the address, or a page or access
fault is raised. -/
theorem translateOn_result (s : State) (k : Access) (va : Word) :
    (∃ pa t, s.translateOn k va = .ok pa t ∧ (ByEntry s t k va pa ∨ ByLeaf s t k va pa))
      ∨ ∃ e t, s.translateOn k va = .trap e va t ∧ (e = k.pageFault ∨ e = k.accessFault) ∧ TlbChanged s t := by
  obtain ⟨u, fill, hu, hsub, hwalk | ⟨e, he, hentry, husable⟩⟩ := translateOn_cases s k va
  all_goals have hch : TlbChanged s u := hu
  · rw [hwalk]
    cases hl : u.findLeaf k va with
    | error e => exact .inr ⟨e, u, translateByWalk_of_error hl fill, findLeaf_error_of_kind hl, hch⟩
    | ok l =>
      refine .inl ⟨_, _, translateByWalk_of_ok hl fill, .inr ⟨l, (hch.findLeaf k va).symm.trans hl, by rw [hch.xlen], ?_⟩⟩
      rw [hch.writeBack_dram, hu]
  · rw [hentry, State.translateByEntry]
    split
    · rename_i hp
      refine .inl ⟨_, u, rfl, .inl ⟨e, hsub.subset he, ?_, by rwa [hch.mstatus, hch.effPriv] at hp, by rw [hch.xlen], hch⟩⟩
      rw [usable_iff, hch.xlen, hch.csr] at husable
      exact usable_iff.mpr husable
    · exact .inr ⟨_, u, rfl, .inl rfl, hch⟩

/-- Settles O46: the entry or the leaf of `translateOn_result` passed the permission check. -/
theorem translationIsPermitted : Obligations.TranslationIsPermitted := by
  unfold Obligations.TranslationIsPermitted
  intro s t k va pa ht h
  have hc : canonical s.xlen va = true := by
    rw [← Bool.not_eq_false]
    intro hc
    rw [translate_noncanonical ht hc] at h
    cases h
  refine ⟨hc, translate_offset h, ?_⟩
  rw [translate_canonical ht hc] at h
  obtain ⟨pa', t', hr, hby⟩ | ⟨e, t', hr, -⟩ := translateOn_result s k va
  · rw [hr] at h
    cases h
    obtain ⟨e, he, hus, hp, hpa, hch⟩ | ⟨l, hl, hpa, heq⟩ := hby
    · obtain ⟨hvalid, hcov, hasid, hd⟩ := usable_iff.mp hus
      exact .inl ⟨e, he, hvalid, hcov, hasid, hd, admits_of_permitted hp, hpa, hch.dram⟩
    · obtain ⟨hw, hp⟩ := findLeaf_ok_permitted hl
      obtain ⟨hin, hread⟩ := walk_leaf hw
      obtain ⟨hvalid, hleaf⟩ := walk_leaf_valid hw
      exact .inr ⟨l, hl, hread.symm, hin, hvalid, hleaf, admits_of_permitted hp, hpa, by rw [heq]⟩
  · rw [hr] at h
    cases h

/-- Settles O47: what `translateOn_result` leaves of the state. -/
theorem translationFrame : Obligations.TranslationFrame := by
  unfold Obligations.TranslationFrame
  intro s k va
  cases ht : s.translating k with
  | false => exact .inl ⟨_, s, translate_off ht va, rfl, id, fun _ _ => rfl⟩
  | true =>
    cases hc : canonical s.xlen va with
    | false => exact .inr ⟨_, s, translate_noncanonical ht hc, by cases k <;> exact .inl rfl, rfl⟩
    | true =>
      rw [translate_canonical ht hc]
      obtain ⟨pa, t, hr, hby⟩ | ⟨e, t, hr, hf, hch⟩ := translateOn_result s k va
      · refine .inl ⟨pa, t, hr, ?_⟩
        obtain ⟨e, -, -, -, -, hch⟩ | ⟨l, hl, -, heq⟩ := hby
        · refine ⟨?_, dramOk_of_eq hch.dram hch.dramSize, fun b _ => congrArg (Memory.read · b) hch.dram⟩
          rw [hch]
        · refine ⟨?_, ?_, fun b hb => ?_⟩
          · rw [heq]
          · intro hd
            exact dramOk_of_eq (by rw [heq]) (by rw [heq, writeBack_eq]) ((writeBack_translated k (findLeaf_inDram hl)).dram hd)
          · have hm : t.dram = (s.writeBack k l).dram := by rw [heq]
            exact (congrArg (Memory.read · b) hm).trans (writeBack_byteAt s k (hb l hl))
      · exact .inr ⟨e, t, hr, by cases k <;> exact hf, hch⟩

/-- Settles O48: the walk by its equation at one level, the leaf by `findLeaf`, the TLB by `translateOn_cases`. -/
theorem walkRules : Obligations.WalkRules := by
  unfold Obligations.WalkRules
  intro s k va fill root pte filled
  have raises : ∀ {e}, s.findLeaf k va = .error e → s.translateByWalk k va fill = .trap e va s :=
    fun h => translateByWalk_of_error h fill
  refine ⟨translate_noncanonical,
    fun ho => raises (findLeaf_of_walk_error (walk_of_readPte_error (readPte_outside ho))),
    fun hi hv => raises (findLeaf_of_walk_error (walk_of_readPte_error (readPte_invalid hi hv))),
    fun level table => ⟨fun ho => walk_of_readPte_error (readPte_outside ho),
      fun hi hv => walk_of_readPte_error (readPte_invalid hi hv),
      fun hi hv hl => walk_of_leaf (readPte_valid hi hv) hl,
      fun hi hv hl => walk_of_pointer (readPte_valid hi hv) hl⟩,
    fun e he => raises (findLeaf_of_walk_error he),
    fun leaf hl => ⟨fun hp => raises (findLeaf_of_rejected hl (by rw [hp, Bool.false_and])),
      fun ha => raises (findLeaf_of_rejected hl (by rw [ha, Bool.and_false])),
      fun hd hp ha => ?found, fun j hj => ?offsetInPage, fun j hj => ?ppnBits, fun j hj => ?pageOffset⟩,
    fun e => rfl, fun ht hc => ?tlb⟩
  case found =>
    have hw := translateByWalk_of_ok (findLeaf_of_accepted hl hp ha) fill
    have hfilled : s.entryOf k va leaf = filled leaf := by
      rw [State.entryOf, pteFlags_update]
      rfl
    refine ⟨_, hw, ?_, ?_, fun b hb => writeBack_byteAt s k hb⟩
    · rw [hfilled]
    · rw [← pteUpdate_eq]
      exact readLE_writeBack k hd (walk_leaf hl).2
  case offsetInPage => rw [leafAddress_testBit, if_neg (by omega), if_pos (by omega)]
  case ppnBits => rw [leafAddress_testBit, if_neg (by omega), if_neg (by omega), Nat.add_sub_cancel_left]
  case pageOffset => rw [leafAddress_testBit, if_pos hj]
  case tlb =>
    rw [translate_canonical ht hc]
    obtain ⟨u, refill, hu, hsub, hby⟩ := translateOn_cases s k va
    refine ⟨u, refill, hu, hsub, hby.imp_right ?_⟩
    rintro ⟨e, he, hentry, husable⟩
    have hch : TlbChanged s u := hu
    obtain ⟨hvalid, hcov, hasid, hdirty⟩ := usable_iff.mp husable
    rw [hch.xlen] at hcov
    rw [hch.xlen, hch.csr] at hasid
    exact ⟨e, he, hentry, hvalid, of_decide_eq_true hcov, hasid, hdirty⟩

end Sys2Proof.Machine

/-! ## Loads and stores piece by piece (20_memory.md R202 to R237) -/

namespace Sys2Proof.Machine

open Sys2Proof

/-! ### The address of an access and of its bytes (R232, R480) -/

theorem ofNat_address (s : State) (rs1 : Reg) (imm : BitVec 12) : BitVec.ofNat 64 (s.address rs1 imm) = s.ea rs1 imm := by
  rw [← ea_toNat, BitVec.ofNat_toNat, BitVec.setWidth_eq]

/-- The first byte of an access is at its address. -/
theorem byteAddress_zero {s : State} {a : Nat} (h : a < 2 ^ xlenBits s.xlen) : s.byteAddress a 0 = a :=
  Nat.mod_eq_of_lt h

theorem ofNat_byteAddress_zero (s : State) (rs1 : Reg) (imm : BitVec 12) :
    BitVec.ofNat 64 (s.byteAddress (s.address rs1 imm) 0) = s.ea rs1 imm := by
  rw [byteAddress_zero (address_lt s rs1 imm), ofNat_address]

/-- 2^XLEN is a whole number of pages, so the page offset is that of the sum. -/
theorem byteAddress_mod_page (s : State) (a k : Nat) : s.byteAddress a k % 4096 = (a + k) % 4096 := by
  unfold State.byteAddress
  cases s.xlen <;> simp only [xlenBits] <;> omega

theorem bytePieces_congr {f g : Nat → Nat} {c : Nat} (h : ∀ k, k < c → f k = g k) : bytePieces f 0 c = bytePieces g 0 c :=
  List.map_congr_left fun k hk => by rw [h k (by simpa using (List.mem_range'_1.mp hk).2)]

/-! ### What an operation that succeeds has changed -/

theorem translate_translated {s u : State} {k : Access} {va : Word} {pa : Nat} (h : s.translate k va = .ok pa u) :
    Translated s u := by
  have hr := translate_reaches s k va
  rw [h] at hr
  exact hr

theorem checkAccess_translated {s u : State} {k : Access} {va : Word} {n : Nat} {ps : List Piece}
    (h : s.checkAccess k va n = .ok ps u) : Translated s u := by
  have hr := checkAccess_reaches s k va n
  rw [h] at hr
  exact hr

theorem readPieces_accessed {u t : State} {ps : List Piece} {w : Word} (h : u.readPieces ps = .ok w t) : Accessed u t := by
  have hr := readPieces_reaches u ps
  rw [h] at hr
  exact hr

/-! ### A load or store from its checked pieces (R233, R236, R237) -/

section Load

variable {s u : State} {rd rs1 : Reg} {imm : BitVec 12} {i : Instr} {n : Nat} {put : State → Nat → State}
  (h : LoadForm s rd rs1 imm i n put)
include h

theorem load_of_trap {e : Exc} {v : Word} (hc : s.checkAccess .load (s.ea rs1 imm) n = .trap e v u) :
    exec i s = .next (trapStep (.exception e) v u) := by
  obtain ⟨g, he, -⟩ := loadForm_exec h
  rw [he, State.memRead, hc]
  rfl

theorem load_of_read {ps : List Piece} {w : Word} {t : State} (hc : s.checkAccess .load (s.ea rs1 imm) n = .ok ps u)
    (hr : u.readPieces ps = .ok w t) (hw : w.toNat < 256 ^ n) : exec i s = .next ((put t w.toNat).retire i) := by
  obtain ⟨g, he, hg⟩ := loadForm_exec h
  have hx : t.xlen = s.xlen := (readPieces_accessed hr).xlen.trans (checkAccess_translated hc).accessed.xlen
  rw [he, State.memRead, hc, Res.bind_ok, hr, ← hg t w hx hw]
  rfl

theorem load_of_fatal {ps : List Piece} {f : Fault} (hc : s.checkAccess .load (s.ea rs1 imm) n = .ok ps u)
    (hr : u.readPieces ps = .fatal f) : exec i s = .fault f := by
  obtain ⟨g, he, -⟩ := loadForm_exec h
  rw [he, State.memRead, hc, Res.bind_ok, hr]
  rfl

end Load

section Store

variable {s u : State} {rs1 rs2 : Reg} {imm : BitVec 12} {i : Instr} {n : Nat} {v : Word}
  (h : StoreForm s rs1 rs2 imm i n v)
include h

theorem store_of_trap {e : Exc} {w : Word} (hc : s.checkAccess .store (s.ea rs1 imm) n = .trap e w u) :
    exec i s = .next (trapStep (.exception e) w u) := by
  rw [storeForm_exec h, State.memWrite, hc]
  rfl

theorem store_of_write {ps : List Piece} {t : State} (hc : s.checkAccess .store (s.ea rs1 imm) n = .ok ps u)
    (hr : u.writePieces ps v = .ok () t) : exec i s = .next (({ t with resv := none } : State).retire i) := by
  rw [storeForm_exec h, State.memWrite, hc, Res.bind_ok, hr]
  rfl

theorem store_of_fatal {ps : List Piece} {f : Fault} (hc : s.checkAccess .store (s.ea rs1 imm) n = .ok ps u)
    (hr : u.writePieces ps v = .fatal f) : exec i s = .fault f := by
  rw [storeForm_exec h, State.memWrite, hc, Res.bind_ok, hr]
  rfl

end Store

/-! ### The check without translation (R211, R233) -/

/-- The pieces of an access at `a` whose addresses are physical: one where it is aligned, else its bytes (R232). -/
def State.physPieces (s : State) (a n : Nat) : List Piece :=
  if a % n = 0 then [(a, n)] else bytePieces (s.byteAddress a) 0 n

theorem physPieces_aligned (s : State) {a n : Nat} (h : a % n = 0) : s.physPieces a n = [(a, n)] := if_pos h

theorem physPieces_misaligned (s : State) {a n : Nat} (h : a % n ≠ 0) :
    s.physPieces a n = bytePieces (s.byteAddress a) 0 n := if_neg h

section Off

variable {s : State} {k : Access} {rs1 : Reg} {imm : BitVec 12} {n : Nat} (ht : s.translating k = false)
  (hn : n = 1 ∨ n = 2 ∨ n = 4 ∨ n = 8)
include ht hn

theorem checkAccess_off_mapped {r : Region} (hr : r ≠ .unmapped) (hl : s.liesIn r (s.address rs1 imm) n) :
    s.checkAccess k (s.ea rs1 imm) n = .ok (s.physPieces (s.address rs1 imm) n) s := by
  rw [checkAccess_off ht, ea_toNat]
  exact if_pos ((piecesOk_liesIn s hn (address_lt s rs1 imm)).mpr ⟨r, hr, hl⟩)

theorem checkAccess_off_unmapped (hl : ∀ r, r ≠ .unmapped → ¬ s.liesIn r (s.address rs1 imm) n) :
    s.checkAccess k (s.ea rs1 imm) n = .trap k.accessFault (s.ea rs1 imm) s := by
  rw [checkAccess_off ht, ea_toNat]
  refine if_neg fun hok => ?_
  obtain ⟨r, hr, hin⟩ := (piecesOk_liesIn s hn (address_lt s rs1 imm)).mp hok
  exact hl r hr hin

end Off

/-! ### The check through translation (R232, R233) -/

section Aligned

variable {s u : State} {k : Access} {ea : Word} {n pa : Nat} (ha : ea.toNat % n = 0)
include ha

theorem checkAccess_aligned_trap {e : Exc} (ht : s.translate k ea = .trap e ea u) :
    s.checkAccess k ea n = .trap e ea u := by
  rw [checkAccess_aligned s k ha, ht, Res.bind_trap]

theorem checkAccess_aligned_mapped (ht : s.translate k ea = .ok pa u) {r : Region} (hr : r ≠ .unmapped)
    (hin : u.region pa = r ∧ u.region (pa + n - 1) = r) : s.checkAccess k ea n = .ok [(pa, n)] u := by
  rw [checkAccess_aligned s k ha, ht, Res.bind_ok]
  exact if_pos ((piecesOk_one u pa n).mpr ⟨by rwa [hin.1], hin.2.trans hin.1.symm⟩)

theorem checkAccess_aligned_split (ht : s.translate k ea = .ok pa u)
    (hout : u.region pa = .unmapped ∨ u.region pa ≠ u.region (pa + n - 1)) :
    s.checkAccess k ea n = .trap k.accessFault ea u := by
  rw [checkAccess_aligned s k ha, ht, Res.bind_ok]
  refine if_neg fun hok => ?_
  obtain ⟨h1, h2⟩ := (piecesOk_one u pa n).mp hok
  exact hout.elim h1 fun h => h h2.symm

end Aligned

section Misaligned

variable {s : State} {k : Access} {ea : Word} {n : Nat} {ss : Nat → State} {pas : Nat → Nat} (ha : ea.toNat % n ≠ 0)
  (h0 : ss 0 = s)
include ha h0

/-- The first byte whose translation raises (R233, R254, R722). -/
theorem checkAccess_bytes_trap {m : Nat} {e : Exc} {u : State} (hm : m < n)
    (ht : ∀ j, j < m → (ss j).translate k (BitVec.ofNat 64 (s.byteAddress ea.toNat j)) = .ok (pas j) (ss (j + 1)))
    (he : (ss m).translate k (BitVec.ofNat 64 (s.byteAddress ea.toNat m))
      = .trap e (BitVec.ofNat 64 (s.byteAddress ea.toNat m)) u) :
    s.checkAccess k ea n
      = .trap e (if e = k.accessFault then ea else BitVec.ofNat 64 (s.byteAddress ea.toNat m)) u := by
  have hp := translatePieces_trap k ea (fun j => BitVec.ofNat 64 (s.byteAddress ea.toNat j)) ss pas u e 0 n m
    (Nat.zero_le m) (by omega) (fun j _ hj => ht j hj) he
  rw [h0] at hp
  rw [checkAccess_misaligned s k ha, hp, Res.bind_trap]
  rfl

variable (ht : ∀ j, j < n → (ss j).translate k (BitVec.ofNat 64 (s.byteAddress ea.toNat j)) = .ok (pas j) (ss (j + 1)))
include ht

theorem checkAccess_bytes : s.checkAccess k ea n =
    if (ss n).piecesOk (bytePieces pas 0 n) then .ok (bytePieces pas 0 n) (ss n) else .trap k.accessFault ea (ss n) := by
  have hp := translatePieces_ok k ea (fun j => BitVec.ofNat 64 (s.byteAddress ea.toNat j)) ss pas 0 n
    (fun j _ hj => ht j (by omega))
  rw [h0, Nat.zero_add] at hp
  rw [checkAccess_misaligned s k ha, hp, Res.bind_ok]

theorem checkAccess_bytes_mapped (hn : 0 < n) {r : Region} (hr : r ≠ .unmapped)
    (hin : ∀ j, j < n → (ss n).region (pas j) = r) : s.checkAccess k ea n = .ok (bytePieces pas 0 n) (ss n) := by
  rw [checkAccess_bytes ha h0 ht]
  exact if_pos ((piecesOk_bytes (ss n) pas n hn).mpr ⟨r, hr, hin⟩)

theorem checkAccess_bytes_split (hn : 0 < n)
    (hout : ¬ ∃ r, r ≠ .unmapped ∧ ∀ j, j < n → (ss n).region (pas j) = r) :
    s.checkAccess k ea n = .trap k.accessFault ea (ss n) := by
  rw [checkAccess_bytes ha h0 ht]
  exact if_neg (mt (piecesOk_bytes (ss n) pas n hn).mp hout)

end Misaligned

/-- The bytes of an access, translated, are at distinct addresses: they differ in the page offset. -/
theorem byteTranslations_ne {s : State} {k : Access} {a n : Nat} {ss : Nat → State} {pas : Nat → Nat}
    (ht : ∀ j, j < n → (ss j).translate k (BitVec.ofNat 64 (s.byteAddress a j)) = .ok (pas j) (ss (j + 1)))
    (hn : n ≤ 8) {i j : Nat} (hij : i < j) (hj : j < n) : pas i ≠ pas j := by
  have offset : ∀ j, j < n → pas j % 4096 = (a + j) % 4096 := fun j hj => by
    have hlt : s.byteAddress a j < 2 ^ 64 :=
      Nat.lt_of_lt_of_le (Nat.mod_lt _ (Nat.two_pow_pos _)) (Nat.pow_le_pow_right (by decide) (by cases s.xlen <;> decide))
    rw [translate_offset (ht j hj), BitVec.toNat_ofNat, Nat.mod_eq_of_lt hlt, byteAddress_mod_page]
  have h1 := offset i (by omega)
  have h2 := offset j hj
  omega

/-! ### Pieces in one region (R212 to R215, R234) -/

section Pieces

variable {u : State}

/-- Bytes of DRAM are in its region from the first to the last. -/
theorem region_of_inDram {pa n : Nat} (hn : 0 < n) (h : u.inDram pa n = true) :
    u.region pa = .dram ∧ u.region (pa + n - 1) = .dram := by
  rw [inDram_iff] at h
  simp only [region_eq_dram]
  omega

theorem readPieces_dramOne {pa : Nat} (hr : u.region pa = .dram) (n : Nat) :
    u.readPieces [(pa, n)] = .ok (Memory.readLE u.dram pa n) u := by
  simp [State.readPieces, State.physRead, hr]

theorem writePieces_dramOne {pa : Nat} (hr : u.region pa = .dram) (n : Nat) (v : Word) :
    u.writePieces [(pa, n)] v = .ok () { u with dram := Memory.writeLE u.dram pa n v } := by
  simp [State.writePieces, State.physWrite, hr]

theorem readPieces_uartOne {off : Nat} (hr : u.region (0x10000000 + off) = .uart) (n : Nat) :
    u.readPieces [(0x10000000 + off, n)] = .ok (u.uartReads off n).1 (u.uartReads off n).2 := by
  simp [State.readPieces, State.physRead, hr, Config.uartBase]

theorem writePieces_uartOne {off : Nat} (hr : u.region (0x10000000 + off) = .uart) (n : Nat) (v : Word) :
    u.writePieces [(0x10000000 + off, n)] v = .ok () (u.uartWrites off n v) := by
  simp [State.writePieces, State.physWrite, hr, Config.uartBase]

/-- Byte accesses of a device of 32-bit registers are fatal (R212). -/
theorem readPieces_wordBytes {r : Region} {base n : Nat} {f : Nat → Nat} (hd : WordDevice r base) (hn : 0 < n)
    (hr : u.region (f 0) = r) : u.readPieces (bytePieces f 0 n) = .fatal .mmioWidth := by
  obtain ⟨m, rfl⟩ : ∃ m, n = m + 1 := ⟨n - 1, by omega⟩
  rw [bytePieces_succ]
  exact readPieces_narrow hd hr (by decide)

theorem writePieces_wordBytes {r : Region} {base n : Nat} {f : Nat → Nat} {v : Word} (hd : WordDevice r base) (hn : 0 < n)
    (hr : u.region (f 0) = r) : u.writePieces (bytePieces f 0 n) v = .fatal .mmioWidth := by
  obtain ⟨m, rfl⟩ : ∃ m, n = m + 1 := ⟨n - 1, by omega⟩
  rw [bytePieces_succ]
  exact writePieces_narrow hd hr (by decide)

end Pieces

/-! ### The aligned word and doubleword of a device (R213) -/

section WordLoad

variable {s u : State} {rd rs1 : Reg} {imm : BitVec 12} {i : Instr} {put : State → Nat → State} {r : Region} {base off : Nat}

theorem load_of_word (h : LoadForm s rd rs1 imm i 4 put) (hc : s.checkAccess .load (s.ea rs1 imm) 4 = .ok [(base + off, 4)] u)
    (hd : WordDevice r base) (hr : u.region (base + off) = r) :
    exec i s = .next ((put (u.deviceRead32 r off).2 (u.deviceRead32 r off).1.toNat).retire i) := by
  have hlt : (u.deviceRead32 r off).1.toNat < 2 ^ 32 := (u.deviceRead32 r off).1.isLt
  have hv : ((u.deviceRead32 r off).1.setWidth 64).toNat = (u.deviceRead32 r off).1.toNat := by
    rw [BitVec.toNat_setWidth]
    omega
  have hx := load_of_read h hc (readPieces_word4 hd hr)
  rw [hv] at hx
  exact hx hlt

theorem load_of_doubleword (h : LoadForm s rd rs1 imm i 8 put)
    (hc : s.checkAccess .load (s.ea rs1 imm) 8 = .ok [(base + off, 8)] u) (hd : WordDevice r base)
    (hr : u.region (base + off) = r) :
    exec i s = .next (let low := u.deviceRead32 r off; let high := low.2.deviceRead32 r (off + 4);
      (put high.2 (high.1 ++ low.1).toNat).retire i) :=
  load_of_read h hc (readPieces_word8 hd hr) (BitVec.isLt _)

end WordLoad

/-! ### Physical pieces on the devices -/

section PhysPieces

variable {s : State} {a n : Nat} (hn : 0 < n) (ha : a < 2 ^ xlenBits s.xlen)
include hn ha

theorem liesIn_first {r : Region} (hl : s.liesIn r a n) : s.region a = r := by
  have h0 := hl 0 hn
  rwa [byteAddress_zero ha] at h0

theorem readPieces_physNarrow {r : Region} {base : Nat} (hd : WordDevice r base) (hl : s.liesIn r a n)
    (hw : n < 4 ∨ a % n ≠ 0) : s.readPieces (s.physPieces a n) = .fatal .mmioWidth := by
  by_cases hal : a % n = 0
  · rw [physPieces_aligned s hal]
    exact readPieces_narrow hd (liesIn_first hn ha hl) (hw.resolve_right (not_not_intro hal))
  · rw [physPieces_misaligned s hal]
    exact readPieces_wordBytes hd hn (hl 0 hn)

theorem writePieces_physNarrow {r : Region} {base : Nat} {v : Word} (hd : WordDevice r base) (hl : s.liesIn r a n)
    (hw : n < 4 ∨ a % n ≠ 0) : s.writePieces (s.physPieces a n) v = .fatal .mmioWidth := by
  by_cases hal : a % n = 0
  · rw [physPieces_aligned s hal]
    exact writePieces_narrow hd (liesIn_first hn ha hl) (hw.resolve_right (not_not_intro hal))
  · rw [physPieces_misaligned s hal]
    exact writePieces_wordBytes hd hn (hl 0 hn)

/-- Addresses in the UART do not wrap. -/
theorem byteAddress_uart {off k : Nat} (hn8 : n ≤ 8) (hl : s.liesIn .uart a n) (ha' : a = 0x10000000 + off) (hk : k < n) :
    s.byteAddress a k = 0x10000000 + (off + k) := by
  have h0 := (region_iff s a (by decide)).mp (liesIn_first hn ha hl)
  simp only [Region.first, State.regionEnd] at h0
  rw [State.byteAddress, ha', Nat.add_assoc]
  refine Nat.mod_eq_of_lt (Nat.lt_of_lt_of_le (show _ < 2 ^ 32 by omega) (Nat.pow_le_pow_right (by decide) ?_))
  cases s.xlen <;> decide

theorem readPieces_physUart {off : Nat} (hn8 : n ≤ 8) (hl : s.liesIn .uart a n) (ha' : a = 0x10000000 + off) :
    s.readPieces (s.physPieces a n) = .ok (s.uartReads off n).1 (s.uartReads off n).2 := by
  by_cases hal : a % n = 0
  · rw [physPieces_aligned s hal, ha']
    exact readPieces_uartOne (ha' ▸ liesIn_first hn ha hl) n
  · have hb : ∀ k, k < n → s.byteAddress a k = 0x10000000 + (off + k) := fun k => byteAddress_uart hn ha hn8 hl ha'
    rw [physPieces_misaligned s hal, bytePieces_congr hb]
    exact readPieces_uart s off 0 n fun k _ hk => by
      rw [← hb k (by omega)]
      exact hl k (by omega)

theorem writePieces_physUart {off : Nat} {v : Word} (hn8 : n ≤ 8) (hl : s.liesIn .uart a n) (ha' : a = 0x10000000 + off) :
    s.writePieces (s.physPieces a n) v = .ok () (s.uartWrites off n v) := by
  by_cases hal : a % n = 0
  · rw [physPieces_aligned s hal, ha']
    exact writePieces_uartOne (ha' ▸ liesIn_first hn ha hl) n v
  · have hb : ∀ k, k < n → s.byteAddress a k = 0x10000000 + (off + k) := fun k => byteAddress_uart hn ha hn8 hl ha'
    rw [physPieces_misaligned s hal, bytePieces_congr hb]
    exact writePieces_uart s off 0 n v fun k _ hk => by
      rw [← hb k (by omega)]
      exact hl k (by omega)

end PhysPieces

/-! ### The access without translation -/

theorem loadForm_width_bounds {s : State} {rd rs1 : Reg} {imm : BitVec 12} {i : Instr} {n : Nat} {put : State → Nat → State}
    (h : LoadForm s rd rs1 imm i n put) : 0 < n ∧ n ≤ 8 := by
  have := loadForm_width h
  omega

theorem storeForm_width_bounds {s : State} {rs1 rs2 : Reg} {imm : BitVec 12} {i : Instr} {n : Nat} {v : Word}
    (h : StoreForm s rs1 rs2 imm i n v) : 0 < n ∧ n ≤ 8 := by
  have := storeForm_width h
  omega

/-- A UART read from its first byte on (R214). -/
theorem uartReads_succ_toNat (s : State) (off : Nat) {m : Nat} (hm : m < 8) :
    (s.uartReads off (m + 1)).1.toNat
      = (s.uartRead off).1.toNat + 256 * ((s.uartRead off).2.uartReads (off + 1) m).1.toNat := by
  have hlt := uartReads_lt (s.uartRead off).2 (off + 1) m (by omega)
  have h7 : (256 : Nat) ^ m ≤ 256 ^ 7 := Nat.pow_le_pow_right (by decide) (by omega)
  exact byteOr_toNat _ _ (by omega)

/-- The memory map with its bounds (R202, R203). -/
theorem memoryMap (s : State) (pa : Nat) :
    (s.region pa = .clint ↔ 0x02000000 ≤ pa ∧ pa ≤ 0x0200FFFF)
      ∧ (s.region pa = .plic ↔ 0x0C000000 ≤ pa ∧ pa ≤ 0x0FFFFFFF)
      ∧ (s.region pa = .uart ↔ 0x10000000 ≤ pa ∧ pa ≤ 0x10000FFF)
      ∧ (s.region pa = .virtio ↔ 0x10001000 ≤ pa ∧ pa ≤ 0x10001FFF)
      ∧ (s.region pa = .dram ↔ 0x80000000 ≤ pa ∧ pa < 0x80000000 + s.dramSize) := by
  have h := fun r (hr : r ≠ Region.unmapped) => region_iff s pa hr
  refine ⟨(h .clint (by decide)).trans ?_, (h .plic (by decide)).trans ?_, (h .uart (by decide)).trans ?_,
    (h .virtio (by decide)).trans ?_, h .dram (by decide)⟩
  all_goals
    simp only [Region.first, State.regionEnd]
    omega

/-- Settles O24: the pieces of the access are its own addresses, and each device reads and writes them in order. -/
theorem unmappedAndDeviceAccesses : Obligations.UnmappedAndDeviceAccesses := by
  unfold Obligations.UnmappedAndDeviceAccesses
  intro s rd rs1 rs2 imm i n off a
  have ha : a < 2 ^ xlenBits s.xlen := address_lt s rs1 imm
  refine ⟨fun pa => ?map, fun put h ht => ?loads, fun v h ht => ?stores, fun m v => ⟨rfl, rfl, rfl, rfl, uartReads_succ_toNat s off⟩⟩
  case map =>
    obtain ⟨hc, hp, hu, hv, hd⟩ := memoryMap s pa
    exact ⟨hc, hp, hu, hv, hd, fun m => inDram_iff⟩
  case loads =>
    have hn := loadForm_width h
    obtain ⟨hn0, hn8⟩ := loadForm_width_bounds h
    refine ⟨fun hout => ?_, fun r base hd hl hbase => ?_, fun hl hbase => ?_⟩
    · rw [ofNat_address]
      exact load_of_trap h (checkAccess_off_unmapped ht hn hout)
    · have hc := checkAccess_off_mapped ht hn (wordDevice_mapped hd) hl
      have hr : s.region (base + off) = r := hbase ▸ liesIn_first hn0 ha hl
      refine ⟨fun hw => load_of_fatal h hc (readPieces_physNarrow hn0 ha hd hl hw), fun h4 hal => ?_, fun h8 hal => ?_⟩
      · subst h4
        rw [physPieces_aligned s hal, hbase] at hc
        exact load_of_word h hc hd hr
      · subst h8
        rw [physPieces_aligned s hal, hbase] at hc
        exact load_of_doubleword h hc hd hr
    · exact load_of_read h (checkAccess_off_mapped ht hn (by decide) hl) (readPieces_physUart hn0 ha hn8 hl hbase)
        (uartReads_lt s off n hn8)
  case stores =>
    have hn := storeForm_width h
    obtain ⟨hn0, hn8⟩ := storeForm_width_bounds h
    refine ⟨fun hout => ?_, fun r base hd hl hbase => ?_, fun hl hbase => ?_⟩
    · rw [ofNat_address]
      exact store_of_trap h (checkAccess_off_unmapped ht hn hout)
    · have hc := checkAccess_off_mapped ht hn (wordDevice_mapped hd) hl
      have hr : s.region (base + off) = r := hbase ▸ liesIn_first hn0 ha hl
      refine ⟨fun hw => store_of_fatal h hc (writePieces_physNarrow hn0 ha hd hl hw), fun h4 hal => ?_, fun h8 hal => ?_⟩
      · subst h4
        rw [physPieces_aligned s hal, hbase] at hc
        exact store_of_write h hc (writePieces_word4 hd hr)
      · subst h8
        rw [physPieces_aligned s hal, hbase] at hc
        exact store_of_write h hc (writePieces_word8 hd hr)
    · exact store_of_write h (checkAccess_off_mapped ht hn (by decide) hl) (writePieces_physUart hn0 ha hn8 hl hbase)

/-! ### The access through translation -/

/-- What an aligned store to DRAM leaves once it has retired. -/
theorem stored_writeLE {u : State} (i : Instr) (pa n : Nat) (v : Word) (hd : u.dramOk) :
    Stored i u (({ u with dram := Memory.writeLE u.dram pa n v, resv := none } : State).retire i) pa n v.toNat := by
  refine ⟨retire_dropResv { u with dram := Memory.writeLE u.dram pa n v } i, fun k hk => ?_, fun b hb => Memory.read_writeLE_out _ _ hb⟩
  rw [← byte_eq_ofInt]
  exact Memory.read_writeLE_in v hk hd.1

/-- The address of the next instruction is that of the state before translation. -/
theorem Translated.npc {s t : State} (h : Translated s t) (i : Instr) : t.npc i = s.npc i := by
  rw [h.eq]
  rfl

section AccessResults

variable {s u : State} {rd rs1 rs2 : Reg} {imm : BitVec 12} {i : Instr} {n pa : Nat} {ss : Nat → State}
  {pas : Nat → Nat}

theorem load_of_dram {put : State → Nat → State} (h : LoadForm s rd rs1 imm i n put)
    (hc : s.checkAccess .load (s.ea rs1 imm) n = .ok [(pa, n)] u) (hr : u.region pa = .dram) :
    exec i s = .next ((put u (u.leNat pa n)).retire i) := by
  have hv := readLE_toNat u (a := pa) (loadForm_width_bounds h).2
  have hx := load_of_read h hc (readPieces_dramOne hr n)
  rw [hv] at hx
  exact hx (leNat_lt u pa n)

theorem load_of_dramBytes {put : State → Nat → State} (h : LoadForm s rd rs1 imm i n put)
    (hc : s.checkAccess .load (s.ea rs1 imm) n = .ok (bytePieces pas 0 n) u)
    (hr : ∀ k, k < n → u.region (pas k) = .dram) :
    exec i s = .next ((put u (bytesNat (fun k => u.byteAt (pas k)) n)).retire i) := by
  obtain ⟨w, hread, hw⟩ := readPieces_dram u pas 0 n (loadForm_width_bounds h).2 fun k _ hk => hr k (by omega)
  simp only [Nat.zero_add] at hw
  have hx := load_of_read h hc hread
  rw [hw] at hx
  exact hx (bytesNat_lt _ n)

theorem load_of_uartBytes {put : State → Nat → State} {us : Nat → State} {offs : Nat → Nat}
    (h : LoadForm s rd rs1 imm i n put) (hc : s.checkAccess .load (s.ea rs1 imm) n = .ok (bytePieces pas 0 n) (us 0))
    (hr : ∀ k, k < n → (us 0).region (pas k) = .uart) (hoff : ∀ k, k < n → pas k = 0x10000000 + offs k)
    (hus : ∀ k, k < n → us (k + 1) = ((us k).uartRead (offs k)).2) :
    exec i s = .next ((put (us n) (bytesNat (fun k => ((us k).uartRead (offs k)).1) n)).retire i) := by
  obtain ⟨w, hread, hw⟩ := readPieces_uartBytes us pas offs 0 n (loadForm_width_bounds h).2
    (fun k _ hk => ⟨hr k (by omega), hoff k (by omega)⟩) (fun k _ hk => hus k (by omega))
  simp only [Nat.zero_add] at hread hw
  have hx := load_of_read h hc hread
  rw [hw] at hx
  exact hx (bytesNat_lt _ n)

theorem store_of_dramBytes {v : Word} (h : StoreForm s rs1 rs2 imm i n v) (hd : s.dramOk)
    (hc : s.checkAccess .store (s.ea rs1 imm) n = .ok (bytePieces pas 0 n) u)
    (hr : ∀ k, k < n → u.region (pas k) = .dram) (hne : ∀ j k, j < k → k < n → pas j ≠ pas k) :
    ∃ t, exec i s = .next t
      ∧ t = { u with dram := t.dram, resv := none, pc := s.npc i, mcycle := s.mcycle + 1, minstret := s.minstret + 1 }
      ∧ (∀ k, k < n → t.byteAt (pas k) = BitVec.ofInt 8 (v.toNat / 256 ^ k))
      ∧ ∀ b, (∀ k, k < n → b ≠ pas k) → t.byteAt b = u.byteAt b := by
  have htr := checkAccess_translated hc
  obtain ⟨m, hw, hin, hout⟩ := writePieces_dram u pas 0 n v (fun k _ hk => hr k (by omega)) (htr.dram hd)
    (fun j k _ hjk hk => hne j k hjk (by omega))
  simp only [Nat.zero_add] at hin hout
  refine ⟨_, store_of_write h hc hw, ?_, fun k hk => ?_, fun b hb => hout b hb⟩
  · have hcount : u.mcycle = s.mcycle ∧ u.minstret = s.minstret := by rw [htr.eq]; exact ⟨rfl, rfl⟩
    rw [← htr.npc, ← hcount.1, ← hcount.2]
    exact retire_dropResv { u with dram := m } i
  · rw [← byte_eq_ofInt]
    exact hin k hk

end AccessResults

/-- Settles O25: the pieces of the access are what its addresses translate to, one after the other. -/
theorem translatedAccesses : Obligations.TranslatedAccesses := by
  unfold Obligations.TranslatedAccesses
  intro s u rd rs1 rs2 imm i n pa m off ss us pas offs a va allIn oneRegion within
  have hva0 : va 0 = s.ea rs1 imm := ofNat_byteAddress_zero s rs1 imm
  have hea : (s.ea rs1 imm).toNat = a := ea_toNat s rs1 imm
  have hva : ∀ k, va k = BitVec.ofNat 64 (s.byteAddress (s.ea rs1 imm).toNat k) := fun k => by rw [hea]
  rw [hva0, ← hea]
  refine ⟨fun put h => ⟨fun ha => ⟨fun e ht => load_of_trap h (checkAccess_aligned_trap ha ht), fun ht => ?loadAligned⟩,
      fun ha h0 hm ht => ?loadBytes⟩,
    fun v h hd => ⟨fun ha => ⟨fun e ht => store_of_trap h (checkAccess_aligned_trap ha ht), fun ht => ?storeAligned⟩,
      fun ha h0 hm ht => ?storeBytes⟩⟩
  case loadAligned =>
    obtain ⟨hn0, hn8⟩ := loadForm_width_bounds h
    refine ⟨fun hin => ?_, fun hout => load_of_trap h (checkAccess_aligned_split ha ht hout), fun r base hdev hin hpa => ?_,
      fun hin hpa => ?_⟩
    · have hr := region_of_inDram hn0 hin
      exact load_of_dram h (checkAccess_aligned_mapped ha ht (by decide) hr) hr.1
    · have hc := checkAccess_aligned_mapped ha ht (wordDevice_mapped hdev) hin
      refine ⟨fun h4 => load_of_fatal h hc (readPieces_narrow hdev hin.1 h4), fun h4 => ?_, fun h8 => ?_⟩
      all_goals subst n pa
      · exact load_of_word h hc hdev hin.1
      · exact load_of_doubleword h hc hdev hin.1
    · have hc := checkAccess_aligned_mapped ha ht (by decide) hin
      subst pa
      exact load_of_read h hc (readPieces_uartOne hin.1 n) (uartReads_lt u off n hn8)
  case loadBytes =>
    obtain ⟨hn0, hn8⟩ := loadForm_width_bounds h
    simp only [hva] at ht ⊢
    refine ⟨fun e hmn he => load_of_trap h (checkAccess_bytes_trap ha h0 hmn ht he), fun hmn hin => ?_, fun hmn hout => ?_,
      fun r base hdev hmn hin => ?_, fun hmn hin hoff hu0 hus => ?_⟩
    all_goals subst m
    · exact load_of_dramBytes h (checkAccess_bytes_mapped ha h0 ht hn0 (by decide) hin) hin
    · exact load_of_trap h (checkAccess_bytes_split ha h0 ht hn0 hout)
    · exact load_of_fatal h (checkAccess_bytes_mapped ha h0 ht hn0 (wordDevice_mapped hdev) hin)
        (readPieces_wordBytes hdev hn0 (hin 0 hn0))
    · have hc := checkAccess_bytes_mapped ha h0 ht hn0 (by decide) hin
      rw [← hu0] at hc hin
      exact load_of_uartBytes h hc hin hoff hus
  case storeAligned =>
    obtain ⟨hn0, hn8⟩ := storeForm_width_bounds h
    refine ⟨fun hin => ?_, fun hout => store_of_trap h (checkAccess_aligned_split ha ht hout), fun r base hdev hin hpa => ?_,
      fun hin hpa => ?_⟩
    · have hr := region_of_inDram hn0 hin
      exact ⟨_, store_of_write h (checkAccess_aligned_mapped ha ht (by decide) hr) (writePieces_dramOne hr.1 n v),
        stored_writeLE i pa n v ((translate_translated ht).dram hd)⟩
    · have hc := checkAccess_aligned_mapped ha ht (wordDevice_mapped hdev) hin
      refine ⟨fun h4 => store_of_fatal h hc (writePieces_narrow hdev hin.1 h4), fun h4 => ?_, fun h8 => ?_⟩
      all_goals subst n pa
      · exact store_of_write h hc (writePieces_word4 hdev hin.1)
      · exact store_of_write h hc (writePieces_word8 hdev hin.1)
    · have hc := checkAccess_aligned_mapped ha ht (by decide) hin
      subst pa
      exact store_of_write h hc (writePieces_uartOne hin.1 n v)
  case storeBytes =>
    obtain ⟨hn0, hn8⟩ := storeForm_width_bounds h
    simp only [hva] at ht ⊢
    refine ⟨fun e hmn he => store_of_trap h (checkAccess_bytes_trap ha h0 hmn ht he), fun hmn hin => ?_, fun hmn hout => ?_,
      fun r base hdev hmn hin => ?_, fun hmn hin hoff hu0 hus => ?_⟩
    all_goals subst m
    · exact store_of_dramBytes h hd (checkAccess_bytes_mapped ha h0 ht hn0 (by decide) hin) hin
        fun j k => byteTranslations_ne ht hn8
    · exact store_of_trap h (checkAccess_bytes_split ha h0 ht hn0 hout)
    · exact store_of_fatal h (checkAccess_bytes_mapped ha h0 ht hn0 (wordDevice_mapped hdev) hin)
        (writePieces_wordBytes hdev hn0 (hin 0 hn0))
    · have hc := checkAccess_bytes_mapped ha h0 ht hn0 (by decide) hin
      rw [← hu0] at hc hin
      have hw := writePieces_uartBytes us pas offs v 0 n (fun k _ hk => ⟨hin k (by omega), hoff k (by omega)⟩)
        (fun k _ hk => hus k (by omega))
      rw [Nat.zero_add] at hw
      exact store_of_write h hc hw

end Sys2Proof.Machine

/-! ## The words of the integer and multiply-divide instructions (30_encoding.md R310, R311, R330) -/

namespace Sys2Proof

/-! ### The fields of the U, I and shift formats -/

section Fields

variable (imm : BitVec 12) (upper : BitVec 20) (f6 shamt : BitVec 6) (rs1 rd : Reg) (f3 : BitVec 3) (op : BitVec 7)

@[simp] theorem opcode_formatU : opcode (formatU upper rd op) = op := opcode_formatR ..
@[simp] theorem fieldRd_formatU : fieldRd (formatU upper rd op) = rd := fieldRd_formatR ..

@[simp] theorem opcode_formatI : opcode (formatI imm rs1 f3 rd op) = op := opcode_formatR ..
@[simp] theorem fieldRd_formatI : fieldRd (formatI imm rs1 f3 rd op) = rd := fieldRd_formatR ..
@[simp] theorem funct3_formatI : funct3 (formatI imm rs1 f3 rd op) = f3 := funct3_formatR ..
@[simp] theorem fieldRs1_formatI : fieldRs1 (formatI imm rs1 f3 rd op) = rs1 := fieldRs1_formatR ..

@[simp] theorem opcode_formatShift : opcode (formatShift f6 shamt rs1 f3 rd op) = op := opcode_formatR ..
@[simp] theorem fieldRd_formatShift : fieldRd (formatShift f6 shamt rs1 f3 rd op) = rd := fieldRd_formatR ..
@[simp] theorem funct3_formatShift : funct3 (formatShift f6 shamt rs1 f3 rd op) = f3 := funct3_formatR ..
@[simp] theorem fieldRs1_formatShift : fieldRs1 (formatShift f6 shamt rs1 f3 rd op) = rs1 := fieldRs1_formatR ..

@[simp] theorem immU_formatU : immU (formatU upper rd op) = upper := bits_ext fun i hi => by
  rw [immU, formatU, extract_formatR, formatR_bit]
  simp only [BitVec.getLsbD_extractLsb]
  grind

@[simp] theorem fieldShamt_formatShift : fieldShamt (formatShift f6 shamt rs1 f3 rd op) = shamt := bits_ext fun i hi => by
  rw [fieldShamt, formatShift, extract_formatR, formatR_bit]
  simp only [BitVec.getLsbD_append, BitVec.getLsbD_extractLsb]
  grind

@[simp] theorem funct6_formatShift : funct6 (formatShift f6 shamt rs1 f3 rd op) = f6 := bits_ext fun i hi => by
  rw [funct6, formatShift, extract_formatR, formatR_bit]
  simp only [BitVec.getLsbD_append, BitVec.getLsbD_extractLsb]
  grind

end Fields

/-! ### The major opcodes of a computation -/

theorem decode32_of_lui {w : BitVec 32} (x : Xlen) (h : opcode w = 0b0110111#7) :
    decode32 x w = some (.lui (fieldRd w) (immU w)) := by
  simp [decode32, h]

theorem decode32_of_auipc {w : BitVec 32} (x : Xlen) (h : opcode w = 0b0010111#7) :
    decode32 x w = some (.auipc (fieldRd w) (immU w)) := by
  simp [decode32, h]

theorem decode32_of_opImm {w : BitVec 32} (x : Xlen) (h : opcode w = 0b0010011#7) : decode32 x w = decodeOpImm x w := by
  simp [decode32, h]

theorem decode32_of_op {w : BitVec 32} (x : Xlen) (h : opcode w = 0b0110011#7) : decode32 x w = decodeOp w := by
  simp [decode32, h]

theorem decode32_of_opImm32 {w : BitVec 32} (h : opcode w = 0b0011011#7) : decode32 .rv64 w = decodeOpImm32 w := by
  simp [decode32, h]

theorem decode32_of_op32 {w : BitVec 32} (h : opcode w = 0b0111011#7) : decode32 .rv64 w = decodeOp32 w := by
  simp [decode32, h]

/-- A shift amount of the mode passes the check of the upper bits. -/
theorem shiftImmOk_formatShift {x : Xlen} {shamt : BitVec 6} (h : shamtFits x shamt = true) (f6 f6' : BitVec 6) (rs1 : Reg)
    (f3 : BitVec 3) (rd : Reg) (op : BitVec 7) :
    shiftImmOk x f6 (formatShift f6' shamt rs1 f3 rd op) = decide (f6' = f6) := by
  simp [shiftImmOk, h]

end Sys2Proof

namespace Sys2Proof.Machine

open Sys2Proof

/-- The bits of a 32-bit computation are its word in every mode that has it (R330, R340). -/
theorem isWord_bits (i : Instr) (h : (i.computes && decide (i.length = 4)) = true) : IsWord i.bits i := by
  intro x hwf
  cases i
  case lui => simp [Instr.bits, decode32_of_lui]
  case auipc => simp [Instr.bits, decode32_of_auipc]
  case addi | slti | sltiu | xori | ori | andi => simp [Instr.bits, decode32_of_opImm, decodeOpImm]
  case slli | srli | srai => simp [Instr.bits, decode32_of_opImm, decodeOpImm, shiftImmOk_formatShift hwf]
  case add | sub | sll | slt | sltu | xor | srl | sra | or | and | mul | mulh | mulhsu | mulhu | div | divu | rem | remu =>
    simp [Instr.bits, decode32_of_op, decodeOp]
  case addiw | slliw | srliw | sraiw =>
    obtain rfl := of_decide_eq_true hwf
    simp [Instr.bits, decode32_of_opImm32, decodeOpImm32]
  case addw | subw | sllw | srlw | sraw | mulw | divw | divuw | remw | remuw =>
    obtain rfl := of_decide_eq_true hwf
    simp [Instr.bits, decode32_of_op32, decodeOp32]
  all_goals cases h

end Sys2Proof.Machine

/-! ## The integer computations (40_integer.md) -/

namespace Sys2Proof.Machine

open Sys2Proof

/-! ### Words as numbers -/

theorem xlenBits_bounds (x : Xlen) : 32 ≤ xlenBits x ∧ xlenBits x ≤ 64 := by
  cases x <;> decide

/-- The number modulo 2^w that a bit vector of width w holds. -/
theorem toNat_ofInt_eq_emod (w : Nat) (n : Int) : ((BitVec.ofInt w n).toNat : Int) = n % 2 ^ w := by
  have h : (2 : Int) ^ w ≠ 0 := Int.ne_of_gt (Int.pow_pos (by decide))
  have hc : ((2 ^ w : Nat) : Int) = 2 ^ w := by norm_cast
  rw [BitVec.toNat_ofInt, hc, Int.toNat_of_nonneg (Int.emod_nonneg n h)]

theorem setWidth_ofInt {w v : Nat} (h : w ≤ v) (n : Int) : (BitVec.ofInt v n).setWidth w = BitVec.ofInt w n := by
  have hd : ((2 ^ w : Nat) : Int) ∣ 2 ^ v := by exact_mod_cast Nat.pow_dvd_pow 2 h
  rw [← BitVec.toInt_inj, BitVec.toInt_setWidth, BitVec.toInt_ofInt, toNat_ofInt_eq_emod, ← Int.emod_bmod,
    Int.emod_emod_of_dvd n hd, Int.emod_bmod]

theorem ofInt_sub {w : Nat} (m n : Int) : BitVec.ofInt w (m - n) = BitVec.ofInt w m - BitVec.ofInt w n := by
  rw [Int.sub_eq_add_neg, BitVec.ofInt_add, BitVec.ofInt_neg, BitVec.sub_eq_add_neg]

theorem ofInt_toNat {w : Nat} (a : BitVec w) : BitVec.ofInt w a.toNat = a := by
  rw [BitVec.ofInt_natCast, BitVec.ofNat_toNat, BitVec.setWidth_eq]

/-- XLEN-bit values are equal exactly where the low XLEN bits are. -/
theorem norm_eq_norm_iff {x : Xlen} {a b : Word} :
    norm x a = norm x b ↔ a.setWidth (xlenBits x) = b.setWidth (xlenBits x) := by
  simp only [← BitVec.toNat_inj, norm_toNat, BitVec.toNat_setWidth]

@[simp] theorem setWidth_norm (x : Xlen) (a : Word) : (norm x a).setWidth (xlenBits x) = a.setWidth (xlenBits x) := by
  rw [← norm_eq_norm_iff, norm_norm]

/-- `signedAt` reads a number as a bit vector of that width does. -/
theorem toInt_ofInt_eq_signedAt {w : Nat} (hw : 0 < w) (n : Int) : (BitVec.ofInt w n).toInt = signedAt w n := by
  obtain ⟨k, rfl⟩ : ∃ k, w = k + 1 := ⟨w - 1, by omega⟩
  rw [BitVec.toInt_ofInt, Int.bmod, signedAt, Nat.add_sub_cancel,
    show ((2 ^ (k + 1) : Nat) + 1 : Int) / 2 = 2 ^ k by push_cast; omega]
  norm_cast

/-! ### Operands -/

section Operands

variable (s : State) (r : Reg)

/-- The low bits of a register, at any width. -/
theorem readX_setWidth (w : Nat) : (s.readX r).setWidth w = BitVec.ofInt w (s.num r) := by
  rw [State.num, BitVec.ofInt_natCast, BitVec.ofNat_toNat]

theorem readX_toNat : (((s.readX r).setWidth (xlenBits s.xlen)).toNat : Int) = s.num r := by
  rw [BitVec.toNat_setWidth, ← norm_toNat, State.norm_readX, State.num]

theorem readX_toInt : ((s.readX r).setWidth (xlenBits s.xlen)).toInt = s.signed r := by
  rw [State.signed, State.num, signedAt_toInt (by have := xlenBits_bounds s.xlen; omega)]

theorem readX_word_toNat : (((s.readX r).setWidth 32).toNat : Int) = lowBits 32 (s.num r) := by
  rw [BitVec.toNat_setWidth, lowBits, State.num]
  norm_cast

theorem readX_word_toInt : ((s.readX r).setWidth 32).toInt = signedAt 32 (s.num r) :=
  (signedAt_toInt (by decide) _).symm

/-- The low XLEN bits of a sign-extended immediate. -/
theorem sextX_setWidth (x : Xlen) {n : Nat} (v : BitVec n) :
    (sextX x v).setWidth (xlenBits x) = BitVec.ofInt (xlenBits x) v.toInt := by
  rw [sextX, setWidth_norm, BitVec.signExtend, setWidth_ofInt (xlenBits_bounds x).2]

theorem sextX_toNat (x : Xlen) {n : Nat} (v : BitVec n) :
    (((sextX x v).setWidth (xlenBits x)).toNat : Int) = v.toInt % 2 ^ xlenBits x := by
  rw [sextX_setWidth, toNat_ofInt_eq_emod]

theorem sextX_toInt (x : Xlen) {n : Nat} (h : n ≤ 32) (v : BitVec n) :
    ((sextX x v).setWidth (xlenBits x)).toInt = v.toInt := by
  rw [sextX_setWidth, ← BitVec.signExtend, BitVec.toInt_signExtend_of_le (Nat.le_trans h (xlenBits_bounds x).1)]

theorem shiftAmount_readX :
    shiftAmount (xlenBits s.xlen) ((s.readX r).setWidth (xlenBits s.xlen)) = (s.num r % xlenBits s.xlen).toNat := by
  rw [shiftAmount, ← readX_toNat]
  norm_cast

theorem shiftAmount_readX_word : shiftAmount 32 ((s.readX r).setWidth 32) = (s.num r % 32).toNat := by
  rw [shiftAmount, BitVec.toNat_setWidth, State.num]
  omega

end Operands

/-- A constant amount below the width is the shift amount. -/
theorem shiftAmount_setWidth {w n : Nat} {k : BitVec n} (hw : w ≤ 64) (h : k.toNat < w) :
    shiftAmount w ((k.setWidth 64).setWidth w) = k.toNat := by
  have h2 : k.toNat < 2 ^ w := Nat.lt_trans h Nat.lt_two_pow_self
  rw [shiftAmount, BitVec.setWidth_setWidth_of_le k hw, BitVec.toNat_setWidth, Nat.mod_eq_of_lt h2, Nat.mod_eq_of_lt h]

theorem shamtFits_iff {x : Xlen} {shamt : BitVec 6} : shamtFits x shamt = true ↔ shamt.toNat < xlenBits x := by
  cases x
  · have bit5 : shamt.getLsbD 5 = decide (32 ≤ shamt.toNat) :=
      BitVec.msb_eq_getLsbD_last shamt ▸ BitVec.msb_eq_decide shamt
    rw [shamtFits, bit5]
    simp [xlenBits]
  · have := shamt.isLt
    simp only [shamtFits, xlenBits, decide_true, Bool.true_or, true_iff]
    omega

/-! ### Shifts at a width -/

section Shifts

variable {w k : Nat} {a b : BitVec w} {m : Int}

theorem shiftLeft_eq_ofInt (ha : a = BitVec.ofInt w m) (hb : shiftAmount w b = k) :
    shiftLeft w a b = BitVec.ofInt w (m * 2 ^ k) := by
  have h2 : BitVec.ofInt w (2 ^ k) = BitVec.twoPow w k := by
    rw [← BitVec.toNat_inj, BitVec.toNat_ofInt, BitVec.toNat_twoPow]; norm_cast
  rw [shiftLeft, ha, hb, BitVec.ofInt_mul, h2, BitVec.shiftLeft_eq_mul_twoPow]

theorem shiftRightLogical_eq_ofInt (ha : (a.toNat : Int) = m) (hb : shiftAmount w b = k) :
    shiftRightLogical w a b = BitVec.ofInt w (m / 2 ^ k) := by
  have h : m / 2 ^ k = (a >>> k).toNat := by
    rw [← ha, BitVec.toNat_ushiftRight, Nat.shiftRight_eq_div_pow]; norm_cast
  rw [shiftRightLogical, hb, h, ofInt_toNat]

theorem shiftRightArith_eq_ofInt (ha : a.toInt = m) (hb : shiftAmount w b = k) :
    shiftRightArith w a b = BitVec.ofInt w (m / 2 ^ k) := by
  rw [shiftRightArith, hb, BitVec.sshiftRight_eq, ha, Int.shiftRight_eq_div_pow]
  norm_cast

end Shifts

/-! ### Operations on XLEN-bit values -/

theorem atXlen_setWidth (x : Xlen) (f : (w : Nat) → BitVec w → BitVec w → BitVec w) (a b : Word) :
    (atXlen x f a b).setWidth (xlenBits x) = f (xlenBits x) (a.setWidth (xlenBits x)) (b.setWidth (xlenBits x)) := by
  cases x <;> simp [atXlen, xlenBits]

theorem testXlen_eq (x : Xlen) (f : (w : Nat) → BitVec w → BitVec w → Bool) (a b : Word) :
    testXlen x f a b = f (xlenBits x) (a.setWidth (xlenBits x)) (b.setWidth (xlenBits x)) := by
  cases x <;> simp [testXlen, xlenBits]

theorem boolWord_setWidth (w : Nat) (p : Prop) [Decidable p] :
    (boolWord (decide p)).setWidth w = BitVec.ofInt w (if p then 1 else 0) := by
  by_cases h : p
  · rw [decide_eq_true h, if_pos h]
    exact BitVec.setWidth_ofNat_one_eq_ofNat_one_of_lt (by decide)
  · rw [decide_eq_false h, if_neg h]
    simp [boolWord]

section Operations

variable {x : Xlen} {a b : Word} {m n : Int}

theorem addOp_setWidth (ha : a.setWidth (xlenBits x) = BitVec.ofInt _ m) (hb : b.setWidth (xlenBits x) = BitVec.ofInt _ n) :
    (addOp x a b).setWidth (xlenBits x) = BitVec.ofInt _ (m + n) := by
  rw [addOp, BitVec.setWidth_add _ _ (xlenBits_bounds x).2, ha, hb, BitVec.ofInt_add]

theorem subOp_setWidth (ha : a.setWidth (xlenBits x) = BitVec.ofInt _ m) (hb : b.setWidth (xlenBits x) = BitVec.ofInt _ n) :
    (subOp x a b).setWidth (xlenBits x) = BitVec.ofInt _ (m - n) := by
  have hx := (xlenBits_bounds x).2
  rw [subOp, BitVec.sub_eq_add_neg, BitVec.setWidth_add _ _ hx, BitVec.setWidth_neg_of_le hx, ha, hb,
    ← BitVec.sub_eq_add_neg, ofInt_sub]

theorem sltOp_setWidth (ha : (a.setWidth (xlenBits x)).toInt = m) (hb : (b.setWidth (xlenBits x)).toInt = n) :
    (sltOp x a b).setWidth (xlenBits x) = BitVec.ofInt _ (if m < n then 1 else 0) := by
  rw [sltOp, testXlen_eq, BitVec.slt, boolWord_setWidth, ha, hb]

theorem sltuOp_setWidth (ha : ((a.setWidth (xlenBits x)).toNat : Int) = m)
    (hb : ((b.setWidth (xlenBits x)).toNat : Int) = n) :
    (sltuOp x a b).setWidth (xlenBits x) = BitVec.ofInt _ (if m < n then 1 else 0) := by
  subst ha hb
  rw [sltuOp, testXlen_eq, BitVec.ult, boolWord_setWidth]
  norm_cast

section Bitwise

variable (ha : ((a.setWidth (xlenBits x)).toNat : Int) = m) (hb : ((b.setWidth (xlenBits x)).toNat : Int) = n)
include ha hb

theorem xorOp_setWidth : (xorOp x a b).setWidth (xlenBits x) = BitVec.ofInt _ (m.toNat ^^^ n.toNat : Nat) := by
  rw [xorOp, BitVec.setWidth_xor, ← ha, ← hb, Int.toNat_natCast, Int.toNat_natCast, ← BitVec.toNat_xor, ofInt_toNat]

theorem orOp_setWidth : (orOp x a b).setWidth (xlenBits x) = BitVec.ofInt _ (m.toNat ||| n.toNat : Nat) := by
  rw [orOp, BitVec.setWidth_or, ← ha, ← hb, Int.toNat_natCast, Int.toNat_natCast, ← BitVec.toNat_or, ofInt_toNat]

theorem andOp_setWidth : (andOp x a b).setWidth (xlenBits x) = BitVec.ofInt _ (m.toNat &&& n.toNat : Nat) := by
  rw [andOp, BitVec.setWidth_and, ← ha, ← hb, Int.toNat_natCast, Int.toNat_natCast, ← BitVec.toNat_and, ofInt_toNat]

end Bitwise

section Shift

variable {k : Nat} (hb : shiftAmount (xlenBits x) (b.setWidth (xlenBits x)) = k)
include hb

theorem sllOp_setWidth (ha : a.setWidth (xlenBits x) = BitVec.ofInt _ m) :
    (sllOp x a b).setWidth (xlenBits x) = BitVec.ofInt _ (m * 2 ^ k) :=
  (atXlen_setWidth ..).trans (shiftLeft_eq_ofInt ha hb)

theorem srlOp_setWidth (ha : ((a.setWidth (xlenBits x)).toNat : Int) = m) :
    (srlOp x a b).setWidth (xlenBits x) = BitVec.ofInt _ (m / 2 ^ k) :=
  (atXlen_setWidth ..).trans (shiftRightLogical_eq_ofInt ha hb)

theorem sraOp_setWidth (ha : (a.setWidth (xlenBits x)).toInt = m) :
    (sraOp x a b).setWidth (xlenBits x) = BitVec.ofInt _ (m / 2 ^ k) :=
  (atXlen_setWidth ..).trans (shiftRightArith_eq_ofInt ha hb)

end Shift

end Operations

/-! ### What a form writes (R400, R401) -/

section Forms

variable {i : Instr} {rd : Reg} {s : State}

/-- A register write counts modulo 2^XLEN. -/
theorem writes_of_setWidth {v : Word} {n : Int} (he : exec i s = writeRd i rd v s)
    (hv : v.setWidth (xlenBits s.xlen) = BitVec.ofInt _ n) : Writes i s rd n := by
  rw [Writes, he, writeRd, ← writeX_norm s rd v, ← writeX_norm s rd (BitVec.ofInt 64 n), norm_eq_norm_iff.mpr]
  rw [hv, setWidth_ofInt (xlenBits_bounds s.xlen).2]

theorem writes_of_regShift {rs1 : Reg} {shamt : BitVec 6} {f : Xlen → Word → Word → Word} {n : Int}
    (he : exec i s = regShift i rd rs1 shamt f s) (hk : shamt.toNat < xlenBits s.xlen)
    (hv : (f s.xlen (s.readX rs1) (shamt.setWidth 64)).setWidth (xlenBits s.xlen) = BitVec.ofInt _ n) : Writes i s rd n :=
  writes_of_setWidth (he.trans (if_pos (shamtFits_iff.mpr hk))) hv

theorem illegal_of_regShift {rs1 : Reg} {shamt : BitVec 6} {f : Xlen → Word → Word → Word}
    (he : exec i s = regShift i rd rs1 shamt f s) (hk : xlenBits s.xlen ≤ shamt.toNat) : Illegal i s :=
  he.trans (if_neg (by rw [shamtFits_iff]; omega))

/-- The 32-bit result of a W form, sign-extended. -/
theorem writes_of_atWord {f : (w : Nat) → BitVec w → BitVec w → BitVec w} {a b : Word} {n : Int}
    (he : exec i s = inMode .rv64 i s (writeRd i rd (atWord f a b) s))
    (hf : f 32 (a.setWidth 32) (b.setWidth 32) = BitVec.ofInt 32 n) (h64 : s.xlen = .rv64) :
    Writes i s rd (signedAt 32 n) := by
  rw [Writes, he, inMode_of_eq h64, writeRd, atWord, hf, BitVec.signExtend, toInt_ofInt_eq_signedAt (by decide)]

theorem illegal_of_inMode {k : Host.Outcome State Fault Refusal} (he : exec i s = inMode .rv64 i s k)
    (h32 : s.xlen = .rv32) : Illegal i s :=
  he.trans (inMode_of_ne (by rw [h32]; decide))

end Forms

/-! ### The integer rows -/

/-- Settles O7: each operation on the operands as numbers. -/
theorem registerRegisterResults : Obligations.RegisterRegisterResults := by
  unfold Obligations.RegisterRegisterResults
  intro s rd rs1 rs2
  have ha := readX_setWidth s rs1 (xlenBits s.xlen)
  have hb := readX_setWidth s rs2 (xlenBits s.xlen)
  have ha' := readX_toNat s rs1
  have hb' := readX_toNat s rs2
  have hs := readX_toInt s rs1
  have hk := shiftAmount_readX s rs2
  refine ⟨?add, isWord_bits (.add rd rs1 rs2) rfl, ?sub, isWord_bits (.sub rd rs1 rs2) rfl,
    ?sll, isWord_bits (.sll rd rs1 rs2) rfl, ?slt, isWord_bits (.slt rd rs1 rs2) rfl,
    ?sltu, isWord_bits (.sltu rd rs1 rs2) rfl, ?xor, isWord_bits (.xor rd rs1 rs2) rfl,
    ?srl, isWord_bits (.srl rd rs1 rs2) rfl, ?sra, isWord_bits (.sra rd rs1 rs2) rfl,
    ?or, isWord_bits (.or rd rs1 rs2) rfl, ?and, isWord_bits (.and rd rs1 rs2) rfl⟩
  case add => exact writes_of_setWidth rfl (addOp_setWidth ha hb)
  case sub => exact writes_of_setWidth rfl (subOp_setWidth ha hb)
  case sll => exact writes_of_setWidth rfl (sllOp_setWidth hk ha)
  case slt => exact writes_of_setWidth rfl (sltOp_setWidth hs (readX_toInt s rs2))
  case sltu => exact writes_of_setWidth rfl (sltuOp_setWidth ha' hb')
  case xor => exact writes_of_setWidth rfl (xorOp_setWidth ha' hb')
  case srl => exact writes_of_setWidth rfl (srlOp_setWidth hk ha')
  case sra => exact writes_of_setWidth rfl (sraOp_setWidth hk hs)
  case or => exact writes_of_setWidth rfl (orOp_setWidth ha' hb')
  case and => exact writes_of_setWidth rfl (andOp_setWidth ha' hb')

/-- Settles O8: the same operations on a register and the sign-extended immediate. -/
theorem registerImmediateResults : Obligations.RegisterImmediateResults := by
  unfold Obligations.RegisterImmediateResults
  intro s rd rs1 imm
  have ha := readX_toNat s rs1
  have hb := sextX_toNat s.xlen imm
  refine ⟨?addi, isWord_bits (.addi rd rs1 imm) rfl, ?slti, isWord_bits (.slti rd rs1 imm) rfl,
    ?sltiu, isWord_bits (.sltiu rd rs1 imm) rfl, ?xori, isWord_bits (.xori rd rs1 imm) rfl,
    ?ori, isWord_bits (.ori rd rs1 imm) rfl, ?andi, isWord_bits (.andi rd rs1 imm) rfl⟩
  case addi => exact writes_of_setWidth rfl (addOp_setWidth (readX_setWidth s rs1 _) (sextX_setWidth s.xlen imm))
  case slti => exact writes_of_setWidth rfl (sltOp_setWidth (readX_toInt s rs1) (sextX_toInt s.xlen (by decide) imm))
  case sltiu => exact writes_of_setWidth rfl (sltuOp_setWidth ha hb)
  case xori => exact writes_of_setWidth rfl (xorOp_setWidth ha hb)
  case ori => exact writes_of_setWidth rfl (orOp_setWidth ha hb)
  case andi => exact writes_of_setWidth rfl (andOp_setWidth ha hb)

theorem upperImm_setWidth (x : Xlen) (imm : BitVec 20) :
    (upperImm x imm).setWidth (xlenBits x) = BitVec.ofInt (xlenBits x) (imm.toInt * 4096) := by
  rw [upperImm, sextX_setWidth, BitVec.toInt_append_zero, Int.mul_comm]
  rfl

/-- Settles O9: an upper immediate is the number times 4096, and a shift amount that the mode has is its own number. -/
theorem upperImmediateAndShiftResults : Obligations.UpperImmediateAndShiftResults := by
  unfold Obligations.UpperImmediateAndShiftResults
  intro s rd rs1 imm shamt
  have hk (h : shamt.toNat < xlenBits s.xlen) := shiftAmount_setWidth (xlenBits_bounds s.xlen).2 h
  have ha := readX_setWidth s rs1 (xlenBits s.xlen)
  have ha' := readX_toNat s rs1
  have hs := readX_toInt s rs1
  refine ⟨?lui, isWord_bits (.lui rd imm) rfl, ?auipc, isWord_bits (.auipc rd imm) rfl,
    fun h => ?slli, illegal_of_regShift rfl, isWord_bits (.slli rd rs1 shamt) rfl,
    fun h => ?srli, illegal_of_regShift rfl, isWord_bits (.srli rd rs1 shamt) rfl,
    fun h => ?srai, illegal_of_regShift rfl, isWord_bits (.srai rd rs1 shamt) rfl⟩
  case lui => exact writes_of_setWidth rfl (upperImm_setWidth s.xlen imm)
  case auipc =>
    have hp : s.pc.setWidth (xlenBits s.xlen) = BitVec.ofInt _ s.pc.toNat := by rw [BitVec.ofInt_natCast, BitVec.ofNat_toNat]
    exact writes_of_setWidth rfl (addOp_setWidth hp (upperImm_setWidth s.xlen imm))
  case slli => exact writes_of_regShift rfl h (sllOp_setWidth (hk h) ha)
  case srli => exact writes_of_regShift rfl h (srlOp_setWidth (hk h) ha')
  case srai => exact writes_of_regShift rfl h (sraOp_setWidth (hk h) hs)

/-- Settles O11: the operations at width 32, the shift amounts of 5 bits. -/
theorem wordResults : Obligations.WordResults := by
  unfold Obligations.WordResults
  intro s rd rs1 rs2 imm shamt
  have ha := readX_setWidth s rs1 32
  have hb := readX_setWidth s rs2 32
  have ha' := readX_word_toNat s rs1
  have hs := readX_word_toInt s rs1
  have hi : shiftAmount 32 ((shamt.setWidth 64).setWidth 32) = shamt.toNat := shiftAmount_setWidth (by decide) shamt.isLt
  have hk := shiftAmount_readX_word s rs2
  refine ⟨fun h => ?addiw, illegal_of_inMode rfl, isWord_bits (.addiw rd rs1 imm) rfl,
    writes_of_atWord rfl (shiftLeft_eq_ofInt ha hi), illegal_of_inMode rfl, isWord_bits (.slliw rd rs1 shamt) rfl,
    writes_of_atWord rfl (shiftRightLogical_eq_ofInt ha' hi), illegal_of_inMode rfl, isWord_bits (.srliw rd rs1 shamt) rfl,
    writes_of_atWord rfl (shiftRightArith_eq_ofInt hs hi), illegal_of_inMode rfl, isWord_bits (.sraiw rd rs1 shamt) rfl,
    writes_of_atWord rfl ?addw, illegal_of_inMode rfl, isWord_bits (.addw rd rs1 rs2) rfl,
    writes_of_atWord rfl ?subw, illegal_of_inMode rfl, isWord_bits (.subw rd rs1 rs2) rfl,
    writes_of_atWord rfl (shiftLeft_eq_ofInt ha hk), illegal_of_inMode rfl, isWord_bits (.sllw rd rs1 rs2) rfl,
    writes_of_atWord rfl (shiftRightLogical_eq_ofInt ha' hk), illegal_of_inMode rfl, isWord_bits (.srlw rd rs1 rs2) rfl,
    writes_of_atWord rfl (shiftRightArith_eq_ofInt hs hk), illegal_of_inMode rfl, isWord_bits (.sraw rd rs1 rs2) rfl⟩
  case addiw =>
    have himm : (sextX s.xlen imm).setWidth 32 = BitVec.ofInt 32 imm.toInt := by
      rw [h]; exact setWidth_ofInt (by decide) _
    exact writes_of_atWord rfl (by rw [ha, himm, BitVec.ofInt_add]) h
  case addw => rw [ha, hb, BitVec.ofInt_add]
  case subw => rw [ha, hb, ofInt_sub]

/-! ### The frame of a computation (R400, R510, R53) -/

/-- A computation that the mode has writes one register: its destination, or x0 where it names none (C.NOP). -/
theorem exec_computes {i : Instr} {s : State} (hc : i.computes = true) (hwf : i.wf s.xlen = true) :
    ∃ v, exec i s = writeRd i (i.dest.getD 0#5) v s := by
  cases i
  case lui | auipc | addi | slti | sltiu | xori | ori | andi | add | sub | sll | slt | sltu | xor | srl | sra | or | and
    | mul | mulh | mulhsu | mulhu | div | divu | rem | remu | cAddi4spn | cNop | cAddi | cLi | cAddi16sp | cLui | cAndi
    | cSub | cXor | cOr | cAnd | cMv | cAdd => exact ⟨_, rfl⟩
  case slli | srli | srai | cSrli | cSrai | cSlli => exact ⟨_, if_pos hwf⟩
  case addiw | slliw | srliw | sraiw | addw | subw | sllw | srlw | sraw | mulw | divw | divuw | remw | remuw | cSubw
    | cAddw => exact ⟨_, inMode_of_eq (of_decide_eq_true hwf)⟩
  case cAddiw => exact ⟨_, inMode_of_eq (of_decide_eq_true ((Bool.and_eq_true _ _).mp hwf).1)⟩
  all_goals cases hc

theorem onlyRegisters_writeX_retire (i : Instr) (s : State) (rd : Reg) (v : Word) :
    OnlyRegisters s ((s.writeX rd v).retire i) := by
  unfold State.writeX
  split <;> rfl

/-- A write to the destination keeps every register that is not it. -/
theorem readX_writeX_dest {d : Option Reg} {r : Reg} (s : State) (v : Word) (h : d ≠ some r) :
    (s.writeX (d.getD 0#5) v).readX r = s.readX r := by
  cases d with
  | none => rw [Option.getD_none, State.writeX_zero]
  | some rd => exact State.readX_writeX_ne s v fun e => h (by rw [e, Option.getD_some])

/-- Settles O13: what a register write and a retirement leave. -/
theorem computationFrame : Obligations.ComputationFrame := by
  unfold Obligations.ComputationFrame
  intro i s hc hwf
  obtain ⟨v, he⟩ := exec_computes hc hwf
  refine ⟨_, he, onlyRegisters_writeX_retire .., ?pc, ?mcycle, ?minstret, fun r hr => ?registers, fun a => ?memory⟩
  case pc => rw [State.retire_pc, State.npc, State.writeX_pc, State.writeX_xlen, State.npc]
  case mcycle => rw [State.retire_mcycle, State.writeX_mcycle]
  case minstret => rw [State.retire_minstret, State.writeX_minstret]
  case registers => rw [State.readX_of_x (State.retire_x ..) (State.retire_xlen ..), readX_writeX_dest s v hr]
  case memory => rw [State.byteAt, State.retire_dram, State.writeX_dram, State.byteAt]

/-! ### Words of the spec -/

/-- Settles O3: the decoder, run on each word. -/
theorem specWordsDecode : Obligations.SpecWordsDecode := by
  unfold Obligations.SpecWordsDecode
  exact ⟨rfl, rfl, rfl, rfl, rfl, rfl, rfl, rfl, rfl, rfl, rfl, rfl, rfl, rfl⟩

end Sys2Proof.Machine

/-! ## The words of the jumps and branches (30_encoding.md R310, R320, R330) -/

namespace Sys2Proof

section Fields

variable (imm : BitVec 12) (off : BitVec 21) (off13 : BitVec 13) (rs2 rs1 rd : Reg) (f3 : BitVec 3) (op : BitVec 7)

@[simp] theorem opcode_formatJ : opcode (formatJ off rd op) = op := opcode_formatU ..
@[simp] theorem fieldRd_formatJ : fieldRd (formatJ off rd op) = rd := fieldRd_formatU ..

@[simp] theorem opcode_formatB : opcode (formatB off13 rs2 rs1 f3 op) = op := opcode_formatR ..
@[simp] theorem funct3_formatB : funct3 (formatB off13 rs2 rs1 f3 op) = f3 := funct3_formatR ..
@[simp] theorem fieldRs1_formatB : fieldRs1 (formatB off13 rs2 rs1 f3 op) = rs1 := fieldRs1_formatR ..
@[simp] theorem fieldRs2_formatB : fieldRs2 (formatB off13 rs2 rs1 f3 op) = rs2 := fieldRs2_formatR ..

end Fields

/-- Bit 0 of an even offset is the 0 that the decoder puts there. -/
theorem getLsbD_zero_of_evenOffset {n : Nat} {off : BitVec n} (h : evenOffset off = true) : off.getLsbD 0 = false := by
  simpa [evenOffset] using h

theorem immJ_formatJ {off : BitVec 21} (h : evenOffset off = true) (rd : Reg) (op : BitVec 7) :
    immJ (formatJ off rd op) = off := bits_ext fun i hi => by
  have h0 := getLsbD_zero_of_evenOffset h
  simp only [immJ, formatJ, formatU, BitVec.getLsbD_append, formatR_bit, BitVec.getLsbD_extractLsb]
  grind

theorem immB_formatB {off : BitVec 13} (h : evenOffset off = true) (rs2 rs1 : Reg) (f3 : BitVec 3) (op : BitVec 7) :
    immB (formatB off rs2 rs1 f3 op) = off := bits_ext fun i hi => by
  have h0 := getLsbD_zero_of_evenOffset h
  simp only [immB, formatB, BitVec.getLsbD_append, formatR_bit, BitVec.getLsbD_extractLsb]
  grind

theorem decode32_of_jal {w : BitVec 32} (x : Xlen) (h : opcode w = 0b1101111#7) :
    decode32 x w = some (.jal (fieldRd w) (immJ w)) := by
  simp [decode32, h]

theorem decode32_of_jalr {w : BitVec 32} (x : Xlen) (h : opcode w = 0b1100111#7) (h3 : funct3 w = 0b000#3) :
    decode32 x w = some (.jalr (fieldRd w) (fieldRs1 w) (immI w)) := by
  simp [decode32, h, h3]

theorem decode32_of_branch {w : BitVec 32} (x : Xlen) (h : opcode w = 0b1100011#7) : decode32 x w = decodeBranch w := by
  simp [decode32, h]

end Sys2Proof

/-! ## Jumps and branches (41_control.md) -/

namespace Sys2Proof.Machine

open Sys2Proof

/-! ### Targets (R460, R463) -/

/-- A jump goes to its target modulo 2^XLEN. -/
theorem retireAt_norm (s : State) (v : Word) : s.retireAt (norm s.xlen v) = s.retireAt v := by
  rw [State.retireAt, norm_norm, State.retireAt]

section Targets

variable (s : State) {n : Nat} (off : BitVec n) (rs1 : Reg) (imm : BitVec 12)

theorem pcPlus_eq_norm_ofInt : s.pcPlus off = norm s.xlen (BitVec.ofInt 64 (s.pc.toNat + off.toInt)) := by
  rw [State.pcPlus, BitVec.ofInt_add, ofInt_toNat, BitVec.signExtend]

theorem retireAt_pcPlus : s.retireAt (s.pcPlus off) = s.retireAt (BitVec.ofInt 64 (s.pc.toNat + off.toInt)) := by
  rw [pcPlus_eq_norm_ofInt, retireAt_norm]

theorem natCast_address : (s.address rs1 imm : Int) = (s.num rs1 + imm.toInt) % 2 ^ xlenBits s.xlen :=
  Int.toNat_of_nonneg (Int.emod_nonneg _ (Int.ne_of_gt (Int.pow_pos (by decide))))

theorem jalrTarget_eq_ofInt :
    s.jalrTarget rs1 imm = BitVec.ofInt 64 ((s.num rs1 + imm.toInt) % 2 ^ xlenBits s.xlen / 2 * 2) := by
  have h : ((s.jalrTarget rs1 imm).toNat : Int) = (s.num rs1 + imm.toInt) % 2 ^ xlenBits s.xlen / 2 * 2 := by
    rw [State.jalrTarget, toNat_and_not_one, ea_toNat, ← natCast_address]
    norm_cast
  rw [← h, ofInt_toNat]

/-- The link register holds npc; the target was read before it is written (R462, R463). -/
theorem jumpLink_pcPlus (i : Instr) (rd : Reg) : jumpLink i rd (s.pcPlus off) s
    = .next ((s.writeX rd (s.npc i)).retireAt (BitVec.ofInt 64 (s.pc.toNat + off.toInt))) := by
  have hx : (s.writeX rd (s.npc i)).xlen = s.xlen := State.writeX_xlen ..
  rw [jumpLink, pcPlus_eq_norm_ofInt, ← hx, retireAt_norm]

theorem jumpLink_jalrTarget (i : Instr) (rd : Reg) : jumpLink i rd (s.jalrTarget rs1 imm) s
    = .next ((s.writeX rd (s.npc i)).retireAt
        (BitVec.ofInt 64 ((s.num rs1 + imm.toInt) % 2 ^ xlenBits s.xlen / 2 * 2))) := by
  rw [jumpLink, jalrTarget_eq_ofInt]

end Targets

/-- Settles O15: the link and the targets as numbers, and the fields that the decoder reads back. -/
theorem jumpResults : Obligations.JumpResults := by
  unfold Obligations.JumpResults
  intro s rd rs1 off imm
  refine ⟨jumpLink_pcPlus s off (.jal rd off) rd, jumpLink_jalrTarget s rs1 imm (.jalr rd rs1 imm) rd,
    fun h x _ => ?jalWord, fun x _ => ?jalrWord⟩
  case jalWord =>
    rw [decode32_of_jal x (opcode_formatJ ..), fieldRd_formatJ, immJ_formatJ h]
  case jalrWord =>
    rw [decode32_of_jalr x (opcode_formatI ..) (funct3_formatI ..), fieldRd_formatI, fieldRs1_formatI, immI_formatI]

/-! ### Conditions (R465 to R470) -/

section Conditions

variable (s : State) (rs1 rs2 : Reg)

theorem testXlen_condEq : testXlen s.xlen condEq (s.readX rs1) (s.readX rs2) = decide (s.num rs1 = s.num rs2) := by
  rw [testXlen_eq, condEq, ← readX_toNat, ← readX_toNat]
  simp only [Int.natCast_inj, BitVec.toNat_inj]

theorem testXlen_condNe : testXlen s.xlen condNe (s.readX rs1) (s.readX rs2) = decide (s.num rs1 ≠ s.num rs2) := by
  rw [testXlen_eq, condNe, ← readX_toNat, ← readX_toNat]
  simp only [ne_eq, Int.natCast_inj, BitVec.toNat_inj]

theorem testXlen_condLt : testXlen s.xlen condLt (s.readX rs1) (s.readX rs2) = decide (s.signed rs1 < s.signed rs2) := by
  rw [testXlen_eq, condLt, BitVec.slt, readX_toInt, readX_toInt]

theorem testXlen_condGe : testXlen s.xlen condGe (s.readX rs1) (s.readX rs2) = decide (s.signed rs2 ≤ s.signed rs1) := by
  rw [testXlen_eq, condGe, BitVec.slt, readX_toInt, readX_toInt, ← decide_not]
  simp only [Int.not_lt]

theorem testXlen_condLtu : testXlen s.xlen condLtu (s.readX rs1) (s.readX rs2) = decide (s.num rs1 < s.num rs2) := by
  rw [testXlen_eq, condLtu, BitVec.ult, ← readX_toNat, ← readX_toNat]
  simp only [Int.ofNat_lt]

theorem testXlen_condGeu : testXlen s.xlen condGeu (s.readX rs1) (s.readX rs2) = decide (s.num rs2 ≤ s.num rs1) := by
  rw [testXlen_eq, condGeu, BitVec.ult, ← decide_not, ← readX_toNat, ← readX_toNat]
  simp only [Nat.not_lt, Int.ofNat_le]

end Conditions

/-- A branch by its condition as a proposition, its target as a number (R464). -/
theorem branch_of_testXlen {i : Instr} {rs1 rs2 : Reg} {n : Nat} {off : BitVec n}
    {cond : (w : Nat) → BitVec w → BitVec w → Bool} {s : State} {P : Prop} [Decidable P]
    (h : testXlen s.xlen cond (s.readX rs1) (s.readX rs2) = decide P) :
    branch i rs1 rs2 off cond s
      = .next (if P then s.retireAt (BitVec.ofInt 64 (s.pc.toNat + off.toInt)) else s.retire i) := by
  simp only [branch, h, decide_eq_true_eq, retireAt_pcPlus]

/-- The word of a branch is that of its row, by funct3. -/
theorem isWord_branch {off : BitVec 13} {rs2 rs1 : Reg} {f3 : BitVec 3} {i : Instr}
    (hd : decodeBranch (formatB off rs2 rs1 f3 0b1100011#7) = some i) : IsWord (formatB off rs2 rs1 f3 0b1100011#7) i :=
  fun x _ => (decode32_of_branch x (opcode_formatB ..)).trans hd

/-- Settles O16: each condition on the operands as numbers. -/
theorem branchResults : Obligations.BranchResults := by
  unfold Obligations.BranchResults
  intro s rs1 rs2 off
  refine ⟨branch_of_testXlen (testXlen_condEq s rs1 rs2), fun h => isWord_branch ?_,
    branch_of_testXlen (testXlen_condNe s rs1 rs2), fun h => isWord_branch ?_,
    branch_of_testXlen (testXlen_condLt s rs1 rs2), fun h => isWord_branch ?_,
    branch_of_testXlen (testXlen_condGe s rs1 rs2), fun h => isWord_branch ?_,
    branch_of_testXlen (testXlen_condLtu s rs1 rs2), fun h => isWord_branch ?_,
    branch_of_testXlen (testXlen_condGeu s rs1 rs2), fun h => isWord_branch ?_⟩
  all_goals simp [decodeBranch, immB_formatB h]

end Sys2Proof.Machine

/-! ## The words of the loads and stores (30_encoding.md R310, R311, R330) -/

namespace Sys2Proof

section Fields

variable (imm : BitVec 12) (rs2 rs1 : Reg) (f3 : BitVec 3) (op : BitVec 7)

@[simp] theorem opcode_formatS : opcode (formatS imm rs2 rs1 f3 op) = op := opcode_formatR ..
@[simp] theorem funct3_formatS : funct3 (formatS imm rs2 rs1 f3 op) = f3 := funct3_formatR ..
@[simp] theorem fieldRs1_formatS : fieldRs1 (formatS imm rs2 rs1 f3 op) = rs1 := fieldRs1_formatR ..
@[simp] theorem fieldRs2_formatS : fieldRs2 (formatS imm rs2 rs1 f3 op) = rs2 := fieldRs2_formatR ..

@[simp] theorem immS_formatS : immS (formatS imm rs2 rs1 f3 op) = imm := bits_ext fun i hi => by
  simp only [immS, formatS, BitVec.getLsbD_append, formatR_bit, BitVec.getLsbD_extractLsb]
  grind

end Fields

theorem decode32_of_load {w : BitVec 32} (x : Xlen) (h : opcode w = 0b0000011#7) : decode32 x w = decodeLoad x w := by
  simp [decode32, h]

theorem decode32_of_store {w : BitVec 32} (x : Xlen) (h : opcode w = 0b0100011#7) : decode32 x w = decodeStore x w := by
  simp [decode32, h]

theorem decode32_of_loadFp {w : BitVec 32} (x : Xlen) (h : opcode w = 0b0000111#7) : decode32 x w = decodeLoadFp w := by
  simp [decode32, h]

theorem decode32_of_storeFp {w : BitVec 32} (x : Xlen) (h : opcode w = 0b0100111#7) : decode32 x w = decodeStoreFp w := by
  simp [decode32, h]

end Sys2Proof

namespace Sys2Proof.Machine

open Sys2Proof

/-- The bits of a 32-bit load or store are its word in every mode that has it (R330, R340). -/
theorem isWord_bits_access (i : Instr) (h : (i.accesses && decide (i.length = 4)) = true) : IsWord i.bits i := by
  intro x hwf
  cases i
  case lb | lh | lw | lbu | lhu => simp [Instr.bits, decode32_of_load, decodeLoad]
  case ld | lwu =>
    obtain rfl := of_decide_eq_true hwf
    simp [Instr.bits, decode32_of_load, decodeLoad]
  case sb | sh | sw => simp [Instr.bits, decode32_of_store, decodeStore]
  case sd =>
    obtain rfl := of_decide_eq_true hwf
    simp [Instr.bits, decode32_of_store, decodeStore]
  case flw | fld => simp [Instr.bits, decode32_of_loadFp, decodeLoadFp]
  case fsw | fsd => simp [Instr.bits, decode32_of_storeFp, decodeStoreFp]
  all_goals cases h

end Sys2Proof.Machine

/-! ## Loads and stores of DRAM without translation (42_loadstore.md) -/

namespace Sys2Proof.Machine

open Sys2Proof

/-! ### The bytes at an address (R205, R232) -/

/-- The bytes at `a` and above it, as one number. -/
theorem bytesNat_byteAt (s : State) (a n : Nat) : bytesNat (fun k => s.byteAt (a + k)) n = s.leNat a n := by
  induction n generalizing a with
  | zero => rfl
  | succ n ih =>
    rw [bytesNat_succ', State.leNat, ← ih (a + 1)]
    simp only [Nat.add_zero, Nat.add_assoc, Nat.add_comm 1]

section InDram

variable {s : State} {a n : Nat} (hz : s.dramSize ≤ Config.dramSizeDefault) (hin : s.inDram a n = true)
include hz hin

/-- DRAM ends below 2^32, so an access in it does not wrap. -/
theorem byteAddress_of_inDram {k : Nat} (hk : k < n) : s.byteAddress a k = a + k := by
  have h := (inDram_iff.mp hin).2
  simp only [Config.dramSizeDefault] at hz
  simp only [Config.dramBase] at h
  exact Nat.mod_eq_of_lt (Nat.lt_of_lt_of_le (show a + k < 2 ^ 32 by omega)
    (Nat.pow_le_pow_right (by decide) (xlenBits_bounds s.xlen).1))

theorem liesIn_of_inDram : s.liesIn .dram a n := fun k hk => by
  rw [byteAddress_of_inDram hz hin hk, region_eq_dram]
  have h := inDram_iff.mp hin
  omega

/-- An access that is not aligned has the bytes from its address on as its pieces. -/
theorem physPieces_of_inDram (ha : a % n ≠ 0) : s.physPieces a n = bytePieces (a + ·) 0 n := by
  rw [physPieces_misaligned s ha, bytePieces_congr fun k hk => byteAddress_of_inDram hz hin hk]

theorem region_byte_of_inDram {k : Nat} (hk : k < n) : s.region (a + k) = .dram := by
  rw [← byteAddress_of_inDram hz hin hk]
  exact liesIn_of_inDram hz hin k hk

/-- The pieces of an access in DRAM give its number, aligned or not (R234, R236). -/
theorem readPieces_of_inDram (hn0 : 0 < n) (hn8 : n ≤ 8) :
    ∃ w, s.readPieces (s.physPieces a n) = .ok w s ∧ w.toNat = s.leNat a n := by
  by_cases ha : a % n = 0
  · rw [physPieces_aligned s ha]
    exact ⟨_, readPieces_dramOne (region_of_inDram hn0 hin).1 n, readLE_toNat s hn8⟩
  · obtain ⟨w, hr, hw⟩ := readPieces_dram s (a + ·) 0 n hn8 fun k _ hk => region_byte_of_inDram hz hin (by omega)
    simp only [Nat.zero_add] at hw
    exact ⟨w, by rw [physPieces_of_inDram hz hin ha, hr], hw.trans (bytesNat_byteAt s a n)⟩

/-- They take the bytes of a value, aligned or not, and no other byte changes (R234, R237). -/
theorem writePieces_of_inDram (hn0 : 0 < n) (hd : s.dramOk) (v : Word) :
    ∃ m, s.writePieces (s.physPieces a n) v = .ok () { s with dram := m }
      ∧ (∀ k, k < n → Memory.read m (a + k) = (v >>> (8 * k)).setWidth 8)
      ∧ ∀ b, b < a ∨ a + n ≤ b → Memory.read m b = s.byteAt b := by
  by_cases ha : a % n = 0
  · rw [physPieces_aligned s ha]
    exact ⟨_, writePieces_dramOne (region_of_inDram hn0 hin).1 n v, fun k hk => Memory.read_writeLE_in v hk hd.1,
      fun b hb => Memory.read_writeLE_out s.dram v hb⟩
  · obtain ⟨m, hw, hbytes, hrest⟩ := writePieces_dram s (a + ·) 0 n v
      (fun k _ hk => region_byte_of_inDram hz hin (by omega)) hd (fun j k _ hjk _ => by omega)
    simp only [Nat.zero_add] at hbytes hrest
    exact ⟨m, by rw [physPieces_of_inDram hz hin ha, hw], hbytes, fun b hb => hrest b fun k hk => by omega⟩

end InDram

/-! ### A memory access at an effective address (R231, R236, R237, R255) -/

section Access

variable {s : State} {rs1 : Reg} {imm : BitVec 12} {n : Nat} (hz : s.dramSize ≤ Config.dramSizeDefault)
  (hn : n = 1 ∨ n = 2 ∨ n = 4 ∨ n = 8) (hin : s.inDram (s.address rs1 imm) n = true)
include hz hn hin

theorem memRead_of_inDram (ht : s.translating .load = false) :
    ∃ w, s.memRead (s.ea rs1 imm) n = .ok w s ∧ w.toNat = s.leNat (s.address rs1 imm) n := by
  obtain ⟨w, hr, hw⟩ := readPieces_of_inDram hz hin (by omega) (by omega)
  exact ⟨w, by rw [State.memRead, checkAccess_off_mapped ht hn (by decide) (liesIn_of_inDram hz hin), Res.bind_ok, hr], hw⟩

/-- What a store leaves once its instruction retires. -/
theorem memWrite_of_inDram (ht : s.translating .store = false) (hd : s.dramOk) (v : Word) :
    ∃ t, s.memWrite (s.ea rs1 imm) n v = .ok () t ∧ ∀ i, Stored i s (t.retire i) (s.address rs1 imm) n v.toNat := by
  obtain ⟨m, hw, hbytes, hrest⟩ := writePieces_of_inDram hz hin (by omega) hd v
  refine ⟨({ s with dram := m } : State).dropResv, ?_,
    fun i => ⟨retire_dropResv { s with dram := m } i, fun k hk => ?_, hrest⟩⟩
  · rw [State.memWrite, checkAccess_off_mapped ht hn (by decide) (liesIn_of_inDram hz hin), Res.bind_ok, hw, Res.bind_ok]
  · rw [← byte_eq_ofInt]
    exact hbytes k hk

theorem storeAt_of_inDram (ht : s.translating .store = false) (hd : s.dramOk) {i : Instr} {v : Word}
    (he : exec i s = storeAt i (s.ea rs1 imm) n v s) :
    ∃ t, exec i s = .next t ∧ Stored i s t (s.address rs1 imm) n v.toNat := by
  obtain ⟨t, hw, hs⟩ := memWrite_of_inDram hz hn hin ht hd v
  exact ⟨t.retire i, by rw [he, storeAt, hw, Res.complete], hs i⟩

end Access

/-! ### The integer loads and stores (R480 to R493) -/

/-- A load of bytes in DRAM gives its destination their number. -/
theorem load_of_inDram {s : State} {rd rs1 : Reg} {imm : BitVec 12} {i : Instr} {n : Nat} {put : State → Nat → State}
    (h : LoadForm s rd rs1 imm i n put) (ht : s.translating .load = false) (hz : s.dramSize ≤ Config.dramSizeDefault)
    (hin : s.inDram (s.address rs1 imm) n = true) :
    exec i s = .next ((put s (s.leNat (s.address rs1 imm) n)).retire i) := by
  obtain ⟨w, hr, hw⟩ := memRead_of_inDram hz (loadForm_width h) hin ht
  obtain ⟨g, he, hg⟩ := loadForm_exec h
  rw [he, hr, Res.complete, hg s w rfl (by rw [hw]; exact leNat_lt ..), hw]

/-- A natural number counts as itself. -/
theorem writes_of_ofNat {i : Instr} {s : State} {rd : Reg} {v : Nat}
    (he : exec i s = .next ((s.writeX rd (BitVec.ofNat 64 v)).retire i)) : Writes i s rd v := by
  rw [Writes, he, BitVec.ofInt_natCast]

/-- Settles O18: a load form reads the number of the bytes, and its destination takes it as its rule says. -/
theorem loadResults : Obligations.LoadResults := by
  unfold Obligations.LoadResults
  intro s rd rs1 imm ht hz a
  exact ⟨load_of_inDram .lb ht hz, load_of_inDram .lh ht hz, load_of_inDram .lw ht hz,
    fun hin => writes_of_ofNat (load_of_inDram .lbu ht hz hin),
    fun hin => writes_of_ofNat (load_of_inDram .lhu ht hz hin),
    fun h64 hin => writes_of_ofNat (load_of_inDram (.ld h64) ht hz hin),
    fun h64 hin => writes_of_ofNat (load_of_inDram (.lwu h64) ht hz hin),
    fun h32 => ⟨illegal_of_inMode rfl h32, illegal_of_inMode rfl h32⟩,
    isWord_bits_access (.lb rd rs1 imm) rfl, isWord_bits_access (.lh rd rs1 imm) rfl,
    isWord_bits_access (.lw rd rs1 imm) rfl, isWord_bits_access (.ld rd rs1 imm) rfl,
    isWord_bits_access (.lbu rd rs1 imm) rfl, isWord_bits_access (.lhu rd rs1 imm) rfl,
    isWord_bits_access (.lwu rd rs1 imm) rfl⟩

/-- Settles O19: a store of rs2 leaves what `Stored` says at its effective address. -/
theorem storeResults : Obligations.StoreResults := by
  unfold Obligations.StoreResults
  intro s rs1 rs2 imm ht hz hd a v
  have stored {n : Nat} (hn : n = 1 ∨ n = 2 ∨ n = 4 ∨ n = 8) (hin : s.inDram a n = true) {i : Instr}
      (he : exec i s = store i rs1 rs2 imm n s) : ∃ t, exec i s = .next t ∧ Stored i s t a n v :=
    storeAt_of_inDram hz hn hin ht hd he
  exact ⟨fun hin => stored (by decide) hin rfl, fun hin => stored (by decide) hin rfl,
    fun hin => stored (by decide) hin rfl, fun h64 hin => stored (by decide) hin (inMode_of_eq h64),
    illegal_of_inMode rfl,
    isWord_bits_access (.sb rs1 rs2 imm) rfl, isWord_bits_access (.sh rs1 rs2 imm) rfl,
    isWord_bits_access (.sw rs1 rs2 imm) rfl, isWord_bits_access (.sd rs1 rs2 imm) rfl⟩

/-! ### The floating-point loads and stores (R71, R495 to R499) -/

section Float

variable {s : State} {rs1 : Reg} {imm : BitVec 12} {n : Nat} (hf : s.mstatus.fs ≠ 0)
include hf

/-- With FS not Off the gate is open (R71). -/
theorem fpGate_of_fs (i : Instr) (k : Host.Outcome State Fault Refusal) : fpGate i s k = k :=
  if_neg (by simpa [Mstatus.fsOff] using hf)

theorem fpLoad_of_inDram (ht : s.translating .load = false) (hz : s.dramSize ≤ Config.dramSizeDefault)
    (hn : n = 1 ∨ n = 2 ∨ n = 4 ∨ n = 8) (hin : s.inDram (s.address rs1 imm) n = true) (i : Instr) (rd : Reg)
    {box : Word → BitVec 64} {v : BitVec 64} (hbox : ∀ w, w.toNat = s.leNat (s.address rs1 imm) n → box w = v) :
    fpLoad i rd rs1 imm n box s = .next (((s.writeF rd v).setFsDirty).retire i) := by
  obtain ⟨w, hr, hw⟩ := memRead_of_inDram hz hn hin ht
  rw [fpLoad, fpGate_of_fs hf, hr, Res.complete, hbox w hw]

end Float

/-- The box of a single, as a number: 32 ones above it (R58). -/
theorem boxSingle_eq_ofNat {w : Word} {v : Nat} (hw : w.toNat = v) (hv : v < 2 ^ 32) :
    boxSingle w = BitVec.ofNat 64 (0xFFFFFFFF * 2 ^ 32 + v) := by
  subst hw
  apply BitVec.eq_of_toNat_eq
  have h : (boxSingle w).toNat = (0xFFFFFFFF#32).toNat <<< 32 ||| (w.setWidth 32).toNat := BitVec.toNat_append ..
  rw [h, BitVec.toNat_setWidth, Nat.mod_eq_of_lt hv, Nat.shiftLeft_eq, Nat.mul_comm, ← Nat.two_pow_add_eq_or_of_lt hv,
    BitVec.toNat_ofNat, BitVec.toNat_ofNat]
  omega

theorem boxDouble_eq_ofNat {w : Word} {v : Nat} (hw : w.toNat = v) : boxDouble w = BitVec.ofNat 64 v := by
  rw [← hw, boxDouble, BitVec.ofNat_toNat, BitVec.setWidth_eq]

/-- Settles O21: a floating-point load gives f[rd] the box of the number of the bytes. -/
theorem floatLoadResults : Obligations.FloatLoadResults := by
  unfold Obligations.FloatLoadResults
  intro s rd rs1 imm rd' r o7 o8 o9 hf ht hz
  have single (i : Instr) (d b : Reg) (off : BitVec 12) (hin : s.inDram (s.address b off) 4 = true) :=
    fpLoad_of_inDram hf ht hz (by decide) hin i d fun w hw => boxSingle_eq_ofNat hw (leNat_lt s _ 4)
  have pair (i : Instr) (d b : Reg) (off : BitVec 12) (hin : s.inDram (s.address b off) 8 = true) :=
    fpLoad_of_inDram hf ht hz (by decide) hin i d fun w hw => boxDouble_eq_ofNat hw
  exact ⟨single (.flw rd rs1 imm) rd rs1 imm, pair (.fld rd rs1 imm) rd rs1 imm,
    pair (.cFld rd' r o8) (creg rd') (creg r) (o8.setWidth 12), pair (.cFldsp rd o9) rd 2#5 (o9.setWidth 12),
    fun h32 => ⟨fun hin => (inMode_of_eq h32).trans (single (.cFlw rd' r o7) (creg rd') (creg r) (o7.setWidth 12) hin),
      fun hin => (inMode_of_eq h32).trans (single (.cFlwsp rd o8) rd 2#5 (o8.setWidth 12) hin)⟩,
    fun h64 => ⟨inMode_of_ne (by rw [h64]; decide), inMode_of_ne (by rw [h64]; decide)⟩,
    isWord_bits_access (.flw rd rs1 imm) rfl, isWord_bits_access (.fld rd rs1 imm) rfl⟩

/-- Settles O22: a floating-point store is a store of f[rs2] behind an open gate. -/
theorem floatStoreResults : Obligations.FloatStoreResults := by
  unfold Obligations.FloatStoreResults
  intro s rs1 rs2 imm r q o7 o8 o9 hf ht hz hd
  have stored {i : Instr} (b c : Reg) (off : BitVec 12) {n : Nat} (hn : n = 1 ∨ n = 2 ∨ n = 4 ∨ n = 8)
      (hin : s.inDram (s.address b off) n = true) (he : exec i s = fpStore i b c off n s) :
      ∃ t, exec i s = .next t ∧ Stored i s t (s.address b off) n (s.readF c).toNat :=
    storeAt_of_inDram hz hn hin ht hd (he.trans (fpGate_of_fs hf ..))
  exact ⟨fun hin => stored rs1 rs2 imm (by decide) hin rfl, fun hin => stored rs1 rs2 imm (by decide) hin rfl,
    fun hin => stored (creg r) (creg q) (o8.setWidth 12) (by decide) hin rfl,
    fun hin => stored 2#5 rs2 (o9.setWidth 12) (by decide) hin rfl,
    fun h32 => ⟨fun hin => stored (creg r) (creg q) (o7.setWidth 12) (by decide) hin (inMode_of_eq h32),
      fun hin => stored 2#5 rs2 (o8.setWidth 12) (by decide) hin (inMode_of_eq h32)⟩,
    fun h64 => ⟨inMode_of_ne (by rw [h64]; decide), inMode_of_ne (by rw [h64]; decide)⟩,
    isWord_bits_access (.fsw rs1 rs2 imm) rfl, isWord_bits_access (.fsd rs1 rs2 imm) rfl⟩

end Sys2Proof.Machine

/-! ## What a load or store can change (42_loadstore.md R480, R481, R495) -/

namespace Sys2Proof.Machine

open Sys2Proof

/-! ### Fields that an access keeps -/

section Accessed

variable {s t : State} (h : Accessed s t)
include h

theorem Accessed.f : t.f = s.f := by rw [h.eq]
theorem Accessed.mcycle : t.mcycle = s.mcycle := by rw [h.eq]
theorem Accessed.minstret : t.minstret = s.minstret := by rw [h.eq]
theorem Accessed.eip0 : t.eip0 = s.eip0 := by rw [h.eq]
theorem Accessed.eip1 : t.eip1 = s.eip1 := by rw [h.eq]
theorem Accessed.disk : t.disk = s.disk := by rw [h.eq]
theorem Accessed.ttyIn : t.ttyIn = s.ttyIn := by rw [h.eq]
theorem Accessed.tohost : t.tohost = s.tohost := by rw [h.eq]
theorem Accessed.npc (i : Instr) : t.npc i = s.npc i := by rw [State.npc, h.xlen, h.pc, State.npc]

end Accessed

section MemoryAccess

variable {s u : State} {va : Word} {n : Nat}

theorem memRead_accessed {w : Word} (h : s.memRead va n = .ok w u) : Accessed s u := by
  have hr := memRead_reaches s va n
  rw [h] at hr
  exact hr

theorem memRead_trap_accessed {e : Exc} {w : Word} (h : s.memRead va n = .trap e w u) : Accessed s u := by
  have hr := memRead_reaches s va n
  rw [h] at hr
  exact hr

/-- A store that completes drops the reservation after its access (R540). -/
theorem memWrite_dropResv {v : Word} (h : s.memWrite va n v = .ok () u) : ∃ t, u = t.dropResv ∧ Accessed s t := by
  obtain ⟨t, hok, ht⟩ | ⟨e, w, t, htrap, -⟩ | ⟨f, hfatal⟩ := memWrite_cases s va n v
  · rw [h] at hok
    cases hok
    exact ⟨t, rfl, ht⟩
  · rw [h] at htrap
    cases htrap
  · rw [h] at hfatal
    cases hfatal

theorem memWrite_trap_accessed {v w : Word} {e : Exc} (h : s.memWrite va n v = .trap e w u) : Accessed s u := by
  obtain ⟨t, hok, -⟩ | ⟨e', w', t, htrap, ht⟩ | ⟨f, hfatal⟩ := memWrite_cases s va n v
  · rw [h] at hok
    cases hok
  · rw [h] at htrap
    cases htrap
    exact ht
  · rw [h] at hfatal
    cases hfatal

end MemoryAccess

/-! ### Bytes of DRAM that an access keeps -/

/-- `t` has the byte of DRAM at `b` that `s` has. -/
def KeepsByte (b : Nat) (s t : State) : Prop := t.byteAt b = s.byteAt b

theorem KeepsByte.of_dram {b : Nat} {s t : State} (h : t.dram = s.dram) : KeepsByte b s t := by
  rw [KeepsByte, State.byteAt, h, State.byteAt]

theorem KeepsByte.trans {b : Nat} {s t u : State} (h : KeepsByte b s t) (k : KeepsByte b t u) : KeepsByte b s u :=
  Eq.trans k h

section Devices

variable (s : State) (r : Region) (off : Nat)

theorem deviceRead32_dram : (s.deviceRead32 r off).2.dram = s.dram := by
  cases r <;> rfl

theorem deviceWrite32_dram (v : BitVec 32) : (s.deviceWrite32 r off v).dram = s.dram := by
  cases r <;> rfl

theorem uartReads_dram (n : Nat) : (s.uartReads off n).2.dram = s.dram := by
  induction n generalizing s off with
  | zero => rfl
  | succ n ih => exact ih (s.uartRead off).2 (off + 1)

theorem uartWrite_dram (v : Byte) : (s.uartWrite off v).dram = s.dram := by
  unfold State.uartWrite
  dsimp only
  split <;> rfl

theorem uartWrites_dram (n : Nat) (v : Word) : (s.uartWrites off n v).dram = s.dram := by
  induction n generalizing s off v with
  | zero => rfl
  | succ n ih => exact (ih (s.uartWrite off (v.setWidth 8)) (off + 1) (v >>> 8)).trans (uartWrite_dram s off _)

theorem wordDeviceRead_keepsByte (n b : Nat) : (s.wordDeviceRead r off n).Reaches (KeepsByte b) s := by
  unfold State.wordDeviceRead
  split
  · exact .of_dram (deviceRead32_dram s r off)
  · split
    · exact .of_dram ((deviceRead32_dram _ r (off + 4)).trans (deviceRead32_dram s r off))
    · trivial

theorem wordDeviceWrite_keepsByte (n b : Nat) (v : Word) : (s.wordDeviceWrite r off n v).Reaches (KeepsByte b) s := by
  unfold State.wordDeviceWrite
  split
  · exact .of_dram (deviceWrite32_dram s r off _)
  · split
    · exact .of_dram ((deviceWrite32_dram _ r (off + 4) _).trans (deviceWrite32_dram s r off _))
    · trivial

end Devices

theorem physRead_keepsByte (s : State) (pa n b : Nat) : (s.physRead pa n).Reaches (KeepsByte b) s := by
  unfold State.physRead
  cases s.region pa with
  | clint | plic | virtio => exact wordDeviceRead_keepsByte ..
  | uart => exact .of_dram (uartReads_dram ..)
  | dram | unmapped => exact .of_dram rfl

theorem physWrite_keepsByte (s : State) {pa n b : Nat} (v : Word) (hb : b < pa ∨ pa + n ≤ b) :
    (s.physWrite pa n v).Reaches (KeepsByte b) s := by
  unfold State.physWrite
  cases s.region pa with
  | clint | plic | virtio => exact wordDeviceWrite_keepsByte ..
  | uart => exact .of_dram (uartWrites_dram ..)
  | dram => exact Memory.read_writeLE_out s.dram v hb
  | unmapped => exact .of_dram rfl

theorem readPieces_keepsByte (s : State) (ps : List Piece) (b : Nat) : (s.readPieces ps).Reaches (KeepsByte b) s := by
  induction ps generalizing s with
  | nil => exact .of_dram rfl
  | cons p ps ih =>
    exact (physRead_keepsByte s p.1 p.2 b).bind .trans fun w t _ =>
      (ih t).bind .trans fun rest u _ => KeepsByte.of_dram (s := u) rfl

theorem writePieces_keepsByte (s : State) {ps : List Piece} {b : Nat} (v : Word)
    (hb : ∀ p ∈ ps, b < p.1 ∨ p.1 + p.2 ≤ b) : (s.writePieces ps v).Reaches (KeepsByte b) s := by
  induction ps generalizing s v with
  | nil => exact .of_dram rfl
  | cons p ps ih =>
    rw [List.forall_mem_cons] at hb
    exact (physWrite_keepsByte s v hb.1).bind .trans fun _ t _ => ih t _ hb.2

/-! ### Bytes kept without translation -/

/-- An aligned access does not wrap: 2^XLEN is a multiple of its width. -/
theorem aligned_end_le {x : Xlen} {a n : Nat} (hn : n = 1 ∨ n = 2 ∨ n = 4 ∨ n = 8) (ha : a < 2 ^ xlenBits x)
    (hal : a % n = 0) : a + n ≤ 2 ^ xlenBits x := by
  cases x <;> simp only [xlenBits] at ha ⊢ <;> rcases hn with rfl | rfl | rfl | rfl <;> omega

/-- A byte at none of the addresses of an access is outside its pieces. -/
theorem outside_physPieces {s : State} {a n b : Nat} (hn : n = 1 ∨ n = 2 ∨ n = 4 ∨ n = 8) (ha : a < 2 ^ xlenBits s.xlen)
    (hb : ∀ k, k < n → b ≠ s.byteAddress a k) {p : Piece} (hp : p ∈ s.physPieces a n) :
    b < p.1 ∨ p.1 + p.2 ≤ b := by
  by_cases hal : a % n = 0
  · rw [physPieces_aligned s hal, List.mem_singleton] at hp
    subst hp
    have hend := aligned_end_le hn ha hal
    have hout : ¬ (a ≤ b ∧ b < a + n) := fun ⟨hle, hlt⟩ => by
      obtain ⟨k, rfl⟩ := Nat.exists_eq_add_of_le hle
      exact hb k (by omega) (Nat.mod_eq_of_lt (by omega)).symm
    dsimp only
    omega
  · rw [physPieces_misaligned s hal, bytePieces, List.mem_map] at hp
    obtain ⟨k, hk, rfl⟩ := hp
    have h := hb k (by rw [List.mem_range'_1] at hk; omega)
    omega

section Off

variable {s u : State} {b n : Nat}

theorem checkAccess_off_cases {k : Access} (ht : s.translating k = false) (ea : Word) (n : Nat) :
    s.checkAccess k ea n = .ok (s.physPieces ea.toNat n) s ∨ s.checkAccess k ea n = .trap k.accessFault ea s := by
  rw [checkAccess_off ht]
  by_cases hok : s.piecesOk (s.physPieces ea.toNat n) = true
  · exact .inl (if_pos hok)
  · exact .inr (if_neg hok)

theorem memRead_off_keepsByte {ea w : Word} (ht : s.translating .load = false) (h : s.memRead ea n = .ok w u) (b : Nat) :
    KeepsByte b s u := by
  rw [State.memRead] at h
  obtain hc | hc := checkAccess_off_cases ht ea n
  · have hr := readPieces_keepsByte s (s.physPieces ea.toNat n) b
    rw [hc, Res.bind_ok] at h
    rw [h] at hr
    exact hr
  · rw [hc] at h
    cases h

theorem memWrite_off_keepsByte {rs1 : Reg} {imm : BitVec 12} {v : Word} (ht : s.translating .store = false)
    (hn : n = 1 ∨ n = 2 ∨ n = 4 ∨ n = 8) (h : s.memWrite (s.ea rs1 imm) n v = .ok () u)
    (hb : ∀ k, k < n → b ≠ s.byteAddress (s.address rs1 imm) k) : KeepsByte b s u := by
  rw [State.memWrite] at h
  obtain hc | hc := checkAccess_off_cases ht (s.ea rs1 imm) n
  · have hw := writePieces_keepsByte s (ps := s.physPieces (s.address rs1 imm) n) v fun p =>
      outside_physPieces hn (address_lt s rs1 imm) hb
    rw [hc, Res.bind_ok, ea_toNat] at h
    obtain ⟨_, t, hok, hdrop⟩ := Res.bind_eq_ok h
    cases hdrop
    rw [hok] at hw
    exact hw
  · rw [hc] at h
    cases h

end Off

/-! ### The forms of a load or store -/

/-- What a load or store does in `s`: it is illegal there, or it is a load, a floating-point load or a store of `n` bytes at its
effective address. -/
inductive AccessForm (i : Instr) (s : State) (base : Reg) (imm : BitVec 12) (n : Nat) : Prop
  | illegal (he : exec i s = raiseIllegal i s)
  | load {rd : Reg} {ext : Xlen → Word → Word} (hx : i.dest = some rd) (hf : i.fdest = none) (hs : i.stores = false)
      (he : exec i s = load i rd base imm n ext s)
  | loadF {rd : Reg} {box : Word → BitVec 64} (hx : i.dest = none) (hf : i.fdest = some rd) (hs : i.stores = false)
      (he : exec i s
        = (s.memRead (s.ea base imm) n).complete fun v u => ((u.writeF rd (box v)).setFsDirty).retire i)
  | store {v : Word} (hx : i.dest = none) (hf : i.fdest = none) (hs : i.stores = true)
      (he : exec i s = storeAt i (s.ea base imm) n v s)

section Forms

variable {i : Instr} {s : State} {k : Host.Outcome State Fault Refusal}

theorem illegal_or_of_inMode {x : Xlen} (he : exec i s = inMode x i s k) : exec i s = raiseIllegal i s ∨ exec i s = k := by
  by_cases hx : s.xlen = x
  · exact .inr (he.trans (inMode_of_eq hx))
  · exact .inl (he.trans (inMode_of_ne hx))

theorem illegal_or_of_fpGate (he : exec i s = fpGate i s k) : exec i s = raiseIllegal i s ∨ exec i s = k := by
  by_cases hoff : s.mstatus.fsOff = true
  · exact .inl (he.trans (if_pos hoff))
  · exact .inr (he.trans (if_neg hoff))

end Forms

theorem accessForm_of_access {i : Instr} {base : Reg} {imm : BitVec 12} {n : Nat} (s : State)
    (ha : i.access = some (base, imm, n)) : AccessForm i s base imm n := by
  cases i <;> cases ha
  case lb | lh | lw | lbu | lhu | cLw | cLwsp => exact .load rfl rfl rfl rfl
  case ld | lwu | cLd | cLdsp => exact (illegal_or_of_inMode rfl).elim .illegal (.load rfl rfl rfl)
  case flw | fld | cFld | cFldsp => exact (illegal_or_of_fpGate rfl).elim .illegal (.loadF rfl rfl rfl)
  case cFlw | cFlwsp =>
    exact (illegal_or_of_inMode rfl).elim .illegal fun he =>
      (illegal_or_of_fpGate he).elim .illegal (.loadF rfl rfl rfl)
  case sb | sh | sw | cSw | cSwsp => exact .store rfl rfl rfl rfl
  case sd | cSd | cSdsp => exact (illegal_or_of_inMode rfl).elim .illegal (.store rfl rfl rfl)
  case fsw | fsd | cFsd | cFsdsp => exact (illegal_or_of_fpGate rfl).elim .illegal (.store rfl rfl rfl)
  case cFsw | cFswsp =>
    exact (illegal_or_of_inMode rfl).elim .illegal fun he =>
      (illegal_or_of_fpGate he).elim .illegal (.store rfl rfl rfl)

theorem access_width {i : Instr} {base : Reg} {imm : BitVec 12} {n : Nat} (ha : i.access = some (base, imm, n)) :
    n = 1 ∨ n = 2 ∨ n = 4 ∨ n = 8 := by
  cases i <;> cases ha <;> decide

/-! ### A load or store that retires -/

/-- How a load or store got from `s` to the state it retired in. -/
inductive RetiredAccess (i : Instr) (s : State) (base : Reg) (imm : BitVec 12) (n : Nat) : State → Prop
  | load {rd : Reg} {w v : Word} {u : State} (hx : i.dest = some rd) (hf : i.fdest = none) (hs : i.stores = false)
      (hr : s.memRead (s.ea base imm) n = .ok w u) : RetiredAccess i s base imm n ((u.writeX rd v).retire i)
  | loadF {rd : Reg} {w : Word} {v : BitVec 64} {u : State} (hx : i.dest = none) (hf : i.fdest = some rd)
      (hs : i.stores = false) (hr : s.memRead (s.ea base imm) n = .ok w u) :
      RetiredAccess i s base imm n (((u.writeF rd v).setFsDirty).retire i)
  | store {v : Word} {u : State} (hx : i.dest = none) (hf : i.fdest = none) (hs : i.stores = true)
      (hw : s.memWrite (s.ea base imm) n v = .ok () u) : RetiredAccess i s base imm n (u.retire i)

/-- A trap retires nothing (R750). -/
theorem trapStep_minstret_ne {s u : State} (hu : u.minstret = s.minstret) (c : Cause) (v : Word) :
    (trapStep c v u).minstret ≠ s.minstret + 1 := by
  rw [trapStep_minstret, hu]
  bv_omega

/-- An instruction that retires had its last operation succeed. -/
theorem complete_of_retired {α : Type} {r : Res α} {k : α → State → State} {s t : State} (h : r.complete k = .next t)
    (hm : t.minstret = s.minstret + 1) (htrap : ∀ e v u, r = .trap e v u → Accessed s u) :
    ∃ a u, r = .ok a u ∧ t = k a u := by
  obtain hok | ⟨e, v, u, hr, rfl⟩ := Res.complete_eq_next h
  · exact hok
  · exact absurd hm (trapStep_minstret_ne (htrap e v u hr).minstret _ _)

theorem retiredAccess_of_exec {i : Instr} {s t : State} {base : Reg} {imm : BitVec 12} {n : Nat}
    (ha : i.access = some (base, imm, n)) (he : exec i s = .next t) (hm : t.minstret = s.minstret + 1) :
    RetiredAccess i s base imm n t := by
  cases accessForm_of_access s ha with
  | illegal hi =>
    rw [hi] at he
    cases he
    exact absurd hm (trapStep_minstret_ne rfl _ _)
  | load hx hf hs hi =>
    obtain ⟨w, u, hr, rfl⟩ := complete_of_retired (hi.symm.trans he) hm fun _ _ _ => memRead_trap_accessed
    exact .load hx hf hs hr
  | loadF hx hf hs hi =>
    obtain ⟨w, u, hr, rfl⟩ := complete_of_retired (hi.symm.trans he) hm fun _ _ _ => memRead_trap_accessed
    exact .loadF hx hf hs hr
  | store hx hf hs hi =>
    obtain ⟨_, u, hw, rfl⟩ := complete_of_retired (hi.symm.trans he) hm fun _ _ _ => memWrite_trap_accessed
    exact .store hx hf hs hw

/-- `t` is `s` after an instruction `i` that accessed memory and retired: no CSR differs but mstatus in FS, and of the rest only
what an access and a register write can change. -/
def AccessKept (i : Instr) (s t : State) : Prop :=
  t = { s with x := t.x, f := t.f, pc := s.npc i, mstatus := { s.mstatus with fs := t.mstatus.fs }, mcycle := s.mcycle + 1,
               minstret := s.minstret + 1, resv := t.resv, tlb := t.tlb, tlbDraws := t.tlbDraws, tlbDrawn := t.tlbDrawn,
               dram := t.dram, clint := t.clint, plic := t.plic, uart := t.uart, virtio := t.virtio, ttyOut := t.ttyOut }

theorem State.retire_eq (s : State) (i : Instr) :
    s.retire i = { s with pc := s.npc i, mcycle := s.mcycle + 1, minstret := s.minstret + 1 } := by
  have h : norm s.xlen (s.npc i) = s.npc i := State.norm_npc s i
  show ({ s with pc := norm s.xlen (s.npc i), mcycle := s.mcycle + 1, minstret := s.minstret + 1 } : State) = _
  rw [h]

section Retired

variable {i : Instr} {s t : State} {base : Reg} {imm : BitVec 12} {n : Nat} (h : RetiredAccess i s base imm n t)
include h

theorem RetiredAccess.kept : AccessKept i s t := by
  unfold AccessKept
  cases h with
  | load hx hf hs hr =>
    rw [State.retire_eq, (memRead_accessed hr).eq]
    unfold State.writeX
    split <;> rfl
  | loadF hx hf hs hr =>
    rw [State.retire_eq, (memRead_accessed hr).eq]
    rfl
  | store hx hf hs hw =>
    obtain ⟨u, rfl, hu⟩ := memWrite_dropResv hw
    rw [State.retire_eq, hu.eq]
    rfl

/-- FS is kept or Dirty (R71). -/
theorem RetiredAccess.fs : t.mstatus.fs = s.mstatus.fs ∨ t.mstatus.fs = 3 := by
  cases h with
  | load hx hf hs hr =>
    left
    rw [State.retire_mstatus, State.writeX_mstatus, (memRead_accessed hr).mstatus]
  | loadF hx hf hs hr => exact .inr rfl
  | store hx hf hs hw =>
    obtain ⟨u, rfl, hu⟩ := memWrite_dropResv hw
    left
    rw [State.retire_mstatus, State.dropResv_mstatus, hu.mstatus]

end Retired

theorem State.readF_of_f {s t : State} (h : t.f = s.f) (r : Reg) : t.readF r = s.readF r := by
  simp [State.readF, h]

/-- Settles O26: the three ways to retire, each by what its access and its register write change. -/
theorem accessFrame : Obligations.AccessFrame := by
  unfold Obligations.AccessFrame
  intro i s t hacc he hm
  obtain ⟨⟨base, imm, n⟩, ha⟩ := Option.isSome_iff_exists.mp hacc
  have hret := retiredAccess_of_exec ha he hm
  have kept {β : Type} (field : State → β) := congrArg field hret.kept
  refine ⟨kept State.pc, kept State.mcycle, kept State.priv, kept State.csr,
    kept State.xlen, kept State.mstatus, hret.fs, kept State.eip0, kept State.eip1,
    kept State.disk, kept State.ttyIn, kept State.tohost, kept State.dramSize, ?_⟩
  cases hret with
  | @load rd w v u hx hf hs hr =>
    have hu := memRead_accessed hr
    have hkf : ((u.writeX rd v).retire i).f = s.f := (State.writeX_f ..).trans hu.f
    refine ⟨fun r hne => ?_, fun r _ => State.readF_of_f hkf r,
      fun _ => ⟨hkf, (State.writeX_mstatus ..).trans hu.mstatus⟩, fun h => absurd h (by simp [hs]),
      fun _ => (State.writeX_resv ..).trans hu.resv,
      fun _ ht b => (memRead_off_keepsByte ht hr b).trans (.of_dram (State.writeX_dram ..)), fun h => absurd h (by simp [hs])⟩
    have hrd : r ≠ rd := fun e => hne (by rw [hx, e])
    rw [State.readX_of_x (State.retire_x ..) (State.retire_xlen ..), State.readX_writeX_ne u v hrd,
      State.readX_of_x hu.x hu.xlen]
  | @loadF rd w v u hx hf hs hr =>
    have hu := memRead_accessed hr
    refine ⟨fun r _ => State.readX_of_x hu.x hu.xlen r, fun r hne => ?_, fun h => absurd h (by simp [hx, hs]),
      fun h => absurd h (by simp [hs]), fun _ => hu.resv, fun _ ht b => memRead_off_keepsByte ht hr b,
      fun h => absurd h (by simp [hs])⟩
    have hrd : r ≠ rd := fun e => hne (by rw [hf, e])
    exact (State.readF_writeF_ne u v hrd).trans (State.readF_of_f hu.f r)
  | store hx hf hs hw =>
    have hbytes {b : Nat} (ht : s.translating .store = false) := memWrite_off_keepsByte (b := b) ht (access_width ha) hw
    obtain ⟨u, rfl, hu⟩ := memWrite_dropResv hw
    refine ⟨fun r _ => State.readX_of_x hu.x hu.xlen r, fun r _ => State.readF_of_f hu.f r, fun _ => ⟨hu.f, hu.mstatus⟩,
      fun _ => ⟨hu.x, rfl⟩, fun h => absurd h (by simp [hs]), fun h => absurd h (by simp [hs]),
      fun _ ht base' imm' n' ha' b hb => ?_⟩
    rw [ha] at ha'
    cases ha'
    exact hbytes ht hb

end Sys2Proof.Machine

/-! ## Multiply and divide (43_muldiv.md) -/

namespace Sys2Proof.Machine

open Sys2Proof

/-! ### Products and quotients at a width (R511 to R519) -/

section MultiplyDivide

variable {w : Nat} {a b : BitVec w} {k m n u : Int}

theorem mulLow_eq_ofInt (ha : a = BitVec.ofInt w m) (hb : b = BitVec.ofInt w n) : mulLow w a b = BitVec.ofInt w (m * n) := by
  rw [mulLow, ha, hb, BitVec.ofInt_mul]

theorem mulHighSS_eq_ofInt (ha : a.toInt = m) (hb : b.toInt = n) : mulHighSS w a b = BitVec.ofInt w (m * n / 2 ^ w) := by
  rw [mulHighSS, highHalf, ha, hb]

theorem mulHighSU_eq_ofInt (ha : a.toInt = m) (hb : (b.toNat : Int) = n) :
    mulHighSU w a b = BitVec.ofInt w (m * n / 2 ^ w) := by
  rw [mulHighSU, highHalf, ha, hb]

theorem mulHighUU_eq_ofInt (ha : (a.toNat : Int) = m) (hb : (b.toNat : Int) = n) :
    mulHighUU w a b = BitVec.ofInt w (m * n / 2 ^ w) := by
  rw [mulHighUU, highHalf, ha, hb]

theorem allOnes_eq_ofInt (w : Nat) : BitVec.allOnes w = BitVec.ofInt w (-1) := by
  rw [← BitVec.neg_one_eq_allOnes, BitVec.ofInt_neg, BitVec.ofInt_ofNat]

/-- A choice by a zero divisor is one of numbers. -/
theorem ite_zero_eq_ofInt {c d : BitVec w} (hb : (b.toNat : Int) = u) (hc : c = BitVec.ofInt w m)
    (hd : d = BitVec.ofInt w n) : (if b = 0 then c else d) = BitVec.ofInt w (if u = 0 then m else n) := by
  have hz : b = 0 ↔ u = 0 := by rw [← hb, Int.natCast_eq_zero, ← BitVec.toNat_inj, BitVec.ofNat_eq_ofNat, BitVec.toNat_zero]
  simp only [hz, hc, hd, apply_ite (BitVec.ofInt w)]

theorem divSigned_eq_ofInt (hu : (b.toNat : Int) = u) (ha : a.toInt = m) (hb : b.toInt = n) :
    divSigned w a b = BitVec.ofInt w (if u = 0 then -1 else m.tdiv n) :=
  ite_zero_eq_ofInt hu (allOnes_eq_ofInt w) (by rw [ha, hb])

theorem divUnsigned_eq_ofInt (ha : (a.toNat : Int) = m) (hb : (b.toNat : Int) = n) :
    divUnsigned w a b = BitVec.ofInt w (if n = 0 then -1 else m / n) :=
  ite_zero_eq_ofInt hb (allOnes_eq_ofInt w) (by rw [← ha, ← hb, ← Int.natCast_ediv, BitVec.ofInt_natCast])

theorem remSigned_eq_ofInt (hu : (b.toNat : Int) = u) (hk : a = BitVec.ofInt w k) (ha : a.toInt = m) (hb : b.toInt = n) :
    remSigned w a b = BitVec.ofInt w (if u = 0 then k else m.tmod n) :=
  ite_zero_eq_ofInt hu hk (by rw [ha, hb])

theorem remUnsigned_eq_ofInt (hk : a = BitVec.ofInt w k) (ha : (a.toNat : Int) = m) (hb : (b.toNat : Int) = n) :
    remUnsigned w a b = BitVec.ofInt w (if n = 0 then k else m % n) :=
  ite_zero_eq_ofInt hb hk (by rw [← ha, ← hb, ← Int.natCast_emod, BitVec.ofInt_natCast])

/-- `2^(w-1)` is its own negation modulo `2^w`. -/
theorem ofInt_neg_two_pow_pred (w : Nat) : BitVec.ofInt w (-2 ^ (w - 1)) = BitVec.ofInt w (2 ^ (w - 1)) := by
  have hmin : BitVec.ofInt w (2 ^ (w - 1)) = BitVec.intMin w := by
    rw [BitVec.intMin, ← BitVec.toNat_inj, BitVec.toNat_ofInt, BitVec.toNat_twoPow]; norm_cast
  rw [BitVec.ofInt_neg, hmin, BitVec.neg_intMin]

theorem ne_zero_of_toInt_neg_one (hb : b.toInt = -1) : b ≠ 0 := by
  rintro rfl
  rw [BitVec.ofNat_eq_ofNat, BitVec.toInt_zero] at hb
  cases hb

section Overflow

variable (ha : a.toInt = -2 ^ (w - 1)) (hb : b.toInt = -1)
include ha hb

theorem divSigned_overflow : divSigned w a b = BitVec.ofInt w (-2 ^ (w - 1)) := by
  rw [divSigned, if_neg (ne_zero_of_toInt_neg_one hb), ha, hb, Int.tdiv_neg, Int.tdiv_one, Int.neg_neg,
    ofInt_neg_two_pow_pred]

theorem remSigned_overflow : remSigned w a b = BitVec.ofInt w 0 := by
  rw [remSigned, if_neg (ne_zero_of_toInt_neg_one hb), ha, hb, Int.tmod_neg, Int.tmod_one]

end Overflow

end MultiplyDivide

/-! ### The multiply and divide rows (R510 to R524) -/

/-- What a form on rs1 and rs2 at the width XLEN writes. -/
theorem writes_of_atXlen {i : Instr} {rd rs1 rs2 : Reg} {s : State} {n : Int}
    {f : (w : Nat) → BitVec w → BitVec w → BitVec w}
    (he : exec i s = writeRd i rd (atXlen s.xlen f (s.readX rs1) (s.readX rs2)) s)
    (hf : f (xlenBits s.xlen) ((s.readX rs1).setWidth _) ((s.readX rs2).setWidth _) = BitVec.ofInt _ n) : Writes i s rd n :=
  writes_of_setWidth he ((atXlen_setWidth ..).trans hf)

/-- Settles O10: the operations on the operands as numbers at the width XLEN. -/
theorem multiplyDivideResults : Obligations.MultiplyDivideResults := by
  unfold Obligations.MultiplyDivideResults
  intro s rd rs1 rs2
  have ha := readX_setWidth s rs1 (xlenBits s.xlen)
  have hb := readX_setWidth s rs2 (xlenBits s.xlen)
  have ha' := readX_toNat s rs1
  have hb' := readX_toNat s rs2
  have hs := readX_toInt s rs1
  have hs2 := readX_toInt s rs2
  refine ⟨?mul, isWord_bits (.mul rd rs1 rs2) rfl, ?mulh, isWord_bits (.mulh rd rs1 rs2) rfl,
    ?mulhsu, isWord_bits (.mulhsu rd rs1 rs2) rfl, ?mulhu, isWord_bits (.mulhu rd rs1 rs2) rfl,
    ?div, isWord_bits (.div rd rs1 rs2) rfl, ?divu, isWord_bits (.divu rd rs1 rs2) rfl,
    ?rem, isWord_bits (.rem rd rs1 rs2) rfl, ?remu, isWord_bits (.remu rd rs1 rs2) rfl,
    fun hmin hneg => ⟨?divOverflow, ?remOverflow⟩⟩
  case mul => exact writes_of_atXlen rfl (mulLow_eq_ofInt ha hb)
  case mulh => exact writes_of_atXlen rfl (mulHighSS_eq_ofInt hs hs2)
  case mulhsu => exact writes_of_atXlen rfl (mulHighSU_eq_ofInt hs hb')
  case mulhu => exact writes_of_atXlen rfl (mulHighUU_eq_ofInt ha' hb')
  case div => exact writes_of_atXlen rfl (divSigned_eq_ofInt hb' hs hs2)
  case divu => exact writes_of_atXlen rfl (divUnsigned_eq_ofInt ha' hb')
  case rem => exact writes_of_atXlen rfl (remSigned_eq_ofInt hb' ha hs hs2)
  case remu => exact writes_of_atXlen rfl (remUnsigned_eq_ofInt ha ha' hb')
  case divOverflow => exact writes_of_atXlen rfl (divSigned_overflow (hs.trans hmin) (hs2.trans hneg))
  case remOverflow => exact writes_of_atXlen rfl (remSigned_overflow (hs.trans hmin) (hs2.trans hneg))

/-- Settles O12: the same operations at width 32. -/
theorem multiplyDivideWordResults : Obligations.MultiplyDivideWordResults := by
  unfold Obligations.MultiplyDivideWordResults
  intro s rd rs1 rs2
  have ha := readX_setWidth s rs1 32
  have ha' := readX_word_toNat s rs1
  have hb' := readX_word_toNat s rs2
  have hs := readX_word_toInt s rs1
  have hs2 := readX_word_toInt s rs2
  refine ⟨writes_of_atWord rfl ?mulw, illegal_of_inMode rfl, isWord_bits (.mulw rd rs1 rs2) rfl,
    writes_of_atWord rfl ?divw, illegal_of_inMode rfl, isWord_bits (.divw rd rs1 rs2) rfl,
    writes_of_atWord rfl ?divuw, illegal_of_inMode rfl, isWord_bits (.divuw rd rs1 rs2) rfl,
    writes_of_atWord rfl ?remw, illegal_of_inMode rfl, isWord_bits (.remw rd rs1 rs2) rfl,
    writes_of_atWord rfl ?remuw, illegal_of_inMode rfl, isWord_bits (.remuw rd rs1 rs2) rfl⟩
  case mulw => exact mulLow_eq_ofInt ha (readX_setWidth s rs2 32)
  case divw => exact divSigned_eq_ofInt hb' hs hs2
  case divuw => exact divUnsigned_eq_ofInt ha' hb'
  case remw => exact remSigned_eq_ofInt hb' ha hs hs2
  case remuw => exact remUnsigned_eq_ofInt ha ha' hb'

end Sys2Proof.Machine

/-! ## Load-reserved, store-conditional and the AMOs (44_atomic.md) -/

namespace Sys2Proof.Machine

open Sys2Proof

/-! ### The address of an atomic access (R238, R541) -/

section AtomicAddr

variable {s u : State} {k : Access} {va : Word} {n pa : Nat}

theorem atomicAddr_misaligned (ha : va.toNat % n ≠ 0) : s.atomicAddr k va n = .trap k.misaligned va s := if_pos ha

theorem atomicAddr_aligned (ha : va.toNat % n = 0) : s.atomicAddr k va n
    = (s.translate k va).bind fun pa t => if t.inDram pa n then .ok pa t else .trap k.accessFault va t :=
  if_neg (not_not_intro ha)

theorem atomicAddr_of_trap {e : Exc} {w : Word} (ha : va.toNat % n = 0) (ht : s.translate k va = .trap e w u) :
    s.atomicAddr k va n = .trap e w u := by
  rw [atomicAddr_aligned ha, ht, Res.bind_trap]

theorem atomicAddr_of_dram (ha : va.toNat % n = 0) (ht : s.translate k va = .ok pa u) (hd : u.inDram pa n = true) :
    s.atomicAddr k va n = .ok pa u := by
  rw [atomicAddr_aligned ha, ht, Res.bind_ok, if_pos hd]

theorem atomicAddr_outside (ha : va.toNat % n = 0) (ht : s.translate k va = .ok pa u) (hd : u.inDram pa n = false) :
    s.atomicAddr k va n = .trap k.accessFault va u := by
  rw [atomicAddr_aligned ha, ht, Res.bind_ok, if_neg (by simp [hd])]

end AtomicAddr

/-- A form of a width that the mode has (R543). -/
theorem atomicMode_of_has {n : AtomicWidth} {i : Instr} {s : State} (h : n = .d → s.xlen = .rv64)
    (o : Host.Outcome State Fault Refusal) : atomicMode n i s o = o := by
  cases n with
  | w => rfl
  | d => exact inMode_of_eq (h rfl)

theorem illegal_or_of_atomicMode {n : AtomicWidth} {i : Instr} {s : State} {o : Host.Outcome State Fault Refusal}
    (he : exec i s = atomicMode n i s o) : exec i s = raiseIllegal i s ∨ exec i s = o := by
  cases n with
  | w => exact .inr he
  | d => exact illegal_or_of_inMode he

/-! ### Where an atomic traps (R230, R238, R541, R543) -/

/-- `i` is an LR, SC or AMO of width `n`: it translates the address in rs1 for an access of kind `k`, and acts there. -/
def Atomic (k : Access) (n : AtomicWidth) (rs1 : Reg) (i : Instr) : Prop :=
  ∀ s, ∃ act, exec i s = atomicMode n i s ((s.atomicAddr k (s.readX rs1) n.bytes).complete act)

section Traps

variable {k : Access} {n : AtomicWidth} {rs1 : Reg} {i : Instr} {s u : State}

theorem Atomic.illegal (h : Atomic k .d rs1 i) (h32 : s.xlen = .rv32) : Illegal i s := by
  obtain ⟨act, he⟩ := h s
  exact illegal_of_inMode he h32

section Mode

variable (h : Atomic k n rs1 i) (hx : n = .d → s.xlen = .rv64)
include h hx

theorem Atomic.exec_of_trap {e : Exc} {w : Word} (ht : s.atomicAddr k (s.readX rs1) n.bytes = .trap e w u) :
    exec i s = .next (trapStep (.exception e) w u) := by
  obtain ⟨act, he⟩ := h s
  rw [he, atomicMode_of_has hx, ht, Res.complete]

theorem Atomic.misaligned (ha : (s.readX rs1).toNat % n.bytes ≠ 0) :
    exec i s = .next (trapStep (.exception k.misaligned) (s.readX rs1) s) :=
  h.exec_of_trap hx (atomicAddr_misaligned ha)

/-- The ways an aligned one stops, and the translation that is off. -/
theorem Atomic.stops (hk : k ≠ .fetch) (ha : (s.readX rs1).toNat % n.bytes = 0) (e : Exc) (w : Word) (pa : Nat) (u : State) :
    (s.translate k (s.readX rs1) = .trap e w u →
      w = s.readX rs1 ∧ exec i s = .next (trapStep (.exception e) (s.readX rs1) u))
    ∧ (s.translate k (s.readX rs1) = .ok pa u → u.inDram pa n.bytes = false →
        exec i s = .next (trapStep (.exception (if k = .load then .loadAccess else .storeAccess)) (s.readX rs1) u))
    ∧ (s.translating k = false → s.translate k (s.readX rs1) = .ok (s.num rs1).toNat s) := by
  refine ⟨fun ht => ?raises, fun ht hd => ?outside, fun hoff => translate_off hoff _⟩
  case raises =>
    obtain rfl := translate_tval ht
    exact ⟨rfl, h.exec_of_trap hx (atomicAddr_of_trap ha ht)⟩
  case outside =>
    have hf : k.accessFault = if k = .load then .loadAccess else .storeAccess := by
      cases k with
      | fetch => exact absurd rfl hk
      | load | store | amo => rfl
    rw [← hf]
    exact h.exec_of_trap hx (atomicAddr_outside ha ht hd)

end Mode

end Traps

section Forms

variable (rd rs1 rs2 : Reg) (aq rl : Bool)

theorem atomic_amoW : ∀ i ∈ [Instr.amoswapW rd rs1 rs2 aq rl, .amoaddW rd rs1 rs2 aq rl, .amoxorW rd rs1 rs2 aq rl,
    .amoandW rd rs1 rs2 aq rl, .amoorW rd rs1 rs2 aq rl, .amominW rd rs1 rs2 aq rl, .amomaxW rd rs1 rs2 aq rl,
    .amominuW rd rs1 rs2 aq rl, .amomaxuW rd rs1 rs2 aq rl], Atomic .amo .w rs1 i := by
  simp only [List.forall_mem_cons]
  refine ⟨?_, ?_, ?_, ?_, ?_, ?_, ?_, ?_, ?_, nofun⟩ <;> exact fun _ => ⟨_, rfl⟩

theorem atomic_amoD : ∀ i ∈ [Instr.amoswapD rd rs1 rs2 aq rl, .amoaddD rd rs1 rs2 aq rl, .amoxorD rd rs1 rs2 aq rl,
    .amoandD rd rs1 rs2 aq rl, .amoorD rd rs1 rs2 aq rl, .amominD rd rs1 rs2 aq rl, .amomaxD rd rs1 rs2 aq rl,
    .amominuD rd rs1 rs2 aq rl, .amomaxuD rd rs1 rs2 aq rl], Atomic .amo .d rs1 i := by
  simp only [List.forall_mem_cons]
  refine ⟨?_, ?_, ?_, ?_, ?_, ?_, ?_, ?_, ?_, nofun⟩ <;> exact fun _ => ⟨_, rfl⟩

end Forms

/-- Settles O30: every LR, SC and AMO goes through one address check, which traps before it acts. -/
theorem atomicTraps : Obligations.AtomicTraps := by
  unfold Obligations.AtomicTraps
  intro s u rd rs1 rs2 aq rl pa e w a v amosW amosD raises stops
  have lrW : Atomic .load .w rs1 (.lrW rd rs1 aq rl) := fun _ => ⟨_, rfl⟩
  have lrD : Atomic .load .d rs1 (.lrD rd rs1 aq rl) := fun _ => ⟨_, rfl⟩
  have scW : Atomic .store .w rs1 (.scW rd rs1 rs2 aq rl) := fun _ => ⟨_, rfl⟩
  have scD : Atomic .store .d rs1 (.scD rd rs1 rs2 aq rl) := fun _ => ⟨_, rfl⟩
  have amoW : ∀ i ∈ amosW, Atomic .amo .w rs1 i := atomic_amoW rd rs1 rs2 aq rl
  have amoD : ∀ i ∈ amosD, Atomic .amo .d rs1 i := atomic_amoD rd rs1 rs2 aq rl
  refine ⟨fun ha => ?misalignedW, fun h64 ha => ?misalignedD, ?stopsW, fun h64 => ?stopsD, fun h32 => ?illegal⟩
  case misalignedW =>
    exact ⟨lrW.misaligned nofun ha, scW.misaligned nofun ha, fun i hi => (amoW i hi).misaligned nofun ha⟩
  case misalignedD =>
    exact ⟨lrD.misaligned (fun _ => h64) ha, scD.misaligned (fun _ => h64) ha,
      fun i hi => (amoD i hi).misaligned (fun _ => h64) ha⟩
  case stopsW =>
    rintro k i (⟨rfl, rfl⟩ | ⟨rfl, rfl⟩ | ⟨rfl, hi⟩) ha
    · exact lrW.stops nofun nofun ha e w pa u
    · exact scW.stops nofun nofun ha e w pa u
    · exact (amoW i hi).stops nofun nofun ha e w pa u
  case stopsD =>
    rintro k i (⟨rfl, rfl⟩ | ⟨rfl, rfl⟩ | ⟨rfl, hi⟩) ha
    · exact lrD.stops (fun _ => h64) nofun ha e w pa u
    · exact scD.stops (fun _ => h64) nofun ha e w pa u
    · exact (amoD i hi).stops (fun _ => h64) nofun ha e w pa u
  case illegal => exact ⟨lrD.illegal h32, scD.illegal h32, fun i hi => (amoD i hi).illegal h32⟩

/-! ### LR and SC in DRAM (R544, R545, R546) -/

/-- The number of `n` bytes has no bits above them. -/
theorem lowBits_leNat (s : State) (a n : Nat) : lowBits (8 * n) (s.leNat a n) = s.leNat a n := by
  have h : ((s.leNat a n : Nat) : Int) < 2 ^ (8 * n) := by
    rw [Int.pow_mul]
    exact_mod_cast leNat_lt s a n
  exact Int.emod_eq_of_lt (Int.natCast_nonneg _) h

theorem reserved_iff {s : State} {pa : Nat} {n : AtomicWidth} :
    s.reserved pa n = true ↔ s.resv = some { paddr := BitVec.ofNat 64 pa, width := n } := decide_eq_true_iff

section InDram

variable {s u : State} {rd rs1 rs2 : Reg} {i : Instr} {n : AtomicWidth} {pa : Nat}

/-- The value an atomic of a word gives rd, sign-extended (R544). -/
theorem writeX_atomicExtend_w {t : State} (hx : t.xlen = s.xlen) :
    t.writeX rd (atomicExtend s.xlen .w (Memory.readLE u.dram pa 4))
      = t.writeX rd (BitVec.ofInt 64 (signedAt 32 (u.leNat pa 4))) := by
  rw [← readLE_toNat u (by decide), ← hx]
  exact writeX_signed t rd (by decide) _

/-- A doubleword is the number of its bytes. -/
theorem readLE_eq_ofInt : Memory.readLE u.dram pa 8 = BitVec.ofInt 64 (u.leNat pa 8) := by
  rw [← readLE_toNat u (by decide), ofInt_toNat]

variable (hx : n = .d → s.xlen = .rv64) (ha : (s.num rs1).toNat % n.bytes = 0)
include hx ha

/-- An LR that acts (R545). -/
theorem loadReserved_of_dram (ht : s.translate .load (s.readX rs1) = .ok pa u) (hd : u.inDram pa n.bytes = true) :
    loadReserved i rd rs1 n s
      = .next ((({ u with resv := some { paddr := BitVec.ofNat 64 pa, width := n } } : State).writeX rd
          (atomicExtend s.xlen n (Memory.readLE u.dram pa n.bytes))).retire i) := by
  rw [loadReserved, atomicMode_of_has hx, atomicAddr_of_dram ha ht hd, Res.complete]

section Store

variable (ht : s.translate .store (s.readX rs1) = .ok pa u) (hd : u.inDram pa n.bytes = true)
include ht hd

/-- An SC that acts: its reservation is the one that the translation kept (R546). -/
theorem storeConditional_of_dram : storeConditional i rd rs1 rs2 n s
    = .next ((if s.reserved pa n then
        ({ u with dram := Memory.writeLE u.dram pa n.bytes (s.readX rs2), resv := none } : State).writeX rd 0
      else ({ u with resv := none } : State).writeX rd 1).retire i) := by
  have hr : s.reserved pa n = u.reserved pa n := by
    rw [State.reserved, State.reserved, (translate_translated ht).accessed.resv]
  rw [storeConditional, atomicMode_of_has hx, atomicAddr_of_dram ha ht hd, Res.complete, hr]
  rfl

theorem storeConditional_reserved (hr : s.resv = some { paddr := BitVec.ofNat 64 pa, width := n }) :
    storeConditional i rd rs1 rs2 n s
      = .next ((({ u with dram := Memory.writeLE u.dram pa n.bytes (s.readX rs2), resv := none } : State).writeX rd 0).retire
          i) := by
  rw [storeConditional_of_dram hx ha ht hd, if_pos (reserved_iff.mpr hr)]

theorem storeConditional_unreserved (hr : s.resv ≠ some { paddr := BitVec.ofNat 64 pa, width := n }) :
    storeConditional i rd rs1 rs2 n s = .next ((({ u with resv := none } : State).writeX rd 1).retire i) := by
  rw [storeConditional_of_dram hx ha ht hd, if_neg (mt reserved_iff.mp hr)]

end Store

end InDram

/-- Settles O27: the two forms, in the state the translation left. -/
theorem loadReservedAndStoreConditionalResults : Obligations.LoadReservedAndStoreConditionalResults := by
  unfold Obligations.LoadReservedAndStoreConditionalResults
  intro s u rd rs1 rs2 aq rl pa a
  refine ⟨fun ha ht hd => ?lrW, fun h64 ha ht hd => ?lrD,
    fun ha ht hd => ⟨storeConditional_reserved nofun ha ht hd, storeConditional_unreserved nofun ha ht hd⟩,
    fun h64 ha ht hd => ⟨storeConditional_reserved (fun _ => h64) ha ht hd,
      storeConditional_unreserved (fun _ => h64) ha ht hd⟩,
    fun hoff => translate_off hoff _, fun hoff => translate_off hoff _,
    fun h32 => ⟨illegal_of_inMode rfl h32, illegal_of_inMode rfl h32⟩⟩
  case lrW =>
    have hx : u.xlen = s.xlen := (translate_translated ht).accessed.xlen
    refine (loadReserved_of_dram (n := .w) nofun ha ht hd).trans ?_
    rw [AtomicWidth.bytes, writeX_atomicExtend_w]
    exact hx
  case lrD =>
    refine (loadReserved_of_dram (n := .d) (fun _ => h64) ha ht hd).trans ?_
    rw [AtomicWidth.bytes, atomicExtend, readLE_eq_ofInt]

/-! ### The operations of the AMOs as numbers (R547 to R556) -/

section AmoOperations

variable {w : Nat} (m n : Int)

theorem toNat_ofInt_eq_lowBits : (BitVec.ofInt w m).toNat = (lowBits w m).toNat := by
  rw [lowBits, ← toNat_ofInt_eq_emod, Int.toNat_natCast]

theorem amoAdd_ofInt : amoAdd w (BitVec.ofInt w m) (BitVec.ofInt w n) = BitVec.ofInt w (m + n) :=
  (BitVec.ofInt_add ..).symm

theorem amoXor_ofInt : amoXor w (BitVec.ofInt w m) (BitVec.ofInt w n)
    = BitVec.ofInt w ((lowBits w m).toNat ^^^ (lowBits w n).toNat : Nat) := by
  rw [← toNat_ofInt_eq_lowBits, ← toNat_ofInt_eq_lowBits, ← BitVec.toNat_xor, ofInt_toNat, amoXor]

theorem amoAnd_ofInt : amoAnd w (BitVec.ofInt w m) (BitVec.ofInt w n)
    = BitVec.ofInt w ((lowBits w m).toNat &&& (lowBits w n).toNat : Nat) := by
  rw [← toNat_ofInt_eq_lowBits, ← toNat_ofInt_eq_lowBits, ← BitVec.toNat_and, ofInt_toNat, amoAnd]

theorem amoOr_ofInt : amoOr w (BitVec.ofInt w m) (BitVec.ofInt w n)
    = BitVec.ofInt w ((lowBits w m).toNat ||| (lowBits w n).toNat : Nat) := by
  rw [← toNat_ofInt_eq_lowBits, ← toNat_ofInt_eq_lowBits, ← BitVec.toNat_or, ofInt_toNat, amoOr]

theorem slt_ofInt (hw : 0 < w) :
    (BitVec.ofInt w m).slt (BitVec.ofInt w n) = decide (signedAt w m < signedAt w n) := by
  rw [BitVec.slt, toInt_ofInt_eq_signedAt hw, toInt_ofInt_eq_signedAt hw]

theorem ult_ofInt : (BitVec.ofInt w m).ult (BitVec.ofInt w n) = decide (lowBits w m < lowBits w n) := by
  rw [BitVec.ult, lowBits, lowBits, ← toNat_ofInt_eq_emod, ← toNat_ofInt_eq_emod]
  norm_cast

theorem amoMin_ofInt (hw : 0 < w) : amoMin w (BitVec.ofInt w m) (BitVec.ofInt w n)
    = BitVec.ofInt w (if signedAt w m < signedAt w n then m else n) := by
  simp only [amoMin, slt_ofInt _ _ hw, decide_eq_true_eq, apply_ite (BitVec.ofInt w)]

theorem amoMax_ofInt (hw : 0 < w) : amoMax w (BitVec.ofInt w m) (BitVec.ofInt w n)
    = BitVec.ofInt w (if signedAt w m > signedAt w n then m else n) := by
  simp only [amoMax, slt_ofInt _ _ hw, decide_eq_true_eq, apply_ite (BitVec.ofInt w), gt_iff_lt]

theorem amoMinu_ofInt : amoMinu w (BitVec.ofInt w m) (BitVec.ofInt w n)
    = BitVec.ofInt w (if lowBits w m < lowBits w n then m else n) := by
  simp only [amoMinu, ult_ofInt, decide_eq_true_eq, apply_ite (BitVec.ofInt w)]

theorem amoMaxu_ofInt : amoMaxu w (BitVec.ofInt w m) (BitVec.ofInt w n)
    = BitVec.ofInt w (if lowBits w m > lowBits w n then m else n) := by
  simp only [amoMaxu, ult_ofInt, decide_eq_true_eq, apply_ite (BitVec.ofInt w), gt_iff_lt]

/-- A 32-bit result in a 64-bit word is its number modulo 2^32. -/
theorem ofInt_setWidth_word : (BitVec.ofInt 32 m).setWidth 64 = BitVec.ofInt 64 (lowBits 32 m) := by
  rw [lowBits, ← toNat_ofInt_eq_emod, BitVec.ofInt_natCast, BitVec.ofNat_toNat]

end AmoOperations

/-! ### The AMOs in DRAM (R547) -/

section Amo

variable {s u : State} {rd rs1 rs2 : Reg} {i : Instr} {n : AtomicWidth} {pa : Nat} {new : Int}
  {f : (w : Nat) → BitVec w → BitVec w → BitVec w} (ht : s.translate .amo (s.readX rs1) = .ok pa u)
include ht

/-- An AMO that acts, whatever its operation. -/
theorem amo_of_dram (hx : n = .d → s.xlen = .rv64) (ha : (s.num rs1).toNat % n.bytes = 0)
    (hd : u.inDram pa n.bytes = true) : amo i rd rs1 rs2 n f s
      = .next ((({ u with
            dram := Memory.writeLE u.dram pa n.bytes (atWidth f n (Memory.readLE u.dram pa n.bytes) (s.readX rs2)),
            resv := none } : State).writeX rd (atomicExtend s.xlen n (Memory.readLE u.dram pa n.bytes))).retire i) := by
  rw [amo, atomicMode_of_has hx, atomicAddr_of_dram ha ht hd, Res.complete]
  rfl

/-- An AMO of a word, its operation on numbers modulo 2^32. -/
theorem amo_word (he : exec i s = amo i rd rs1 rs2 .w f s) (ha : (s.num rs1).toNat % 4 = 0) (hd : u.inDram pa 4 = true)
    (hf : f 32 (BitVec.ofInt 32 (u.leNat pa 4)) (BitVec.ofInt 32 (s.num rs2)) = BitVec.ofInt 32 new) :
    exec i s = .next ((({ u with dram := Memory.writeLE u.dram pa 4 (BitVec.ofInt 64 (lowBits 32 new)),
                                 resv := none } : State).writeX rd
        (BitVec.ofInt 64 (signedAt 32 (u.leNat pa 4)))).retire i) := by
  have hx : u.xlen = s.xlen := (translate_translated ht).accessed.xlen
  have hold : (Memory.readLE u.dram pa 4).setWidth 32 = BitVec.ofInt 32 (u.leNat pa 4) := by
    rw [← readLE_toNat u (by decide), BitVec.ofInt_natCast, BitVec.ofNat_toNat]
  rw [he, amo_of_dram (n := .w) ht nofun ha hd, AtomicWidth.bytes, atWidth, hold, readX_setWidth, hf, ofInt_setWidth_word,
    writeX_atomicExtend_w]
  exact hx

/-- An AMO of a doubleword, its operation on numbers modulo 2^64. -/
theorem amo_double (he : exec i s = amo i rd rs1 rs2 .d f s) (hx : s.xlen = .rv64) (ha : (s.num rs1).toNat % 8 = 0)
    (hd : u.inDram pa 8 = true)
    (hf : f 64 (BitVec.ofInt 64 (u.leNat pa 8)) (BitVec.ofInt 64 (s.num rs2)) = BitVec.ofInt 64 new) :
    exec i s = .next ((({ u with dram := Memory.writeLE u.dram pa 8 (BitVec.ofInt 64 new), resv := none } : State).writeX rd
        (BitVec.ofInt 64 (u.leNat pa 8))).retire i) := by
  have hv : s.readX rs2 = BitVec.ofInt 64 (s.num rs2) := (ofInt_toNat _).symm
  rw [he, amo_of_dram (n := .d) ht (fun _ => hx) ha hd, AtomicWidth.bytes, atWidth, atomicExtend, readLE_eq_ofInt, hv, hf]

end Amo

/-- Settles O28: each operation at width 32 on the old word and rs2 as numbers. -/
theorem atomicWordResults : Obligations.AtomicWordResults := by
  unfold Obligations.AtomicWordResults
  intro s u rd rs1 rs2 aq rl pa a m v done
  refine ⟨fun hoff => translate_off hoff _, fun ha ht hd => ?_⟩
  have hm : lowBits 32 m = m := lowBits_leNat u pa 4
  refine ⟨amo_word ht rfl ha hd rfl, amo_word ht rfl ha hd (amoAdd_ofInt m v), amo_word ht rfl ha hd (amoXor_ofInt m v),
    amo_word ht rfl ha hd (amoAnd_ofInt m v), amo_word ht rfl ha hd (amoOr_ofInt m v),
    amo_word ht rfl ha hd (amoMin_ofInt m v (by decide)), amo_word ht rfl ha hd (amoMax_ofInt m v (by decide)),
    amo_word ht rfl ha hd ?minu, amo_word ht rfl ha hd ?maxu⟩
  case minu => exact (amoMinu_ofInt m v).trans (by rw [hm])
  case maxu => exact (amoMaxu_ofInt m v).trans (by rw [hm])

/-- Settles O29: the same operations at width 64. -/
theorem atomicDoubleResults : Obligations.AtomicDoubleResults := by
  unfold Obligations.AtomicDoubleResults
  intro s u rd rs1 rs2 aq rl pa hx a m v done
  refine ⟨fun hoff => translate_off hoff _, fun ha ht hd => ?_⟩
  have hm : lowBits 64 m = m := lowBits_leNat u pa 8
  refine ⟨amo_double ht rfl hx ha hd rfl, amo_double ht rfl hx ha hd (amoAdd_ofInt m v),
    amo_double ht rfl hx ha hd (amoXor_ofInt m v), amo_double ht rfl hx ha hd (amoAnd_ofInt m v),
    amo_double ht rfl hx ha hd (amoOr_ofInt m v), amo_double ht rfl hx ha hd (amoMin_ofInt m v (by decide)),
    amo_double ht rfl hx ha hd (amoMax_ofInt m v (by decide)), amo_double ht rfl hx ha hd ?minu,
    amo_double ht rfl hx ha hd ?maxu⟩
  case minu => exact (amoMinu_ofInt m v).trans (by rw [hm])
  case maxu => exact (amoMaxu_ofInt m v).trans (by rw [hm])

/-! ### The reservation after an instruction (R62, R540) -/

/-- What a trap keeps: nothing retires, and the reservation stays. -/
def Trapped (s t : State) : Prop := t.minstret = s.minstret ∧ t.resv = s.resv

theorem trapped_of_accessed {s u : State} (h : Accessed s u) (c : Cause) (v : Word) : Trapped s (trapStep c v u) :=
  ⟨(trapStep_minstret ..).trans h.minstret, (trapStep_resv ..).trans h.resv⟩

theorem trapped_of_illegal {s t : State} {i : Instr} (h : raiseIllegal i s = .next t) : Trapped s t := by
  cases h
  exact trapped_of_accessed (.refl s) _ _

/-- An instruction whose last operation only accesses memory completes or traps. -/
theorem complete_or_trapped {α : Type} {r : Res α} {act : α → State → State} {s t : State} (hr : r.Reaches Accessed s)
    (h : r.complete act = .next t) : (∃ a u, Accessed s u ∧ t = act a u) ∨ Trapped s t := by
  obtain ⟨a, u, rfl, rfl⟩ | ⟨e, v, u, rfl, rfl⟩ := Res.complete_eq_next h
  · exact .inl ⟨a, u, hr, rfl⟩
  · exact .inr (trapped_of_accessed hr _ _)

theorem Res.Reaches.accessed {α : Type} {r : Res α} {s : State} (h : r.Reaches Translated s) : r.Reaches Accessed s := by
  cases r with
  | ok a u => exact Translated.accessed h
  | trap e v u => exact Translated.accessed h
  | fatal f => trivial

/-- An LR, SC or AMO acts or traps. -/
theorem atomic_or_trapped {i : Instr} {s t : State} {n : AtomicWidth} {k : Access} {va : Word} {w : Nat}
    {act : Nat → State → State} (he : exec i s = atomicMode n i s ((s.atomicAddr k va w).complete act))
    (h : exec i s = .next t) : (∃ pa u, Accessed s u ∧ t = act pa u) ∨ Trapped s t := by
  obtain hi | hc := illegal_or_of_atomicMode he
  · exact .inr (trapped_of_illegal (hi.symm.trans h))
  · exact complete_or_trapped (atomicAddr_reaches s k va w).accessed (hc.symm.trans h)

theorem loadReserved_retires {i : Instr} {s t : State} {rd rs1 : Reg} (n : AtomicWidth) (h : exec i s = .next t)
    (he : exec i s = loadReserved i rd rs1 n s) : t.minstret = s.minstret + 1 ∨ Trapped s t := by
  refine (atomic_or_trapped he h).imp_left ?_
  rintro ⟨pa, u, hu, rfl⟩
  simp [hu.minstret]

/-- `t` retired an instruction from `s`, with no reservation left. -/
def RetiredDropping (s t : State) : Prop := t.minstret = s.minstret + 1 ∧ t.resv = none

section Drops

variable {i : Instr} {s t : State} {rd rs1 rs2 : Reg} (n : AtomicWidth) (h : exec i s = .next t)
include h

theorem storeConditional_drops (he : exec i s = storeConditional i rd rs1 rs2 n s) : RetiredDropping s t ∨ Trapped s t := by
  refine (atomic_or_trapped he h).imp_left ?_
  rintro ⟨pa, u, hu, rfl⟩
  by_cases hr : u.reserved pa n = true <;>
    simp [hr, RetiredDropping, hu.minstret]

theorem amo_drops {f : (w : Nat) → BitVec w → BitVec w → BitVec w} (he : exec i s = amo i rd rs1 rs2 n f s) :
    RetiredDropping s t ∨ Trapped s t := by
  refine (atomic_or_trapped he h).imp_left ?_
  rintro ⟨pa, u, hu, rfl⟩
  simp [RetiredDropping, hu.minstret]

theorem storeAt_drops {a v : Word} {m : Nat} (he : exec i s = storeAt i a m v s) : RetiredDropping s t ∨ Trapped s t := by
  obtain ⟨_, u, hw, rfl⟩ | ⟨e, w, u, hw, rfl⟩ := Res.complete_eq_next (he.symm.trans h)
  · obtain ⟨u, rfl, hu⟩ := memWrite_dropResv hw
    exact .inl ⟨congrArg (· + 1) hu.minstret, rfl⟩
  · exact .inr (trapped_of_accessed (memWrite_trap_accessed hw) _ _)

/-- Every instruction that stores drops the reservation if it retires. -/
theorem exec_stores_drops (hs : i.stores = true) : RetiredDropping s t ∨ Trapped s t := by
  cases ha : i.access with
  | some p =>
    obtain ⟨base, imm, m⟩ := p
    cases accessForm_of_access s ha with
    | illegal hi => exact .inr (trapped_of_illegal (hi.symm.trans h))
    | load _ _ hl => exact absurd (hl.symm.trans hs) nofun
    | loadF _ _ hl => exact absurd (hl.symm.trans hs) nofun
    | store _ _ _ he => exact storeAt_drops h he
  | none =>
    have hsa : (i.stores && i.access.isNone) = true := by rw [hs, ha]; rfl
    cases i
    case scW => exact storeConditional_drops .w h rfl
    case scD => exact storeConditional_drops .d h rfl
    case amoswapW | amoaddW | amoxorW | amoandW | amoorW | amominW | amomaxW | amominuW | amomaxuW =>
      exact amo_drops .w h rfl
    case amoswapD | amoaddD | amoxorD | amoandD | amoorD | amominD | amomaxD | amominuD | amomaxuD =>
      exact amo_drops .d h rfl
    all_goals cases hsa

end Drops

/-- `o` leaves the reservation of `s`, whatever state it gives. -/
def KeepsResv (s : State) (o : Host.Outcome State Fault Refusal) : Prop := ∀ t, o = .next t → t.resv = s.resv

section Keeps

variable {s : State} {i : Instr}

theorem KeepsResv.next {t : State} (h : t.resv = s.resv) : KeepsResv s (.next t) := by
  rintro _ ⟨⟩
  exact h

theorem KeepsResv.illegal : KeepsResv s (raiseIllegal i s) := fun _ h => (trapped_of_illegal h).2

theorem KeepsResv.raise (e : Exc) (v : Word) : KeepsResv s (raise e v s) := .next (trapStep_resv ..)

theorem KeepsResv.ite {c : Prop} [Decidable c] {o p : Host.Outcome State Fault Refusal} (ho : KeepsResv s o)
    (hp : KeepsResv s p) : KeepsResv s (if c then o else p) := by
  split <;> assumption

theorem KeepsResv.inMode {x : Xlen} {o : Host.Outcome State Fault Refusal} (h : KeepsResv s o) :
    KeepsResv s (inMode x i s o) := h.ite .illegal

theorem KeepsResv.supervisorGate (b : Bool) {o : Host.Outcome State Fault Refusal} (h : KeepsResv s o) :
    KeepsResv s (supervisorGate i b s o) := .ite .illegal h

theorem KeepsResv.fpArithStop : KeepsResv s (fpArithStop i s) := .ite .illegal fun _ h => by cases h

theorem KeepsResv.writeRd (rd : Reg) (v : Word) : KeepsResv s (writeRd i rd v s) := .next (State.writeX_resv ..)

theorem KeepsResv.jumpLink (rd : Reg) (t : Word) : KeepsResv s (jumpLink i rd t s) := .next (State.writeX_resv ..)

theorem KeepsResv.branch {n : Nat} (rs1 rs2 : Reg) (off : BitVec n) (cond : (w : Nat) → BitVec w → BitVec w → Bool) :
    KeepsResv s (branch i rs1 rs2 off cond s) := .next (by split <;> rfl)

theorem csrWrite_resv (r : CsrReg) (v : Word) : (s.csrWrite r v).resv = s.resv := by
  cases r
  case sip => rw [State.csrWrite]; split <;> rfl
  all_goals rfl

theorem KeepsResv.csrOp (rd : Reg) (c : BitVec 12) (writes : Bool) (f : Word → Word) :
    KeepsResv s (csrOp i rd c writes f s) := by
  unfold Machine.csrOp
  split
  · exact .illegal
  · refine .ite (.next ((State.writeX_resv ..).trans ?_)) .illegal
    split
    · exact csrWrite_resv ..
    · rfl

/-- A load keeps the reservation, retired or not. -/
theorem exec_load_keepsResv (ha : i.accesses = true) (hs : i.stores = false) : KeepsResv s (exec i s) := by
  obtain ⟨⟨base, imm, m⟩, ha⟩ := Option.isSome_iff_exists.mp ha
  have hload {r : Res Word} {act : Word → State → State} (hr : r.Reaches Accessed s)
      (hact : ∀ w u, (act w u).resv = u.resv) : KeepsResv s (r.complete act) := fun t h => by
    obtain ⟨w, u, hu, rfl⟩ | ht := complete_or_trapped hr h
    · exact (hact w u).trans hu.resv
    · exact ht.2
  cases accessForm_of_access s ha with
  | illegal he => rw [he]; exact .illegal
  | load _ _ _ he => rw [he]; exact hload (memRead_reaches ..) fun _ _ => State.writeX_resv ..
  | loadF _ _ _ he => rw [he]; exact hload (memRead_reaches ..) fun _ _ => rfl
  | store _ _ hs' _ => exact absurd (hs'.symm.trans hs) nofun

/-- Every instruction but an LR and those that store keeps the reservation. -/
theorem exec_keepsResv (hs : i.stores = false) (hw : ∀ rd rs1 aq rl, i ≠ .lrW rd rs1 aq rl)
    (hd : ∀ rd rs1 aq rl, i ≠ .lrD rd rs1 aq rl) : KeepsResv s (exec i s) := by
  cases ha : i.accesses with
  | true => exact exec_load_keepsResv ha hs
  | false =>
    have hsa : (i.stores || i.accesses) = false := by rw [hs, ha]; rfl
    cases i
    case lrW => exact (hw _ _ _ _ rfl).elim
    case lrD => exact (hd _ _ _ _ rfl).elim
    case lui | auipc | addi | slti | sltiu | xori | ori | andi | add | sub | sll | slt | sltu | xor | srl | sra | or | and
      | mul | mulh | mulhsu | mulhu | div | divu | rem | remu | cAddi4spn | cNop | cAddi | cLi | cAddi16sp | cLui | cAndi
      | cSub | cXor | cOr | cAnd | cMv | cAdd => exact .writeRd _ _
    case slli | srli | srai | cSrli | cSrai | cSlli => exact .ite (.writeRd _ _) .illegal
    case addiw | slliw | srliw | sraiw | addw | subw | sllw | srlw | sraw | mulw | divw | divuw | remw | remuw | cSubw
      | cAddw | cAddiw => exact .inMode (.writeRd _ _)
    case jal | jalr | cJ | cJr | cJalr => exact .jumpLink _ _
    case cJal => exact .inMode (.jumpLink _ _)
    case beq | bne | blt | bge | bltu | bgeu | cBeqz | cBnez => exact .branch _ _ _ _
    case csrrw | csrrs | csrrc | csrrwi | csrrsi | csrrci => exact .csrOp _ _ _ _
    case fence | fenceI => exact .next rfl
    case ecall | ebreak | cEbreak => exact .raise _ _
    case sret | wfi | sfenceVma => exact .supervisorGate _ (.next rfl)
    case mret => exact .ite (.next rfl) .illegal
    case fpMadd | fpMsub | fpNmsub | fpNmadd | fpOp => exact .fpArithStop
    all_goals cases hsa

end Keeps

theorem minstret_ne_of_eq {s t : State} (h : t.minstret = s.minstret) : t.minstret ≠ s.minstret + 1 := by
  rw [h]
  bv_omega

/-- Settles O31: a store drops the reservation where it retires, a trap and every other instruction but an LR keep it. -/
theorem reservationRule : Obligations.ReservationRule := by
  unfold Obligations.ReservationRule
  intro i s t h
  refine ⟨fun hm hs => ?retiredStore, fun ⟨hs, hlr⟩ => ?other, fun hlr hm => ?trappedLr, fun hs hm => ?trappedStore⟩
  case retiredStore =>
    obtain hd | ht := exec_stores_drops h hs
    · exact hd.2
    · exact absurd hm (minstret_ne_of_eq ht.1)
  case other =>
    exact exec_keepsResv hs (fun rd rs1 aq rl => (hlr rd rs1 aq rl).1) (fun rd rs1 aq rl => (hlr rd rs1 aq rl).2) t h
  case trappedLr =>
    obtain hr | ht : t.minstret = s.minstret + 1 ∨ Trapped s t := by
      obtain ⟨rd, rs1, aq, rl, rfl | rfl⟩ := hlr
      · exact loadReserved_retires .w h rfl
      · exact loadReserved_retires .d h rfl
    · exact absurd hr (minstret_ne_of_eq hm)
    · exact ht.2
  case trappedStore =>
    obtain hd | ht := exec_stores_drops h hs
    · exact absurd hd.1 (minstret_ne_of_eq hm)
    · exact ht.2

end Sys2Proof.Machine

/-! ## The virtio block: its registers and DMA (60_exceptions.md R801 to R809) -/

namespace Sys2Proof.Machine

open Sys2Proof

/-! ### Registers (R801, R808) -/

section Registers

variable {v : Virtio} {disk : List Byte} {off : Nat} {d : BitVec 32}

theorem Virtio.readReg_of_other (h : off ∉ [0x000, 0x004, 0x008, 0x00C, 0x014, 0x020, 0x024, 0x028, 0x030, 0x034, 0x038, 0x03C,
    0x040, 0x060, 0x070, 0x100, 0x104]) : v.readReg disk off = 0 := by
  simp only [List.mem_cons, List.not_mem_nil, or_false, not_or] at h
  simp [Virtio.readReg, h]

theorem Virtio.writeReg_of_other (h : off ∉ [0x014, 0x020, 0x024, 0x028, 0x030, 0x038, 0x03C, 0x040, 0x050, 0x064, 0x070]) :
    v.writeReg off d = v := by
  simp only [List.mem_cons, List.not_mem_nil, or_false, not_or] at h
  simp [Virtio.writeReg, h]

/-- The queue registers belong to queue 0. -/
theorem Virtio.queueRegs_of_selected (h : v.queueSel = 0) : v.readReg disk 0x034 = 8
    ∧ v.readReg disk 0x038 = v.queueNum ∧ v.writeReg 0x038 d = { v with queueNum := d }
    ∧ v.readReg disk 0x03C = v.queueAlign ∧ v.writeReg 0x03C d = { v with queueAlign := d }
    ∧ v.readReg disk 0x040 = v.queuePfn ∧ v.writeReg 0x040 d = { v with queuePfn := d, lastAvail := 0 } := by
  have hs : v.queueSelected = true := decide_eq_true h
  exact ⟨if_pos hs, if_pos hs, if_pos hs, if_pos hs, if_pos hs, if_pos hs, if_pos hs⟩

theorem Virtio.queueRegs_of_unselected (h : v.queueSel ≠ 0) (ho : off ∈ [0x034, 0x038, 0x03C, 0x040]) :
    v.readReg disk off = 0 ∧ v.writeReg off d = v := by
  have hs : ¬ v.queueSelected = true := by simpa [Virtio.queueSelected] using h
  simp only [List.mem_cons, List.not_mem_nil, or_false] at ho
  obtain rfl | rfl | rfl | rfl := ho
  · exact ⟨if_neg hs, rfl⟩
  · exact ⟨if_neg hs, if_neg hs⟩
  · exact ⟨if_neg hs, if_neg hs⟩
  · exact ⟨if_neg hs, if_neg hs⟩

theorem Virtio.capacityLow_toNat : (v.readReg disk 0x100).toNat = disk.length / 512 % 2 ^ 32 := by
  show ((diskCapacity disk).extractLsb 31 0).toNat = _
  simp only [diskCapacity, Config.sectorSize, BitVec.extractLsb_toNat, BitVec.toNat_ofNat, Nat.shiftRight_zero]
  omega

theorem Virtio.capacityHigh_toNat : (v.readReg disk 0x104).toNat = disk.length / 512 / 2 ^ 32 % 2 ^ 32 := by
  show ((diskCapacity disk).extractLsb 63 32).toNat = _
  simp only [diskCapacity, Config.sectorSize, BitVec.extractLsb_toNat, BitVec.toNat_ofNat, Nat.shiftRight_eq_div_pow]
  omega

end Registers

/-! ### A DMA write (R540, R807) -/

section DmaWrite

variable {s : State} {pa : Nat} {bs : List Byte} (hb : bs ≠ [])
include hb

theorem dmaWriteBytes_of_inDram (h : s.inDram pa bs.length = true) :
    s.dmaWriteBytes pa bs = .ok { s with dram := Memory.writeBytes s.dram pa bs, resv := none } := by
  rw [State.dmaWriteBytes, if_neg (by simpa using hb), if_pos h]

theorem dmaWriteBytes_outside (h : s.inDram pa bs.length = false) : s.dmaWriteBytes pa bs = .error (.dmaRange, s) := by
  rw [State.dmaWriteBytes, if_neg (by simpa using hb), if_neg (by simp [h])]

end DmaWrite

/-! ### A request that completes (R803, R804) -/

section Request

variable {s u : State} {h : Nat} {head st : Buffer} {data : List Buffer}

/-- The status byte goes to the last buffer, after the data phase. -/
theorem request_of_transfer {status : Byte} {used : Nat} (hd : s.dramOk) (hc : s.HasChain h (head :: (data ++ [st])))
    (hn : data.length + 2 ≤ s.virtio.queueNum.toNat) (hh : s.inDram head.addr 16 = true) (hst : s.inDram st.addr 1 = true)
    (ht : s.transfer (s.leNat head.addr 4) (s.leNat (head.addr + 8) 8) data = .ok (u, status, used)) :
    ∃ t, s.request h = .ok (t, used) ∧ t = { u with dram := t.dram, resv := none } ∧ t.byteAt st.addr = status
      ∧ ∀ a, a ≠ st.addr → t.byteAt a = u.byteAt a := by
  have hu := transfer_done ht
  have hz : u.dramSize = s.dramSize := by rw [hu.eq]
  obtain ⟨t, hw, heq, hstatus, hout⟩ := status_ok (s := u) status (hu.dram hd) (by rw [State.inDram, hz]; exact hst)
  refine ⟨t, ?_, heq, hstatus, hout⟩
  rw [request_of_hasChain hc hn hh, ht, Except.bind, hw]
  rfl

/-- A byte of a buffer is a byte of the data. -/
theorem dataByte_lt {b : Buffer} {after : List Buffer} {k n : Nat} (h : DataByte data b after k n) : n < totalLen data := by
  obtain ⟨before, rfl, hk, rfl⟩ := h
  simp only [totalLen, List.map_append, List.map_cons, List.sum_append, List.sum_cons]
  omega

end Request

/-! ### The notify flag (R806, R808) -/

/-- An operation of DMA keeps the notify flag of `s`: in the state that `st` finds in its result, or in the one that a fatal case
leaves. -/
def KeepsNotify {α : Type} (st : α → State) (s : State) : Dma α → Prop
  | .ok a => (st a).virtio.notify = s.virtio.notify
  | .error e => e.2.virtio.notify = s.virtio.notify

section KeepsNotify

variable {α : Type} {st : α → State} {s u : State} {r : Dma α}

theorem KeepsNotify.ok {a : α} (h : KeepsNotify st s r) (hr : r = .ok a) : (st a).virtio.notify = s.virtio.notify := by
  subst hr
  exact h

theorem KeepsNotify.error {e : Fault × State} (h : KeepsNotify st s r) (hr : r = .error e) :
    e.2.virtio.notify = s.virtio.notify := by
  subst hr
  exact h

theorem KeepsNotify.trans (h : KeepsNotify st u r) (hu : u.virtio.notify = s.virtio.notify) : KeepsNotify st s r := by
  cases r <;> exact Eq.trans h hu

/-- A fatal case that leaves the state as it was. -/
theorem KeepsNotify.of_left {e : Fault × State} (h : e.2 = s) : KeepsNotify st s (.error e) :=
  congrArg (fun t : State => t.virtio.notify) h

end KeepsNotify

section Notify

variable (s : State)

theorem dmaWriteBytes_keepsNotify (pa : Nat) (bs : List Byte) : KeepsNotify id s (s.dmaWriteBytes pa bs) := by
  unfold State.dmaWriteBytes
  split
  · rfl
  · split <;> rfl

theorem dmaWrite_keepsNotify (pa n v : Nat) : KeepsNotify id s (s.dmaWrite pa n v) := dmaWriteBytes_keepsNotify ..

theorem scatter_keepsNotify (data : List Byte) (bufs : List Buffer) : KeepsNotify id s (s.scatter data bufs) := by
  induction bufs generalizing s data with
  | nil => rfl
  | cons b bs ih =>
    unfold State.scatter
    split
    · exact (ih _ _).trans ((dmaWriteBytes_keepsNotify s ..).ok ‹_›)
    · exact (dmaWriteBytes_keepsNotify s ..).error ‹_›

theorem gather_keepsNotify (off : Nat) (bufs : List Buffer) : KeepsNotify id s (s.gather off bufs) := by
  induction bufs generalizing s off with
  | nil => rfl
  | cons b bs ih =>
    unfold State.gather
    split
    · exact (ih _ _).trans rfl
    · exact .of_left (dmaReadBytes_left ‹_›)

theorem transfer_keepsNotify (kind sector : Nat) (data : List Buffer) : KeepsNotify Prod.fst s (s.transfer kind sector data) := by
  unfold State.transfer
  dsimp only
  split
  · split
    · split
      · exact (scatter_keepsNotify s ..).ok ‹_›
      · exact (scatter_keepsNotify s ..).error ‹_›
    · rfl
  · split
    · split
      · split
        · exact (gather_keepsNotify s ..).ok ‹_›
        · exact (gather_keepsNotify s ..).error ‹_›
      · rfl
    · rfl

theorem request_keepsNotify (i : Nat) : KeepsNotify Prod.fst s (s.request i) := by
  unfold State.request
  split
  · exact .of_left (chain_left ‹_›)
  · split
    · dsimp only
      split
      · exact (transfer_keepsNotify s ..).error ‹_›
      · have ht := (transfer_keepsNotify s ..).ok ‹_›
        split
        · exact ((dmaWriteBytes_keepsNotify ..).error ‹_›).trans ht
        · exact ((dmaWriteBytes_keepsNotify ..).ok ‹_›).trans ht
    · rfl
  · rfl

theorem usedUpdate_keepsNotify (i n : Nat) : KeepsNotify id s (s.usedUpdate i n) := by
  unfold State.usedUpdate
  dsimp only
  split
  · exact .of_left (dmaRead_left ‹_›)
  · split
    · exact (dmaWriteBytes_keepsNotify s ..).error ‹_›
    · have h1 := (dmaWriteBytes_keepsNotify s ..).ok ‹_›
      split
      · exact ((dmaWrite_keepsNotify ..).error ‹_›).trans h1
      · have h2 := (dmaWrite_keepsNotify ..).ok ‹_›
        exact Eq.trans h2 h1

theorem serve_keepsNotify (fuel : Nat) : KeepsNotify id s (State.serve fuel s) := by
  induction fuel generalizing s with
  | zero => rfl
  | succ fuel ih =>
    unfold State.serve
    split
    · exact .of_left (dmaRead_left ‹_›)
    · split
      · rfl
      · split
        · exact .of_left (dmaRead_left ‹_›)
        · split
          · exact (request_keepsNotify s _).error ‹_›
          · have hr := (request_keepsNotify s _).ok ‹_›
            split
            · exact ((usedUpdate_keepsNotify ..).error ‹_›).trans hr
            · have hu := (usedUpdate_keepsNotify ..).ok ‹_›
              exact (ih _).trans (Eq.trans hu hr)

end Notify

/-- A tick that is fatal has taken the notify. -/
theorem virtioTick_error {s t : State} {f : Fault} (h : s.virtioTick = .error (f, t)) :
    DmaDone s t ∧ t.virtio.notify = false := by
  refine ⟨tickLeft_of_error h ▸ tickLeft_done s, ?_⟩
  unfold State.virtioTick at h
  split at h
  · dsimp only at h
    split at h
    · exact (serve_keepsNotify ..).error h
    · cases h
  · cases h

/-! ### A request that is fatal (R807) -/

/-- The chain is walked first (log 9). -/
theorem request_of_chain_error {s : State} {h : Nat} {e : Fault × State} (he : s.chain s.virtio.queueNum.toNat h = .error e) :
    s.request h = .error e := by
  rw [State.request, he]

theorem request_of_single {s : State} {h : Nat} {b : Buffer} (hc : s.HasChain h [b]) : s.request h = .error (.virtioChain, s) := by
  have hj : h < s.virtio.queueNum.toNat := hc.1
  have he := chain_of_hasChain (fuel := s.virtio.queueNum.toNat) hc
  rw [if_pos (by rw [List.length_singleton]; omega)] at he
  rw [State.request, he]

theorem request_of_header_outside {s : State} {h : Nat} {head next : Buffer} {chain : List Buffer}
    (hc : s.HasChain h (head :: next :: chain)) (hn : chain.length + 2 ≤ s.virtio.queueNum.toNat)
    (hh : s.inDram head.addr 16 = false) : s.request h = .error (.dmaRange, s) := by
  have he := chain_of_hasChain (fuel := s.virtio.queueNum.toNat) hc
  rw [if_pos (show (head :: next :: chain).length ≤ _ from hn)] at he
  rw [State.request, he]
  exact if_neg (by simp [hh])

section Chain

variable {s : State} {js : Nat → Nat} {m : Nat} (hm : m ≤ s.virtio.queueNum.toNat)
  (hjs : ∀ k, k < m → js k < s.virtio.queueNum.toNat ∧ s.inDram (s.queueBase + 16 * js k) 16 = true
    ∧ s.leNat (s.queueBase + 16 * js k + 12) 2 % 2 = 1 ∧ js (k + 1) = s.leNat (s.queueBase + 16 * js k + 14) 2)
include hm hjs

/-- What ends the chain after `m` descriptors with NEXT ends the request. -/
theorem request_of_chain_stops {e : Fault × State} (he : s.chain (s.virtio.queueNum.toNat - m) (js m) = .error e) :
    s.request (js 0) = .error e := by
  have h := chain_stops js m (s.virtio.queueNum.toNat - m) 0 (fun k _ hk => hjs k (by omega)) (by rwa [Nat.zero_add])
  rw [Nat.sub_add_cancel hm] at h
  exact request_of_chain_error h

theorem request_of_bad_index (h : m = s.virtio.queueNum.toNat ∨ s.virtio.queueNum.toNat ≤ js m) :
    s.request (js 0) = .error (.virtioChain, s) := by
  refine request_of_chain_stops hm hjs ?_
  cases hf : s.virtio.queueNum.toNat - m with
  | zero => rfl
  | succ fuel =>
    rw [State.chain, if_pos (by omega)]

theorem request_of_descriptor_outside (hlt : m < s.virtio.queueNum.toNat) (hj : js m < s.virtio.queueNum.toNat)
    (hd : s.inDram (s.queueBase + 16 * js m) 16 = false) : s.request (js 0) = .error (.dmaRange, s) := by
  refine request_of_chain_stops hm hjs ?_
  obtain ⟨fuel, hf⟩ : ∃ fuel, s.virtio.queueNum.toNat - m = fuel + 1 := ⟨_, (Nat.succ_pred (by omega)).symm⟩
  have hd' : ¬ s.inDram (s.virtio.descBase + 16 * js m) 16 = true := by rw [Bool.not_eq_true]; exact hd
  rw [hf, State.chain, if_neg (by omega)]
  exact if_neg hd'

end Chain

/-- The buffers before a bad one have moved (log 9). -/
theorem transfer_out_second_outside {s : State} {sector : Nat} {b1 b2 : Buffer} (h1 : 0 < b1.len)
    (hin : s.inDram b1.addr b1.len = true) (h2 : 0 < b2.len) (hout : s.inDram b2.addr b2.len = false)
    (hl : sector * 512 + (b1.len + b2.len) ≤ s.disk.length) : s.transfer 1 sector [b1, b2] = .error (.dmaRange,
      { s with disk := diskWrite s.disk (sector * 512) (Memory.readBytes s.dram b1.addr b1.len) }) := by
  have hl' : sector * Config.sectorSize + totalLen [b1, b2] ≤ s.disk.length := by
    rw [totalLen_cons, totalLen_cons, totalLen_nil]
    exact hl
  have hread : s.dmaReadBytes b1.addr b1.len = .ok (Memory.readBytes s.dram b1.addr b1.len) := by
    rw [State.dmaReadBytes, if_neg (by omega), if_pos hin]
  have hbad (d : List Byte) : ({ s with disk := d } : State).dmaReadBytes b2.addr b2.len
      = .error (.dmaRange, { s with disk := d }) := by
    rw [State.dmaReadBytes, if_neg (by omega)]
    exact if_neg (by rw [Bool.not_eq_true]; exact hout)
  unfold State.transfer
  dsimp only
  rw [if_neg (by decide), if_pos rfl, if_pos hl', State.gather, hread]
  dsimp only
  rw [State.gather, hbad]
  rfl

/-! ### The ends of a request -/

/-- The state after a request: memory, the disk and the reservation only. -/
def RequestDone (s t : State) : Prop := t = { s with dram := t.dram, resv := none, disk := t.disk }

section Completed

variable {s : State} {h : Nat} {head st : Buffer} {data : List Buffer}

variable (hd : s.dramOk) (hc : s.HasChain h (head :: (data ++ [st])))
  (hn : data.length + 2 ≤ s.virtio.queueNum.toNat) (hh : s.inDram head.addr 16 = true) (hst : s.inDram st.addr 1 = true)
include hd hc hn hh hst

/-- IN: the disk is copied into the buffers. -/
theorem request_in (hk : s.leNat head.addr 4 = 0)
    (hl : s.leNat (head.addr + 8) 8 * 512 + totalLen data ≤ s.disk.length)
    (hin : ∀ b ∈ data, 0 < b.len → s.inDram b.addr b.len = true) :
    ∃ t, s.request h = .ok (t, totalLen data + 1) ∧ RequestDone s t ∧ t.byteAt st.addr = 0 ∧ t.disk = s.disk
      ∧ (∀ b after k n, DataByte data b after k n → b.addr + k ≠ st.addr →
          (∀ c ∈ after, b.addr + k < c.addr ∨ c.addr + c.len ≤ b.addr + k) →
          s.disk[s.leNat (head.addr + 8) 8 * 512 + n]? = some (t.byteAt (b.addr + k)))
      ∧ ∀ a, a ≠ st.addr → (∀ b ∈ data, a < b.addr ∨ b.addr + b.len ≤ a) → t.byteAt a = s.byteAt a := by
  obtain ⟨u, hu, hueq, -, hbytes, hout⟩ := scatter_ok
    (data := (s.disk.drop (s.leNat (head.addr + 8) 8 * 512)).take (totalLen data)) hd hin
    (by rw [List.length_take, List.length_drop]; omega)
  obtain ⟨t, ht, hteq, hstatus, hkeep⟩ := request_of_transfer hd hc hn hh hst (by rw [hk]; exact transfer_in hl hu)
  refine ⟨t, ht, by rw [RequestDone, hteq, hueq], hstatus, by rw [hteq, hueq], fun b after k n hb hne hafter => ?_,
    fun a ha hdata => (hkeep a ha).trans (hout a hdata)⟩
  rw [hkeep _ hne, ← hbytes b after k n hb hafter, List.getElem?_take_of_lt (dataByte_lt hb), List.getElem?_drop]

/-- OUT: the buffers are copied to the disk. -/
theorem request_out (hk : s.leNat head.addr 4 = 1)
    (hl : s.leNat (head.addr + 8) 8 * 512 + totalLen data ≤ s.disk.length)
    (hin : ∀ b ∈ data, 0 < b.len → s.inDram b.addr b.len = true) :
    ∃ t, s.request h = .ok (t, 1) ∧ RequestDone s t ∧ t.byteAt st.addr = 0 ∧ t.disk.length = s.disk.length
      ∧ (∀ b after k n, DataByte data b after k n →
          t.disk[s.leNat (head.addr + 8) 8 * 512 + n]? = some (s.byteAt (b.addr + k)))
      ∧ (∀ j, j < s.leNat (head.addr + 8) 8 * 512 ∨ s.leNat (head.addr + 8) 8 * 512 + totalLen data ≤ j →
          t.disk[j]? = s.disk[j]?)
      ∧ ∀ a, a ≠ st.addr → t.byteAt a = s.byteAt a := by
  obtain ⟨u, hu, hueq, hlen, hbytes, hout⟩ := gather_ok hin hl
  obtain ⟨t, ht, hteq, hstatus, hkeep⟩ := request_of_transfer hd hc hn hh hst (by rw [hk]; exact transfer_out hl hu)
  have hdisk : t.disk = u.disk := by rw [hteq]
  refine ⟨t, ht, by rw [RequestDone, hteq, hueq], hstatus, by rw [hdisk, hlen], fun b after k n hb => ?_,
    fun j hj => by rw [hdisk, hout j hj], fun a ha => (hkeep a ha).trans ?_⟩
  · rw [hdisk, hbytes b after k n hb]
  · rw [State.byteAt, hueq, State.byteAt]

/-- A request past the end of the disk or of another type moves no data. -/
theorem request_refused {status : Byte}
    (hs : (s.leNat head.addr 4 ≤ 1 ∧ s.disk.length < s.leNat (head.addr + 8) 8 * 512 + totalLen data ∧ status = 1)
      ∨ (1 < s.leNat head.addr 4 ∧ status = 2)) :
    ∃ t, s.request h = .ok (t, 1) ∧ RequestDone s t ∧ t.byteAt st.addr = status ∧ t.disk = s.disk
      ∧ ∀ a, a ≠ st.addr → t.byteAt a = s.byteAt a := by
  obtain ⟨t, ht, hteq, hstatus, hkeep⟩ := request_of_transfer hd hc hn hh hst (transfer_refused hs)
  exact ⟨t, ht, by rw [RequestDone, hteq], hstatus, by rw [hteq], hkeep⟩

end Completed

/-- Settles O53: the register map case by case, a request by its chain, its data phase and its status byte. -/
theorem virtioAndDmaRules : Obligations.VirtioAndDmaRules := by
  unfold Obligations.VirtioAndDmaRules
  intro s v d pa off bs rest
  refine ⟨rfl, rfl, rfl, rfl, rfl, rfl, rfl, rfl, rfl, rfl, rfl, rfl, rfl, rfl, Virtio.queueRegs_of_selected,
    Virtio.queueRegs_of_unselected, rfl, rfl, Virtio.capacityLow_toNat, Virtio.capacityHigh_toNat, Virtio.readReg_of_other,
    Virtio.writeReg_of_other, rfl, fun hd => if_neg hd, rfl, rfl, fun hd => if_neg hd, rfl, rfl, decide_eq_true_iff,
    fun hb hin => ?write, dmaWriteBytes_outside, ?requests,
    fun h b => request_of_single, fun js m hm hjs => ⟨request_of_bad_index hm hjs, request_of_descriptor_outside hm hjs⟩,
    fun h head next chain => request_of_header_outside, fun f t ht => ?fatal, fun sector b1 b2 => transfer_out_second_outside⟩
  case write =>
    exact ⟨_, dmaWriteBytes_of_inDram hb hin, rfl, fun hd k hk => Memory.read_writeBytes_in bs hk hd.1,
      fun a ha => Memory.read_writeBytes_out s.dram bs ha⟩
  case requests =>
    intro h head st data hd hc hn hh hst kind first len inRange
    refine ⟨fun hk hl hin => ?_, fun hk hl hin => ?_, fun status => request_refused hd hc hn hh hst⟩
    · obtain ⟨t, ht, hrest, hstatus, hdisk, hbytes, hout⟩ := request_in hd hc hn hh hst hk hl hin
      refine ⟨t, ht, hrest, hstatus, hdisk, fun before b after k he hk hne hafter => ?_, hout⟩
      rw [Nat.add_assoc]
      exact hbytes b after k _ ⟨before, he, hk, rfl⟩ hne hafter
    · obtain ⟨t, ht, hrest, hstatus, hlen, hbytes, hout⟩ := request_out hd hc hn hh hst hk hl hin
      refine ⟨t, ht, hrest, hstatus, hlen, fun before b after k he hk => ?_, hout⟩
      rw [Nat.add_assoc]
      exact hbytes b after k _ ⟨before, he, hk, rfl⟩
  case fatal =>
    obtain ⟨hdone, hnotify⟩ := virtioTick_error ht
    exact ⟨hdone.eq, hnotify, hdone.resv, hdone.dram⟩

end Sys2Proof.Machine

/-! ## The CSR instructions (45_csr.md) -/

namespace Sys2Proof.Machine

open Sys2Proof

/-! ### The six instructions as one operation (R580, R590 to R595) -/

section CsrOp

variable {s : State} {i : Instr} {rd : Reg} {c : BitVec 12} {r : CsrReg} {writes : Bool} {f : Word → Word}

/-- The state in which a CSR instruction retires: the CSR written, rd given the read value. -/
def State.csrDone (s : State) (i : Instr) (rd : Reg) (r : CsrReg) (writes : Bool) (f : Word → Word) : State :=
  ((if writes then s.csrWrite r (f (s.csrOld r)) else s).writeX rd (s.csrRead r)).retireCsr i
    (if writes then some r else none)

theorem csrOp_of_allowed (hr : csrReg s.xlen c = some r) (ha : s.csrAllowed c writes = true) :
    csrOp i rd c writes f s = .next (s.csrDone i rd r writes f) := by
  rw [csrOp, hr]
  exact if_pos ha

theorem csrOp_of_refused (h : csrReg s.xlen c = none ∨ s.csrAllowed c writes = false) :
    csrOp i rd c writes f s = raiseIllegal i s := by
  rw [csrOp]
  cases hr : csrReg s.xlen c with
  | none => rfl
  | some r =>
    have ha : s.csrAllowed c writes = false := h.resolve_left (by rw [hr]; nofun)
    exact if_neg (by rw [ha]; nofun)

/-- A CSR operation that gives a next state raised illegal instruction or made its access. -/
theorem csrOp_eq_next {t : State} (h : csrOp i rd c writes f s = .next t) :
    csrOp i rd c writes f s = raiseIllegal i s ∨ ∃ r, t = s.csrDone i rd r writes f := by
  cases hr : csrReg s.xlen c with
  | none => exact .inl (csrOp_of_refused (.inl hr))
  | some r =>
    cases ha : s.csrAllowed c writes with
    | false => exact .inl (csrOp_of_refused (.inr ha))
    | true => exact .inr ⟨r, Host.Outcome.next.inj (h.symm.trans (csrOp_of_allowed hr ha))⟩

/-- An instruction that is a CSR operation retires where its access is allowed and is illegal where it is not. -/
theorem retires_or_illegal_of_csrOp (f : Word → Word) (he : exec i s = csrOp i rd c writes f s) :
    (∀ r, csrReg s.xlen c = some r → s.csrAllowed c writes = true → exec i s = .next (s.csrDone i rd r writes f))
      ∧ (csrReg s.xlen c = none ∨ s.csrAllowed c writes = false → Illegal i s) :=
  ⟨fun _ hr ha => he.trans (csrOp_of_allowed hr ha), fun h => he.trans (csrOp_of_refused h)⟩

end CsrOp

/-- The software bit stands for bit 9 in `mip` and its view `sip` alone (R78). -/
theorem State.csrOld_eq (s : State) (r : CsrReg) :
    s.csrOld r = if r = .mip ∨ r = .sip then (s.csrRead r &&& ~~~0x200#64) ||| flagBit s.csr.seipSw 9
      else s.csrRead r := by
  cases r
  case mip | sip => exact (if_pos (by decide)).symm
  all_goals exact (if_neg (by decide)).symm

/-- Settles O33: each form is the CSR operation with its write attempt and its function of the old value. -/
theorem csrInstructionResults : Obligations.CsrInstructionResults := by
  unfold Obligations.CsrInstructionResults
  intro s rd rs1 u c
  refine ⟨?csrrw, ?csrrs, ?csrrc, ?csrrwi, ?csrrsi, ?csrrci, s.csrOld_eq⟩
  case csrrw => exact retires_or_illegal_of_csrOp (csrReplace (s.readX rs1)) rfl
  case csrrs => exact retires_or_illegal_of_csrOp (csrSet (s.readX rs1)) rfl
  case csrrc => exact retires_or_illegal_of_csrOp (csrClear (s.readX rs1)) rfl
  case csrrwi => exact retires_or_illegal_of_csrOp (csrReplace (u.setWidth 64)) rfl
  case csrrsi => exact retires_or_illegal_of_csrOp (csrSet (u.setWidth 64)) rfl
  case csrrci => exact retires_or_illegal_of_csrOp (csrClear (u.setWidth 64)) rfl

/-! ### What a CSR instruction can change (R582, R597) -/

/-- `t` differs from `s` in the CSRs only: those that `Csrs` holds, `mstatus` and the counters. -/
def OnlyCsrs (s t : State) : Prop :=
  t = { s with csr := t.csr, mstatus := t.mstatus, mcycle := t.mcycle, minstret := t.minstret }

theorem onlyCsrs_csrWrite (s : State) (r : CsrReg) (v : Word) : OnlyCsrs s (s.csrWrite r v) := by
  cases r
  case sip =>
    rw [State.csrWrite]
    split <;> rfl
  all_goals rfl

/-- `t` is `s` after a CSR instruction `i` retired. -/
def CsrKept (i : Instr) (s t : State) : Prop :=
  t = { s with x := t.x, csr := t.csr, mstatus := t.mstatus, mcycle := t.mcycle, minstret := t.minstret, pc := s.npc i }

theorem OnlyCsrs.kept_retireCsr {s u : State} (h : OnlyCsrs s u) (i : Instr) (rd : Reg) (v : Word) (w : Option CsrReg) :
    CsrKept i s ((u.writeX rd v).retireCsr i w) := by
  rw [h]
  unfold State.writeX
  split <;> rfl

theorem OnlyCsrs.readX_retireCsr {s u : State} (h : OnlyCsrs s u) (i : Instr) {rd q : Reg} (v : Word)
    (w : Option CsrReg) (hq : q ≠ rd) : ((u.writeX rd v).retireCsr i w).readX q = s.readX q :=
  calc ((u.writeX rd v).retireCsr i w).readX q
    _ = (u.writeX rd v).readX q := State.readX_of_x rfl rfl q
    _ = u.readX q := State.readX_writeX_ne u v hq
    _ = s.readX q := by rw [h]; exact State.readX_of_x rfl rfl q

section CsrDone

variable (s : State) (i : Instr) (rd : Reg) (r : CsrReg) (writes : Bool) (f : Word → Word)

theorem onlyCsrs_written : OnlyCsrs s (if writes then s.csrWrite r (f (s.csrOld r)) else s) := by
  split
  · exact onlyCsrs_csrWrite ..
  · rfl

theorem State.csrDone_kept : CsrKept i s (s.csrDone i rd r writes f) :=
  (onlyCsrs_written s r writes f).kept_retireCsr ..

theorem State.csrDone_readX {q : Reg} (hq : q ≠ rd) : (s.csrDone i rd r writes f).readX q = s.readX q :=
  (onlyCsrs_written s r writes f).readX_retireCsr i _ _ hq

theorem State.csrDone_byteAt (a : Nat) : (s.csrDone i rd r writes f).byteAt a = s.byteAt a := by
  rw [s.csrDone_kept i rd r writes f, State.byteAt, State.byteAt]

end CsrDone

theorem exec_eq_csrOp {i : Instr} {rd rs1 : Reg} {u : BitVec 5} {c : BitVec 12} (s : State)
    (h : i = .csrrw rd rs1 c ∨ i = .csrrs rd rs1 c ∨ i = .csrrc rd rs1 c
      ∨ i = .csrrwi rd u c ∨ i = .csrrsi rd u c ∨ i = .csrrci rd u c) :
    ∃ writes f, exec i s = csrOp i rd c writes f s := by
  obtain rfl | rfl | rfl | rfl | rfl | rfl := h <;> exact ⟨_, _, rfl⟩

/-- Settles O38: a CSR instruction that is not illegal ends in the state `State.csrDone`. -/
theorem csrFrame : Obligations.CsrFrame := by
  unfold Obligations.CsrFrame
  intro i s t rd rs1 u c hi he
  obtain ⟨writes, f, hop⟩ := exec_eq_csrOp s hi
  obtain hill | ⟨r, rfl⟩ := csrOp_eq_next (hop.symm.trans he)
  · exact .inl (hop.trans hill)
  · exact .inr ⟨s.csrDone_kept i rd r writes f, fun _ => s.csrDone_readX i rd r writes f,
      s.csrDone_byteAt i rd r writes f⟩

end Sys2Proof.Machine

/-! ## Fences, environment calls, trap returns and WFI (46_system.md) -/

namespace Sys2Proof.Machine

open Sys2Proof

/-! ### The gate of the supervisor instructions (R615, R616, R617) -/

section SupervisorGate

variable {s : State} {i : Instr} {b : Bool} {k : Host.Outcome State Fault Refusal}

theorem supervisorGate_of_closed (h : s.priv = .U ∨ (s.priv = .S ∧ b = true)) :
    supervisorGate i b s k = raiseIllegal i s :=
  if_pos (by simpa using h)

theorem supervisorGate_of_open (h : s.priv = .M ∨ (s.priv = .S ∧ b = false)) : supervisorGate i b s k = k := by
  obtain hm | ⟨hs, rfl⟩ := h
  · exact if_neg (by simp [hm])
  · exact if_neg (by simp [hs])

end SupervisorGate

/-! ### Words of the spec -/

/-- A word is an instruction in every mode when the decoder of each mode gives it. -/
theorem isWord_of_decode32 {w : BitVec 32} {i : Instr} (h32 : decode32 .rv32 w = some i)
    (h64 : decode32 .rv64 w = some i) : IsWord w i
  | .rv32, _ => h32
  | .rv64, _ => h64

/-! ### Traps and their causes (R612, R720, R730) -/

theorem norm_of_zero : ∀ x : Xlen, norm x 0 = 0
  | .rv32 => rfl
  | .rv64 => rfl

theorem causeValue_exception (x : Xlen) (e : Exc) : causeValue x (.exception e) = BitVec.ofNat 64 e.code := by
  simp [causeValue, flagBit, Cause.isInterrupt, Cause.code]

/-- What an exception taken in M-mode leaves in the CSRs of the trap. -/
theorem trapStep_csr_of_M {s : State} (e : Exc) (v : Word) (h : s.priv = .M) :
    (trapStep (.exception e) v s).csr = { s.csr with
      mcause := BitVec.ofNat 64 e.code, mepc := s.pc &&& ~~~1#64, mtval := norm s.xlen v } := by
  rw [trapStep_csr, takeTrap_toM (trapsToS_of_M e h), causeValue_exception]

theorem exec_ecall (s : State) : exec .ecall s = .next (trapStep (.exception (ecallExc s.priv)) 0 s) := rfl

/-- Settles O39: traps are trap entry and the cycle count, and MRET and SRET run where their gate is open. -/
theorem environmentCallsAndReturns : Obligations.EnvironmentCallsAndReturns := by
  unfold Obligations.EnvironmentCallsAndReturns
  intro s
  refine ⟨?ecall, rfl, rfl, fun c v => ⟨?trap, trapStep_minstret c v s⟩, fun hm t ht => ?ecallM,
    fun hm => ?mret, fun hm => if_neg hm, supervisorGate_of_open, supervisorGate_of_closed,
    isWord_of_decode32 rfl rfl, isWord_of_decode32 rfl rfl, isWord_of_decode32 rfl rfl, isWord_of_decode32 rfl rfl,
    fun e => ⟨rfl, ?exceptionCode, rfl⟩, fun i => ⟨rfl, ?interruptCode, rfl⟩⟩
  case ecall => cases hp : s.priv <;> rw [exec_ecall, hp] <;> rfl
  case trap => rw [trapStep, State.countCycle, takeTrap_mcycle]
  case ecallM =>
    rw [exec_ecall, hm] at ht
    cases ht
    rw [trapStep_csr_of_M _ _ hm]
    exact ⟨rfl, rfl, norm_of_zero s.xlen⟩
  case mret => exact if_pos hm
  case exceptionCode => cases e <;> rfl
  case interruptCode => cases i <;> rfl

/-! ### Fences and WFI (R610, R611, R616, R617) -/

/-- A fence of the TLB that retires changes nothing else beside what retirement does, and only removes entries. -/
theorem State.sfence_retire (s : State) (rs1 rs2 : Reg) :
    (s.sfence rs1 rs2).retire (.sfenceVma rs1 rs2)
        = { s.retire (.sfenceVma rs1 rs2) with tlb := (s.sfence rs1 rs2).tlb } := rfl

theorem State.sfence_tlb_sublist (s : State) (rs1 rs2 : Reg) : (s.sfence rs1 rs2).tlb.Sublist s.tlb :=
  List.filter_sublist

/-- Settles O40: WFI and SFENCE.VMA run where their gate is open, and SFENCE.VMA filters the TLB. -/
theorem fencesAndWfi : Obligations.FencesAndWfi := by
  unfold Obligations.FencesAndWfi
  intro s fm pred succ imm rs1 rs2 rd
  exact ⟨rfl, rfl, supervisorGate_of_open, supervisorGate_of_closed,
    fun h => ⟨_, supervisorGate_of_open h, s.sfence_retire rs1 rs2, s.sfence_tlb_sublist rs1 rs2⟩,
    supervisorGate_of_closed⟩

end Sys2Proof.Machine

/-! ## The compressed computations (47_compressed.md) -/

namespace Sys2Proof.Machine

open Sys2Proof

/-! ### The immediates of the compressed forms (R320, R640) -/

/-- An immediate zero-extended to a wider field is never negative. -/
theorem toInt_setWidth_of_wider {m n : Nat} (h : m < n) (imm : BitVec m) : (imm.setWidth n).toInt = imm.toNat := by
  have hlt := imm.isLt
  have hpow : 2 * 2 ^ m ≤ 2 ^ n := by
    rw [← Nat.pow_succ']
    exact Nat.pow_le_pow_right (by decide) h
  rw [BitVec.toInt_eq_toNat_of_lt, BitVec.toNat_setWidth_of_le (Nat.le_of_lt h)]
  rw [BitVec.toNat_setWidth_of_le (Nat.le_of_lt h)]
  omega

/-- A sign-extended immediate keeps its number in the 12-bit field of the expansion. -/
theorem sextX_signExtend_setWidth (x : Xlen) {m : Nat} (h : m ≤ 12) (imm : BitVec m) :
    (sextX x (imm.signExtend 12)).setWidth (xlenBits x) = BitVec.ofInt (xlenBits x) imm.toInt := by
  rw [sextX_setWidth, BitVec.toInt_signExtend_of_le h]

theorem num_zero (s : State) : s.num 0#5 = 0 := by
  rw [State.num, State.readX_zero]
  rfl

/-- A write to x0 is discarded, whatever the value (R51). -/
theorem writes_zero {i : Instr} {s : State} {v : Word} (he : exec i s = writeRd i 0#5 v s) (n : Int) :
    Writes i s 0#5 n := by
  rw [Writes, he, writeRd, State.writeX_zero, State.writeX_zero]

/-- Settles O14: each form is that of its expansion, its immediate the number of the expansion's. -/
theorem compressedComputationResults : Obligations.CompressedComputationResults := by
  unfold Obligations.CompressedComputationResults
  intro s rd rs2 rd' rs2' imm imm10 q q2
  have low (r : Reg) := readX_setWidth s r (xlenBits s.xlen)
  have low32 (r : Reg) := readX_setWidth s r 32
  have unsigned (r : Reg) := readX_toNat s r
  have himm := sextX_signExtend_setWidth s.xlen (m := 6) (by decide) imm
  have hk (h : imm.toNat < xlenBits s.xlen) := shiftAmount_setWidth (xlenBits_bounds s.xlen).2 h
  refine ⟨?addi4spn, writes_zero rfl 0, writes_of_setWidth rfl (addOp_setWidth (low rd) himm), fun h64 => ?addiw,
    illegal_of_inMode rfl, ?li, ?addi16sp, ?lui, ?andi, writes_of_setWidth rfl (subOp_setWidth (low q) (low q2)),
    writes_of_setWidth rfl (xorOp_setWidth (unsigned q) (unsigned q2)),
    writes_of_setWidth rfl (orOp_setWidth (unsigned q) (unsigned q2)),
    writes_of_setWidth rfl (andOp_setWidth (unsigned q) (unsigned q2)), writes_of_atWord rfl ?subw,
    writes_of_atWord rfl ?addw, fun h32 => ⟨illegal_of_inMode rfl h32, illegal_of_inMode rfl h32⟩, ?mv,
    writes_of_setWidth rfl (addOp_setWidth (low rd) (low rs2)), fun h => ⟨?slli, ?srli, ?srai⟩,
    fun h => ⟨illegal_of_regShift rfl h, illegal_of_regShift rfl h, illegal_of_regShift rfl h⟩⟩
  case addi4spn =>
    have h10 : (sextX s.xlen (imm10.setWidth 12)).setWidth (xlenBits s.xlen) = BitVec.ofInt _ imm10.toNat := by
      rw [sextX_setWidth, toInt_setWidth_of_wider (by decide)]
    exact writes_of_setWidth rfl (addOp_setWidth (low 2#5) h10)
  case addiw =>
    have h32 : (sextX s.xlen imm).setWidth 32 = BitVec.ofInt 32 imm.toInt := by
      rw [h64]
      exact setWidth_ofInt (by decide) _
    exact writes_of_atWord rfl (by rw [low32, h32, BitVec.ofInt_add]) h64
  case li =>
    have hv := addOp_setWidth (low 0#5) himm
    rw [num_zero, Int.zero_add] at hv
    exact writes_of_setWidth rfl hv
  case addi16sp =>
    exact writes_of_setWidth rfl (addOp_setWidth (low 2#5) (sextX_signExtend_setWidth s.xlen (by decide) imm10))
  case lui =>
    have hv := upperImm_setWidth s.xlen (imm.signExtend 20)
    rw [BitVec.toInt_signExtend_of_le (by decide)] at hv
    exact writes_of_setWidth rfl hv
  case andi =>
    have hu := sextX_toNat s.xlen (imm.signExtend 12)
    rw [BitVec.toInt_signExtend_of_le (by decide)] at hu
    exact writes_of_setWidth rfl (andOp_setWidth (unsigned q) hu)
  case subw => rw [low32, low32, ofInt_sub]
  case addw => rw [low32, low32, BitVec.ofInt_add]
  case mv =>
    have hv := addOp_setWidth (low 0#5) (low rs2)
    rw [num_zero, Int.zero_add] at hv
    exact writes_of_setWidth rfl hv
  case slli => exact writes_of_regShift rfl h (sllOp_setWidth (hk h) (low rd))
  case srli => exact writes_of_regShift rfl h (srlOp_setWidth (hk h) (unsigned q))
  case srai => exact writes_of_regShift rfl h (sraOp_setWidth (hk h) (readX_toInt s q))

/-! ### The compressed jumps and branches (R661, R675 to R677, R683, R686) -/

theorem num_bounds (s : State) (r : Reg) : 0 ≤ s.num r ∧ s.num r < 2 ^ xlenBits s.xlen := by
  have h := (norm_eq_self_iff s.xlen _).mp (s.norm_readX r)
  refine ⟨Int.natCast_nonneg _, ?_⟩
  rw [State.num]
  exact_mod_cast h

/-- Without an offset the target is the register with bit 0 cleared (R683, R686). -/
theorem jumpLink_register (s : State) (i : Instr) (rd rs1 : Reg) : jumpLink i rd (s.jalrTarget rs1 0#12) s
    = .next ((s.writeX rd (s.npc i)).retireAt (BitVec.ofInt 64 (s.num rs1 / 2 * 2))) := by
  have h0 : s.num rs1 + (0#12).toInt = s.num rs1 := Int.add_zero _
  rw [jumpLink_jalrTarget, h0, Int.emod_eq_of_lt (num_bounds s rs1).1 (num_bounds s rs1).2]

/-- Settles O17: the jumps and branches of the expansions, a link to x0 discarded, a comparison with x0 one with 0. -/
theorem compressedControlResults : Obligations.CompressedControlResults := by
  unfold Obligations.CompressedControlResults
  intro s rs1 r off off9 land
  refine ⟨?cJ, fun h32 => (inMode_of_eq h32).trans (jumpLink_pcPlus s off (.cJal off) 1#5),
    fun h64 => inMode_of_ne (by rw [h64]; decide), ?cJr, jumpLink_register s (.cJalr rs1) 1#5 rs1, ?cBeqz, ?cBnez⟩
  case cJ => exact (jumpLink_pcPlus s off (.cJ off) 0#5).trans (by rw [State.writeX_zero])
  case cJr => exact (jumpLink_register s (.cJr rs1) 0#5 rs1).trans (by rw [State.writeX_zero])
  case cBeqz =>
    have ht := testXlen_condEq s (creg r) 0#5
    rw [num_zero] at ht
    exact branch_of_testXlen ht
  case cBnez =>
    have ht := testXlen_condNe s (creg r) 0#5
    rw [num_zero] at ht
    exact branch_of_testXlen ht

/-! ### The compressed loads and stores (R652 to R658, R680 to R691) -/

section CompressedAccess

variable {s : State} (hz : s.dramSize ≤ Config.dramSizeDefault)
include hz

/-- A load of bytes in DRAM, by what its extension makes of their number. -/
theorem writes_of_load (ht : s.translating .load = false) {i : Instr} {rd rs1 : Reg} {imm : BitVec 12} {n : Nat}
    {ext : Xlen → Word → Word} {v : Int} (he : exec i s = load i rd rs1 imm n ext s)
    (hn : n = 1 ∨ n = 2 ∨ n = 4 ∨ n = 8) (hin : s.inDram (s.address rs1 imm) n = true)
    (hext : ∀ w, w.toNat = s.leNat (s.address rs1 imm) n →
      s.writeX rd (ext s.xlen w) = s.writeX rd (BitVec.ofInt 64 v)) :
    Writes i s rd v := by
  obtain ⟨w, hr, hw⟩ := memRead_of_inDram hz hn hin ht
  rw [Writes, he, load, loadAt, hr, Res.complete, hext w hw]

theorem writes_of_loadWord (ht : s.translating .load = false) {i : Instr} {rd rs1 : Reg} {imm : BitVec 12}
    (he : exec i s = load i rd rs1 imm 4 signedWord s) (hin : s.inDram (s.address rs1 imm) 4 = true) :
    Writes i s rd (signedAt 32 (s.leNat (s.address rs1 imm) 4)) :=
  writes_of_load hz ht he (by decide) hin fun w hw => by rw [signedWord, writeX_signed s rd (by decide), hw]

theorem writes_of_loadDouble (ht : s.translating .load = false) {i : Instr} {rd rs1 : Reg} {imm : BitVec 12}
    (he : exec i s = load i rd rs1 imm 8 double s) (hin : s.inDram (s.address rs1 imm) 8 = true) :
    Writes i s rd (s.leNat (s.address rs1 imm) 8) :=
  writes_of_load hz ht he (by decide) hin fun w hw => by rw [double, ← hw, ofInt_toNat]

theorem stored_of_store (ht : s.translating .store = false) (hd : s.dramOk) {i : Instr} {rs1 rs2 : Reg} {imm : BitVec 12}
    {n : Nat} (he : exec i s = store i rs1 rs2 imm n s) (hn : n = 1 ∨ n = 2 ∨ n = 4 ∨ n = 8)
    (hin : s.inDram (s.address rs1 imm) n = true) :
    ∃ t, exec i s = .next t ∧ Stored i s t (s.address rs1 imm) n (s.num rs2) :=
  storeAt_of_inDram hz hn hin ht hd he

end CompressedAccess

/-- Settles O20: the loads and stores of the expansions, at the effective address with the zero-extended offset. -/
theorem compressedAccessResults : Obligations.CompressedAccessResults := by
  unfold Obligations.CompressedAccessResults
  intro s r5 r q o7 o8 o9 hz hd a7 a8 sp8 sp9 stores
  exact ⟨fun ht => ⟨writes_of_loadWord hz ht rfl, writes_of_loadWord hz ht rfl,
      fun h64 => writes_of_loadDouble hz ht (inMode_of_eq h64),
      fun h64 => writes_of_loadDouble hz ht (inMode_of_eq h64)⟩,
    fun ht => ⟨stored_of_store hz ht hd rfl (by decide), stored_of_store hz ht hd rfl (by decide),
      fun h64 => stored_of_store hz ht hd (inMode_of_eq h64) (by decide),
      fun h64 => stored_of_store hz ht hd (inMode_of_eq h64) (by decide)⟩,
    fun h32 => ⟨illegal_of_inMode rfl h32, illegal_of_inMode rfl h32, illegal_of_inMode rfl h32,
      illegal_of_inMode rfl h32⟩⟩

end Sys2Proof.Machine

/-! ## Trap entry, the modes and interrupt selection (60_exceptions.md R730 to R747) -/

namespace Sys2Proof.Machine

open Sys2Proof

/-! ### Trap entry (R730, R733) -/

theorem causeValue_interrupt (x : Xlen) (i : Irq) :
    causeValue x (.interrupt i) = BitVec.ofNat 64 (2 ^ (xlenBits x - 1)) + BitVec.ofNat 64 i.code := by
  cases x <;> cases i <;> rfl

/-- The interrupt bit stands above every code, so it may be added. -/
theorem causeValue_eq_add (x : Xlen) (c : Cause) :
    causeValue x c
      = (if c.isInterrupt then BitVec.ofNat 64 (2 ^ (xlenBits x - 1)) else 0) + BitVec.ofNat 64 c.code := by
  cases c with
  | exception e => exact (causeValue_exception x e).trans (BitVec.zero_add _).symm
  | interrupt i => exact causeValue_interrupt x i

theorem trapVector_eq (x : Xlen) (tvec : Word) (c : Cause) :
    trapVector x tvec c
      = if tvec.getLsbD 0 = true ∧ c.isInterrupt = true then norm x ((tvec &&& ~~~3#64) + BitVec.ofNat 64 (4 * c.code))
        else tvec &&& ~~~3#64 := by
  simp only [trapVector, Bool.and_eq_true, and_comm]

theorem trapsToS_exception {s : State} {e : Exc} :
    s.trapsToS (.exception e) = true ↔ s.priv ≠ .M ∧ s.csr.medeleg.getLsbD e.code = true := by
  simp [State.trapsToS]

/-- Settles O42: the two branches of trap entry, the cause and the target as the rules write them. -/
theorem trapEntry : Obligations.TrapEntry := by
  unfold Obligations.TrapEntry
  intro s c v toS cause target
  have htoS : s.trapsToS c = true ↔ toS := by
    cases c with
    | exception e => exact trapsToS_exception
    | interrupt i => exact Iff.rfl
  have hcause : causeValue s.xlen c = cause := causeValue_eq_add s.xlen c
  have htarget (tvec : Word) : trapVector s.xlen tvec c = target tvec := trapVector_eq s.xlen tvec c
  refine ⟨fun h => ?supervisor, fun h => ?machine⟩
  case supervisor => rw [takeTrap_toS (htoS.mpr h), hcause, htarget]
  case machine => rw [takeTrap_toM (Bool.eq_false_iff.mpr (mt htoS.mp h)), hcause, htarget]

/-! ### Interrupt selection (R741, R742) -/

theorem getLsbD_flagBit (b : Bool) (i j : Nat) :
    (flagBit b i).getLsbD j = (decide (j < 64) && (b && decide (j = i))) := by
  rw [flagBit, BitVec.getLsbD_shiftLeft, BitVec.getLsbD_setWidth, BitVec.getLsbD_ofBool]
  cases b with
  | false => simp only [Bool.and_false, Bool.false_and]
  | true =>
    rw [Bool.eq_iff_iff]
    simp only [Bool.and_eq_true, Bool.not_eq_true', decide_eq_true_eq, decide_eq_false_iff_not, and_true, true_and]
    omega

/-- The bit of `mip` at a code is the pending bit of the interrupt (R77). -/
theorem getLsbD_mipRead (s : State) (i : Irq) : (s.csrRead .mip).getLsbD i.code = s.irqPending i := by
  show s.mipRead.getLsbD i.code = _
  simp only [State.mipRead, BitVec.getLsbD_or, getLsbD_flagBit]
  cases i <;> simp [Irq.code]

theorem takeable_iff {s : State} {i : Irq} :
    s.takeable i = true ↔
      if s.csr.mideleg.getLsbD i.code = true then s.priv = .U ∨ (s.priv = .S ∧ s.mstatus.sie = true)
      else s.priv ≠ .M ∨ s.mstatus.mie = true := by
  unfold State.takeable
  split <;> simp

/-- In a list that rises by `f`, the first element with `p` is the one of the least `f`. -/
theorem find?_eq_some_iff_least {α : Type} {f : α → Nat} {p : α → Bool} {l : List α}
    (hl : l.Pairwise fun a b => f a < f b) {a : α} :
    l.find? p = some a ↔ (a ∈ l ∧ p a = true) ∧ ∀ b ∈ l, p b = true → f a ≤ f b := by
  induction l with
  | nil => simp
  | cons x l ih =>
    obtain ⟨hx, hl⟩ := List.pairwise_cons.mp hl
    cases hp : p x with
    | false =>
      rw [List.find?_cons_of_neg (by simp [hp]), ih hl]
      have hne {b : α} (hb : p b = true) : b ≠ x := by
        rintro rfl
        rw [hp] at hb
        cases hb
      constructor
      · rintro ⟨⟨ha, hpa⟩, hleast⟩
        exact ⟨⟨.tail x ha, hpa⟩, fun b hb hpb => hleast b ((List.mem_cons.mp hb).resolve_left (hne hpb)) hpb⟩
      · rintro ⟨⟨ha, hpa⟩, hleast⟩
        exact ⟨⟨(List.mem_cons.mp ha).resolve_left (hne hpa), hpa⟩, fun b hb hpb => hleast b (.tail x hb) hpb⟩
    | true =>
      rw [List.find?_cons_of_pos hp]
      constructor
      · rintro ⟨⟩
        refine ⟨⟨.head l, hp⟩, fun b hb _ => ?_⟩
        obtain rfl | hb := List.mem_cons.mp hb
        · exact Nat.le_refl _
        · exact Nat.le_of_lt (hx b hb)
      · rintro ⟨⟨ha, -⟩, hleast⟩
        obtain rfl | ha := List.mem_cons.mp ha
        · rfl
        · exact absurd (hleast x (.head l) hp) (Nat.not_le.mpr (hx a ha))

theorem mem_irqOrder (i : Irq) : i ∈ irqOrder := by cases i <;> decide

/-- Settles O44: the codes rise in the order of the search, so its first hit is the lowest. -/
theorem interruptSelection : Obligations.InterruptSelection := by
  unfold Obligations.InterruptSelection
  intro s i ready
  have hready (j : Irq) : (s.csr.mie.getLsbD j.code && s.takeable j && s.irqPending j) = true ↔ ready j := by
    rw [Bool.and_eq_true, Bool.and_eq_true, takeable_iff, ← getLsbD_mipRead]
    exact ⟨fun ⟨⟨he, ht⟩, hp⟩ => ⟨hp, he, ht⟩, fun ⟨hp, he, ht⟩ => ⟨⟨he, ht⟩, hp⟩⟩
  have hrise : irqOrder.Pairwise fun a b => a.code < b.code := by decide
  refine ⟨?some, ?none⟩
  case some =>
    rw [State.selectInterrupt, find?_eq_some_iff_least hrise]
    simp only [hready, mem_irqOrder, true_and, forall_const]
  case none =>
    rw [State.selectInterrupt, List.find?_eq_none]
    simp only [hready, mem_irqOrder, forall_const]

/-! ### The mode after an instruction (R747) -/

/-- `o` leaves the mode of `s`, or is a trap taken in it. -/
def KeepsPriv (s : State) (o : Host.Outcome State Fault Refusal) : Prop :=
  ∀ t, o = .next t → t.priv = s.priv ∨ ∃ e v u, t = trapStep (.exception e) v u ∧ u.priv = s.priv

section KeepsPriv

variable {s : State} {i : Instr} {o p : Host.Outcome State Fault Refusal}

theorem KeepsPriv.next {t : State} (h : t.priv = s.priv) : KeepsPriv s (.next t) := by
  rintro _ ⟨⟩
  exact .inl h

theorem KeepsPriv.raise (e : Exc) (v : Word) : KeepsPriv s (raise e v s) := by
  rintro _ ⟨⟩
  exact .inr ⟨e, v, s, rfl, rfl⟩

theorem KeepsPriv.illegal : KeepsPriv s (raiseIllegal i s) := .raise _ _

theorem KeepsPriv.ite {c : Prop} [Decidable c] (ho : KeepsPriv s o) (hp : KeepsPriv s p) :
    KeepsPriv s (if c then o else p) := by
  split <;> assumption

theorem KeepsPriv.inMode {x : Xlen} (h : KeepsPriv s o) : KeepsPriv s (inMode x i s o) := h.ite .illegal

theorem KeepsPriv.atomicMode (n : AtomicWidth) (h : KeepsPriv s o) : KeepsPriv s (atomicMode n i s o) := by
  cases n with
  | w => exact h
  | d => exact h.inMode

theorem KeepsPriv.supervisorGate (b : Bool) (h : KeepsPriv s o) : KeepsPriv s (supervisorGate i b s o) :=
  .ite .illegal h

theorem KeepsPriv.fpArithStop : KeepsPriv s (fpArithStop i s) := .ite .illegal fun _ h => by cases h

theorem KeepsPriv.writeRd (rd : Reg) (v : Word) : KeepsPriv s (writeRd i rd v s) := .next (State.writeX_priv ..)

theorem KeepsPriv.jumpLink (rd : Reg) (t : Word) : KeepsPriv s (jumpLink i rd t s) := .next (State.writeX_priv ..)

theorem KeepsPriv.branch {n : Nat} (rs1 rs2 : Reg) (off : BitVec n) (cond : (w : Nat) → BitVec w → BitVec w → Bool) :
    KeepsPriv s (branch i rs1 rs2 off cond s) := .next (by split <;> rfl)

theorem KeepsPriv.csrOp (rd : Reg) (c : BitVec 12) (writes : Bool) (f : Word → Word) :
    KeepsPriv s (csrOp i rd c writes f s) := fun t h => by
  obtain hill | ⟨r, rfl⟩ := csrOp_eq_next h
  · exact KeepsPriv.illegal t (hill.symm.trans h)
  · exact .inl (by rw [s.csrDone_kept i rd r writes f])

/-- An instruction whose last operation only accesses memory. -/
theorem KeepsPriv.complete {α : Type} {r : Res α} {act : α → State → State} (hr : r.Reaches Accessed s)
    (hact : ∀ a u, (act a u).priv = u.priv) : KeepsPriv s (r.complete act) := fun t h => by
  obtain ⟨a, u, rfl, rfl⟩ | ⟨e, v, u, rfl, rfl⟩ := Res.complete_eq_next h
  · exact .inl ((hact a u).trans (Accessed.priv hr))
  · exact .inr ⟨e, v, u, rfl, Accessed.priv hr⟩

theorem KeepsPriv.atomic (n : AtomicWidth) (k : Access) (va : Word) {act : Nat → State → State}
    (hact : ∀ pa u, (act pa u).priv = u.priv) :
    KeepsPriv s (Machine.atomicMode n i s ((s.atomicAddr k va n.bytes).complete act)) :=
  .atomicMode n (.complete (atomicAddr_reaches ..).accessed hact)

theorem KeepsPriv.loadReserved (rd rs1 : Reg) (n : AtomicWidth) : KeepsPriv s (loadReserved i rd rs1 n s) :=
  .atomic n .load _ fun _ _ => State.writeX_priv ..

theorem KeepsPriv.storeConditional (rd rs1 rs2 : Reg) (n : AtomicWidth) :
    KeepsPriv s (storeConditional i rd rs1 rs2 n s) :=
  .atomic n .store _ fun pa u => by
    rw [State.retire_priv]
    split <;> exact State.writeX_priv ..

theorem KeepsPriv.amo (rd rs1 rs2 : Reg) (n : AtomicWidth) (f : (w : Nat) → BitVec w → BitVec w → BitVec w) :
    KeepsPriv s (amo i rd rs1 rs2 n f s) :=
  .atomic n .amo _ fun _ _ => State.writeX_priv ..

theorem KeepsPriv.storeAt (a : Word) (n : Nat) (v : Word) : KeepsPriv s (storeAt i a n v s) := fun t h => by
  obtain ⟨_, u, hw, rfl⟩ | ⟨e, w, u, hw, rfl⟩ := Res.complete_eq_next h
  · obtain ⟨u, rfl, hu⟩ := memWrite_dropResv hw
    exact .inl hu.priv
  · exact .inr ⟨e, w, u, rfl, (memWrite_trap_accessed hw).priv⟩

theorem exec_access_keepsPriv (ha : i.accesses = true) : KeepsPriv s (exec i s) := by
  obtain ⟨⟨base, imm, m⟩, ha⟩ := Option.isSome_iff_exists.mp ha
  cases accessForm_of_access s ha with
  | illegal he => rw [he]; exact .illegal
  | load _ _ _ he => rw [he]; exact .complete (memRead_reaches ..) fun _ _ => State.writeX_priv ..
  | loadF _ _ _ he => rw [he]; exact .complete (memRead_reaches ..) fun _ _ => rfl
  | store _ _ _ he => rw [he]; exact .storeAt _ _ _

/-- Every instruction but the trap returns keeps the mode or traps. -/
theorem exec_keepsPriv (hm : i ≠ .mret) (hs : i ≠ .sret) : KeepsPriv s (exec i s) := by
  cases ha : i.accesses with
  | true => exact exec_access_keepsPriv ha
  | false =>
    cases i
    case mret => exact absurd rfl hm
    case sret => exact absurd rfl hs
    case lui | auipc | addi | slti | sltiu | xori | ori | andi | add | sub | sll | slt | sltu | xor | srl | sra | or | and
      | mul | mulh | mulhsu | mulhu | div | divu | rem | remu | cAddi4spn | cNop | cAddi | cLi | cAddi16sp | cLui | cAndi
      | cSub | cXor | cOr | cAnd | cMv | cAdd => exact .writeRd _ _
    case slli | srli | srai | cSrli | cSrai | cSlli => exact .ite (.writeRd _ _) .illegal
    case addiw | slliw | srliw | sraiw | addw | subw | sllw | srlw | sraw | mulw | divw | divuw | remw | remuw | cSubw
      | cAddw | cAddiw => exact .inMode (.writeRd _ _)
    case jal | jalr | cJ | cJr | cJalr => exact .jumpLink _ _
    case cJal => exact .inMode (.jumpLink _ _)
    case beq | bne | blt | bge | bltu | bgeu | cBeqz | cBnez => exact .branch _ _ _ _
    case lrW => exact .loadReserved _ _ .w
    case lrD => exact .loadReserved _ _ .d
    case scW => exact .storeConditional _ _ _ .w
    case scD => exact .storeConditional _ _ _ .d
    case amoswapW | amoaddW | amoxorW | amoandW | amoorW | amominW | amomaxW | amominuW | amomaxuW =>
      exact .amo _ _ _ .w _
    case amoswapD | amoaddD | amoxorD | amoandD | amoorD | amominD | amomaxD | amominuD | amomaxuD =>
      exact .amo _ _ _ .d _
    case csrrw | csrrs | csrrc | csrrwi | csrrsi | csrrci => exact .csrOp _ _ _ _
    case fence | fenceI => exact .next rfl
    case ecall | ebreak | cEbreak => exact .raise _ _
    case wfi | sfenceVma => exact .supervisorGate _ (.next rfl)
    case fpMadd | fpMsub | fpNmsub | fpNmadd | fpOp => exact .fpArithStop
    all_goals cases ha

end KeepsPriv

/-! ### The mode after a trap (R731, R741) -/

/-- A trap that goes to M lowers no mode, and one that goes to S none that is not M. -/
theorem code_le_takeTrap_priv {s : State} {c : Cause} (v : Word) (h : s.trapsToS c = true → s.priv ≠ .M) :
    s.priv.code ≤ (takeTrap c v s).priv.code := by
  rw [takeTrap_priv]
  split
  · have hne := h ‹_›
    revert hne
    cases s.priv <;> decide
  · cases s.priv <;> decide

/-- An interrupt that is taken in S is takeable below M only. -/
theorem priv_ne_M_of_takeable {s : State} {i : Irq} (ht : s.takeable i = true) (h : s.trapsToS (.interrupt i) = true) :
    s.priv ≠ .M := by
  have hd : s.csr.mideleg.getLsbD i.code = true := h
  rw [takeable_iff, if_pos hd] at ht
  obtain hu | ⟨hs, -⟩ := ht
  · simp [hu]
  · simp [hs]

theorem takeable_of_selected {s : State} {i : Irq} (h : s.selectInterrupt = some i) : s.takeable i = true := by
  have hp := List.find?_some h
  simp only [Bool.and_eq_true] at hp
  exact hp.1.2

/-- Settles O43: an instruction keeps the mode, returns or traps, and a trap raises the mode or keeps it. -/
theorem privilegeTransitions : Obligations.PrivilegeTransitions := by
  unfold Obligations.PrivilegeTransitions
  refine ⟨fun i s t h => ⟨?mode, ?mret, ?sret⟩, fun c v s => ⟨?notU, ?exception, ?interrupt⟩, rfl⟩
  case mode =>
    by_cases hm : i = .mret
    · exact .inr (.inl hm)
    by_cases hs : i = .sret
    · exact .inr (.inr (.inl hs))
    exact (exec_keepsPriv hm hs t h).imp_right fun ht => .inr (.inr ht)
  case mret =>
    rintro rfl hM
    have hret : exec .mret s = .next (returnFromM s).countRetired := if_pos hM
    cases h.symm.trans hret
    rfl
  case sret =>
    rintro rfl hU htsr
    have hopen : s.priv = .M ∨ (s.priv = .S ∧ s.mstatus.tsr = false) := by
      cases hp : s.priv with
      | U => exact absurd hp hU
      | S => exact .inr ⟨rfl, htsr⟩
      | M => exact .inl rfl
    have hret : exec .sret s = .next (returnFromS s).countRetired := supervisorGate_of_open hopen
    cases h.symm.trans hret
    rfl
  case notU =>
    rw [takeTrap_priv]
    split <;> decide
  case exception =>
    rintro e rfl
    exact code_le_takeTrap_priv v fun h => (trapsToS_exception.mp h).1
  case interrupt =>
    rintro i rfl hi
    exact code_le_takeTrap_priv v (priv_ne_M_of_takeable (takeable_of_selected hi))

end Sys2Proof.Machine

/-! ## The CLINT (60_exceptions.md R760 to R763) -/

namespace Sys2Proof.Machine

open Sys2Proof

/-! ### The halves of a 64-bit register (R762) -/

section Halves

variable (old : BitVec 64) (v : BitVec 32)

@[simp] theorem setLow32_low : (setLow32 old v).extractLsb 31 0 = v := BitVec.extractLsb'_append_eq_right
@[simp] theorem setLow32_high : (setLow32 old v).extractLsb 63 32 = old.extractLsb 63 32 :=
  BitVec.extractLsb'_append_eq_left
@[simp] theorem setHigh32_low : (setHigh32 old v).extractLsb 31 0 = old.extractLsb 31 0 :=
  BitVec.extractLsb'_append_eq_right
@[simp] theorem setHigh32_high : (setHigh32 old v).extractLsb 63 32 = v := BitVec.extractLsb'_append_eq_left

end Halves

/-! ### The registers (R761, R762, R763) -/

section ClintRegisters

variable (c : Clint) {off off' : Nat} (v : BitVec 32)

/-- msip0 holds bit 0 of what is written (R761). -/
theorem Clint.read_write_msip : (c.write 0 v).read 0 = v &&& 1 :=
  BitVec.and_one_eq_setWidth_ofBool_getLsbD.symm

theorem Clint.read_write_half (h : off ∈ [0x4000, 0x4004, 0xBFF8, 0xBFFC]) : (c.write off v).read off = v := by
  simp only [List.mem_cons, List.not_mem_nil, or_false] at h
  obtain rfl | rfl | rfl | rfl := h
  · exact setLow32_low ..
  · exact setHigh32_high ..
  · exact setLow32_low ..
  · exact setHigh32_high ..

theorem Clint.read_write_reserved (h : off ∉ [0, 0x4000, 0x4004, 0xBFF8, 0xBFFC]) :
    c.read off = 0 ∧ c.write off v = c := by
  simp only [List.mem_cons, List.not_mem_nil, or_false, not_or] at h
  simp [Clint.read, Clint.write, h]

/-- A write to one register leaves the others, the other half of the same 64 bits among them. -/
theorem Clint.read_write_ne (h : off ≠ off') : (c.write off v).read off' = c.read off' := by
  by_cases hreg : off ∈ [0, 0x4000, 0x4004, 0xBFF8, 0xBFFC]
  · simp only [List.mem_cons, List.not_mem_nil, or_false] at hreg
    obtain rfl | rfl | rfl | rfl | rfl := hreg
    · show ({ c with msip0 := v.getLsbD 0 } : Clint).read off' = c.read off'
      simp only [Clint.read, h.symm, if_false]
    · show ({ c with mtimecmp0 := setLow32 c.mtimecmp0 v } : Clint).read off' = c.read off'
      simp only [Clint.read, h.symm, if_false, setLow32_high]
    · show ({ c with mtimecmp0 := setHigh32 c.mtimecmp0 v } : Clint).read off' = c.read off'
      simp only [Clint.read, h.symm, if_false, setHigh32_low]
    · show ({ c with mtime := setLow32 c.mtime v } : Clint).read off' = c.read off'
      simp only [Clint.read, h.symm, if_false, setLow32_high]
    · show ({ c with mtime := setHigh32 c.mtime v } : Clint).read off' = c.read off'
      simp only [Clint.read, h.symm, if_false, setHigh32_low]
  · rw [(c.read_write_reserved v hreg).2]

theorem Clint.timerPending_iff : c.timerPending = true ↔ c.mtimecmp0.toNat ≤ c.mtime.toNat := by
  simp [Clint.timerPending, BitVec.ule]

end ClintRegisters

/-- Settles O50: each register by its offset, the tick as an addition modulo 2^64. -/
theorem clintRegisters : Obligations.ClintRegisters := by
  unfold Obligations.ClintRegisters
  exact fun s c off off' v => ⟨c.read_write_msip v, c.read_write_half v, c.read_write_ne v, c.read_write_reserved v,
    BitVec.toNat_add .., rfl, rfl, c.timerPending_iff, rfl, rfl⟩

end Sys2Proof.Machine

/-! ## The UART (60_exceptions.md R780 to R788) -/

namespace Sys2Proof.Machine

open Sys2Proof

/-! ### Reads and writes by offset (R781 to R785) -/

section UartRegisters

variable {s : State} {u : Uart} {off : Nat} {b : Byte}

/-- Offsets 0 and 1 are the data register and IER, or the divisor latch where DLAB = 1 (R781). -/
theorem Uart.readReg_zero : u.readReg 0 = if u.dlab = true then (u.dll, u) else (u.rbr, { u with dr := false }) := rfl

theorem Uart.readReg_one : u.readReg 1 = if u.dlab = true then (u.dlm, u) else (u.ier.setWidth 8, u) := rfl

theorem Uart.writeReg_zero : u.writeReg 0 b
    = if u.dlab = true then { u with dll := b } else { u with threIp := false, txBusy := true } := rfl

theorem Uart.writeReg_one : u.writeReg 1 b = if u.dlab = true then { u with dlm := b } else u.setIer b := rfl

/-- A read of IIR: the received byte goes first, and only a THRE interrupt that is reported is cleared (R783). -/
theorem Uart.readReg_iir : u.readReg 2
    = if u.rxIrq = true then (0x04#8, u) else if u.txIrq = true then (0x02#8, { u with threIp := false })
      else (0x01#8, u) := by
  show (u.iir, if !u.rxIrq && u.txIrq then { u with threIp := false } else u) = _
  unfold Uart.iir
  cases u.rxIrq <;> cases u.txIrq <;> rfl

theorem Uart.lsr_eq : u.lsr = if u.dr = true then 0x61#8 else 0x60#8 := by
  unfold Uart.lsr
  cases u.dr <;> rfl

/-- A write of IER that does not enable ETBEI leaves the THRE interrupt as it was (R784). -/
theorem Uart.setIer_keeps (h : u.ier.getLsbD 1 = true ∨ b.getLsbD 1 = false) :
    u.setIer b = { u with ier := b.setWidth 4 } := by
  have hedge : (!u.ier.getLsbD 1 && b.getLsbD 1) = false := by
    obtain h | h := h
    · rw [h, Bool.not_true, Bool.false_and]
    · rw [h, Bool.and_false]
  rw [Uart.setIer, hedge, Bool.or_false]

theorem Uart.setIer_enables (h0 : u.ier.getLsbD 1 = false) (h1 : b.getLsbD 1 = true) :
    u.setIer b = { u with ier := b.setWidth 4, threIp := true } := by
  rw [Uart.setIer, h0, h1, Bool.not_false, Bool.true_and, Bool.or_true]

theorem Uart.readReg_of_ge (h : 8 ≤ off) : u.readReg off = (0, u) := by
  unfold Uart.readReg
  repeat rw [if_neg (by omega)]

theorem Uart.writeReg_ignored (h : off ∈ [2, 5, 6] ∨ 8 ≤ off) : u.writeReg off b = u := by
  simp only [List.mem_cons, List.not_mem_nil, or_false] at h
  unfold Uart.writeReg
  repeat rw [if_neg (by omega)]

/-- A read by the bus gives the register's byte and leaves what the read makes of the UART. -/
theorem State.uartRead_eq {c : Byte} {v : Uart} (h : s.uart.readReg off = (c, v)) :
    s.uartRead off = (c, { s with uart := v }) := by
  rw [State.uartRead, h]

/-- Where nothing is transmitted a write changes the registers only (R782). -/
theorem State.uartWrite_eq {v : Uart} (h : off ≠ 0 ∨ s.uart.dlab = true) (hv : s.uart.writeReg off b = v) :
    s.uartWrite off b = { s with uart := v } := by
  rw [State.uartWrite, if_neg (by obtain h | h := h <;> simp [h]), hv]

theorem State.uartWrite_transmits (h : s.uart.dlab = false) :
    s.uartWrite 0 b = { s with ttyOut := s.ttyOut ++ [b], uart := { s.uart with threIp := false, txBusy := true } } := by
  rw [State.uartWrite, if_pos (by simp [h]), Uart.writeReg_zero, if_neg (Bool.eq_false_iff.mp h)]
  rfl

end UartRegisters

/-! ### The tick (R786) -/

section UartTick

variable {s : State}

/-- With a byte in the receiver the TTY is not asked. -/
theorem State.uartTick_of_full (h : s.uart.dr = true) : s.uartTick = { s with uart := s.uart.sent } := by
  rw [State.uartTick, if_pos h]

theorem State.uartTick_of_empty {a : Option Byte} {t : State} (h : s.uart.dr = false) (ha : s.ttyGet = (a, t)) :
    s.uartTick = { t with uart := (s.uart.receive a).sent } := by
  rw [State.uartTick, if_neg (Bool.eq_false_iff.mp h), ha]

theorem State.ttyGet_of_cons {a : Option Byte} {rest : List (Option Byte)} (h : s.ttyIn = a :: rest) :
    s.ttyGet = (a, { s with ttyIn := rest }) := by
  rw [State.ttyGet, h]

/-- A TTY with no answer left answers none (log 7). -/
theorem State.ttyGet_of_nil (h : s.ttyIn = []) : s.ttyGet = (none, s) := by
  rw [State.ttyGet, h]

end UartTick

/-- Settles O52: each offset by its register, the tick by what the TTY answers. -/
theorem uartRules : Obligations.UartRules := by
  unfold Obligations.UartRules
  intro s b off rest u dlab received emptied
  have hrx : u.rxIrq = true ↔ received := Bool.and_eq_true_iff
  have htx : u.txIrq = true ↔ emptied := Bool.and_eq_true_iff
  refine ⟨fun h => ?registers, fun h => ?latch, fun hr => ?iirReceived, fun hr he => ?iirEmptied, fun hr he => ?iirNone,
    rfl, rfl, rfl, rfl, State.uartRead_eq (congrArg (·, u) Uart.lsr_eq), rfl, rfl, rfl,
    fun h => State.uartRead_eq (Uart.readReg_of_ge h), fun h => ?ignored, ?tick,
    Bool.or_eq_true_iff.trans (or_congr hrx htx)⟩
  case registers =>
    have hn : ¬ u.dlab = true := Bool.eq_false_iff.mp h
    exact ⟨State.uartRead_eq (Uart.readReg_zero.trans (if_neg hn)), State.uartWrite_transmits h,
      State.uartRead_eq (Uart.readReg_one.trans (if_neg hn)),
      fun h0 h1 => State.uartWrite_eq (.inl (by decide))
        (Uart.writeReg_one.trans ((if_neg hn).trans (Uart.setIer_enables h0 h1))),
      fun hk => State.uartWrite_eq (.inl (by decide))
        (Uart.writeReg_one.trans ((if_neg hn).trans (Uart.setIer_keeps hk)))⟩
  case latch =>
    exact ⟨State.uartRead_eq (Uart.readReg_zero.trans (if_pos h)),
      State.uartWrite_eq (.inr h) (Uart.writeReg_zero.trans (if_pos h)),
      State.uartRead_eq (Uart.readReg_one.trans (if_pos h)),
      State.uartWrite_eq (.inl (by decide)) (Uart.writeReg_one.trans (if_pos h))⟩
  case iirReceived => exact State.uartRead_eq (Uart.readReg_iir.trans (if_pos (hrx.mpr hr)))
  case iirEmptied =>
    exact State.uartRead_eq (Uart.readReg_iir.trans ((if_neg (mt hrx.mp hr)).trans (if_pos (htx.mpr he))))
  case iirNone =>
    exact State.uartRead_eq (Uart.readReg_iir.trans ((if_neg (mt hrx.mp hr)).trans (if_neg (mt htx.mp he))))
  case ignored =>
    have h0 : off ≠ 0 := by
      simp only [List.mem_cons, List.not_mem_nil, or_false] at h
      omega
    exact State.uartWrite_eq (.inl h0) (Uart.writeReg_ignored h)
  case tick =>
    refine ⟨fun h ha => ?_, fun h ha => ?_, fun h ha => ?_, fun h => ?_⟩
    · rw [State.uartTick_of_empty h (State.ttyGet_of_cons ha), Uart.sent_eq]
      rfl
    · rw [State.uartTick_of_empty h (State.ttyGet_of_cons ha), Uart.sent_eq]
      rfl
    · rw [State.uartTick_of_empty h (State.ttyGet_of_nil ha), Uart.sent_eq]
      rfl
    · rw [State.uartTick_of_full h, Uart.sent_eq]

end Sys2Proof.Machine

/-! ## The PLIC (60_exceptions.md R770 to R776) -/

namespace Sys2Proof.Machine

open Sys2Proof

/-! ### Bits (R770) -/

theorem getLsbD_sourceBit {n : Nat} (hn : n < 64) (m : Nat) : (sourceBit n).getLsbD m = decide (m = n) := by
  rw [sourceBit, ← BitVec.twoPow_eq, BitVec.getLsbD_twoPow, decide_eq_true hn, Bool.true_and]
  exact decide_eq_decide.mpr eq_comm

theorem getLsbD_plicMask (m : Nat) : plicMask.getLsbD m = decide (1 ≤ m ∧ m ≤ 53) := by
  by_cases hm : m < 64
  · exact (by decide : ∀ k, k < 64 → plicMask.getLsbD k = decide (1 ≤ k ∧ k ≤ 53)) m hm
  · rw [BitVec.getLsbD_of_ge _ _ (Nat.le_of_not_lt hm)]
    exact (decide_eq_false (by omega)).symm

theorem extractLsb_low32 (x : BitVec 64) : x.extractLsb 31 0 = x.setWidth 32 := bits_ext fun i hi => by
  simp [hi]

theorem extractLsb_high32 (x : BitVec 64) : x.extractLsb 63 32 = (x >>> 32).setWidth 32 := bits_ext fun i hi => by
  simp [hi]

theorem mem_plicIds {m : Nat} : m ∈ plicIds ↔ 1 ≤ m ∧ m ≤ 53 := by
  simp only [plicIds, Config.plicSources, List.mem_map, List.mem_range]
  exact ⟨fun ⟨k, hk, he⟩ => by omega, fun h => ⟨m - 1, by omega, by omega⟩⟩

theorem plicIds_rise : plicIds.Pairwise (· < ·) :=
  List.Pairwise.map _ (fun _ _ h => Nat.succ_lt_succ h) List.pairwise_lt_range

/-! ### Priorities (R771) -/

section Priorities

variable (p : Plic) {n : Nat} (v : BitVec 3)

theorem Plic.prio_setPriority_self (h1 : 1 ≤ n) (h2 : n ≤ 53) : (p.setPriority n v).prio n = v.toNat := by
  have h0 : n ≠ 0 := by omega
  have h54 : n < 54 := by omega
  simp [Plic.setPriority, Plic.prio, h0, h54]

theorem Plic.prio_setPriority_ne {m : Nat} (h : m ≠ n) : (p.setPriority n v).prio m = p.prio m := by
  unfold Plic.setPriority
  split
  · rfl
  · split
    · simp [Plic.prio, Vector.getElem_set_ne, h.symm]
    · rfl

theorem Plic.setPriority_eq : p.setPriority n v = { p with priority := (p.setPriority n v).priority } := by
  unfold Plic.setPriority
  split
  · rfl
  · split <;> rfl

/-- An id that is no source has no priority to write. -/
theorem Plic.setPriority_of_no_source (h : n = 0 ∨ 54 ≤ n) : p.setPriority n v = p := by
  unfold Plic.setPriority
  split
  · rfl
  · exact dif_neg (by omega)

theorem Plic.prio_of_no_source (h : n = 0 ∨ 54 ≤ n) : p.prio n = 0 := by
  unfold Plic.prio
  split
  · rfl
  · exact dif_neg (by omega)

end Priorities

/-! ### The registers of a context (R771) -/

/-- Where a context's enable registers and its threshold and claim registers begin (R771). -/
def Context.enables : Context → Nat
  | .m => 0x002000
  | .s => 0x002080
def Context.control : Context → Nat
  | .m => 0x200000
  | .s => 0x201000

/-- The PLIC with the enable bits, or the threshold, of a context replaced. -/
def Plic.setEnable (p : Plic) (e : BitVec 64) : Context → Plic
  | .m => { p with enable0 := e }
  | .s => { p with enable1 := e }
def Plic.setThreshold (p : Plic) (t : BitVec 3) : Context → Plic
  | .m => { p with threshold0 := t }
  | .s => { p with threshold1 := t }

section ContextRegisters

variable (p : Plic) (c : Context) (v : BitVec 32)

theorem Plic.readReg_enables : p.readReg c.enables = ((p.enable c).setWidth 32, p)
    ∧ p.readReg (c.enables + 4) = ((p.enable c >>> 32).setWidth 32, p) := by
  rw [← extractLsb_low32, ← extractLsb_high32]
  cases c <;> exact ⟨rfl, rfl⟩

theorem Plic.writeReg_enables : p.writeReg c.enables v
    = p.setEnable (((p.enable c).extractLsb 63 32 ++ v) &&& plicMask) c := by
  cases c <;> rfl

theorem Plic.writeReg_enables_high : p.writeReg (c.enables + 4) v
    = p.setEnable ((v ++ (p.enable c).extractLsb 31 0) &&& plicMask) c := by
  cases c <;> rfl

theorem Plic.readReg_control : p.readReg c.control = ((p.threshold c).setWidth 32, p) := by
  cases c <;> rfl

theorem Plic.writeReg_control : p.writeReg c.control v = p.setThreshold (v.setWidth 3) c := by
  cases c <;> rfl

theorem Plic.readReg_claim : p.readReg (c.control + 4) = (BitVec.ofNat 32 (p.claim c).1, (p.claim c).2) := by
  cases c <;> rfl

theorem Plic.writeReg_claim : p.writeReg (c.control + 4) v = p.complete c v.toNat := by
  cases c <;> rfl

variable (e : BitVec 64) (t : BitVec 3)

@[simp] theorem Plic.enable_setEnable_self : (p.setEnable e c).enable c = e := by
  cases c <;> rfl

theorem Plic.enable_setEnable_ne {d : Context} (h : d ≠ c) : (p.setEnable e c).enable d = p.enable d := by
  cases c <;> cases d
  · exact absurd rfl h
  · rfl
  · rfl
  · exact absurd rfl h

@[simp] theorem Plic.threshold_setThreshold_self : (p.setThreshold t c).threshold c = t := by
  cases c <;> rfl

theorem Plic.threshold_setThreshold_ne {d : Context} (h : d ≠ c) : (p.setThreshold t c).threshold d = p.threshold d := by
  cases c <;> cases d
  · exact absurd rfl h
  · rfl
  · rfl
  · exact absurd rfl h

theorem Plic.setEnable_keeps (d : Context) :
    ((p.setEnable e c).pending = p.pending ∧ (p.setEnable e c).claimed = p.claimed)
      ∧ (p.setEnable e c).priority = p.priority ∧ (p.setEnable e c).threshold d = p.threshold d := by
  cases c <;> cases d <;> exact ⟨⟨rfl, rfl⟩, rfl, rfl⟩

theorem Plic.setThreshold_keeps (d : Context) :
    ((p.setThreshold t c).pending = p.pending ∧ (p.setThreshold t c).claimed = p.claimed)
      ∧ (p.setThreshold t c).priority = p.priority ∧ (p.setThreshold t c).enable d = p.enable d := by
  cases c <;> cases d <;> exact ⟨⟨rfl, rfl⟩, rfl, rfl⟩

end ContextRegisters

/-- A bit of an enable register whose low half is written. -/
theorem getLsbD_enables_low (e : BitVec 64) (v : BitVec 32) (m : Nat) :
    ((e.extractLsb 63 32 ++ v) &&& plicMask).getLsbD m
      = (decide (1 ≤ m ∧ m ≤ 53) && if m < 32 then v.getLsbD m else e.getLsbD m) := by
  rw [BitVec.getLsbD_and, getLsbD_plicMask, Bool.and_comm]
  by_cases hm : 1 ≤ m ∧ m ≤ 53
  · rw [decide_eq_true hm, Bool.true_and, Bool.true_and]
    refine (BitVec.getLsbD_append ..).trans ?_
    by_cases h : m < 32
    · simp [h]
    · simp [h, show m - 32 < 32 by omega, show 32 + (m - 32) = m by omega]
  · simp only [decide_eq_false hm, Bool.false_and]

/-- A bit of one whose high half is written. -/
theorem getLsbD_enables_high (e : BitVec 64) (v : BitVec 32) (m : Nat) :
    ((v ++ e.extractLsb 31 0) &&& plicMask).getLsbD m
      = (decide (1 ≤ m ∧ m ≤ 53) && if m < 32 then e.getLsbD m else v.getLsbD (m - 32)) := by
  rw [BitVec.getLsbD_and, getLsbD_plicMask, Bool.and_comm]
  congr 1
  refine (BitVec.getLsbD_append ..).trans ?_
  by_cases h : m < 32
  · simp [h]
  · simp [h]

/-! ### The other offsets (R771) -/

section OtherOffsets

variable (p : Plic) {off : Nat} (v : BitVec 32)

theorem Plic.writeReg_pending (h : off ∈ [0x001000, 0x001004]) : p.writeReg off v = p := by
  simp only [List.mem_cons, List.not_mem_nil, or_false] at h
  obtain rfl | rfl := h <;> rfl

/-- The priority of an id that is no source. -/
theorem Plic.reg_of_no_source (hlt : off < 0x1000) (h : off / 4 = 0 ∨ 54 ≤ off / 4) :
    p.writeReg off v = p ∧ p.readReg off = (0, p) := by
  refine ⟨(if_pos hlt).trans (p.setPriority_of_no_source _ h), (if_pos hlt).trans ?_⟩
  rw [p.prio_of_no_source h]
  rfl

theorem Plic.reg_of_unmapped (hge : 0x1000 ≤ off) (h : off ∉ [0x001000, 0x001004, 0x002000, 0x002004, 0x002080, 0x002084,
    0x200000, 0x200004, 0x201000, 0x201004]) : p.writeReg off v = p ∧ p.readReg off = (0, p) := by
  have hlt : ¬ off < 0x1000 := Nat.not_lt.mpr hge
  simp only [List.mem_cons, List.not_mem_nil, or_false, not_or] at h
  simp [Plic.writeReg, Plic.readReg, hlt, h]

end OtherOffsets

/-! ### The best source (R775) -/

/-- One comparison of the search: `m` replaces `b` where it is ready and of a higher priority. -/
def Plic.better (p : Plic) (c : Context) (b m : Nat) : Nat :=
  if p.ready c m && decide (p.prio b < p.prio m) then m else b

theorem Plic.best_eq_foldl (p : Plic) (c : Context) : p.best c = plicIds.foldl (p.better c) 0 := rfl

/-- `r` is what the search through `l`, begun with `b`, must return. -/
structure Plic.BestOf (p : Plic) (c : Context) (l : List Nat) (b r : Nat) : Prop where
  found : r = b ∨ (r ∈ l ∧ p.ready c r = true ∧ p.prio b < p.prio r)
  beats : ∀ m ∈ l, p.ready c m = true → p.prio m < p.prio r ∨ (p.prio m = p.prio r ∧ r ≤ m)

section BestSource

variable {p : Plic} {c : Context}

theorem Plic.BestOf.le {l : List Nat} {b r : Nat} (h : p.BestOf c l b r) : p.prio b ≤ p.prio r := by
  obtain rfl | ⟨-, -, hlt⟩ := h.found
  · exact Nat.le_refl _
  · exact Nat.le_of_lt hlt

theorem Plic.foldl_better {l : List Nat} {b : Nat} (hl : (b :: l).Pairwise (· < ·)) :
    p.BestOf c l b (l.foldl (p.better c) b) := by
  induction l generalizing b with
  | nil => exact ⟨.inl rfl, nofun⟩
  | cons x l ih =>
    obtain ⟨hb, hx⟩ := List.pairwise_cons.mp hl
    rw [List.foldl_cons]
    by_cases hw : (p.ready c x && decide (p.prio b < p.prio x)) = true
    · rw [Plic.better, if_pos hw]
      simp only [Bool.and_eq_true, decide_eq_true_eq] at hw
      have h := ih hx
      refine ⟨.inr ?_, List.forall_mem_cons.mpr ⟨fun _ => ?_, h.beats⟩⟩
      · obtain he | ⟨hm, hr, hlt⟩ := h.found
        · rw [he]
          exact ⟨.head l, hw⟩
        · exact ⟨.tail x hm, hr, Nat.lt_trans hw.2 hlt⟩
      · obtain he | ⟨-, -, hlt⟩ := h.found
        · rw [he]
          exact .inr ⟨rfl, Nat.le_refl x⟩
        · exact .inl hlt
    · rw [Plic.better, if_neg hw]
      simp only [Bool.and_eq_true, decide_eq_true_eq, not_and, Nat.not_lt] at hw
      have h := ih (List.pairwise_cons.mpr ⟨fun m hm => hb m (.tail x hm), (List.pairwise_cons.mp hx).2⟩)
      refine ⟨h.found.imp_right fun ⟨hm, hr⟩ => ⟨.tail x hm, hr⟩, List.forall_mem_cons.mpr ⟨fun hr => ?_, h.beats⟩⟩
      have hxb := hw hr
      obtain he | ⟨-, -, hlt⟩ := h.found
      · rw [he]
        have := hb x (.head l)
        omega
      · exact .inl (Nat.lt_of_le_of_lt hxb hlt)

theorem Plic.best_bestOf (p : Plic) (c : Context) : p.BestOf c plicIds 0 (p.best c) :=
  Plic.foldl_better (List.pairwise_cons.mpr ⟨fun _ hm => (mem_plicIds.mp hm).1, plicIds_rise⟩)

theorem Plic.prio_zero (p : Plic) : p.prio 0 = 0 := p.prio_of_no_source (.inl rfl)

/-- A claim may return `m`: it is a pending, enabled source with a priority above 0. -/
def Plic.Claimable (p : Plic) (c : Context) (m : Nat) : Prop :=
  1 ≤ m ∧ m ≤ 53 ∧ p.pending.getLsbD m = true ∧ (p.enable c).getLsbD m = true ∧ 0 < p.prio m

theorem Plic.ready_iff {m : Nat} :
    p.ready c m = true ↔ p.pending.getLsbD m = true ∧ (p.enable c).getLsbD m = true := Bool.and_eq_true_iff

theorem Plic.claimable_iff {m : Nat} : p.Claimable c m ↔ m ∈ plicIds ∧ p.ready c m = true ∧ 0 < p.prio m := by
  simp only [Plic.Claimable, mem_plicIds, Plic.ready_iff, and_assoc]

theorem Plic.claimable_best (h : p.best c ≠ 0) : p.Claimable c (p.best c) := by
  have hf := (p.best_bestOf c).found.resolve_left h
  rw [prio_zero] at hf
  exact claimable_iff.mpr hf

theorem Plic.best_beats {m : Nat} (h : p.Claimable c m) :
    p.prio m < p.prio (p.best c) ∨ (p.prio m = p.prio (p.best c) ∧ p.best c ≤ m) := by
  obtain ⟨hm, hr, -⟩ := claimable_iff.mp h
  exact (p.best_bestOf c).beats m hm hr

theorem Plic.best_eq_zero_iff : p.best c = 0 ↔ ∀ m, ¬ p.Claimable c m := by
  refine ⟨fun h m hm => ?_, fun h => Decidable.byContradiction fun hne => h _ (claimable_best hne)⟩
  have hpos : 0 < p.prio m := (claimable_iff.mp hm).2.2
  have hle := best_beats hm
  rw [h, prio_zero] at hle
  omega

end BestSource

/-! ### Claim, completion and gateway (R772, R775, R776) -/

section Claim

variable {p : Plic} {c : Context} {n : Nat}

theorem Plic.claim_of_none (h : p.best c = 0) : p.claim c = (0, p) := if_pos h

theorem Plic.claim_of_best (h : p.best c = n) (hn : n ≠ 0) :
    p.claim c
      = (n, { p with pending := p.pending &&& ~~~sourceBit n, claimed := p.claimed ||| sourceBit n }) := by
  subst h
  exact if_neg hn

theorem Plic.claim_fst (p : Plic) (c : Context) : (p.claim c).1 = p.best c := by
  by_cases h : p.best c = 0
  · rw [claim_of_none h, h]
  · rw [claim_of_best rfl h]

theorem Plic.complete_of_claimed (h1 : 1 ≤ n) (h2 : n ≤ 53) (he : (p.enable c).getLsbD n = true)
    (hc : p.claimed.getLsbD n = true) : p.complete c n = { p with claimed := p.claimed &&& ~~~sourceBit n } := by
  have hn : 1 ≤ n ∧ n ≤ Config.plicSources := ⟨h1, h2⟩
  exact if_pos (by rw [he, hc, decide_eq_true hn]; rfl)

theorem Plic.complete_of_other (h : ¬ (1 ≤ n ∧ n ≤ 53 ∧ (p.enable c).getLsbD n = true ∧ p.claimed.getLsbD n = true)) :
    p.complete c n = p := by
  refine if_neg fun hc => h ?_
  simp only [Bool.and_eq_true, decide_eq_true_eq] at hc
  obtain ⟨⟨⟨h1, h2⟩, he⟩, hcl⟩ := hc
  exact ⟨h1, h2, he, hcl⟩

theorem Plic.gateway_of_claimed (h : p.claimed.getLsbD n = true) : p.gateway n = p :=
  if_pos (by rw [h, Bool.or_true])

theorem Plic.gateway_of_open (hp : p.pending.getLsbD n = false) (hc : p.claimed.getLsbD n = false) :
    p.gateway n = { p with pending := p.pending ||| sourceBit n } :=
  if_neg (by rw [hp, hc]; decide)

/-- The bits of the sources with that of `n` cleared, or set. -/
theorem getLsbD_and_not_sourceBit (x : BitVec 64) (hn : n < 64) (m : Nat) :
    (x &&& ~~~sourceBit n).getLsbD m = (decide (m ≠ n) && x.getLsbD m) := by
  rw [BitVec.getLsbD_and, BitVec.getLsbD_not, getLsbD_sourceBit hn, decide_not, Bool.and_comm]
  by_cases hm : m < 64
  · rw [decide_eq_true hm, Bool.true_and]
  · rw [BitVec.getLsbD_of_ge x m (Nat.le_of_not_lt hm), Bool.and_false, Bool.and_false]

theorem getLsbD_or_sourceBit (x : BitVec 64) (hn : n < 64) (m : Nat) :
    (x ||| sourceBit n).getLsbD m = (x.getLsbD m || decide (m = n)) := by
  rw [BitVec.getLsbD_or, getLsbD_sourceBit hn]

/-- What a claim of the source `n` leaves, and what reopens it. -/
theorem Plic.claim_source (h : p.best c = n) (hn : n ≠ 0) :
    (p.claim c).2.pending.getLsbD n = false ∧ (p.claim c).2.claimed.getLsbD n = true
      ∧ (∀ m, m ≠ n → (p.claim c).2.pending.getLsbD m = p.pending.getLsbD m
          ∧ (p.claim c).2.claimed.getLsbD m = p.claimed.getLsbD m)
      ∧ (p.claim c).2 = { p with pending := (p.claim c).2.pending, claimed := (p.claim c).2.claimed }
      ∧ (p.claim c).2.gateway n = (p.claim c).2
      ∧ (((p.claim c).2.complete c n).gateway n).pending.getLsbD n = true := by
  obtain ⟨h1, h2, hp, he, -⟩ : p.Claimable c n := h ▸ claimable_best (h ▸ hn)
  have h64 : n < 64 := by omega
  rw [claim_of_best h hn]
  have hclear : (p.pending &&& ~~~sourceBit n).getLsbD n = false := by rw [getLsbD_and_not_sourceBit _ h64]; simp
  have hset : (p.claimed ||| sourceBit n).getLsbD n = true := by rw [getLsbD_or_sourceBit _ h64]; simp
  refine ⟨hclear, hset, fun m hm => ⟨?_, ?_⟩, rfl, gateway_of_claimed hset, ?_⟩
  · rw [getLsbD_and_not_sourceBit _ h64, decide_eq_true hm, Bool.true_and]
  · rw [getLsbD_or_sourceBit _ h64, decide_eq_false hm, Bool.or_false]
  · rw [complete_of_claimed h1 h2 (by cases c <;> exact he) hset, gateway_of_open hclear]
    · show (p.pending &&& ~~~sourceBit n ||| sourceBit n).getLsbD n = true
      rw [getLsbD_or_sourceBit _ h64, decide_eq_true rfl, Bool.or_true]
    · rw [getLsbD_and_not_sourceBit _ h64]
      simp

end Claim

theorem Plic.out_iff {p : Plic} {c : Context} : p.out c = true
    ↔ ∃ m, 1 ≤ m ∧ m ≤ 53 ∧ p.pending.getLsbD m = true ∧ (p.enable c).getLsbD m = true
      ∧ (p.threshold c).toNat < p.prio m := by
  simp only [Plic.out, List.any_eq_true, Bool.and_eq_true, decide_eq_true_eq, mem_plicIds, Plic.ready_iff, and_assoc]

/-- Settles O51: the registers by their offset, the claim as a search for the best source, completion and gateway by the
bits of one source. -/
theorem plicClaimAndComplete : Obligations.PlicClaimAndComplete := by
  unfold Obligations.PlicClaimAndComplete
  intro s p c d n off v ready enables control keeps
  have hen : enables = c.enables := by cases c <;> rfl
  have hco : control = c.control := by cases c <;> rfl
  rw [hen, hco]
  refine ⟨fun h1 h2 => ?priority, ?pendingLow, ?pendingHigh, p.readReg_enables c |>.1, p.readReg_enables c |>.2,
    fun m => ?enableBits, p.readReg_control c, ?threshold, ?keeps, p.readReg_claim c, p.writeReg_claim c v, ?others,
    rfl, rfl, ?claimZero, fun h => ?claimNone, fun h hn => ?claim, Plic.complete_of_other,
    fun h1 h2 he hc => ?complete, Plic.out_iff⟩
  case priority =>
    have hdiv : 4 * n / 4 = n := by omega
    have hr : p.readReg (4 * n) = (BitVec.ofNat 32 (p.prio (4 * n / 4)), p) := if_pos (by omega)
    have hw : p.writeReg (4 * n) v = p.setPriority (4 * n / 4) (v.setWidth 3) := if_pos (by omega)
    rw [hr, hw, hdiv]
    exact ⟨rfl, (p.prio_setPriority_self _ h1 h2).trans (BitVec.toNat_setWidth ..), fun m => p.prio_setPriority_ne _,
      p.setPriority_eq _⟩
  case pendingLow => exact congrArg (·, p) (extractLsb_low32 _)
  case pendingHigh => exact congrArg (·, p) (extractLsb_high32 _)
  case enableBits =>
    rw [p.writeReg_enables, p.writeReg_enables_high, Plic.enable_setEnable_self, Plic.enable_setEnable_self]
    exact ⟨getLsbD_enables_low .., getLsbD_enables_high ..⟩
  case threshold =>
    rw [p.writeReg_control, Plic.threshold_setThreshold_self, BitVec.toNat_setWidth]
  case keeps =>
    intro o ho
    simp only [List.mem_cons, List.not_mem_nil, or_false] at ho
    obtain rfl | rfl | rfl := ho
    · obtain ⟨hbits, hprio, hthreshold⟩ := p.setEnable_keeps c (((p.enable c).extractLsb 63 32 ++ v) &&& plicMask) d
      rw [p.writeReg_enables]
      exact ⟨hbits, hprio, fun _ => hthreshold,
        fun h => p.enable_setEnable_ne c _ (h.resolve_left (by cases c <;> decide))⟩
    · obtain ⟨hbits, hprio, hthreshold⟩ := p.setEnable_keeps c ((v ++ (p.enable c).extractLsb 31 0) &&& plicMask) d
      rw [p.writeReg_enables_high]
      exact ⟨hbits, hprio, fun _ => hthreshold,
        fun h => p.enable_setEnable_ne c _ (h.resolve_left (by cases c <;> decide))⟩
    · obtain ⟨hbits, hprio, henable⟩ := p.setThreshold_keeps c (v.setWidth 3) d
      rw [p.writeReg_control]
      exact ⟨hbits, hprio, fun h => p.threshold_setThreshold_ne c _ (h.resolve_left (absurd rfl)), fun _ => henable⟩
  case others =>
    rintro (hoff | ⟨h4, hgt, hoff⟩)
    · obtain rfl | hpend := List.mem_cons.mp hoff
      · exact (p.reg_of_no_source v (by decide) (.inl rfl)).imp_right fun h _ => h
      · exact ⟨p.writeReg_pending v hpend, fun h => absurd hpend h⟩
    · by_cases hlt : off < 0x1000
      · exact (p.reg_of_no_source v hlt (.inr (by omega))).imp_right fun h _ => h
      · exact (p.reg_of_unmapped v (Nat.le_of_not_lt hlt) hoff).imp_right fun h _ => h
  case claimZero => rw [p.claim_fst, Plic.best_eq_zero_iff]; rfl
  case claimNone => rw [Plic.claim_of_none (p.claim_fst c ▸ h)]
  case claim =>
    rw [p.claim_fst] at h
    refine ⟨h ▸ Plic.claimable_best (h ▸ hn), fun m hm => ?_, Plic.claim_source h hn⟩
    have hle := Plic.best_beats hm
    rwa [h] at hle
  case complete =>
    rw [Plic.complete_of_claimed h1 h2 he hc]
    exact ⟨rfl, getLsbD_and_not_sourceBit p.claimed (by omega)⟩

end Sys2Proof.Machine

/-! ## The bus tick (60_exceptions.md R702, R762, R772, R774, R805, R806) -/

namespace Sys2Proof.Machine

open Sys2Proof

/-! ### The virtio block's part (R802, R806) -/

section VirtioTick

variable {s : State}

theorem virtioTick_of_idle (h : s.virtio.notify = false) : s.virtioTick = .ok s := if_neg (by simp [h])

theorem Virtio.queueReady_iff {v : Virtio} :
    v.queueReady = true ↔ v.queuePfn ≠ 0 ∧ (1 ≤ v.queueNum.toNat ∧ v.queueNum.toNat ≤ 8) ∧ v.status ≠ 0 := by
  simp only [Virtio.queueReady, Bool.and_eq_true, decide_eq_true_eq]
  exact and_assoc

theorem virtioTick_of_not_ready (hn : s.virtio.notify = true) (hq : s.virtio.queueReady = false) :
    s.virtioTick = .ok { s with virtio := { s.virtio with notify := false } } := by
  rw [State.virtioTick, if_pos hn, hq]
  rfl

/-- With the queue set up the tick is the request loop (R806). -/
theorem virtioTick_of_ready (hn : s.virtio.notify = true) (hq : s.virtio.queueReady = true) :
    s.virtioTick = State.serve Config.requestFuel { s with virtio := { s.virtio with notify := false } } := by
  rw [State.virtioTick, if_pos hn, hq]
  rfl

end VirtioTick

/-! ### The PLIC's part (R772, R774) -/

/-- `q` differs from `p` in the pending bits only. -/
def Plic.OnlyPending (p q : Plic) : Prop := q = { p with pending := q.pending }

theorem Plic.OnlyPending.trans {p q r : Plic} (h : p.OnlyPending q) (k : q.OnlyPending r) : p.OnlyPending r := by
  unfold Plic.OnlyPending at h k ⊢
  rw [h] at k
  exact k

/-- An asserted line makes its source pending unless it is claimed. -/
theorem Plic.gateway_spec (p : Plic) {n : Nat} (hn : n < 64) :
    p.OnlyPending (p.gateway n)
      ∧ ∀ m, (p.gateway n).pending.getLsbD m = (p.pending.getLsbD m || (!p.claimed.getLsbD m && decide (m = n))) := by
  by_cases h : (p.pending.getLsbD n || p.claimed.getLsbD n) = true
  · rw [Plic.gateway, if_pos h]
    refine ⟨rfl, fun m => ?_⟩
    by_cases hm : m = n
    · subst hm
      obtain hp | hc := Bool.or_eq_true_iff.mp h
      · rw [hp, Bool.true_or]
      · rw [hc, Bool.not_true, Bool.false_and, Bool.or_false]
    · rw [decide_eq_false hm, Bool.and_false, Bool.or_false]
  · rw [Plic.gateway, if_neg h]
    simp only [Bool.or_eq_true, not_or, Bool.not_eq_true] at h
    refine ⟨rfl, fun m => (getLsbD_or_sourceBit _ hn m).trans ?_⟩
    by_cases hm : m = n
    · rw [hm, h.2, Bool.not_false, Bool.true_and]
    · rw [decide_eq_false hm, Bool.and_false]

theorem Plic.update_spec (p : Plic) {l : List Nat} (hl : ∀ n ∈ l, n < 64) :
    p.OnlyPending (p.update l)
      ∧ ∀ m, (p.update l).pending.getLsbD m = (p.pending.getLsbD m || (!p.claimed.getLsbD m && decide (m ∈ l))) := by
  induction l generalizing p with
  | nil => exact ⟨rfl, fun m => by simp [Plic.update]⟩
  | cons n l ih =>
    obtain ⟨hn, hl⟩ := List.forall_mem_cons.mp hl
    obtain ⟨hgate, hgatePending⟩ := p.gateway_spec hn
    obtain ⟨heq, hpending⟩ := ih (p.gateway n) hl
    have hclaimed : (p.gateway n).claimed = p.claimed := by rw [hgate]
    refine ⟨hgate.trans heq, fun m => (hpending m).trans ?_⟩
    · rw [hgatePending, hclaimed, Bool.or_assoc, ← Bool.and_or_distrib_left, ← Bool.decide_or]
      simp only [List.mem_cons]

theorem mem_asserted {s : State} {m : Nat} :
    m ∈ s.asserted ↔ (m = 1 ∧ s.virtio.irq = true) ∨ (m = 10 ∧ s.uart.irq = true) := by
  unfold State.asserted
  cases s.virtio.irq <;> cases s.uart.irq <;> simp [Config.virtioIrqId, Config.uartIrqId]

theorem asserted_lt (s : State) : ∀ n ∈ s.asserted, n < 64 := fun n hn =>
  Nat.lt_of_le_of_lt (asserted_sources s n hn).2 (by decide)

/-! ### The whole tick (R702) -/

/-- The tick from the state that the virtio block's part left. -/
theorem busTick_of_ok {s u : State} (h : s.virtioTick = .ok u) :
    busTick s = .next ({ u with clint := u.clint.tick } : State).uartTick.plicTick := by
  simp only [busTick, h]

theorem busTick_eq_next {s t : State} (h : busTick s = .next t) :
    ∃ u, s.virtioTick = .ok u ∧ t = ({ u with clint := u.clint.tick } : State).uartTick.plicTick := by
  cases hv : s.virtioTick with
  | error e => rw [busTick_of_error hv] at h; cases h
  | ok u =>
    rw [busTick_of_ok hv] at h
    cases h
    exact ⟨u, rfl, rfl⟩

/-- The UART's tick reads the UART and the TTY's answers only. -/
theorem uartTick_congr {s t : State} (hu : t.uart = s.uart) (hi : t.ttyIn = s.ttyIn) :
    t.uartTick.uart = s.uartTick.uart ∧ t.uartTick.ttyIn = s.uartTick.ttyIn := by
  cases hd : s.uart.dr with
  | true =>
    rw [State.uartTick_of_full hd, State.uartTick_of_full (by rw [hu, hd])]
    exact ⟨congrArg Uart.sent hu, hi⟩
  | false =>
    have hd' : t.uart.dr = false := by rw [hu, hd]
    cases hin : s.ttyIn with
    | nil =>
      rw [State.uartTick_of_empty hd (State.ttyGet_of_nil hin),
        State.uartTick_of_empty hd' (State.ttyGet_of_nil (hi.trans hin))]
      exact ⟨congrArg (fun u => (u.receive none).sent) hu, hi⟩
    | cons a rest =>
      rw [State.uartTick_of_empty hd (State.ttyGet_of_cons hin),
        State.uartTick_of_empty hd' (State.ttyGet_of_cons (hi.trans hin))]
      exact ⟨congrArg (fun u => (u.receive a).sent) hu, rfl⟩

/-- The tick leaves the bits of the sources 1 and 10 pending where their lines are up. -/
theorem plicTick_pending (s : State) (m : Nat) :
    s.plicTick.plic.pending.getLsbD m = (s.plic.pending.getLsbD m
      || (!s.plic.claimed.getLsbD m && ((decide (m = 1) && s.virtio.irq) || (decide (m = 10) && s.uart.irq)))) := by
  have hline : decide (m ∈ s.asserted) = ((decide (m = 1) && s.virtio.irq) || (decide (m = 10) && s.uart.irq)) := by
    rw [Bool.eq_iff_iff, decide_eq_true_iff, mem_asserted]
    simp only [Bool.or_eq_true, Bool.and_eq_true, decide_eq_true_eq]
  rw [← hline]
  exact (s.plic.update_spec (asserted_lt s)).2 m

theorem plicTick_onlyPending (s : State) : s.plic.OnlyPending s.plicTick.plic :=
  (s.plic.update_spec (asserted_lt s)).1

/-- What a bus tick makes of the UART, the TTY's answers and the PLIC, whose outputs it latches. -/
theorem busTick_devices {s t : State} (h : busTick s = .next t) :
    (t.uart = s.uartTick.uart ∧ t.ttyIn = s.uartTick.ttyIn) ∧ (t.eip0 = t.plic.out .m ∧ t.eip1 = t.plic.out .s)
      ∧ s.plic.OnlyPending t.plic
      ∧ ∀ m, t.plic.pending.getLsbD m = (s.plic.pending.getLsbD m
          || (!s.plic.claimed.getLsbD m && ((decide (m = 1) && t.virtio.irq) || (decide (m = 10) && t.uart.irq)))) := by
  obtain ⟨u, hu, rfl⟩ := busTick_eq_next h
  have hdone := (virtioTick_done hu).eq
  obtain ⟨v, hv⟩ : ∃ v : State, v = { u with clint := u.clint.tick } := ⟨_, rfl⟩
  rw [← hv]
  have hplic : v.uartTick.plic = s.plic := by rw [uartTick_eq, hv, hdone]
  have honly := plicTick_onlyPending v.uartTick
  have hpending := plicTick_pending v.uartTick
  rw [hplic] at honly hpending
  exact ⟨uartTick_congr (by rw [hv, hdone]) (by rw [hv, hdone]), ⟨rfl, rfl⟩, honly, hpending⟩

/-- Settles O54: the parts of the tick in their order, each by what it changes. -/
theorem busTickRules : Obligations.BusTickRules := by
  unfold Obligations.BusTickRules
  intro s idle num used ends slot
  have completes {u : State} (hu : s.virtioTick = .ok u) : ∃ t, busTick s = .next t ∧ t.dram = u.dram ∧ t.disk = u.disk
      ∧ t.virtio = u.virtio ∧ t.resv = u.resv := by
    refine ⟨_, busTick_of_ok hu, ?_⟩
    rw [uartTick_eq]
    exact ⟨rfl, rfl, rfl, rfl⟩
  refine ⟨virtioTick_of_idle, fun hn hq => ?notReady, fun hn hpfn h1 h8 hst n t hlt hs => ?served,
    fun ha => alignUp_spec fun h0 => ha (BitVec.eq_of_toNat_eq h0), fun hd hi hslot h n => ?used, fun t ht => ?ticked,
    fun u => completes, fun f u => busTick_of_error, fun hn => ?unnotified⟩
  case notReady =>
    refine virtioTick_of_not_ready hn (Bool.eq_false_iff.mpr fun hr => ?_)
    obtain ⟨hpfn, ⟨h1, h8⟩, hst⟩ := Virtio.queueReady_iff.mp hr
    obtain h | h | h | h := hq
    · exact hpfn h
    · exact absurd h1 (by rw [show s.virtio.queueNum.toNat = 0 from h]; decide)
    · exact absurd h8 (Nat.not_le.mpr h)
    · exact hst h
  case served =>
    rw [virtioTick_of_ready hn (Virtio.queueReady_iff.mpr ⟨hpfn, ⟨h1, h8⟩, hst⟩)]
    exact serve_of_serves hs hlt
  case used =>
    obtain ⟨t, ht, heq, hhead, hlen, hidx, hkeep⟩ := usedUpdate_ok (h := h) (n := n) hd hi hslot
    have hslot4 : slot + 4 = used + 8 + 8 * (s.leNat (used + 2) 2 % num) := by omega
    have hslot8 : slot + 8 = used + 12 + 8 * (s.leNat (used + 2) 2 % num) := by omega
    rw [hslot4, hslot8]
    exact ⟨t, ht, heq, hhead, hlen, hidx, hkeep⟩
  case ticked =>
    have htick := busTick_ticked ht
    obtain ⟨⟨huart, htty⟩, ⟨h0, h1⟩, honly, hpending⟩ := busTick_devices ht
    have heq := htick.eq
    rw [htick.time, h0, h1] at heq
    exact ⟨heq, htick.resv, htick.dram, huart, htty, honly, hpending⟩
  case unnotified =>
    obtain ⟨t, ht, hdram, hdisk, -, hresv⟩ := completes (virtioTick_of_idle hn)
    exact ⟨t, ht, hdram, hdisk, hresv⟩

end Sys2Proof.Machine

/-! ## The words of fences, atomics, the system and F/D arithmetic (30_encoding.md R310, R330) -/

namespace Sys2Proof

section Fields

variable (f5 : BitVec 5) (aq rl : Bool) (f7 : BitVec 7) (rs2 rs1 rd : Reg) (f3 : BitVec 3) (op : BitVec 7)
  (fm pred succ : BitVec 4)

@[simp] theorem opcode_formatAtomic : opcode (formatAtomic f5 aq rl rs2 rs1 f3 rd op) = op := opcode_formatR ..
@[simp] theorem fieldRd_formatAtomic : fieldRd (formatAtomic f5 aq rl rs2 rs1 f3 rd op) = rd := fieldRd_formatR ..
@[simp] theorem funct3_formatAtomic : funct3 (formatAtomic f5 aq rl rs2 rs1 f3 rd op) = f3 := funct3_formatR ..
@[simp] theorem fieldRs1_formatAtomic : fieldRs1 (formatAtomic f5 aq rl rs2 rs1 f3 rd op) = rs1 := fieldRs1_formatR ..
@[simp] theorem fieldRs2_formatAtomic : fieldRs2 (formatAtomic f5 aq rl rs2 rs1 f3 rd op) = rs2 := fieldRs2_formatR ..

@[simp] theorem funct5_formatAtomic : funct5 (formatAtomic f5 aq rl rs2 rs1 f3 rd op) = f5 := bits_ext fun i hi => by
  rw [funct5, formatAtomic, extract_formatR, formatR_bit]
  simp only [BitVec.getLsbD_append]
  grind

@[simp] theorem fieldAq_formatAtomic : fieldAq (formatAtomic f5 aq rl rs2 rs1 f3 rd op) = aq := by
  rw [fieldAq, formatAtomic, formatR_bit]
  simp only [BitVec.getLsbD_append, BitVec.getLsbD_ofBool]
  grind

@[simp] theorem fieldRl_formatAtomic : fieldRl (formatAtomic f5 aq rl rs2 rs1 f3 rd op) = rl := by
  rw [fieldRl, formatAtomic, formatR_bit]
  simp only [BitVec.getLsbD_append, BitVec.getLsbD_ofBool]
  grind

/-- The three fields of a FENCE (R610). -/
theorem fence_fields_formatI :
    (formatI (fm ++ pred ++ succ) rs1 f3 rd op).extractLsb 31 28 = fm
      ∧ (formatI (fm ++ pred ++ succ) rs1 f3 rd op).extractLsb 27 24 = pred
      ∧ (formatI (fm ++ pred ++ succ) rs1 f3 rd op).extractLsb 23 20 = succ := by
  refine ⟨bits_ext fun i hi => ?_, bits_ext fun i hi => ?_, bits_ext fun i hi => ?_⟩
  all_goals
    rw [formatI, extract_formatR, formatR_bit]
    simp only [BitVec.getLsbD_append, BitVec.getLsbD_extractLsb]
    grind

end Fields

theorem decode32_of_miscMem {w : BitVec 32} (x : Xlen) (h : opcode w = 0b0001111#7) : decode32 x w = decodeMiscMem w := by
  simp [decode32, h]

theorem decode32_of_amo {w : BitVec 32} (x : Xlen) (h : opcode w = 0b0101111#7) : decode32 x w = decodeAmo x w := by
  simp [decode32, h]

theorem decode32_of_system {w : BitVec 32} (x : Xlen) (h : opcode w = 0b1110011#7) : decode32 x w = decodeSystem w := by
  simp [decode32, h]

/-- SFENCE.VMA's funct7 is that of none of the five system words that the decoder asks for first. -/
theorem decodeSystem_of_sfenceVma {w : BitVec 32} (h3 : funct3 w = 0b000#3) (h7 : funct7 w = 0b0001001#7)
    (hd : fieldRd w = 0#5) : decodeSystem w = some (.sfenceVma (fieldRs1 w) (fieldRs2 w)) := by
  have hne {c : BitVec 32} (hc : funct7 c ≠ 0b0001001#7) : w ≠ c := fun e => hc (e ▸ h7)
  simp [decodeSystem, h3, h7, hd, hne (c := 0x00000073#32) (by decide), hne (c := 0x00100073#32) (by decide),
    hne (c := 0x10200073#32) (by decide), hne (c := 0x30200073#32) (by decide), hne (c := 0x10500073#32) (by decide)]

end Sys2Proof

namespace Sys2Proof.Machine

open Sys2Proof

/-- The bits of a 32-bit instruction are its word in every mode that has it (R330, R340). -/
theorem isWord_bits_of_length {i : Instr} (h : i.length = 4) : IsWord i.bits i := by
  cases hk : i.computes || i.accesses with
  | true =>
    obtain hc | ha := (Bool.or_eq_true _ _).mp hk
    · exact isWord_bits i (by rw [hc, h]; rfl)
    · exact isWord_bits_access i (by rw [ha, h]; rfl)
  | false =>
    intro x hwf
    have hl : (!(i.computes || i.accesses) && decide (i.length = 4)) = true := by rw [hk, h]; rfl
    cases i
    case jal =>
      have he := hwf
      simp [Instr.bits, decode32_of_jal, immJ_formatJ he]
    case jalr => simp [Instr.bits, decode32_of_jalr]
    case beq | bne | blt | bge | bltu | bgeu =>
      have he := hwf
      simp [Instr.bits, decode32_of_branch, decodeBranch, immB_formatB he]
    case fence fm pred succ rs1 rd =>
      obtain ⟨hf, hp, hs⟩ := fence_fields_formatI rs1 rd 0b000#3 0b0001111#7 fm pred succ
      simp [Instr.bits, decode32_of_miscMem, decodeMiscMem, hf, hp, hs]
    case fenceI => simp [Instr.bits, decode32_of_miscMem, decodeMiscMem]
    case lrW | scW | amoswapW | amoaddW | amoxorW | amoandW | amoorW | amominW | amomaxW | amominuW | amomaxuW =>
      simp [Instr.bits, decode32_of_amo, decodeAmo, decodeAmoW]
    case lrD | scD | amoswapD | amoaddD | amoxorD | amoandD | amoorD | amominD | amomaxD | amominuD | amomaxuD =>
      obtain rfl := of_decide_eq_true hwf
      simp [Instr.bits, decode32_of_amo, decodeAmo, decodeAmoD]
    case csrrw | csrrs | csrrc | csrrwi | csrrsi | csrrci => simp [Instr.bits, decode32_of_system, decodeSystem]
    case ecall | ebreak | sret | mret | wfi => rfl
    case sfenceVma =>
      rw [Instr.bits, decode32_of_system x (opcode_formatR ..), decodeSystem_of_sfenceVma (funct3_formatR ..)
        (funct7_formatR ..) (fieldRd_formatR ..), fieldRs1_formatR, fieldRs2_formatR]
    case fpMadd | fpMsub | fpNmsub | fpNmadd | fpOp => simp [Instr.bits, decode32]
    all_goals cases hl

end Sys2Proof.Machine

/-! ## The parcels of the compressed instructions (30_encoding.md R345, 47_compressed.md R643 to R691) -/

namespace Sys2Proof

/-! ### The fields of a parcel -/

section Fields

variable (f3 : BitVec 3) (b12 : BitVec 1) (hi lo : BitVec 5) (op : BitVec 2)

@[simp] theorem quadrant_formatC : quadrant (formatC f3 b12 hi lo op) = op := bits_ext fun i _ => by
  simp only [quadrant, BitVec.getLsbD_extractLsb, formatC_bit]
  grind

@[simp] theorem cFunct3_formatC : cFunct3 (formatC f3 b12 hi lo op) = f3 := bits_ext fun i _ => by
  simp only [cFunct3, BitVec.getLsbD_extractLsb, formatC_bit]
  grind

@[simp] theorem cRd_formatC : cRd (formatC f3 b12 hi lo op) = hi := bits_ext fun i _ => by
  simp only [cRd, BitVec.getLsbD_extractLsb, formatC_bit]
  grind

@[simp] theorem cRs2_formatC : cRs2 (formatC f3 b12 hi lo op) = lo := bits_ext fun i _ => by
  simp only [cRs2, BitVec.getLsbD_extractLsb, formatC_bit]
  grind

@[simp] theorem extract12_formatC : (formatC f3 b12 hi lo op).extractLsb 12 12 = b12 := bits_ext fun i _ => by
  simp only [BitVec.getLsbD_extractLsb, formatC_bit]
  grind

@[simp] theorem cImm6_formatC (imm : BitVec 6) :
    cImm6 (formatC f3 (imm.extractLsb 5 5) hi (imm.extractLsb 4 0) op) = imm := bits_ext fun i _ => by
  simp only [cImm6, BitVec.getLsbD_append, BitVec.getLsbD_extractLsb, formatC_bit]
  grind

variable (b2 : BitVec 2) (r : CReg)

/-- A 3-bit register number below two bits of its own (R643). -/
@[simp] theorem cRdLow_formatC : cRdLow (formatC f3 b12 hi (b2 ++ r) op) = r := bits_ext fun i _ => by
  simp only [cRdLow, BitVec.getLsbD_extractLsb, formatC_bit, BitVec.getLsbD_append]
  grind

@[simp] theorem cRdHigh_formatC : cRdHigh (formatC f3 b12 (b2 ++ r) lo op) = r := bits_ext fun i _ => by
  simp only [cRdHigh, BitVec.getLsbD_extractLsb, formatC_bit, BitVec.getLsbD_append]
  grind

@[simp] theorem extract6_formatC : (formatC f3 b12 hi (b2 ++ r) op).extractLsb 6 5 = b2 := bits_ext fun i _ => by
  simp only [BitVec.getLsbD_extractLsb, formatC_bit, BitVec.getLsbD_append]
  grind

@[simp] theorem extract11_formatC : (formatC f3 b12 (b2 ++ r) lo op).extractLsb 11 10 = b2 := bits_ext fun i _ => by
  simp only [BitVec.getLsbD_extractLsb, formatC_bit, BitVec.getLsbD_append]
  grind

end Fields

/-! ### The immediates of a parcel -/

theorem getLsbD_of_lowZero {k n : Nat} {imm : BitVec n} (h : lowZero k imm = true) {i : Nat} (hi : i < k) :
    imm.getLsbD i = false := by
  have e := congrArg (fun v : BitVec k => v.getLsbD i) (of_decide_eq_true h)
  simpa [BitVec.getLsbD_setWidth, hi] using e

section Immediates

variable (f3 : BitVec 3) (hi lo : BitVec 5) (r1 r2 : CReg) (op : BitVec 2)

theorem cImmAddi4spn_formatC {imm : BitVec 10} (h : lowZero 2 imm = true) :
    cImmAddi4spn (formatC f3 (imm.extractLsb 5 5) (imm.extractLsb 4 4 ++ imm.extractLsb 9 6)
      (imm.extractLsb 2 2 ++ imm.extractLsb 3 3 ++ r2) op) = imm := bits_ext fun i _ => by
  have h0 := getLsbD_of_lowZero h (i := 0) (by decide)
  have h1 := getLsbD_of_lowZero h (i := 1) (by decide)
  simp only [cImmAddi4spn, BitVec.getLsbD_append, BitVec.getLsbD_extractLsb, formatC_bit]
  interval_cases i
  · exact h0.symm
  · exact h1.symm
  all_goals rfl

theorem cImmD_formatC {imm : BitVec 8} (h : lowZero 3 imm = true) :
    cImmD (formatC f3 (imm.extractLsb 5 5) (imm.extractLsb 4 3 ++ r1) (imm.extractLsb 7 6 ++ r2) op) = imm :=
  bits_ext fun i _ => by
    have h0 := fun i => getLsbD_of_lowZero h (i := i)
    simp only [cImmD, BitVec.getLsbD_append, BitVec.getLsbD_extractLsb, formatC_bit]
    grind

theorem cImmW_formatC {imm : BitVec 7} (h : lowZero 2 imm = true) :
    cImmW (formatC f3 (imm.extractLsb 5 5) (imm.extractLsb 4 3 ++ r1)
      (imm.extractLsb 2 2 ++ imm.extractLsb 6 6 ++ r2) op) = imm := bits_ext fun i _ => by
  have h0 := fun i => getLsbD_of_lowZero h (i := i)
  simp only [cImmW, BitVec.getLsbD_append, BitVec.getLsbD_extractLsb, formatC_bit]
  grind

theorem cImmJ_formatC {off : BitVec 12} (h : evenOffset off = true) :
    cImmJ (formatC f3 (off.extractLsb 11 11)
      (off.extractLsb 4 4 ++ off.extractLsb 9 8 ++ off.extractLsb 10 10 ++ off.extractLsb 6 6)
      (off.extractLsb 7 7 ++ off.extractLsb 3 1 ++ off.extractLsb 5 5) op) = off := bits_ext fun i _ => by
  have h0 := getLsbD_zero_of_evenOffset h
  simp only [cImmJ, BitVec.getLsbD_append, BitVec.getLsbD_extractLsb, formatC_bit]
  grind

theorem cImmAddi16sp_formatC {imm : BitVec 10} (h : lowZero 4 imm = true) :
    cImmAddi16sp (formatC f3 (imm.extractLsb 9 9) hi
      (imm.extractLsb 4 4 ++ imm.extractLsb 6 6 ++ imm.extractLsb 8 7 ++ imm.extractLsb 5 5) op) = imm :=
  bits_ext fun i _ => by
    have h0 := fun i => getLsbD_of_lowZero h (i := i)
    simp only [cImmAddi16sp, BitVec.getLsbD_append, BitVec.getLsbD_extractLsb, formatC_bit]
    grind

theorem cImmB_formatC {off : BitVec 9} (h : evenOffset off = true) :
    cImmB (formatC f3 (off.extractLsb 8 8) (off.extractLsb 4 3 ++ r1)
      (off.extractLsb 7 6 ++ off.extractLsb 2 1 ++ off.extractLsb 5 5) op) = off := bits_ext fun i _ => by
  have h0 := getLsbD_zero_of_evenOffset h
  simp only [cImmB, BitVec.getLsbD_append, BitVec.getLsbD_extractLsb, formatC_bit]
  grind

theorem cImmLdsp_formatC {imm : BitVec 9} (h : lowZero 3 imm = true) :
    cImmLdsp (formatC f3 (imm.extractLsb 5 5) hi (imm.extractLsb 4 3 ++ imm.extractLsb 8 6) op) = imm :=
  bits_ext fun i _ => by
    have h0 := fun i => getLsbD_of_lowZero h (i := i)
    simp only [cImmLdsp, BitVec.getLsbD_append, BitVec.getLsbD_extractLsb, formatC_bit]
    grind

theorem cImmLwsp_formatC {imm : BitVec 8} (h : lowZero 2 imm = true) :
    cImmLwsp (formatC f3 (imm.extractLsb 5 5) hi (imm.extractLsb 4 2 ++ imm.extractLsb 7 6) op) = imm :=
  bits_ext fun i _ => by
    have h0 := fun i => getLsbD_of_lowZero h (i := i)
    simp only [cImmLwsp, BitVec.getLsbD_append, BitVec.getLsbD_extractLsb, formatC_bit]
    grind

theorem cImmSdsp_formatC {imm : BitVec 9} (h : lowZero 3 imm = true) :
    cImmSdsp (formatC f3 (imm.extractLsb 5 5) (imm.extractLsb 4 3 ++ imm.extractLsb 8 6) lo op) = imm :=
  bits_ext fun i _ => by
    have h0 := fun i => getLsbD_of_lowZero h (i := i)
    simp only [cImmSdsp, BitVec.getLsbD_append, BitVec.getLsbD_extractLsb, formatC_bit]
    grind

theorem cImmSwsp_formatC {imm : BitVec 8} (h : lowZero 2 imm = true) :
    cImmSwsp (formatC f3 (imm.extractLsb 5 5) (imm.extractLsb 4 2 ++ imm.extractLsb 7 6) lo op) = imm :=
  bits_ext fun i _ => by
    have h0 := fun i => getLsbD_of_lowZero h (i := i)
    simp only [cImmSwsp, BitVec.getLsbD_append, BitVec.getLsbD_extractLsb, formatC_bit]
    grind

end Immediates

end Sys2Proof

/-! ## The parcel of a compressed instruction decodes to it (47_compressed.md R640) -/

namespace Sys2Proof

theorem of_decide_and {p : Prop} [Decidable p] {b : Bool} (h : (decide p && b) = true) : p ∧ b = true :=
  ((Bool.and_eq_true _ _).mp h).imp_left of_decide_eq_true

/-- C.ADDI16SP's immediate is a permutation of the bits of imm6, so both are 0 together (R664). -/
theorem cImmAddi16sp_eq_zero_iff (p : BitVec 16) : cImmAddi16sp p = 0#10 ↔ cImm6 p = 0#6 := by
  have hto : cImmAddi16sp p = (cImm6 p).extractLsb 5 5 ++ (cImm6 p).extractLsb 2 1 ++ (cImm6 p).extractLsb 3 3
      ++ (cImm6 p).extractLsb 0 0 ++ (cImm6 p).extractLsb 4 4 ++ 0#4 := bits_ext fun i _ => by
    simp only [cImmAddi16sp, cImm6, BitVec.getLsbD_append, BitVec.getLsbD_extractLsb]
    grind
  have hof : cImm6 p = (cImmAddi16sp p).extractLsb 9 9 ++ (cImmAddi16sp p).extractLsb 4 4
      ++ (cImmAddi16sp p).extractLsb 6 6 ++ (cImmAddi16sp p).extractLsb 8 7 ++ (cImmAddi16sp p).extractLsb 5 5 :=
    bits_ext fun i _ => by
      simp only [cImmAddi16sp, cImm6, BitVec.getLsbD_append, BitVec.getLsbD_extractLsb]
      grind
  exact ⟨fun h => by rw [hof, h]; rfl, fun h => by rw [hto, h]; rfl⟩

/-- The parcel of a compressed instruction decodes to it in every mode that has it (R640, R641, R644). -/
theorem decode16_bits {x : Xlen} {i : Instr} (h : i.length = 2) (hwf : i.wf x = true) :
    decode16 x (i.bits.setWidth 16) = some i := by
  have hl : decide (i.length = 2) = true := decide_eq_true h
  cases i
  case cAddi4spn imm =>
    obtain ⟨hne, hz⟩ := of_decide_and hwf
    have hne : ¬imm = 0#10 := hne
    simp [Instr.bits, decode16, decodeQ0, cImmAddi4spn_formatC _ _ _ hz, hne]
  case cFld | cFsd =>
    have hz : lowZero 3 _ = true := hwf
    simp [Instr.bits, decode16, decodeQ0, cImmD_formatC _ _ _ _ hz]
  case cLw | cSw =>
    have hz : lowZero 2 _ = true := hwf
    simp [Instr.bits, decode16, decodeQ0, cImmW_formatC _ _ _ _ hz]
  case cFlw | cFsw =>
    obtain ⟨rfl, hz⟩ := of_decide_and hwf
    simp [Instr.bits, decode16, decodeQ0, cImmW_formatC _ _ _ _ hz]
  case cLd | cSd =>
    obtain ⟨rfl, hz⟩ := of_decide_and hwf
    simp [Instr.bits, decode16, decodeQ0, cImmD_formatC _ _ _ _ hz]
  case cNop | cLi => simp [Instr.bits, decode16, decodeQ1]
  case cAddi rd _ =>
    have hne : ¬rd = 0#5 := of_decide_eq_true hwf
    simp [Instr.bits, decode16, decodeQ1, hne]
  case cJal =>
    obtain ⟨rfl, he⟩ := of_decide_and hwf
    simp [Instr.bits, decode16, decodeQ1, cImmJ_formatC _ _ he]
  case cAddiw rd _ =>
    obtain ⟨rfl, hne⟩ := of_decide_and hwf
    have hne : ¬rd = 0#5 := of_decide_eq_true hne
    simp [Instr.bits, decode16, decodeQ1, hne]
  case cAddi16sp imm =>
    obtain ⟨hne, hz⟩ := of_decide_and hwf
    have hne : ¬imm = 0#10 := hne
    have he := cImmAddi16sp_formatC 0b011#3 2#5 0b01#2 hz
    have h6 := mt (cImmAddi16sp_eq_zero_iff _).mpr (he.symm ▸ hne)
    simp [Instr.bits, decode16, decodeQ1, he, h6]
  case cLui rd imm =>
    obtain ⟨hr, hne⟩ := of_decide_and hwf
    have hr : ¬rd = 2#5 := hr
    have hne : ¬imm = 0#6 := of_decide_eq_true hne
    simp [Instr.bits, decode16, decodeQ1, hr, hne]
  case cSrli | cSrai =>
    have hs : shamtFits x _ = true := hwf
    simp [Instr.bits, decode16, decodeQ1, decodeQ1Arith, hs]
  case cAndi | cSub | cXor | cOr | cAnd => simp [Instr.bits, decode16, decodeQ1, decodeQ1Arith]
  case cSubw | cAddw =>
    obtain rfl := of_decide_eq_true hwf
    simp [Instr.bits, decode16, decodeQ1, decodeQ1Arith]
  case cJ =>
    have he : evenOffset _ = true := hwf
    simp [Instr.bits, decode16, decodeQ1, cImmJ_formatC _ _ he]
  case cBeqz | cBnez =>
    have he : evenOffset _ = true := hwf
    simp [Instr.bits, decode16, decodeQ1, cImmB_formatC _ _ _ he]
  case cSlli =>
    have hs : shamtFits x _ = true := hwf
    simp [Instr.bits, decode16, decodeQ2, hs]
  case cFldsp =>
    have hz : lowZero 3 _ = true := hwf
    simp [Instr.bits, decode16, decodeQ2, cImmLdsp_formatC _ _ _ hz]
  case cLwsp rd _ =>
    obtain ⟨hne, hz⟩ := of_decide_and hwf
    have hne : ¬rd = 0#5 := hne
    simp [Instr.bits, decode16, decodeQ2, cImmLwsp_formatC _ _ _ hz, hne]
  case cFlwsp =>
    obtain ⟨rfl, hz⟩ := of_decide_and hwf
    simp [Instr.bits, decode16, decodeQ2, cImmLwsp_formatC _ _ _ hz]
  case cLdsp rd _ =>
    obtain ⟨hxr, hz⟩ := (Bool.and_eq_true _ _).mp hwf
    obtain ⟨rfl, hne⟩ := of_decide_and hxr
    have hne : ¬rd = 0#5 := of_decide_eq_true hne
    simp [Instr.bits, decode16, decodeQ2, cImmLdsp_formatC _ _ _ hz, hne]
  case cJr r | cMv r | cJalr r | cAdd r =>
    have hne : ¬r = 0#5 := of_decide_eq_true hwf
    simp [Instr.bits, decode16, decodeQ2, decodeQ2Jump, hne]
  case cEbreak => rfl
  case cFsdsp =>
    have hz : lowZero 3 _ = true := hwf
    simp [Instr.bits, decode16, decodeQ2, cImmSdsp_formatC _ _ _ hz]
  case cSwsp =>
    have hz : lowZero 2 _ = true := hwf
    simp [Instr.bits, decode16, decodeQ2, cImmSwsp_formatC _ _ _ hz]
  case cFswsp =>
    obtain ⟨rfl, hz⟩ := of_decide_and hwf
    simp [Instr.bits, decode16, decodeQ2, cImmSwsp_formatC _ _ _ hz]
  case cSdsp =>
    obtain ⟨rfl, hz⟩ := of_decide_and hwf
    simp [Instr.bits, decode16, decodeQ2, cImmSdsp_formatC _ _ _ hz]
  all_goals cases hl

end Sys2Proof

/-! ## The round trip of decoding and encoding (30_encoding.md R300, R302) -/

namespace Sys2Proof

/-! ### The first two bits choose the length (R300) -/

theorem isCompressedParcel_of_decode16 {x : Xlen} {p : BitVec 16} {i : Instr} (h : decode16 x p = some i) :
    isCompressedParcel p = true := by
  refine decide_eq_true fun hq => ?_
  simp [decode16, hq] at h

/-- An opcode of the table is that of a word of four bytes: it ends in 11 and its bits 4:2 are not 111 (R300, R330). -/
def isWordOpcode (op : BitVec 7) : Bool := decide (op.extractLsb 1 0 = 0b11#2) && decide (op.extractLsb 4 2 ≠ 0b111#3)

theorem isWordOpcode_of_decode32 {x : Xlen} {w : BitVec 32} {i : Instr} (h : decode32 x w = some i) :
    isWordOpcode (opcode w) = true := by
  by_contra hop
  have hne (op : BitVec 7) (hw : isWordOpcode op = true) : opcode w ≠ op := fun e => hop (e ▸ hw)
  simp (disch := decide) [decode32, hne] at h

theorem extract_low_opcode (w : BitVec 32) : (opcode w).extractLsb 1 0 = w.extractLsb 1 0 :=
  bits_ext fun i _ => by simp only [opcode, BitVec.getLsbD_extractLsb]; grind

theorem extract_mid_opcode (w : BitVec 32) : (opcode w).extractLsb 4 2 = w.extractLsb 4 2 :=
  bits_ext fun i _ => by simp only [opcode, BitVec.getLsbD_extractLsb]; grind

theorem word_length_bits {x : Xlen} {w : BitVec 32} {i : Instr} (h : decode32 x w = some i) :
    w.extractLsb 1 0 = 0b11#2 ∧ w.extractLsb 4 2 ≠ 0b111#3 := by
  obtain ⟨hlow, hmid⟩ := (Bool.and_eq_true _ _).mp (isWordOpcode_of_decode32 h)
  exact ⟨extract_low_opcode w ▸ of_decide_eq_true hlow, extract_mid_opcode w ▸ of_decide_eq_true hmid⟩

/-! ### The bytes of an instruction put together again (R205) -/

theorem parcel_of_bytes (w : BitVec 32) : w.extractLsb 15 8 ++ w.extractLsb 7 0 = w.setWidth 16 :=
  bits_ext fun i _ => by simp only [BitVec.getLsbD_append, BitVec.getLsbD_extractLsb, BitVec.getLsbD_setWidth]; grind

theorem word_of_bytes (w : BitVec 32) :
    w.extractLsb 31 24 ++ w.extractLsb 23 16 ++ w.extractLsb 15 8 ++ w.extractLsb 7 0 = w :=
  bits_ext fun i _ => by simp only [BitVec.getLsbD_append, BitVec.getLsbD_extractLsb]; grind

theorem quadrant_setWidth (w : BitVec 32) : quadrant (w.setWidth 16) = w.extractLsb 1 0 :=
  bits_ext fun i _ => by simp only [quadrant, BitVec.getLsbD_extractLsb, BitVec.getLsbD_setWidth]; grind

theorem decodeBytes_parcel {x : Xlen} {p : BitVec 16} {b0 b1 : Byte} {i : Instr} (rest : List Byte) (hp : b1 ++ b0 = p)
    (hd : decode16 x p = some i) : decodeBytes x (b0 :: b1 :: rest) = .ok (i, rest) := by
  subst hp
  simp [decodeBytes, decodeRaw, isCompressedParcel_of_decode16 hd, hd]

theorem decodeBytes_word {x : Xlen} {w : BitVec 32} {b0 b1 b2 b3 : Byte} {i : Instr} (rest : List Byte)
    (hw : b3 ++ b2 ++ b1 ++ b0 = w) (hp : b1 ++ b0 = w.setWidth 16) (hd : decode32 x w = some i) :
    decodeBytes x (b0 :: b1 :: b2 :: b3 :: rest) = .ok (i, rest) := by
  obtain ⟨hlow, hmid⟩ := word_length_bits hd
  have hq : isCompressedParcel (b1 ++ b0) = false := by
    rw [hp]
    exact decide_eq_false (not_not.mpr ((quadrant_setWidth w).trans hlow))
  subst hw
  simp [decodeBytes, decodeRaw, hq, hmid, hd]

/-- Settles O1: the first two bits choose the length, and the parcel or word put together from the bytes decodes to the
instruction. -/
theorem decodeEncodeRoundTrip : Obligations.DecodeEncodeRoundTrip := by
  unfold Obligations.DecodeEncodeRoundTrip
  intro x i rest hwf
  obtain hl | hl := Machine.length_cases i
  · rw [encode, if_pos hl]
    exact decodeBytes_parcel rest (parcel_of_bytes i.bits) (decode16_bits hl hwf)
  · rw [encode, if_neg (by rw [hl]; decide)]
    exact decodeBytes_word rest (word_of_bytes i.bits) (parcel_of_bytes i.bits) (Machine.isWord_bits_of_length hl x hwf)

end Sys2Proof

/-! ## The fields of a word or parcel put together again (30_encoding.md R310, R311, R320, R345) -/

namespace Sys2Proof

section Words

variable {w : BitVec 32} {f7 : BitVec 7} {f3 : BitVec 3} {op : BitVec 7}

theorem formatR_fields (h7 : funct7 w = f7) (h3 : funct3 w = f3) (hop : opcode w = op) :
    formatR f7 (fieldRs2 w) (fieldRs1 w) f3 (fieldRd w) op = w := by
  subst h7 h3 hop
  refine bits_ext fun i _ => ?_
  simp only [formatR_bit, funct7, fieldRs2, fieldRs1, funct3, fieldRd, opcode, BitVec.getLsbD_extractLsb]
  grind

theorem extract_immI (w : BitVec 32) : (immI w).extractLsb 11 5 = funct7 w ∧ (immI w).extractLsb 4 0 = fieldRs2 w :=
  ⟨bits_ext fun i _ => by simp only [immI, funct7, BitVec.getLsbD_extractLsb]; grind,
    bits_ext fun i _ => by simp only [immI, fieldRs2, BitVec.getLsbD_extractLsb]; grind⟩

theorem formatI_fields (h3 : funct3 w = f3) (hop : opcode w = op) :
    formatI (immI w) (fieldRs1 w) f3 (fieldRd w) op = w := by
  obtain ⟨hhi, hlo⟩ := extract_immI w
  rw [formatI, hhi, hlo]
  exact formatR_fields rfl h3 hop

theorem formatS_fields (h3 : funct3 w = f3) (hop : opcode w = op) :
    formatS (immS w) (fieldRs2 w) (fieldRs1 w) f3 op = w := by
  have hhi : (immS w).extractLsb 11 5 = funct7 w := bits_ext fun i _ => by
    simp only [immS, funct7, BitVec.getLsbD_append, BitVec.getLsbD_extractLsb]; grind
  have hlo : (immS w).extractLsb 4 0 = fieldRd w := bits_ext fun i _ => by
    simp only [immS, fieldRd, BitVec.getLsbD_append, BitVec.getLsbD_extractLsb]; grind
  rw [formatS, hhi, hlo]
  exact formatR_fields rfl h3 hop

theorem formatB_fields (h3 : funct3 w = f3) (hop : opcode w = op) :
    formatB (immB w) (fieldRs2 w) (fieldRs1 w) f3 op = w := by
  have hhi : (immB w).extractLsb 12 12 ++ (immB w).extractLsb 10 5 = funct7 w := bits_ext fun i _ => by
    simp only [immB, funct7, BitVec.getLsbD_append, BitVec.getLsbD_extractLsb]; grind
  have hlo : (immB w).extractLsb 4 1 ++ (immB w).extractLsb 11 11 = fieldRd w := bits_ext fun i _ => by
    simp only [immB, fieldRd, BitVec.getLsbD_append, BitVec.getLsbD_extractLsb]; grind
  rw [formatB, hhi, hlo]
  exact formatR_fields rfl h3 hop

theorem formatU_fields (hop : opcode w = op) : formatU (immU w) (fieldRd w) op = w := by
  subst hop
  refine bits_ext fun i _ => ?_
  simp only [formatU, formatR_bit, immU, fieldRd, opcode, BitVec.getLsbD_extractLsb]
  grind

theorem formatJ_fields (hop : opcode w = op) : formatJ (immJ w) (fieldRd w) op = w := by
  have hu : (immJ w).extractLsb 20 20 ++ (immJ w).extractLsb 10 1 ++ (immJ w).extractLsb 11 11
      ++ (immJ w).extractLsb 19 12 = immU w := bits_ext fun i _ => by
    simp only [immJ, immU, BitVec.getLsbD_append, BitVec.getLsbD_extractLsb]; grind
  rw [formatJ, hu]
  exact formatU_fields hop

theorem formatShift_fields {f6 : BitVec 6} (h6 : funct6 w = f6) (h3 : funct3 w = f3) (hop : opcode w = op) :
    formatShift f6 (fieldShamt w) (fieldRs1 w) f3 (fieldRd w) op = w := by
  subst h6
  have hhi : funct6 w ++ (fieldShamt w).extractLsb 5 5 = funct7 w := bits_ext fun i _ => by
    simp only [funct6, fieldShamt, funct7, BitVec.getLsbD_append, BitVec.getLsbD_extractLsb]; grind
  have hlo : (fieldShamt w).extractLsb 4 0 = fieldRs2 w := bits_ext fun i _ => by
    simp only [fieldShamt, fieldRs2, BitVec.getLsbD_extractLsb]; grind
  rw [formatShift, hhi, hlo]
  exact formatR_fields rfl h3 hop

theorem formatAtomic_fields {f5 : BitVec 5} {rs2 : Reg} (h5 : funct5 w = f5) (h2 : fieldRs2 w = rs2) (h3 : funct3 w = f3)
    (hop : opcode w = op) : formatAtomic f5 (fieldAq w) (fieldRl w) rs2 (fieldRs1 w) f3 (fieldRd w) op = w := by
  subst h5 h2
  have hhi : funct5 w ++ BitVec.ofBool (fieldAq w) ++ BitVec.ofBool (fieldRl w) = funct7 w := bits_ext fun i _ => by
    simp only [funct5, fieldAq, fieldRl, funct7, BitVec.getLsbD_append, BitVec.getLsbD_extractLsb,
      BitVec.getLsbD_ofBool]
    grind
  rw [formatAtomic, hhi]
  exact formatR_fields rfl h3 hop

theorem fence_fields (w : BitVec 32) : w.extractLsb 31 28 ++ w.extractLsb 27 24 ++ w.extractLsb 23 20 = immI w :=
  bits_ext fun i _ => by simp only [immI, BitVec.getLsbD_append, BitVec.getLsbD_extractLsb]; grind

end Words

/-! ### The low bits of an immediate (R320, R650 to R691) -/

theorem lowZero_append {n k : Nat} (a : BitVec n) : lowZero k (a ++ 0#k) = true :=
  decide_eq_true (BitVec.setWidth_append_eq_right ..)

theorem evenOffset_append {n : Nat} (a : BitVec n) : evenOffset (a ++ 0#1) = true := by
  rw [evenOffset, BitVec.getLsbD_append]
  rfl

/-! ### Parcels -/

section Parcels

variable {p : BitVec 16} {f3 : BitVec 3} {b12 : BitVec 1} {hi lo : BitVec 5} {op : BitVec 2}

theorem formatC_fields (h3 : cFunct3 p = f3) (h12 : p.extractLsb 12 12 = b12) (hd : cRd p = hi) (h2 : cRs2 p = lo)
    (hq : quadrant p = op) : formatC f3 b12 hi lo op = p := by
  subst h3 h12 hd h2 hq
  refine bits_ext fun i _ => ?_
  simp only [formatC_bit, cFunct3, cRd, cRs2, quadrant, BitVec.getLsbD_extractLsb]
  grind

theorem cRd_eq_append (p : BitVec 16) : cRd p = p.extractLsb 11 10 ++ cRdHigh p := bits_ext fun i _ => by
  simp only [cRd, cRdHigh, BitVec.getLsbD_append, BitVec.getLsbD_extractLsb]; grind

theorem cRs2_eq_append (p : BitVec 16) : cRs2 p = p.extractLsb 6 5 ++ cRdLow p := bits_ext fun i _ => by
  simp only [cRs2, cRdLow, BitVec.getLsbD_append, BitVec.getLsbD_extractLsb]; grind

theorem extract_cImm6 (p : BitVec 16) :
    p.extractLsb 12 12 = (cImm6 p).extractLsb 5 5 ∧ cRs2 p = (cImm6 p).extractLsb 4 0 :=
  ⟨bits_ext fun i _ => by simp only [cImm6, BitVec.getLsbD_append, BitVec.getLsbD_extractLsb]; grind,
    bits_ext fun i _ => by simp only [cImm6, cRs2, BitVec.getLsbD_append, BitVec.getLsbD_extractLsb]; grind⟩

theorem formatC_cImm6 (h3 : cFunct3 p = f3) (hd : cRd p = hi) (hq : quadrant p = op) :
    formatC f3 ((cImm6 p).extractLsb 5 5) hi ((cImm6 p).extractLsb 4 0) op = p :=
  formatC_fields h3 (extract_cImm6 p).1 hd (extract_cImm6 p).2 hq

theorem formatC_cImmAddi4spn (h3 : cFunct3 p = f3) (hq : quadrant p = op) :
    formatC f3 ((cImmAddi4spn p).extractLsb 5 5) ((cImmAddi4spn p).extractLsb 4 4 ++ (cImmAddi4spn p).extractLsb 9 6)
      ((cImmAddi4spn p).extractLsb 2 2 ++ (cImmAddi4spn p).extractLsb 3 3 ++ cRdLow p) op = p := by
  refine formatC_fields h3 (bits_ext fun i _ => ?_) (bits_ext fun i _ => ?_) (bits_ext fun i _ => ?_) hq
  all_goals
    simp only [cImmAddi4spn, cRd, cRs2, cRdLow, BitVec.getLsbD_append, BitVec.getLsbD_extractLsb]
    grind

theorem formatC_cImmD (h3 : cFunct3 p = f3) (hq : quadrant p = op) :
    formatC f3 ((cImmD p).extractLsb 5 5) ((cImmD p).extractLsb 4 3 ++ cRdHigh p)
      ((cImmD p).extractLsb 7 6 ++ cRdLow p) op = p := by
  refine formatC_fields h3 (bits_ext fun i _ => ?_) (bits_ext fun i _ => ?_) (bits_ext fun i _ => ?_) hq
  all_goals
    simp only [cImmD, cRd, cRs2, cRdLow, cRdHigh, BitVec.getLsbD_append, BitVec.getLsbD_extractLsb]
    grind

theorem formatC_cImmW (h3 : cFunct3 p = f3) (hq : quadrant p = op) :
    formatC f3 ((cImmW p).extractLsb 5 5) ((cImmW p).extractLsb 4 3 ++ cRdHigh p)
      ((cImmW p).extractLsb 2 2 ++ (cImmW p).extractLsb 6 6 ++ cRdLow p) op = p := by
  refine formatC_fields h3 (bits_ext fun i _ => ?_) (bits_ext fun i _ => ?_) (bits_ext fun i _ => ?_) hq
  all_goals
    simp only [cImmW, cRd, cRs2, cRdLow, cRdHigh, BitVec.getLsbD_append, BitVec.getLsbD_extractLsb]
    grind

theorem formatC_cImmJ (h3 : cFunct3 p = f3) (hq : quadrant p = op) :
    formatC f3 ((cImmJ p).extractLsb 11 11)
      ((cImmJ p).extractLsb 4 4 ++ (cImmJ p).extractLsb 9 8 ++ (cImmJ p).extractLsb 10 10 ++ (cImmJ p).extractLsb 6 6)
      ((cImmJ p).extractLsb 7 7 ++ (cImmJ p).extractLsb 3 1 ++ (cImmJ p).extractLsb 5 5) op = p := by
  refine formatC_fields h3 (bits_ext fun i _ => ?_) (bits_ext fun i _ => ?_) (bits_ext fun i _ => ?_) hq
  all_goals
    simp only [cImmJ, cRd, cRs2, BitVec.getLsbD_append, BitVec.getLsbD_extractLsb]
    grind

theorem formatC_cImmAddi16sp (h3 : cFunct3 p = f3) (hd : cRd p = hi) (hq : quadrant p = op) :
    formatC f3 ((cImmAddi16sp p).extractLsb 9 9) hi
      ((cImmAddi16sp p).extractLsb 4 4 ++ (cImmAddi16sp p).extractLsb 6 6 ++ (cImmAddi16sp p).extractLsb 8 7
        ++ (cImmAddi16sp p).extractLsb 5 5) op = p := by
  refine formatC_fields h3 (bits_ext fun i _ => ?_) hd (bits_ext fun i _ => ?_) hq
  all_goals
    simp only [cImmAddi16sp, cRs2, BitVec.getLsbD_append, BitVec.getLsbD_extractLsb]
    grind

theorem formatC_cImmB (h3 : cFunct3 p = f3) (hq : quadrant p = op) :
    formatC f3 ((cImmB p).extractLsb 8 8) ((cImmB p).extractLsb 4 3 ++ cRdHigh p)
      ((cImmB p).extractLsb 7 6 ++ (cImmB p).extractLsb 2 1 ++ (cImmB p).extractLsb 5 5) op = p := by
  refine formatC_fields h3 (bits_ext fun i _ => ?_) (bits_ext fun i _ => ?_) (bits_ext fun i _ => ?_) hq
  all_goals
    simp only [cImmB, cRd, cRs2, cRdHigh, BitVec.getLsbD_append, BitVec.getLsbD_extractLsb]
    grind

theorem formatC_cImmLdsp (h3 : cFunct3 p = f3) (hq : quadrant p = op) :
    formatC f3 ((cImmLdsp p).extractLsb 5 5) (cRd p) ((cImmLdsp p).extractLsb 4 3 ++ (cImmLdsp p).extractLsb 8 6) op
      = p := by
  refine formatC_fields h3 (bits_ext fun i _ => ?_) rfl (bits_ext fun i _ => ?_) hq
  all_goals
    simp only [cImmLdsp, cRs2, BitVec.getLsbD_append, BitVec.getLsbD_extractLsb]
    grind

theorem formatC_cImmLwsp (h3 : cFunct3 p = f3) (hq : quadrant p = op) :
    formatC f3 ((cImmLwsp p).extractLsb 5 5) (cRd p) ((cImmLwsp p).extractLsb 4 2 ++ (cImmLwsp p).extractLsb 7 6) op
      = p := by
  refine formatC_fields h3 (bits_ext fun i _ => ?_) rfl (bits_ext fun i _ => ?_) hq
  all_goals
    simp only [cImmLwsp, cRs2, BitVec.getLsbD_append, BitVec.getLsbD_extractLsb]
    grind

theorem formatC_cImmSdsp (h3 : cFunct3 p = f3) (hq : quadrant p = op) :
    formatC f3 ((cImmSdsp p).extractLsb 5 5) ((cImmSdsp p).extractLsb 4 3 ++ (cImmSdsp p).extractLsb 8 6) (cRs2 p) op
      = p := by
  refine formatC_fields h3 (bits_ext fun i _ => ?_) (bits_ext fun i _ => ?_) rfl hq
  all_goals
    simp only [cImmSdsp, cRd, BitVec.getLsbD_append, BitVec.getLsbD_extractLsb]
    grind

theorem formatC_cImmSwsp (h3 : cFunct3 p = f3) (hq : quadrant p = op) :
    formatC f3 ((cImmSwsp p).extractLsb 5 5) ((cImmSwsp p).extractLsb 4 2 ++ (cImmSwsp p).extractLsb 7 6) (cRs2 p) op
      = p := by
  refine formatC_fields h3 (bits_ext fun i _ => ?_) (bits_ext fun i _ => ?_) rfl hq
  all_goals
    simp only [cImmSwsp, cRd, BitVec.getLsbD_append, BitVec.getLsbD_extractLsb]
    grind

end Parcels

end Sys2Proof

/-! ## What a decoder gives is well-formed and keeps its bits (30_encoding.md R302, R340, 47_compressed.md R641) -/

namespace Sys2Proof

/-- Instruction `i` exists in mode `x`, its bits are `w` and it is `n` bytes long. -/
def IsInstrOf (x : Xlen) (n : Nat) (w : BitVec 32) (i : Instr) : Prop := i.wf x = true ∧ i.bits = w ∧ i.length = n

/-- Every instruction that `o` gives is one of mode `x` with bits `w` and length `n`. -/
def Gives (x : Xlen) (n : Nat) (w : BitVec 32) (o : Option Instr) : Prop := ∀ i, o = some i → IsInstrOf x n w i

section Gives

variable {x : Xlen} {n : Nat} {w : BitVec 32} {i : Instr} {o p : Option Instr} {c : Prop} [Decidable c]

theorem Gives.none : Gives x n w none := nofun

theorem Gives.some (h : IsInstrOf x n w i) : Gives x n w (some i) := by
  rintro _ ⟨⟩
  exact h

theorem Gives.ite (ho : c → Gives x n w o) (hp : ¬c → Gives x n w p) : Gives x n w (if c then o else p) := by
  split
  · exact ho ‹_›
  · exact hp ‹_›

/-- A row of a decoder's table, then the rows after it. -/
theorem Gives.row (h : c → IsInstrOf x n w i) (ho : ¬c → Gives x n w o) :
    Gives x n w (if c then Option.some i else o) :=
  .ite (fun hc => .some (h hc)) ho

end Gives

theorem eq_rv64_of_ne {x : Xlen} (h : ¬x = .rv32) : x = .rv64 := by
  cases x
  case rv32 => exact absurd rfl h
  case rv64 => rfl

theorem bits3_cases (v : BitVec 3) :
    v = 0b000#3 ∨ v = 0b001#3 ∨ v = 0b010#3 ∨ v = 0b011#3 ∨ v = 0b100#3 ∨ v = 0b101#3 ∨ v = 0b110#3 ∨ v = 0b111#3 := by
  decide +revert

theorem bits2_cases (v : BitVec 2) : v = 0b00#2 ∨ v = 0b01#2 ∨ v = 0b10#2 ∨ v = 0b11#2 := by
  decide +revert

theorem bits1_cases (v : BitVec 1) : v = 0b0#1 ∨ v = 0b1#1 := by
  decide +revert

/-! ### The 32-bit decoders -/

section Words

variable {x : Xlen} {w : BitVec 32}

/-- A shift-immediate with the funct6 of its row is the shift of that row (R311). -/
theorem shift_fields {f6 : BitVec 6} {f3 : BitVec 3} (hs : shiftImmOk x f6 w = true) (h3 : funct3 w = f3)
    (hop : opcode w = 0b0010011#7) : shamtFits x (fieldShamt w) = true
      ∧ formatShift f6 (fieldShamt w) (fieldRs1 w) f3 (fieldRd w) 0b0010011#7 = w := by
  obtain ⟨h6, hfit⟩ := of_decide_and (p := funct6 w = f6) hs
  exact ⟨hfit, formatShift_fields h6 h3 hop⟩

theorem decodeOpImm_gives (hop : opcode w = 0b0010011#7) : Gives x 4 w (decodeOpImm x w) := by
  have shift {f6 : BitVec 6} {f3 : BitVec 3} {i : Instr} (h3 : funct3 w = f3) (hs : shiftImmOk x f6 w = true)
      (hwf : i.wf x = shamtFits x (fieldShamt w))
      (hb : i.bits = formatShift f6 (fieldShamt w) (fieldRs1 w) f3 (fieldRd w) 0b0010011#7) (hl : i.length = 4) :
      IsInstrOf x 4 w i := by
    obtain ⟨hfit, hw⟩ := shift_fields hs h3 hop
    exact ⟨hwf.trans hfit, hb.trans hw, hl⟩
  iterate 6 refine .row (fun h3 => ⟨rfl, formatI_fields h3 hop, rfl⟩) fun _ => ?_
  refine .ite (fun h3 => .row (fun hs => shift h3 hs rfl rfl rfl) fun _ => .none) fun _ => ?_
  have h3 : funct3 w = 0b101#3 := by
    have := bits3_cases (funct3 w)
    tauto
  iterate 2 refine .row (fun hs => shift h3 hs rfl rfl rfl) fun _ => ?_
  exact .none

theorem decodeOp_gives (hop : opcode w = 0b0110011#7) : Gives x 4 w (decodeOp w) := by
  have h111 := bits3_cases (funct3 w)
  refine .ite (fun h7 => ?base) fun _ => .ite (fun h7 => ?alternate) fun _ => .ite (fun h7 => ?muldiv) fun _ => .none
  case alternate =>
    iterate 2 refine .row (fun h3 => ⟨rfl, formatR_fields h7 h3 hop, rfl⟩) fun _ => ?_
    exact .none
  case base | muldiv =>
    iterate 7 refine .row (fun h3 => ⟨rfl, formatR_fields h7 h3 hop, rfl⟩) fun _ => ?_
    exact .some ⟨rfl, formatR_fields h7 (by tauto) hop, rfl⟩

theorem decodeOpImm32_gives (hop : opcode w = 0b0011011#7) : Gives .rv64 4 w (decodeOpImm32 w) := by
  refine .row (fun h3 => ⟨rfl, formatI_fields h3 hop, rfl⟩) fun _ => .ite (fun h3 => ?left) fun _ =>
    .ite (fun h3 => ?right) fun _ => .none
  case left => exact .row (fun h7 => ⟨rfl, formatR_fields h7 h3 hop, rfl⟩) fun _ => .none
  case right =>
    iterate 2 refine .row (fun h7 => ⟨rfl, formatR_fields h7 h3 hop, rfl⟩) fun _ => ?_
    exact .none

theorem decodeOp32_gives (hop : opcode w = 0b0111011#7) : Gives .rv64 4 w (decodeOp32 w) := by
  refine .ite (fun h7 => ?base) fun _ => .ite (fun h7 => ?alternate) fun _ => .ite (fun h7 => ?muldiv) fun _ => .none
  case base =>
    iterate 3 refine .row (fun h3 => ⟨rfl, formatR_fields h7 h3 hop, rfl⟩) fun _ => ?_
    exact .none
  case alternate =>
    iterate 2 refine .row (fun h3 => ⟨rfl, formatR_fields h7 h3 hop, rfl⟩) fun _ => ?_
    exact .none
  case muldiv =>
    iterate 5 refine .row (fun h3 => ⟨rfl, formatR_fields h7 h3 hop, rfl⟩) fun _ => ?_
    exact .none

theorem decodeBranch_gives (hop : opcode w = 0b1100011#7) : Gives x 4 w (decodeBranch w) := by
  iterate 6 refine .row (fun h3 => ⟨evenOffset_append _, formatB_fields h3 hop, rfl⟩) fun _ => ?_
  exact .none

theorem decodeLoad_gives (hop : opcode w = 0b0000011#7) : Gives x 4 w (decodeLoad x w) := by
  iterate 5 refine .row (fun h3 => ⟨rfl, formatI_fields h3 hop, rfl⟩) fun _ => ?_
  refine .ite (fun _ => .none) fun hx => ?_
  iterate 2 refine .row (fun h3 => ⟨decide_eq_true (eq_rv64_of_ne hx), formatI_fields h3 hop, rfl⟩) fun _ => ?_
  exact .none

theorem decodeStore_gives (hop : opcode w = 0b0100011#7) : Gives x 4 w (decodeStore x w) := by
  iterate 3 refine .row (fun h3 => ⟨rfl, formatS_fields h3 hop, rfl⟩) fun _ => ?_
  refine .ite (fun _ => .none) fun hx => ?_
  exact .row (fun h3 => ⟨decide_eq_true (eq_rv64_of_ne hx), formatS_fields h3 hop, rfl⟩) fun _ => .none

theorem decodeLoadFp_gives (hop : opcode w = 0b0000111#7) : Gives x 4 w (decodeLoadFp w) := by
  iterate 2 refine .row (fun h3 => ⟨rfl, formatI_fields h3 hop, rfl⟩) fun _ => ?_
  exact .none

theorem decodeStoreFp_gives (hop : opcode w = 0b0100111#7) : Gives x 4 w (decodeStoreFp w) := by
  iterate 2 refine .row (fun h3 => ⟨rfl, formatS_fields h3 hop, rfl⟩) fun _ => ?_
  exact .none

theorem decodeMiscMem_gives (hop : opcode w = 0b0001111#7) : Gives x 4 w (decodeMiscMem w) := by
  refine .row (fun h3 => ⟨rfl, ?fence, rfl⟩) fun _ => .row (fun h3 => ⟨rfl, formatI_fields h3 hop, rfl⟩) fun _ => .none
  case fence =>
    rw [Instr.bits, fence_fields]
    exact formatI_fields h3 hop

theorem decodeAmoW_gives (hop : opcode w = 0b0101111#7) (h3 : funct3 w = 0b010#3) : Gives x 4 w (decodeAmoW w) := by
  refine .ite (fun h5 => .row (fun h2 => ⟨rfl, formatAtomic_fields h5 h2 h3 hop, rfl⟩) fun _ => .none) fun _ => ?_
  iterate 10 refine .row (fun h5 => ⟨rfl, formatAtomic_fields h5 rfl h3 hop, rfl⟩) fun _ => ?_
  exact .none

theorem decodeAmoD_gives (hop : opcode w = 0b0101111#7) (h3 : funct3 w = 0b011#3) : Gives .rv64 4 w (decodeAmoD w) := by
  refine .ite (fun h5 => .row (fun h2 => ⟨rfl, formatAtomic_fields h5 h2 h3 hop, rfl⟩) fun _ => .none) fun _ => ?_
  iterate 10 refine .row (fun h5 => ⟨rfl, formatAtomic_fields h5 rfl h3 hop, rfl⟩) fun _ => ?_
  exact .none

theorem decodeAmo_gives (hop : opcode w = 0b0101111#7) : Gives x 4 w (decodeAmo x w) :=
  .ite (decodeAmoW_gives hop) fun _ => .ite (fun _ => .none) fun hx =>
    .ite (fun h3 => eq_rv64_of_ne hx ▸ decodeAmoD_gives hop h3) fun _ => .none

theorem decodeSystem_gives (hop : opcode w = 0b1110011#7) : Gives x 4 w (decodeSystem w) := by
  iterate 6 refine .row (fun h3 => ⟨rfl, formatI_fields h3 hop, rfl⟩) fun _ => ?_
  iterate 5 refine .row (fun hw => ⟨rfl, hw.symm, rfl⟩) fun _ => ?_
  refine .row (fun ⟨h3, h7, hd⟩ => ⟨rfl, ?sfence, rfl⟩) fun _ => .none
  case sfence =>
    rw [Instr.bits, ← hd]
    exact formatR_fields h7 h3 hop

/-- What a word decodes to is well-formed and has the word as its bits (R330, R340). -/
theorem decode32_gives (x : Xlen) (w : BitVec 32) : Gives x 4 w (decode32 x w) := by
  iterate 2 refine .row (fun hop => ⟨rfl, formatU_fields hop, rfl⟩) fun _ => ?_
  refine .ite decodeOpImm_gives fun _ => .ite decodeOp_gives fun _ => ?_
  refine .ite (fun hop => .ite (fun _ => .none) fun hx => eq_rv64_of_ne hx ▸ decodeOpImm32_gives hop) fun _ => ?_
  refine .ite (fun hop => .ite (fun _ => .none) fun hx => eq_rv64_of_ne hx ▸ decodeOp32_gives hop) fun _ => ?_
  refine .row (fun hop => ⟨evenOffset_append _, formatJ_fields hop, rfl⟩) fun _ => ?_
  refine .ite (fun hop => .row (fun h3 => ⟨rfl, formatI_fields h3 hop, rfl⟩) fun _ => .none) fun _ => ?_
  refine .ite decodeBranch_gives fun _ => .ite decodeLoad_gives fun _ => .ite decodeStore_gives fun _ => ?_
  refine .ite decodeLoadFp_gives fun _ => .ite decodeStoreFp_gives fun _ => .ite decodeMiscMem_gives fun _ => ?_
  refine .ite decodeAmo_gives fun _ => .ite decodeSystem_gives fun _ => ?_
  iterate 5 refine .row (fun hop => ⟨rfl, formatR_fields rfl rfl hop, rfl⟩) fun _ => ?_
  exact .none

end Words

end Sys2Proof

namespace Sys2Proof

/-! ### The parcel decoders -/

theorem decide_and {p : Prop} [Decidable p] {b : Bool} (hp : p) (hb : b = true) : (decide p && b) = true :=
  (Bool.and_eq_true _ _).mpr ⟨decide_eq_true hp, hb⟩

section Parcels

variable {x : Xlen} {p : BitVec 16}

theorem IsInstrOf.parcel {c : BitVec 16} {i : Instr} (hwf : i.wf x = true) (hc : c = p) (hb : i.bits = c.setWidth 32)
    (hl : i.length = 2) : IsInstrOf x 2 (p.setWidth 32) i :=
  ⟨hwf, hb.trans (congrArg (BitVec.setWidth 32) hc), hl⟩

theorem decodeQ0_gives (hq : quadrant p = 0b00#2) : Gives x 2 (p.setWidth 32) (decodeQ0 x p) := by
  refine .ite (fun h3 => .ite (fun _ => .none) fun hne => .some <| .parcel (decide_and hne (lowZero_append _))
    (formatC_cImmAddi4spn h3 hq) rfl rfl) fun _ => ?_
  refine .row (fun h3 => .parcel (lowZero_append _) (formatC_cImmD h3 hq) rfl rfl) fun _ => ?_
  refine .row (fun h3 => .parcel (lowZero_append _) (formatC_cImmW h3 hq) rfl rfl) fun _ => ?_
  refine .ite (fun h3 => .row (fun hx => .parcel (decide_and hx (lowZero_append _)) (formatC_cImmW h3 hq) rfl rfl)
    fun hx => .some <| .parcel (decide_and (eq_rv64_of_ne hx) (lowZero_append _)) (formatC_cImmD h3 hq) rfl rfl) fun _ => ?_
  refine .row (fun h3 => .parcel (lowZero_append _) (formatC_cImmD h3 hq) rfl rfl) fun _ => ?_
  refine .row (fun h3 => .parcel (lowZero_append _) (formatC_cImmW h3 hq) rfl rfl) fun _ => ?_
  exact .ite (fun h3 => .row (fun hx => .parcel (decide_and hx (lowZero_append _)) (formatC_cImmW h3 hq) rfl rfl)
    fun hx => .some <| .parcel (decide_and (eq_rv64_of_ne hx) (lowZero_append _)) (formatC_cImmD h3 hq) rfl rfl) fun _ => .none

theorem decodeQ1Arith_gives (hq : quadrant p = 0b01#2) (h3 : cFunct3 p = 0b100#3) :
    Gives x 2 (p.setWidth 32) (decodeQ1Arith x p) := by
  have hd {b : BitVec 2} (h2 : p.extractLsb 11 10 = b) : cRd p = b ++ cRdHigh p := h2 ▸ cRd_eq_append p
  have hr {b : BitVec 2} (h5 : p.extractLsb 6 5 = b) : cRs2 p = b ++ cRdLow p := h5 ▸ cRs2_eq_append p
  iterate 2
    refine .ite (fun h2 => .row (fun hs => .parcel hs (formatC_cImm6 h3 (hd h2) hq) rfl rfl) fun _ => .none) fun _ => ?_
  refine .row (fun h2 => .parcel rfl (formatC_cImm6 h3 (hd h2) hq) rfl rfl) fun _ => ?_
  have h2 : p.extractLsb 11 10 = 0b11#2 := by
    have := bits2_cases (p.extractLsb 11 10)
    tauto
  refine .ite (fun h12 => ?both) fun _ => .ite (fun _ => .none) fun hx => ?rv64
  case both =>
    iterate 3 refine .row (fun h5 => .parcel rfl (formatC_fields h3 h12 (hd h2) (hr h5) hq) rfl rfl) fun _ => ?_
    have h5 : p.extractLsb 6 5 = 0b11#2 := by
      have := bits2_cases (p.extractLsb 6 5)
      tauto
    exact .some (.parcel rfl (formatC_fields h3 h12 (hd h2) (hr h5) hq) rfl rfl)
  case rv64 =>
    have h12 : p.extractLsb 12 12 = 0b1#1 := by
      have := bits1_cases (p.extractLsb 12 12)
      tauto
    iterate 2
      refine .row (fun h5 => .parcel (decide_eq_true (eq_rv64_of_ne hx)) (formatC_fields h3 h12 (hd h2) (hr h5) hq) rfl rfl)
        fun _ => ?_
    exact .none

theorem decodeQ1_gives (hq : quadrant p = 0b01#2) : Gives x 2 (p.setWidth 32) (decodeQ1 x p) := by
  refine .ite (fun h3 => ?addi) fun _ => .ite (fun h3 => ?jal) fun _ => ?_
  case addi =>
    exact .row (fun hd => .parcel rfl (formatC_cImm6 h3 hd hq) rfl rfl) fun hd =>
      .some <| .parcel (decide_eq_true hd) (formatC_cImm6 h3 rfl hq) rfl rfl
  case jal =>
    exact .row (fun hx => .parcel (decide_and hx (evenOffset_append _)) (formatC_cImmJ h3 hq) rfl rfl) fun hx =>
      .ite (fun _ => .none) fun hd =>
        .some <| .parcel (decide_and (eq_rv64_of_ne hx) (decide_eq_true hd)) (formatC_cImm6 h3 rfl hq) rfl rfl
  refine .row (fun h3 => .parcel rfl (formatC_cImm6 h3 rfl hq) rfl rfl) fun _ => .ite (fun h3 => ?lui) fun _ => ?_
  case lui =>
    refine .ite (fun _ => .none) fun h6 => .row (fun hd => ?_) fun hd => ?_
    · have hne : cImmAddi16sp p ≠ 0#10 := mt (cImmAddi16sp_eq_zero_iff p).mp h6
      exact .parcel (decide_and hne (lowZero_append _)) (formatC_cImmAddi16sp h3 hd hq) rfl rfl
    · exact .some (.parcel (decide_and hd (decide_eq_true h6)) (formatC_cImm6 h3 rfl hq) rfl rfl)
  refine .ite (decodeQ1Arith_gives hq) fun _ => ?_
  refine .row (fun h3 => .parcel (evenOffset_append _) (formatC_cImmJ h3 hq) rfl rfl) fun _ => ?_
  refine .row (fun h3 => .parcel (evenOffset_append _) (formatC_cImmB h3 hq) rfl rfl) fun _ => ?_
  have h3 : cFunct3 p = 0b111#3 := by
    have := bits3_cases (cFunct3 p)
    tauto
  exact .some (.parcel (evenOffset_append _) (formatC_cImmB h3 hq) rfl rfl)

theorem decodeQ2Jump_gives (hq : quadrant p = 0b10#2) (h3 : cFunct3 p = 0b100#3) :
    Gives x 2 (p.setWidth 32) (decodeQ2Jump p) := by
  refine .ite (fun h12 => ?zero) fun _ => ?one
  case zero =>
    exact .ite (fun h2 => .ite (fun _ => .none) fun hd =>
        .some <| .parcel (decide_eq_true hd) (formatC_fields h3 h12 rfl h2 hq) rfl rfl)
      fun h2 => .some <| .parcel (decide_eq_true h2) (formatC_fields h3 h12 rfl rfl hq) rfl rfl
  case one =>
    have h12 : p.extractLsb 12 12 = 0b1#1 := by
      have := bits1_cases (p.extractLsb 12 12)
      tauto
    exact .ite (fun h2 => .row (fun hd => .parcel rfl (formatC_fields h3 h12 hd h2 hq) rfl rfl) fun hd =>
        .some <| .parcel (decide_eq_true hd) (formatC_fields h3 h12 rfl h2 hq) rfl rfl)
      fun h2 => .some <| .parcel (decide_eq_true h2) (formatC_fields h3 h12 rfl rfl hq) rfl rfl

theorem decodeQ2_gives (hq : quadrant p = 0b10#2) : Gives x 2 (p.setWidth 32) (decodeQ2 x p) := by
  refine .ite (fun h3 => .row (fun hs => .parcel hs (formatC_cImm6 h3 rfl hq) rfl rfl) fun _ => .none) fun _ => ?_
  refine .row (fun h3 => .parcel (lowZero_append _) (formatC_cImmLdsp h3 hq) rfl rfl) fun _ => ?_
  refine .ite (fun h3 => .ite (fun _ => .none) fun hd =>
    .some <| .parcel (decide_and hd (lowZero_append _)) (formatC_cImmLwsp h3 hq) rfl rfl) fun _ => ?_
  refine .ite (fun h3 => .row (fun hx => .parcel (decide_and hx (lowZero_append _)) (formatC_cImmLwsp h3 hq) rfl rfl)
    fun hx => .ite (fun _ => .none) fun hd => ?ldsp) fun _ => ?_
  case ldsp =>
    have hwf := decide_and (eq_rv64_of_ne hx) (decide_eq_true hd)
    exact .some (.parcel ((Bool.and_eq_true _ _).mpr ⟨hwf, lowZero_append _⟩) (formatC_cImmLdsp h3 hq) rfl rfl)
  refine .ite (decodeQ2Jump_gives hq) fun _ => ?_
  refine .row (fun h3 => .parcel (lowZero_append _) (formatC_cImmSdsp h3 hq) rfl rfl) fun _ => ?_
  refine .row (fun h3 => .parcel (lowZero_append _) (formatC_cImmSwsp h3 hq) rfl rfl) fun _ => ?_
  have h3 : cFunct3 p = 0b111#3 := by
    have := bits3_cases (cFunct3 p)
    tauto
  exact .row (fun hx => .parcel (decide_and hx (lowZero_append _)) (formatC_cImmSwsp h3 hq) rfl rfl) fun hx =>
    .some <| .parcel (decide_and (eq_rv64_of_ne hx) (lowZero_append _)) (formatC_cImmSdsp h3 hq) rfl rfl

/-- What a parcel decodes to is well-formed and has the parcel as its bits (R641). -/
theorem decode16_gives (x : Xlen) (p : BitVec 16) : Gives x 2 (p.setWidth 32) (decode16 x p) :=
  .ite decodeQ0_gives fun _ => .ite decodeQ1_gives fun _ => .ite decodeQ2_gives fun _ => .none

end Parcels

end Sys2Proof

/-! ## The expansion of a parcel (47_compressed.md R640) -/

namespace Sys2Proof

theorem length_expand (i : Instr) : i.expand.length = 4 := by cases i <;> rfl

theorem evenOffset_signExtend {n m : Nat} {off : BitVec n} (hm : 0 < m) (h : evenOffset off = true) (hn : 0 < n) :
    evenOffset (off.signExtend m) = true := by
  simpa [evenOffset, BitVec.getElem_signExtend, hm, hn] using h

theorem wf_expand {x : Xlen} {i : Instr} (h : i.wf x = true) : i.expand.wf x = true := by
  cases i
  case cLd | cSd | cSubw | cAddw | cSdsp | cAddiw | cLdsp =>
    cases x
    case rv32 => exact absurd h Bool.false_ne_true
    case rv64 => rfl
  case cJ | cBeqz | cBnez => exact evenOffset_signExtend (by decide) h (by decide)
  case cJal => exact evenOffset_signExtend (by decide) (of_decide_and h).2 (by decide)
  case cAddi4spn | cFld | cLw | cFlw | cFsd | cSw | cFsw | cNop | cAddi | cLi | cAddi16sp | cLui | cAndi | cSub | cXor
    | cOr | cAnd | cFldsp | cLwsp | cFlwsp | cJr | cMv | cEbreak | cJalr | cAdd | cFsdsp | cSwsp | cFswsp => rfl
  all_goals exact h

theorem decode16_of_decodeRaw {x : Xlen} {p : BitVec 16} {i : Instr} (h : decodeRaw x (.compressed p) = .ok i) :
    decode16 x p = some i := by
  rw [decodeRaw] at h
  split at h
  next hd =>
    cases h
    exact hd
  next => cases h

theorem decode32_of_decodeRaw {x : Xlen} {w : BitVec 32} {i : Instr} (h : decodeRaw x (.full w) = .ok i) :
    decode32 x w = some i := by
  rw [decodeRaw] at h
  split at h
  case isTrue => cases h
  case isFalse =>
    split at h
    next hd =>
      cases h
      exact hd
    next => cases h

/-- What the decoder gives is well-formed in the mode (R302, R340). -/
theorem wf_of_decodeRaw {x : Xlen} {r : RawInstr} {i : Instr} (h : decodeRaw x r = .ok i) : i.wf x = true := by
  cases r
  case compressed => exact (decode16_gives _ _ _ (decode16_of_decodeRaw h)).1
  case full => exact (decode32_gives _ _ _ (decode32_of_decodeRaw h)).1

/-- Settles O2: each decoder's rows put their fields together again, and a well-formed word decodes to its instruction. -/
theorem decodedInstructionKeepsItsBits : Obligations.DecodedInstructionKeepsItsBits := by
  unfold Obligations.DecodedInstructionKeepsItsBits
  constructor
  · intro x r i h
    cases r
    case compressed p =>
      obtain ⟨hwf, hb, hl⟩ := decode16_gives _ _ _ (decode16_of_decodeRaw h)
      refine ⟨hwf, ?_, hl⟩
      rw [hb]
      simp [Machine.rawBits]
    case full w =>
      obtain ⟨hwf, hb, hl⟩ := decode32_gives _ _ _ (decode32_of_decodeRaw h)
      exact ⟨hwf, by rw [hb, Machine.rawBits], hl⟩
  · intro x p i h
    have hwf := wf_expand (decode16_gives x p i h).1
    refine ⟨by rw [decompress, h]; rfl, hwf, length_expand i, ?_⟩
    exact Machine.isWord_bits_of_length (length_expand i) x hwf

end Sys2Proof

/-! ## What every instruction keeps: a predicate closed under the state's operations (60_exceptions.md R700) -/

namespace Sys2Proof.Machine

open Sys2Proof

theorem Res.Reaches.mono {α : Type} {R S : State → State → Prop} {s : State} {r : Res α} (hr : r.Reaches R s)
    (h : ∀ t, R s t → S s t) : r.Reaches S s := by
  cases r
  case ok | trap => exact h _ hr
  case fatal => trivial

/-- `P` is kept by each operation that instructions are made of. -/
structure StepClosed (P : State → Prop) : Prop where
  plain {s t : State} (h : P s)
    (e : t = { s with f := t.f, priv := t.priv, mstatus := t.mstatus, mcycle := t.mcycle, minstret := t.minstret,
                      tlb := t.tlb }) : P t
  writeX {s : State} (r : Reg) (v : Word) (h : P s) : P (s.writeX r v)
  setPc {s : State} {v : Word} (h : P s) (he : s.pc.getLsbD 0 = false → v.getLsbD 0 = false) (hn : norm s.xlen v = v) :
    P { s with pc := v }
  fromM {s : State} (h : P s) : P (returnFromM s).countRetired
  fromS {s : State} (h : P s) : P (returnFromS s).countRetired
  csrWrite {s : State} (r : CsrReg) (v : Word) (h : P s) : P (s.csrWrite r v)
  trap {s : State} (c : Cause) (v : Word) (h : P s) : P (trapStep c v s)
  translated {s t : State} (h : P s) (ht : Translated s t) : P t
  read {s : State} (a : Word) (n : Nat) (h : P s) : (s.memRead a n).Reaches (fun _ => P) s
  write {s : State} (a : Word) (n : Nat) (v : Word) (h : P s) : (s.memWrite a n v).Reaches (fun _ => P) s
  reserve {s : State} {pa : Nat} {n : AtomicWidth} (h : P s) (hd : s.inDram pa n.bytes = true) :
    P { s with resv := some { paddr := BitVec.ofNat 64 pa, width := n } }
  dropResv {s : State} (h : P s) : P s.dropResv
  writeDram {s : State} {pa n : Nat} (v : Word) (h : P s) (hd : s.inDram pa n = true) :
    P { s with dram := Memory.writeLE s.dram pa n v }

/-- Where the outcome is a next state, `P` holds of it. -/
def NextIs (P : State → Prop) (o : Host.Outcome State Fault Refusal) : Prop := ∀ t, o = .next t → P t

section NextIs

variable {P : State → Prop} {s : State} {i : Instr} {o p : Host.Outcome State Fault Refusal}

theorem NextIs.next {t : State} (h : P t) : NextIs P (.next t) := by
  rintro _ ⟨⟩
  exact h

theorem NextIs.ite {c : Prop} [Decidable c] (ho : NextIs P o) (hp : NextIs P p) : NextIs P (if c then o else p) := by
  split <;> assumption

variable (hP : StepClosed P)
include hP

/-! ### Retirement -/

theorem StepClosed.retireAt {v : Word} (h : P s) (he : s.pc.getLsbD 0 = false → v.getLsbD 0 = false) :
    P (s.retireAt v) :=
  have hpc : P { s with pc := norm s.xlen v } :=
    hP.setPc h (fun hs => (getLsbD_norm_low _ _ (by decide)).trans (he hs)) (norm_norm ..)
  hP.plain hpc rfl

theorem StepClosed.retire (i : Instr) (h : P s) : P (s.retire i) := hP.retireAt h (npc_even i)

theorem StepClosed.retireCsr (i : Instr) (w : Option CsrReg) (h : P s) : P (s.retireCsr i w) :=
  have hpc : P { s with pc := s.npc i } := hP.setPc h (npc_even i) (norm_norm ..)
  hP.plain hpc rfl

omit hP in
theorem even_pcPlus {n : Nat} {off : BitVec n} (hn : 0 < n) (he : evenOffset off = true) (h : s.pc.getLsbD 0 = false) :
    (s.pcPlus off).getLsbD 0 = false := by
  rw [State.pcPlus, getLsbD_norm_low _ _ (by decide)]
  refine even_add h (getLsbD_zero_of_evenOffset ?_)
  exact evenOffset_signExtend (by decide) he hn

/-! ### The forms of an instruction -/

variable (h : P s)
include h

theorem NextIs.raise (e : Exc) (v : Word) : NextIs P (raise e v s) := .next (hP.trap _ _ h)

theorem NextIs.illegal : NextIs P (raiseIllegal i s) := .raise hP h _ _

theorem NextIs.inMode {x : Xlen} (ho : NextIs P o) : NextIs P (inMode x i s o) := ho.ite (.illegal hP h)

theorem NextIs.atomicMode (n : AtomicWidth) (ho : NextIs P o) : NextIs P (atomicMode n i s o) := by
  cases n with
  | w => exact ho
  | d => exact ho.inMode hP h

theorem NextIs.supervisorGate (b : Bool) (ho : NextIs P o) : NextIs P (supervisorGate i b s o) :=
  .ite (.illegal hP h) ho

theorem NextIs.fpArithStop : NextIs P (fpArithStop i s) := .ite (.illegal hP h) fun _ ht => by cases ht

theorem NextIs.writeRd (rd : Reg) (v : Word) : NextIs P (writeRd i rd v s) := .next (hP.retire i (hP.writeX rd v h))

theorem NextIs.jumpLink (rd : Reg) {v : Word} (he : s.pc.getLsbD 0 = false → v.getLsbD 0 = false) :
    NextIs P (jumpLink i rd v s) :=
  .next (hP.retireAt (hP.writeX rd _ h) (by rwa [State.writeX_pc]))

theorem NextIs.branch {n : Nat} (rs1 rs2 : Reg) {off : BitVec n} (hn : 0 < n) (he : evenOffset off = true)
    (cond : (w : Nat) → BitVec w → BitVec w → Bool) : NextIs P (branch i rs1 rs2 off cond s) := .next (by
  split
  · exact hP.retireAt h (even_pcPlus hn he)
  · exact hP.retire i h)

theorem NextIs.csrOp (rd : Reg) (c : BitVec 12) (writes : Bool) (f : Word → Word) : NextIs P (csrOp i rd c writes f s) :=
  fun t ht => by
    obtain hill | ⟨r, rfl⟩ := csrOp_eq_next ht
    · exact NextIs.illegal hP h t (hill.symm.trans ht)
    · have hw : P (if writes then s.csrWrite r (f (s.csrOld r)) else s) := by
        split
        · exact hP.csrWrite r _ h
        · exact h
      exact hP.retireCsr i _ (hP.writeX rd (s.csrRead r) hw)

omit h in
theorem NextIs.complete {α : Type} {r : Res α} {act : α → State → State} (hr : r.Reaches (fun _ => P) s)
    (hact : ∀ a u, r = .ok a u → P u → P (act a u)) : NextIs P (r.complete act) := fun t ht => by
  obtain ⟨a, u, rfl, rfl⟩ | ⟨e, v, u, rfl, rfl⟩ := Res.complete_eq_next ht
  · exact hact a u rfl hr
  · exact hP.trap _ _ hr

/-! ### Memory -/

theorem NextIs.storeAt (a : Word) (n : Nat) (v : Word) : NextIs P (storeAt i a n v s) :=
  .complete hP (hP.write a n v h) fun _ _ _ hu => hP.retire i hu

theorem NextIs.access (ha : i.accesses = true) : NextIs P (exec i s) := by
  obtain ⟨⟨base, imm, n⟩, ha⟩ := Option.isSome_iff_exists.mp ha
  cases accessForm_of_access s ha with
  | illegal he =>
    rw [he]
    exact .illegal hP h
  | load _ _ _ he =>
    rw [he]
    exact .complete hP (hP.read _ n h) fun _ _ _ hu => hP.retire i (hP.writeX _ _ hu)
  | loadF _ _ _ he =>
    rw [he]
    exact .complete hP (hP.read _ n h) fun _ _ _ hu => hP.retire i (hP.plain hu rfl)
  | store _ _ _ he =>
    rw [he]
    exact .storeAt hP h _ _ _

theorem NextIs.atomic (n : AtomicWidth) (k : Access) (va : Word) {act : Nat → State → State}
    (hact : ∀ pa u, u.inDram pa n.bytes = true → P u → P (act pa u)) :
    NextIs P (Machine.atomicMode n i s ((s.atomicAddr k va n.bytes).complete act)) :=
  have hreach : (s.atomicAddr k va n.bytes).Reaches (fun _ => P) s :=
    (atomicAddr_reaches s k va n.bytes).mono fun _ => hP.translated h
  .atomicMode hP h n (.complete hP hreach fun pa u hok hu => hact pa u (atomicAddr_inDram hok) hu)

theorem NextIs.loadReserved (rd rs1 : Reg) (n : AtomicWidth) : NextIs P (loadReserved i rd rs1 n s) :=
  .atomic hP h n .load _ fun _ _ hd hu => hP.retire i (hP.writeX rd _ (hP.reserve hu hd))

theorem NextIs.storeConditional (rd rs1 rs2 : Reg) (n : AtomicWidth) : NextIs P (storeConditional i rd rs1 rs2 n s) :=
  .atomic hP h n .store _ fun _ _ hd hu => hP.retire i (by
    split
    · exact hP.writeX rd _ (hP.dropResv (hP.writeDram _ hu hd))
    · exact hP.writeX rd _ (hP.dropResv hu))

theorem NextIs.amo (rd rs1 rs2 : Reg) (n : AtomicWidth) (f : (w : Nat) → BitVec w → BitVec w → BitVec w) :
    NextIs P (amo i rd rs1 rs2 n f s) :=
  .atomic hP h n .amo _ fun _ _ hd hu => hP.retire i (hP.writeX rd _ (hP.dropResv (hP.writeDram _ hu hd)))

/-- Every instruction keeps `P`; its offset is even where it is well-formed. -/
theorem NextIs.exec (hwf : i.wf s.xlen = true) : NextIs P (exec i s) := by
  cases ha : i.accesses with
  | true => exact .access hP h ha
  | false =>
    cases i
    case lui | auipc | addi | slti | sltiu | xori | ori | andi | add | sub | sll | slt | sltu | xor | srl | sra | or | and
      | mul | mulh | mulhsu | mulhu | div | divu | rem | remu | cAddi4spn | cNop | cAddi | cLi | cAddi16sp | cLui | cAndi
      | cSub | cXor | cOr | cAnd | cMv | cAdd => exact .writeRd hP h _ _
    case slli | srli | srai | cSrli | cSrai | cSlli => exact .ite (.writeRd hP h _ _) (.illegal hP h)
    case addiw | slliw | srliw | sraiw | addw | subw | sllw | srlw | sraw | mulw | divw | divuw | remw | remuw | cSubw
      | cAddw | cAddiw => exact .inMode hP h (.writeRd hP h _ _)
    case jal | cJ => exact .jumpLink hP h _ (even_pcPlus (by decide) hwf)
    case cJal => exact .inMode hP h (.jumpLink hP h _ (even_pcPlus (by decide) (of_decide_and hwf).2))
    case jalr | cJr | cJalr => exact .jumpLink hP h _ fun _ => epc_even _
    case beq | bne | blt | bge | bltu | bgeu | cBeqz | cBnez => exact .branch hP h _ _ (by decide) hwf _
    case lrW => exact .loadReserved hP h _ _ .w
    case lrD => exact .loadReserved hP h _ _ .d
    case scW => exact .storeConditional hP h _ _ _ .w
    case scD => exact .storeConditional hP h _ _ _ .d
    case amoswapW | amoaddW | amoxorW | amoandW | amoorW | amominW | amomaxW | amominuW | amomaxuW =>
      exact .amo hP h _ _ _ .w _
    case amoswapD | amoaddD | amoxorD | amoandD | amoorD | amominD | amomaxD | amominuD | amomaxuD =>
      exact .amo hP h _ _ _ .d _
    case csrrw | csrrs | csrrc | csrrwi | csrrsi | csrrci => exact .csrOp hP h _ _ _ _
    case fence | fenceI => exact .next (hP.retire _ h)
    case ecall | ebreak | cEbreak => exact .raise hP h _ _
    case mret => exact .ite (.next (hP.fromM h)) (.illegal hP h)
    case sret => exact .supervisorGate hP h _ (.next (hP.fromS h))
    case wfi => exact .supervisorGate hP h _ (.next (hP.retire _ h))
    case sfenceVma => exact .supervisorGate hP h _ (.next (hP.retire _ (hP.plain h rfl)))
    case fpMadd | fpMsub | fpNmsub | fpNmadd | fpOp => exact .fpArithStop hP h
    all_goals cases ha

/-- The hart part of a step keeps `P`: a trap, or a decoded and so well-formed instruction (R700). -/
theorem NextIs.hartStep : NextIs P (hartStep s) := by
  cases hi : s.selectInterrupt with
  | some i =>
    rw [hartStep_of_interrupt hi]
    exact .next (hP.trap _ _ h)
  | none =>
    have hreach := fetchInstr_reaches s
    rw [hartStep_of_no_interrupt hi, runInstr]
    cases hf : s.fetchInstr with
    | fatal f => exact fun _ ht => by cases ht
    | trap e v u =>
      rw [hf] at hreach
      exact .next (hP.trap _ _ (hP.translated h hreach))
    | ok r u =>
      rw [hf] at hreach
      have hu : P u := hP.translated h hreach
      show NextIs P (runRaw r u)
      rw [runRaw]
      cases hd : decodeRaw u.xlen r with
      | ok i => exact .exec hP hu (wf_of_decodeRaw hd)
      | error e => exact .raise hP hu _ _

end NextIs

theorem hart_next_of_step {s t : State} (h : step s = .next t) :
    s.fatal = none ∧ s.refused = none ∧ ∃ u, hartStep s = .next u ∧ busTick u = .next t := by
  cases hf : s.fatal with
  | some f => rw [step_of_fatal hf] at h; cases h
  | none =>
    cases hr : s.refused with
    | some q => rw [step_of_refused hf hr] at h; cases h
    | none =>
      cases hh : Machine.hartStep s with
      | next u => exact ⟨rfl, rfl, u, rfl, (step_of_hart_next hf hr hh).symm.trans h⟩
      | fault f => rw [step_of_hart_fault hf hr hh] at h; cases h
      | refused q => rw [step_of_hart_refused hf hr hh] at h; cases h

/-! ### The invariant of a run -/

theorem reaches_inv_memWrite {s : State} (a : Word) (n : Nat) (v : Word) (h : s.Inv) :
    (s.memWrite a n v).Reaches (fun _ => State.Inv) s := by
  cases hw : s.memWrite a n v
  case ok =>
    obtain ⟨u, rfl, hu⟩ := memWrite_dropResv hw
    exact inv_dropResv (inv_accessed h hu)
  case trap => exact inv_accessed h (memWrite_trap_accessed hw)
  case fatal => trivial

/-- DRAM ends below 2^64, so the 64-bit reservation keeps the address. -/
theorem inv_reserve {s : State} {pa : Nat} {n : AtomicWidth} (h : s.Inv) (hd : s.inDram pa n.bytes = true) :
    ({ s with resv := some { paddr := BitVec.ofNat 64 pa, width := n } } : State).Inv := by
  refine ⟨h.pcs, h.dram, h.csrs, h.width, h.plic, ?_, h.marks, h.size⟩
  rintro _ ⟨⟩
  have hz : s.dramSize ≤ Config.dramSizeDefault := h.size
  have hn : 0 < n.bytes := by cases n <;> decide
  rw [inDram_iff] at hd
  rw [region_eq_dram]
  simp only [BitVec.toNat_ofNat, Config.dramBase, Config.dramSizeDefault] at *
  omega

theorem stepClosed_inv : StepClosed State.Inv where
  plain h e := inv_of_eq h (by rw [e])
  writeX r v h := inv_writeX r v h
  setPc h he hn := inv_setPc h (he h.pcs.1) hn
  fromM := inv_returnFromM
  fromS := inv_returnFromS
  csrWrite r v h := inv_csrWrite r v h
  trap c v h := inv_trapStep c v h
  translated := inv_translated
  read a n h := (memRead_reaches ..).mono fun _ => inv_accessed h
  write a n v h := reaches_inv_memWrite a n v h
  reserve := inv_reserve
  dropResv := inv_dropResv
  writeDram v h hd := inv_writeLE v h hd

/-- Settles O56: the hart part keeps the invariant, instruction by instruction, and the bus tick after it does. -/
theorem stepKeepsInvariant : Obligations.StepKeepsInvariant := by
  unfold Obligations.StepKeepsInvariant
  intro s t hs h
  obtain ⟨-, -, u, hu, htick⟩ := hart_next_of_step h
  exact inv_ticked (NextIs.hartStep stepClosed_inv hs u hu) (busTick_ticked htick)

end Sys2Proof.Machine

/-! ## What no step changes: XLEN, the DRAM size, the tohost address and the output so far (10_state.md R57) -/

namespace Sys2Proof.Machine

open Sys2Proof

/-- `t` has the configuration and the outcome marks of `s`, and its output stream begins with that of `s`. -/
structure KeepsConfig (s t : State) : Prop where
  xlen : t.xlen = s.xlen
  dramSize : t.dramSize = s.dramSize
  tohost : t.tohost = s.tohost
  fatal : t.fatal = s.fatal
  refused : t.refused = s.refused
  ttyOut : s.ttyOut <+: t.ttyOut

theorem KeepsConfig.trans {s t u : State} (h : KeepsConfig s t) (k : KeepsConfig t u) : KeepsConfig s u :=
  ⟨k.xlen.trans h.xlen, k.dramSize.trans h.dramSize, k.tohost.trans h.tohost, k.fatal.trans h.fatal,
    k.refused.trans h.refused, h.ttyOut.trans k.ttyOut⟩

/-- An update of fields that are none of these. -/
theorem KeepsConfig.of_eq {s t : State}
    (e : t = { t with xlen := s.xlen, dramSize := s.dramSize, tohost := s.tohost, fatal := s.fatal, refused := s.refused,
                      ttyOut := s.ttyOut }) : KeepsConfig s t := by
  rw [e]
  exact ⟨rfl, rfl, rfl, rfl, rfl, ⟨[], List.append_nil _⟩⟩

theorem KeepsConfig.refl (s : State) : KeepsConfig s s := .of_eq rfl

theorem Accessed.keepsConfig {s t : State} (h : Accessed s t) (ho : s.ttyOut <+: t.ttyOut) : KeepsConfig s t := by
  rw [h.eq]
  exact ⟨rfl, rfl, rfl, rfl, rfl, ho⟩

theorem Translated.keepsConfig {s t : State} (h : Translated s t) : KeepsConfig s t := by
  rw [h.eq]
  exact .of_eq rfl

/-! ### Accesses -/

section Devices

variable (s : State) (r : Region) (off : Nat)

theorem deviceRead32_keepsConfig : KeepsConfig s (s.deviceRead32 r off).2 := by
  cases r <;> exact .of_eq rfl

theorem deviceWrite32_keepsConfig (v : BitVec 32) : KeepsConfig s (s.deviceWrite32 r off v) := by
  cases r <;> exact .of_eq rfl

theorem uartReads_keepsConfig (n : Nat) : KeepsConfig s (s.uartReads off n).2 := by
  induction n generalizing s off with
  | zero => exact .refl s
  | succ n ih =>
    have hr : KeepsConfig s (s.uartRead off).2 := .of_eq rfl
    exact hr.trans (ih (s.uartRead off).2 (off + 1))

/-- A byte written to THR goes to the end of the output (R782). -/
theorem uartWrite_keepsConfig (v : Byte) : KeepsConfig s (s.uartWrite off v) := by
  unfold State.uartWrite
  dsimp only
  split
  · exact ⟨rfl, rfl, rfl, rfl, rfl, ⟨[v], rfl⟩⟩
  · exact .of_eq rfl

theorem uartWrites_keepsConfig (n : Nat) (v : Word) : KeepsConfig s (s.uartWrites off n v) := by
  induction n generalizing s off v with
  | zero => exact .refl s
  | succ n ih =>
    exact (uartWrite_keepsConfig s off (v.setWidth 8)).trans (ih (s.uartWrite off (v.setWidth 8)) (off + 1) (v >>> 8))

theorem wordDeviceRead_keepsConfig (n : Nat) : (s.wordDeviceRead r off n).Reaches KeepsConfig s := by
  unfold State.wordDeviceRead
  split
  · exact deviceRead32_keepsConfig s r off
  · split
    · exact (deviceRead32_keepsConfig s r off).trans (deviceRead32_keepsConfig _ r (off + 4))
    · trivial

theorem wordDeviceWrite_keepsConfig (n : Nat) (v : Word) : (s.wordDeviceWrite r off n v).Reaches KeepsConfig s := by
  unfold State.wordDeviceWrite
  split
  · exact deviceWrite32_keepsConfig s r off _
  · split
    · exact (deviceWrite32_keepsConfig s r off _).trans (deviceWrite32_keepsConfig _ r (off + 4) _)
    · trivial

end Devices

theorem physRead_keepsConfig (s : State) (pa n : Nat) : (s.physRead pa n).Reaches KeepsConfig s := by
  unfold State.physRead
  cases s.region pa with
  | clint | plic | virtio => exact wordDeviceRead_keepsConfig ..
  | uart => exact uartReads_keepsConfig ..
  | dram | unmapped => exact .refl s

theorem physWrite_keepsConfig (s : State) (pa n : Nat) (v : Word) : (s.physWrite pa n v).Reaches KeepsConfig s := by
  unfold State.physWrite
  cases s.region pa with
  | clint | plic | virtio => exact wordDeviceWrite_keepsConfig ..
  | uart => exact uartWrites_keepsConfig ..
  | dram => exact .of_eq rfl
  | unmapped => exact .refl s

theorem readPieces_keepsConfig (s : State) (ps : List Piece) : (s.readPieces ps).Reaches KeepsConfig s := by
  induction ps generalizing s with
  | nil => exact .refl s
  | cons p ps ih =>
    exact (physRead_keepsConfig s p.1 p.2).bind .trans fun w t _ =>
      (ih t).bind .trans fun rest u _ => KeepsConfig.refl u

theorem writePieces_keepsConfig (s : State) (ps : List Piece) (v : Word) :
    (s.writePieces ps v).Reaches KeepsConfig s := by
  induction ps generalizing s v with
  | nil => exact .refl s
  | cons p ps ih => exact (physWrite_keepsConfig s p.1 p.2 v).bind .trans fun _ t _ => ih t _

theorem memRead_keepsConfig (s : State) (a : Word) (n : Nat) : (s.memRead a n).Reaches KeepsConfig s :=
  ((checkAccess_reaches s .load a n).mono fun _ => Translated.keepsConfig).bind .trans fun ps t _ =>
    readPieces_keepsConfig t ps

theorem memWrite_keepsConfig (s : State) (a : Word) (n : Nat) (v : Word) : (s.memWrite a n v).Reaches KeepsConfig s :=
  ((checkAccess_reaches s .store a n).mono fun _ => Translated.keepsConfig).bind .trans fun ps t _ =>
    (writePieces_keepsConfig t ps v).bind .trans fun _ u _ => KeepsConfig.of_eq (t := u.dropResv) rfl

/-! ### Steps -/

theorem OnlyCsrs.keepsConfig {s t : State} (h : OnlyCsrs s t) : KeepsConfig s t := by
  rw [h]
  exact .of_eq rfl

theorem trapStep_keepsConfig (c : Cause) (v : Word) (s : State) : KeepsConfig s (trapStep c v s) :=
  ⟨trapStep_xlen .., trapStep_dramSize .., trapStep_tohost .., trapStep_fatal .., trapStep_refused ..,
    by rw [trapStep_ttyOut]⟩

theorem writeX_keepsConfig (s : State) (r : Reg) (v : Word) : KeepsConfig s (s.writeX r v) :=
  ⟨State.writeX_xlen .., State.writeX_dramSize .., State.writeX_tohost .., State.writeX_fatal .., State.writeX_refused ..,
    by rw [State.writeX_ttyOut]⟩

theorem stepClosed_keepsConfig (s0 : State) : StepClosed (KeepsConfig s0) where
  plain h e := h.trans (by rw [e]; exact .of_eq rfl)
  writeX r v h := h.trans (writeX_keepsConfig _ r v)
  setPc h _ _ := h.trans (.of_eq rfl)
  fromM h := h.trans (.of_eq rfl)
  fromS h := h.trans (.of_eq rfl)
  csrWrite r v h := h.trans (onlyCsrs_csrWrite _ r v).keepsConfig
  trap c v h := h.trans (trapStep_keepsConfig c v _)
  translated h ht := h.trans ht.keepsConfig
  read a n h := (memRead_keepsConfig _ a n).mono fun _ => h.trans
  write a n v h := (memWrite_keepsConfig _ a n v).mono fun _ => h.trans
  reserve h _ := h.trans (.of_eq rfl)
  dropResv h := h.trans (.of_eq rfl)
  writeDram _ h _ := h.trans (.of_eq rfl)

theorem Ticked.keepsConfig {s t : State} (h : Ticked s t) : KeepsConfig s t := by
  rw [h.eq]
  exact .of_eq rfl

/-- Settles O59: no operation of the hart or of the bus tick touches the configuration or takes output back, and the tick
advances mtime. -/
theorem stepKeepsConfiguration : Obligations.StepKeepsConfiguration := by
  unfold Obligations.StepKeepsConfiguration
  intro s t h
  obtain ⟨hf, hr, u, hu, htick⟩ := hart_next_of_step h
  have hk := busTick_ticked htick
  have hc := (NextIs.hartStep (stepClosed_keepsConfig s) (.refl s) u hu).trans hk.keepsConfig
  obtain ⟨out, hout⟩ := hc.ttyOut
  refine ⟨hc.xlen, hc.dramSize, hc.tohost, hc.fatal.trans hf, hc.refused.trans hr, ⟨out, hout.symm⟩, u, hu, ?_⟩
  exact ⟨by rw [hk.time]; rfl, by rw [hk.eq], by rw [hk.eq], by rw [hk.eq]⟩

end Sys2Proof.Machine

/-! ## The state after reset (10_state.md R110, 70_reset_and_hazards.md R850) -/

namespace Sys2Proof.Machine

open Sys2Proof

theorem reset_widthOk : State.reset.widthOk := by
  rw [widthOk_iff]
  refine ⟨fun v hv => ?_, rfl, rfl, rfl, rfl, rfl, rfl, rfl, rfl, rfl, rfl, rfl, rfl⟩
  rw [State.reset, Vector.toList_replicate, List.mem_replicate] at hv
  rw [hv.2]
  rfl

/-- Settles O57: field by field. -/
theorem resetHasInvariant : Obligations.ResetHasInvariant where
  pcs := ⟨rfl, rfl, rfl⟩
  dram := ⟨rfl, fun _ hc => nomatch hc⟩
  csrs := ⟨rfl, rfl, rfl, rfl, rfl, .inl rfl⟩
  width := reset_widthOk
  plic := ⟨rfl, rfl, rfl, rfl⟩
  resv _ hr := nomatch hr
  marks := ⟨rfl, rfl⟩
  size := Nat.le_refl _

theorem reset_readX (r : Reg) : State.reset.readX r = 0 := by
  rw [State.readX]
  split
  · rfl
  · exact Vector.getElem_replicate ..

theorem reset_readF (r : Reg) : State.reset.readF r = 0 := Vector.getElem_replicate ..

theorem reset_csrRead {r : CsrReg} (h : r ∉ [CsrReg.mstatus, .sstatus, .misa, .mip, .sip]) : State.reset.csrRead r = 0 := by
  cases r
  case mstatus | sstatus | misa | mip | sip => exact absurd (by decide) h
  all_goals rfl

theorem reset_prio (n : Nat) : State.reset.plic.prio n = 0 := by
  rw [Plic.prio]
  split
  · rfl
  · split
    · exact congrArg BitVec.toNat (Vector.getElem_replicate ..)
    · rfl

/-- Settles O58: the registers, the CSRs and the PLIC's priorities each by a lemma, the other fields by definition. -/
theorem resetState : Obligations.ResetState := by
  unfold Obligations.ResetState
  exact ⟨rfl, rfl, rfl, reset_readX, reset_readF, rfl, fun _ => reset_csrRead, rfl, rfl, rfl, rfl, rfl, rfl, rfl, fun _ => rfl,
    rfl, rfl, rfl, rfl, rfl, reset_prio, fun c => by cases c <;> exact ⟨rfl, rfl⟩, rfl, rfl, rfl, rfl, rfl, rfl⟩

/-! ## Registers and retirement (10_state.md R50 to R58, R705) -/

theorem num_writeX_self (s : State) {r : Reg} (v : Word) (h : r ≠ 0#5) :
    (s.writeX r v).num r = v.toNat % 2 ^ xlenBits s.xlen := by
  rw [State.num, State.readX_writeX_self s v h, norm_toNat]
  norm_cast

theorem State.writeX_eq (s : State) (r : Reg) (v : Word) : s.writeX r v = { s with x := (s.writeX r v).x } := by
  unfold State.writeX
  split <;> rfl

theorem toNat_nanBox (w : BitVec 32) : (nanBox w).toNat = 0xFFFFFFFF * 2 ^ 32 + w.toNat := by
  rw [nanBox, BitVec.toNat_append, ← Nat.shiftLeft_add_eq_or_of_lt w.isLt, Nat.shiftLeft_eq]
  rfl

/-- Settles O5: the rules of the two register files; a boxed value is its 32 bits below 32 ones. -/
theorem registerFile : Obligations.RegisterFile := by
  unfold Obligations.RegisterFile
  intro s r q v w
  exact ⟨num_zero s, s.writeX_zero v, num_writeX_self s v, s.readX_writeX_ne v, s.readF_of_f (s.writeX_f r v) q,
    s.writeX_eq r v, s.readF_writeF_self r v, s.readF_writeF_ne v, s.readX_of_x rfl rfl q, rfl, toNat_nanBox w⟩

theorem toNat_npc (s : State) (i : Instr) : (s.npc i).toNat = (s.pc.toNat + i.length) % 2 ^ xlenBits s.xlen := by
  have hl : i.length < 2 ^ 64 := by obtain h | h := length_cases i <;> rw [h] <;> decide
  rw [State.npc, norm_toNat, BitVec.toNat_add, BitVec.toNat_ofNat, Nat.mod_eq_of_lt hl, Nat.mod_mod_of_dvd]
  cases s.xlen <;> decide

/-- Settles O6: npc is the pc and the length, and retirement counts. -/
theorem retirement : Obligations.Retirement := by
  unfold Obligations.Retirement
  intro i s
  rw [State.retire_eq]
  exact ⟨toNat_npc s i, length_cases i, rfl, rfl, rfl⟩

end Sys2Proof.Machine

/-! ## A compressed instruction runs as its expansion (47_compressed.md R302, R303, R640) -/

namespace Sys2Proof.Machine

open Sys2Proof

/-- A further sign extension changes no number. -/
theorem signExtend_signExtend {n m k : Nat} (h : n ≤ m) (v : BitVec n) :
    (v.signExtend m).signExtend k = v.signExtend k := by
  rw [BitVec.signExtend, BitVec.toInt_signExtend_of_le h, BitVec.signExtend]

theorem pcPlus_signExtend {n m : Nat} (h : n ≤ m) (s : State) (off : BitVec n) :
    s.pcPlus (off.signExtend m) = s.pcPlus off := by
  rw [State.pcPlus, signExtend_signExtend h, State.pcPlus]

theorem sextX_signExtend {n m : Nat} (h : n ≤ m) (x : Xlen) (v : BitVec n) : sextX x (v.signExtend m) = sextX x v := by
  rw [sextX, signExtend_signExtend h, sextX]

/-! ### Computations and accesses: the same trap, or the same state but for the length -/

/-- `u` has the pc, the mode and the count of retired instructions of `s`. -/
def BeforeRetire (s u : State) : Prop := u.pc = s.pc ∧ u.xlen = s.xlen ∧ u.minstret = s.minstret

/-- Where the outcome `o'` of the expansion is a next state, the outcome `o` of `i` is the same trap or retires from the same
state. -/
def RunsAs (i : Instr) (s : State) (o o' : Host.Outcome State Fault Refusal) : Prop :=
  ∀ t', o' = .next t' →
    (o = .next t' ∧ t'.minstret = s.minstret)
      ∨ ∃ u, BeforeRetire s u ∧ o = .next (u.retire i) ∧ t' = u.retire i.expand

section RunsAs

variable {i : Instr} {s : State} {o o' : Host.Outcome State Fault Refusal}

theorem RunsAs.writeRd (rd : Reg) (v : Word) : RunsAs i s (writeRd i rd v s) (writeRd i.expand rd v s) := by
  rintro _ ⟨⟩
  exact .inr ⟨s.writeX rd v, ⟨State.writeX_pc .., State.writeX_xlen .., State.writeX_minstret ..⟩, rfl, rfl⟩

theorem RunsAs.regShift (rd rs1 : Reg) {shamt : BitVec 6} (h : shamtFits s.xlen shamt = true)
    (f : Xlen → Word → Word → Word) : RunsAs i s (regShift i rd rs1 shamt f s) (regShift i.expand rd rs1 shamt f s) := by
  rw [Machine.regShift, if_pos h, Machine.regShift, if_pos h]
  exact .writeRd _ _

theorem RunsAs.inMode {x : Xlen} (hx : s.xlen = x) (h : RunsAs i s o o') :
    RunsAs i s (inMode x i s o) (inMode x i.expand s o') := by
  rwa [inMode_of_eq hx, inMode_of_eq hx]

/-- A form of one mode whose expansion both modes have (R653). -/
theorem RunsAs.inMode_left {x : Xlen} (hx : s.xlen = x) (h : RunsAs i s o o') : RunsAs i s (Machine.inMode x i s o) o' := by
  rwa [inMode_of_eq hx]

theorem RunsAs.fpGate (hf : s.mstatus.fs ≠ 0) (h : RunsAs i s o o') :
    RunsAs i s (fpGate i s o) (fpGate i.expand s o') := by
  rwa [fpGate_of_fs hf, fpGate_of_fs hf]

theorem RunsAs.complete {α : Type} {r : Res α} {act : α → State → State} (hr : r.Reaches BeforeRetire s)
    (hact : ∀ a u, BeforeRetire u (act a u)) :
    RunsAs i s (r.complete fun a u => (act a u).retire i) (r.complete fun a u => (act a u).retire i.expand) := by
  intro t' h
  cases r with
  | ok a u =>
    cases h
    obtain ⟨hpc, hx, hn⟩ := hr
    obtain ⟨hpc', hx', hn'⟩ := hact a u
    exact .inr ⟨act a u, ⟨hpc'.trans hpc, hx'.trans hx, hn'.trans hn⟩, rfl, rfl⟩
  | trap e v u =>
    cases h
    exact .inl ⟨rfl, (trapStep_minstret ..).trans hr.2.2⟩
  | fatal f => cases h

theorem Accessed.beforeRetire {t : State} (h : Accessed s t) : BeforeRetire s t := ⟨h.pc, h.xlen, h.minstret⟩

theorem RunsAs.load (rd rs1 : Reg) (imm : BitVec 12) (n : Nat) (ext : Xlen → Word → Word) :
    RunsAs i s (load i rd rs1 imm n ext s) (load i.expand rd rs1 imm n ext s) :=
  .complete ((memRead_reaches ..).mono fun _ => Accessed.beforeRetire) fun _ _ =>
    ⟨State.writeX_pc .., State.writeX_xlen .., State.writeX_minstret ..⟩

theorem RunsAs.fpLoad (hf : s.mstatus.fs ≠ 0) (rd rs1 : Reg) (imm : BitVec 12) (n : Nat) (box : Word → BitVec 64) :
    RunsAs i s (fpLoad i rd rs1 imm n box s) (fpLoad i.expand rd rs1 imm n box s) :=
  .fpGate hf (.complete ((memRead_reaches ..).mono fun _ => Accessed.beforeRetire) fun _ _ => ⟨rfl, rfl, rfl⟩)

theorem memWrite_beforeRetire (a : Word) (n : Nat) (v : Word) : (s.memWrite a n v).Reaches BeforeRetire s := by
  cases hw : s.memWrite a n v
  case ok =>
    obtain ⟨u, rfl, hu⟩ := memWrite_dropResv hw
    exact hu.beforeRetire
  case trap => exact (memWrite_trap_accessed hw).beforeRetire
  case fatal => trivial

theorem RunsAs.storeAt (a : Word) (n : Nat) (v : Word) : RunsAs i s (storeAt i a n v s) (storeAt i.expand a n v s) :=
  .complete (memWrite_beforeRetire a n v) fun _ _ => ⟨rfl, rfl, rfl⟩

end RunsAs

/-- The compressed floating-point loads and stores. -/
def IsFpCompressed (i : Instr) : Prop :=
  (∃ r q o, i = .cFld r q o ∨ i = .cFsd r q o) ∨ (∃ r q o, i = .cFlw r q o ∨ i = .cFsw r q o)
    ∨ (∃ r o, i = .cFldsp r o ∨ i = .cFsdsp r o) ∨ (∃ r o, i = .cFlwsp r o ∨ i = .cFswsp r o)

theorem runsAs_expand {i : Instr} {s : State} (hl : i.length = 2) (hk : (i.computes || i.accesses) = true)
    (hwf : i.wf s.xlen = true) (hf : IsFpCompressed i → s.mstatus.fs ≠ 0) : RunsAs i s (exec i s) (exec i.expand s) := by
  have hc : (decide (i.length = 2) && (i.computes || i.accesses)) = true := decide_and hl hk
  cases i
  case cAddi4spn | cNop | cAddi | cLi | cAddi16sp | cLui | cAndi | cSub | cXor | cOr | cAnd | cMv | cAdd =>
    exact .writeRd _ _
  case cSrli | cSrai | cSlli => exact .regShift _ _ hwf _
  case cAddiw rd imm =>
    have hv := sextX_signExtend (m := 12) (by decide) s.xlen imm
    refine .inMode (of_decide_and hwf).1 ?_
    rw [hv]
    exact .writeRd _ _
  case cSubw | cAddw => exact .inMode (of_decide_eq_true hwf) (.writeRd _ _)
  case cLw | cLwsp => exact .load _ _ _ _ _
  case cLd => exact .inMode (of_decide_and hwf).1 (.load _ _ _ _ _)
  case cLdsp => exact .inMode (of_decide_and ((Bool.and_eq_true _ _).mp hwf).1).1 (.load _ _ _ _ _)
  case cSw | cSwsp => exact .storeAt _ _ _
  case cSd | cSdsp => exact .inMode (of_decide_and hwf).1 (.storeAt _ _ _)
  case cFld => exact .fpLoad (hf (.inl ⟨_, _, _, .inl rfl⟩)) _ _ _ _ _
  case cFsd => exact .fpGate (hf (.inl ⟨_, _, _, .inr rfl⟩)) (.storeAt _ _ _)
  case cFlw => exact .inMode_left (of_decide_and hwf).1 (.fpLoad (hf (.inr (.inl ⟨_, _, _, .inl rfl⟩))) _ _ _ _ _)
  case cFsw =>
    exact .inMode_left (of_decide_and hwf).1 (.fpGate (hf (.inr (.inl ⟨_, _, _, .inr rfl⟩))) (.storeAt _ _ _))
  case cFldsp => exact .fpLoad (hf (.inr (.inr (.inl ⟨_, _, .inl rfl⟩)))) _ _ _ _ _
  case cFsdsp => exact .fpGate (hf (.inr (.inr (.inl ⟨_, _, .inr rfl⟩)))) (.storeAt _ _ _)
  case cFlwsp =>
    exact .inMode_left (of_decide_and hwf).1 (.fpLoad (hf (.inr (.inr (.inr ⟨_, _, .inl rfl⟩)))) _ _ _ _ _)
  case cFswsp =>
    exact .inMode_left (of_decide_and hwf).1 (.fpGate (hf (.inr (.inr (.inr ⟨_, _, .inr rfl⟩)))) (.storeAt _ _ _))
  all_goals cases hc

/-! ### What the two outcomes have in common -/

/-- The compressed jumps and C.EBREAK. -/
def IsCompressedJump (i : Instr) : Prop :=
  (∃ off, i = .cJ off) ∨ (∃ off, i = .cJal off) ∨ (∃ r, i = .cJr r) ∨ (∃ r, i = .cJalr r) ∨ i = .cEbreak

/-- `t`, the state after `i` in `s`, agrees with `t'`, the state after its expansion. -/
structure Agrees (i : Instr) (s t t' : State) : Prop where
  eq : t = { t' with x := t.x, pc := t.pc }
  readX : ∀ r, r ≠ 1#5 → t.readX r = t'.readX r
  straight : (i.computes || i.accesses) = true →
    t.x = t'.x ∧ (t'.minstret = s.minstret + 1 → t'.pc = norm s.xlen (s.pc + 4) ∧ t.pc = norm s.xlen (s.pc + 2))
      ∧ (t'.minstret = s.minstret → t.pc = t'.pc)
  jump : IsCompressedJump i → t.pc = t'.pc

section Agrees

variable {i : Instr} {s : State}

theorem not_jump_of_straight (hk : (i.computes || i.accesses) = true) : ¬IsCompressedJump i := by
  rintro (⟨_, rfl⟩ | ⟨_, rfl⟩ | ⟨_, rfl⟩ | ⟨_, rfl⟩ | rfl) <;> cases hk

theorem Agrees.of_retire {u : State} (hl : i.length = 2) (hu : BeforeRetire s u) (hj : ¬IsCompressedJump i) :
    Agrees i s (u.retire i) (u.retire i.expand) := by
  obtain ⟨hpc, hx, hn⟩ := hu
  have hnpc (j : Instr) : (u.retire j).pc = norm s.xlen (s.pc + BitVec.ofNat 64 j.length) := by
    rw [State.retire_eq, ← hx, ← hpc]
    rfl
  refine ⟨by rw [State.retire_eq, State.retire_eq], fun r _ => State.readX_of_x rfl rfl r,
    fun _ => ⟨rfl, fun _ => ⟨?_, ?_⟩, fun h => ?_⟩, fun h => absurd h hj⟩
  · rw [hnpc, length_expand]
    rfl
  · rw [hnpc, hl]
    rfl
  · have hcount : (u.retire i.expand).minstret = s.minstret + 1 := congrArg (· + 1) hn
    rw [hcount] at h
    bv_omega

theorem Agrees.of_trap {t : State} (ht : t.minstret = s.minstret) : Agrees i s t t :=
  ⟨rfl, fun _ _ => rfl, fun _ => ⟨rfl, fun h => by rw [ht] at h; bv_omega, fun _ => rfl⟩, fun _ => rfl⟩

/-- A jump links its own npc, in x1 if anywhere (R661, R675, R683, R686). -/
theorem Agrees.of_jump {rd : Reg} (hrd : rd = 0#5 ∨ rd = 1#5) (hk : (i.computes || i.accesses) = false) (v w t : Word) :
    Agrees i s ((s.writeX rd v).retireAt t) ((s.writeX rd w).retireAt t) := by
  have hxl : (s.writeX rd v).xlen = (s.writeX rd w).xlen := by rw [State.writeX_xlen, State.writeX_xlen]
  refine ⟨?_, fun r hr => ?_, fun h => absurd h (by rw [hk]; nofun), fun _ => ?_⟩
  · rw [State.writeX_eq s rd v, State.writeX_eq s rd w]
    rfl
  · obtain rfl | rfl := hrd
    · rw [State.writeX_zero, State.writeX_zero]
    · calc ((s.writeX 1#5 v).retireAt t).readX r
        _ = (s.writeX 1#5 v).readX r := State.readX_of_x rfl rfl r
        _ = s.readX r := s.readX_writeX_ne v hr
        _ = (s.writeX 1#5 w).readX r := (s.readX_writeX_ne w hr).symm
        _ = ((s.writeX 1#5 w).retireAt t).readX r := State.readX_of_x rfl rfl r
  · exact congrArg (norm · t) hxl

theorem Agrees.of_branch {n m : Nat} (hl : i.length = 2) (hj : ¬IsCompressedJump i)
    (hk : (i.computes || i.accesses) = false) (rs1 rs2 : Reg) {off : BitVec n} {off' : BitVec m}
    (ho : s.pcPlus off' = s.pcPlus off) (cond : (w : Nat) → BitVec w → BitVec w → Bool) {t' : State}
    (h : branch i.expand rs1 rs2 off' cond s = .next t') :
    ∃ t, branch i rs1 rs2 off cond s = .next t ∧ Agrees i s t t' := by
  cases h
  refine ⟨_, rfl, ?_⟩
  split
  · rw [ho]
    exact ⟨rfl, fun _ _ => rfl, fun h => absurd h (by rw [hk]; nofun), fun _ => rfl⟩
  · exact .of_retire hl ⟨rfl, rfl, rfl⟩ hj

end Agrees

theorem agrees_expand {i : Instr} {s t' : State} (hl : i.length = 2) (hwf : i.wf s.xlen = true)
    (hf : IsFpCompressed i → s.mstatus.fs ≠ 0) (h : exec i.expand s = .next t') :
    ∃ t, exec i s = .next t ∧ Agrees i s t t' := by
  cases hk : i.computes || i.accesses with
  | true =>
    obtain ⟨ho, hn⟩ | ⟨u, hu, ho, rfl⟩ := runsAs_expand hl hk hwf hf t' h
    · exact ⟨t', ho, .of_trap hn⟩
    · exact ⟨_, ho, .of_retire hl hu (not_jump_of_straight hk)⟩
  | false =>
    have hc : (decide (i.length = 2) && !(i.computes || i.accesses)) = true := decide_and hl (by rw [hk]; rfl)
    cases i
    case cJ off =>
      cases h
      rw [pcPlus_signExtend (by decide)]
      exact ⟨_, rfl, .of_jump (.inl rfl) rfl _ _ _⟩
    case cJal off =>
      cases h
      rw [pcPlus_signExtend (by decide)]
      exact ⟨_, inMode_of_eq (of_decide_and hwf).1, .of_jump (.inr rfl) rfl _ _ _⟩
    case cJr =>
      cases h
      exact ⟨_, rfl, .of_jump (.inl rfl) rfl _ _ _⟩
    case cJalr =>
      cases h
      exact ⟨_, rfl, .of_jump (.inr rfl) rfl _ _ _⟩
    case cBeqz | cBnez =>
      exact Agrees.of_branch rfl (by rintro (⟨_, h⟩ | ⟨_, h⟩ | ⟨_, h⟩ | ⟨_, h⟩ | h) <;> cases h) rfl _ _
        (pcPlus_signExtend (by decide) ..) _ h
    case cEbreak =>
      cases h
      exact ⟨_, rfl, .of_trap (trapStep_minstret ..)⟩
    all_goals cases hc

/-- Settles O4: a computation or access retires from the same state with its own length or takes the same trap; a jump or
branch has the same target. -/
theorem compressedRunsAsItsExpansion : Obligations.CompressedRunsAsItsExpansion := by
  unfold Obligations.CompressedRunsAsItsExpansion
  intro i s t' hl hwf hf h
  obtain ⟨t, ht, ha⟩ := agrees_expand hl hwf hf h
  exact ⟨t, ht, ha.eq, ha.readX, ha.straight, ha.jump⟩

end Sys2Proof.Machine

/-! ## The floating-point gate (10_state.md R71, 30_encoding.md R343, 42_loadstore.md R495) -/

namespace Sys2Proof.Machine

open Sys2Proof

section Gate

variable {s : State} {i : Instr} {k : Host.Outcome State Fault Refusal}

theorem fpGate_of_fs_off (hf : s.mstatus.fs = 0) : fpGate i s k = raiseIllegal i s := if_pos (decide_eq_true hf)

/-- A form of one mode is illegal with FS Off in both, by its gate or by its mode. -/
theorem inMode_fpGate_of_fs_off (x : Xlen) (hf : s.mstatus.fs = 0) : inMode x i s (fpGate i s k) = raiseIllegal i s := by
  rw [fpGate_of_fs_off hf]
  exact ite_self _

theorem fpArithStop_of_fs_off (hf : s.mstatus.fs = 0) : fpArithStop i s = raiseIllegal i s := if_pos (decide_eq_true hf)

theorem fpArithStop_of_fs (hf : s.mstatus.fs ≠ 0) : fpArithStop i s = .refused .fpArith :=
  if_neg (by rw [Mstatus.fsOff, decide_eq_true_eq]; exact hf)

end Gate

/-- Settles O23: every form stands behind the gate, and the F/D arithmetic words end at their own. -/
theorem floatIsGatedByFs : Obligations.FloatIsGatedByFs := by
  unfold Obligations.FloatIsGatedByFs
  refine fun s i => ⟨fun hf h => ?_, fun hf rd rs1 rs2 rm hi h => ?_⟩
  · obtain ⟨rd, rs1, imm, h⟩ | ⟨r, q, o, h⟩ | ⟨r, q, o, h⟩ | ⟨r, o, h⟩ | ⟨r, o, h⟩ | ⟨rd, rs1, rs2, rm, hi, h⟩ := h
    · obtain rfl | rfl | rfl | rfl := h <;> exact fpGate_of_fs_off hf
    · obtain rfl | rfl := h <;> exact fpGate_of_fs_off hf
    · obtain rfl | rfl := h <;> exact inMode_fpGate_of_fs_off .rv32 hf
    · obtain rfl | rfl := h <;> exact fpGate_of_fs_off hf
    · obtain rfl | rfl := h <;> exact inMode_fpGate_of_fs_off .rv32 hf
    · obtain rfl | rfl | rfl | rfl | rfl := h <;> exact fpArithStop_of_fs_off hf
  · obtain rfl | rfl | rfl | rfl | rfl := h <;> exact fpArithStop_of_fs hf

end Sys2Proof.Machine

/-! ## Which CSRs exist and who may access them (10_state.md R66, R68, 45_csr.md R580, R581) -/

namespace Sys2Proof.Machine

open Sys2Proof

/-! ### The table (R68) -/

/-- The single numbers of the table. -/
def fixedNumbers : List Nat :=
  [0x001, 0x002, 0x003, 0x100, 0x104, 0x105, 0x106, 0x140, 0x141, 0x142, 0x143, 0x144, 0x180, 0x300, 0x301, 0x302, 0x303,
    0x304, 0x305, 0x306, 0x320, 0x340, 0x341, 0x342, 0x343, 0x344, 0x3A0, 0x3A2, 0xB00, 0xB02, 0xC00, 0xC01, 0xC02, 0xF11,
    0xF12, 0xF13, 0xF14]

/-- The single numbers that are CSRs in RV32 only. -/
def fixedNumbers32 : List Nat := [0x3A1, 0x3A3, 0xB80, 0xB82, 0xC80, 0xC81, 0xC82]

/-- The last equation of the table asks that `n` be none of its numbers. -/
theorem csrFixed_ne_none (n : Nat) : csrFixed n ≠ none ↔ n ∈ fixedNumbers := by
  refine ⟨fun h => ?_, ?_⟩
  · by_contra hn
    simp only [fixedNumbers, List.mem_cons, List.not_mem_nil, or_false, not_or] at hn
    rw [csrFixed] at h
    all_goals simp_all
  · revert n
    decide

/-- The single numbers that lie in none of the ranges the statement writes. -/
def lonelyNumbers : List Nat :=
  [0x001, 0x002, 0x003, 0x100, 0x104, 0x105, 0x106, 0x140, 0x141, 0x142, 0x143, 0x144, 0x180, 0x3A0, 0x3A2, 0xB00, 0xB02]

theorem mem_fixedNumbers (n : Nat) : n ∈ fixedNumbers ↔
    n ∈ lonelyNumbers ∨ (0x300 ≤ n ∧ n ≤ 0x306) ∨ n = 0x320 ∨ (0x340 ≤ n ∧ n ≤ 0x344) ∨ (0xC00 ≤ n ∧ n ≤ 0xC02)
      ∨ (0xF11 ≤ n ∧ n ≤ 0xF14) := by
  constructor
  · revert n
    decide
  · rintro (h | ⟨hlo, hhi⟩ | rfl | ⟨hlo, hhi⟩ | ⟨hlo, hhi⟩ | ⟨hlo, hhi⟩)
    · revert n
      decide
    case inr.inr.inl => decide
    all_goals interval_cases n <;> decide

theorem csrFixed32_ne_none (n : Nat) : csrFixed32 n ≠ none ↔ n ∈ fixedNumbers32 := by
  refine ⟨fun h => ?_, ?_⟩
  · by_contra hn
    simp only [fixedNumbers32, List.mem_cons, List.not_mem_nil, or_false, not_or] at hn
    rw [csrFixed32] at h
    all_goals simp_all
  · revert n
    decide

theorem csrRanges_ne_none (x : Xlen) (n : Nat) : csrRanges x n ≠ none ↔
    (0x323 ≤ n ∧ n ≤ 0x33F) ∨ (0x3B0 ≤ n ∧ n ≤ 0x3BF) ∨ (0xB03 ≤ n ∧ n ≤ 0xB1F) ∨ (0xC03 ≤ n ∧ n ≤ 0xC1F)
      ∨ (x = .rv32 ∧ 0xB83 ≤ n ∧ n ≤ 0xB9F) ∨ (x = .rv32 ∧ 0xC83 ≤ n ∧ n ≤ 0xC9F) := by
  have of_ne {c : Prop} [Decidable c] {r : CsrReg} {o : Option CsrReg} :
      (if c then some r else o) ≠ none ↔ c ∨ o ≠ none := by
    split <;> simp [*]
  simp only [csrRanges, of_ne, ne_eq, not_true_eq_false, or_false]

theorem csrReg_ne_none (x : Xlen) (c : BitVec 12) : csrReg x c ≠ none ↔
    c.toNat ∈ fixedNumbers ∨ (x = .rv32 ∧ c.toNat ∈ fixedNumbers32) ∨ csrRanges x c.toNat ≠ none := by
  rw [← csrFixed_ne_none, ← csrFixed32_ne_none]
  unfold csrReg
  cases csrFixed c.toNat
  · by_cases hx : x = .rv32
    · cases csrFixed32 c.toNat <;> simp [hx]
    · simp [hx]
  · simp

/-! ### The access check (R580, R581) -/

theorem userCounter_iff (c : BitVec 12) : isUserCounter c = true ↔
    (0xC00 ≤ c.toNat ∧ c.toNat ≤ 0xC1F) ∨ (0xC80 ≤ c.toNat ∧ c.toNat ≤ 0xC9F) := by
  rw [isUserCounter, Bool.or_eq_true, decide_eq_true_eq, decide_eq_true_eq]

theorem fpCsr_iff (c : BitVec 12) : isFpCsr c = true ↔ c.toNat = 1 ∨ c.toNat = 2 ∨ c.toNat = 3 := by
  rw [isFpCsr, decide_eq_true_eq]
  omega

theorem counterEnabled_iff (s : State) (c : BitVec 12) : s.counterEnabled c = true ↔
    (s.priv ≠ .M → s.csr.mcounteren.getLsbD (c.toNat % 32) = true)
      ∧ (s.priv = .U → s.csr.scounteren.getLsbD (c.toNat % 32) = true) := by
  have hi : (c.extractLsb 4 0).toNat = c.toNat % 32 := by simp
  rw [State.counterEnabled, hi]
  cases s.priv <;> simp

theorem lowestMode_eq (c : BitVec 12) : (c.extractLsb 9 8).toNat = c.toNat / 256 % 4 := by
  simp [Nat.shiftRight_eq_div_pow]

theorem readOnly_iff (c : BitVec 12) : c.extractLsb 11 10 = 3 ↔ c.toNat / 1024 = 3 := by
  rw [← BitVec.toNat_inj]
  simp [Nat.shiftRight_eq_div_pow]
  omega

/-- Settles O32: the table as the list of its numbers, and the check clause by clause. -/
theorem csrAccessRule : Obligations.CsrAccessRule := by
  unfold Obligations.CsrAccessRule
  intro s c writes
  dsimp only
  constructor
  · show csrReg s.xlen c ≠ none ↔ c.toNat ∈ lonelyNumbers ∨ _
    rw [csrReg_ne_none, csrRanges_ne_none, mem_fixedNumbers]
    by_cases hl : c.toNat ∈ lonelyNumbers
    · simp only [hl, true_or]
    · simp only [hl, false_or, fixedNumbers32, List.mem_cons, List.not_mem_nil, or_false]
      cases s.xlen
      · simp only [true_and]
        omega
      · simp only [reduceCtorEq, false_and, or_false, false_or]
        omega
  · rw [← userCounter_iff, ← fpCsr_iff, ← counterEnabled_iff, ← lowestMode_eq, State.csrAllowed]
    have hsatp : c = 0x180#12 ↔ c.toNat = 0x180 := by rw [← BitVec.toNat_inj]; rfl
    simp only [Bool.and_eq_true, decide_eq_true_eq, Bool.not_eq_true', Bool.or_eq_true, Bool.and_eq_false_iff,
      decide_eq_false_iff_not, hsatp, readOnly_iff, Mstatus.fsOff, and_assoc, or_assoc, imp_iff_not_or, not_and_or, ne_eq,
      Bool.not_eq_true]

end Sys2Proof.Machine

/-! ## CSR reads after writes (10_state.md R69 to R95) -/

namespace Sys2Proof.Machine

open Sys2Proof

/-! ### The fields of fcsr (R94, R95) -/

@[simp] theorem frmOf_append (a : BitVec 3) (b : BitVec 5) : frmOf (a ++ b) = a := bits_ext fun i _ => by
  simp only [frmOf, BitVec.getLsbD_extractLsb, BitVec.getLsbD_append]
  grind

@[simp] theorem fflagsOf_append (a : BitVec 3) (b : BitVec 5) : fflagsOf (a ++ b) = b := bits_ext fun i _ => by
  simp only [fflagsOf, BitVec.getLsbD_extractLsb, BitVec.getLsbD_append]
  grind

/-- The low `k` bits of a word are the word under the mask of `k` ones. -/
theorem setWidth_low (v : Word) {k : Nat} (hk : k ≤ 64) :
    (v.setWidth k).setWidth 64 = v &&& BitVec.ofNat 64 (2 ^ k - 1) := by
  have hm : 2 ^ k - 1 < 2 ^ 64 := by
    have := Nat.pow_le_pow_right (n := 2) (by decide) hk
    omega
  refine BitVec.eq_of_toNat_eq ?_
  rw [BitVec.toNat_setWidth_of_le hk, BitVec.toNat_setWidth, BitVec.toNat_and, BitVec.toNat_ofNat, Nat.mod_eq_of_lt hm,
    Nat.and_two_pow_sub_one_eq_mod]

theorem extractLsb_zero (v : Word) (k : Nat) : v.extractLsb k 0 = v.setWidth (k + 1) := bits_ext fun i _ => by
  simp only [BitVec.getLsbD_extractLsb]
  grind

/-- Settles O34: the value read is the one written under the mask of its rule, and a write is an update of one field. -/
theorem csrReadAfterWrite : Obligations.CsrReadAfterWrite := by
  unfold Obligations.CsrReadAfterWrite
  intro s v hv
  have masked (m : Word) : norm s.xlen v &&& m = v &&& m := by rw [hv]
  have hfrm : (s.csrWrite .frm v).csrRead .frm = v &&& 7#64 := by
    show (frmOf (v.extractLsb 2 0 ++ fflagsOf s.csr.fcsr)).setWidth 64 = _
    rw [frmOf_append, extractLsb_zero]
    exact setWidth_low v (by decide)
  have hfflags : (s.csrWrite .fflags v).csrRead .fflags = v &&& 0x1F#64 := by
    show (fflagsOf (frmOf s.csr.fcsr ++ v.extractLsb 4 0)).setWidth 64 = _
    rw [fflagsOf_append, extractLsb_zero]
    exact setWidth_low v (by decide)
  have hmisa : (s.csrWrite .misa v).csrRead .misa
      = (match s.xlen with | .rv32 => 0x4014112D#64 | .rv64 => 0x800000000014112D#64) := by
    show misaRead s.xlen = _
    cases s.xlen <;> rfl
  refine ⟨rfl, rfl, rfl, masked _, masked _, masked _, masked _, hv, hv, hv, hv, hv, hv, setWidth_low v (by decide),
    setWidth_low v (by decide), setWidth_low v (by decide), hfrm, hfflags, congrArg (BitVec.setWidth 64) (fflagsOf_append ..),
    congrArg (BitVec.setWidth 64) (frmOf_append ..), rfl, rfl, rfl, hmisa, rfl, rfl, rfl, rfl, rfl, rfl, ?only, ?float, ?nothing⟩
  case only =>
    simp only [State.csrWrite, State.setCsr, hv, medelegMask, midelegMask, mieMask, tvecMask, epcMask, and_self]
  case float =>
    simp only [List.forall_mem_cons]
    exact ⟨rfl, rfl, rfl, nofun⟩
  case nothing =>
    simp only [List.forall_mem_cons]
    exact ⟨rfl, rfl, rfl, nofun⟩

end Sys2Proof.Machine

/-! ## mstatus (10_state.md R70) -/

namespace Sys2Proof.Machine

open Sys2Proof

theorem getLsbD_fieldBits {n : Nat} (v : BitVec n) (i j : Nat) :
    (fieldBits v i).getLsbD j = (decide (j < 64) && (decide (i ≤ j) && v.getLsbD (j - i))) := by
  rw [fieldBits, BitVec.getLsbD_shiftLeft, BitVec.getLsbD_setWidth]
  by_cases hj : j < 64
  · have : j - i < 64 := by omega
    by_cases hi : i ≤ j
    · simp [hj, this, hi]
    · simp [hj, hi, Nat.lt_of_not_le hi]
  · simp [hj]

/-- A field has no bit below it and none above. -/
theorem field_zero {n i k : Nat} (v : BitVec n) (h : k < i ∨ i + n ≤ k) :
    (decide (i ≤ k) && v.getLsbD (k - i)) = false := by
  obtain h | h := h
  · rw [decide_eq_false (by omega), Bool.false_and]
  · rw [BitVec.getLsbD_of_ge _ _ (by omega), Bool.and_false]

/-- The mode in the MPP field. -/
def mppBits (p : Priv) : BitVec 2 := BitVec.ofNat 2 p.code

theorem mpp_eq_fieldBits (p : Priv) : BitVec.ofNat 64 p.code <<< 11 = fieldBits (mppBits p) 11 := by cases p <;> rfl

/-- The fields that XLEN = 64 adds: UXL and SXL, both 2. -/
theorem xlFields_eq_fieldBits : 0x0000000A00000000#64 = fieldBits 0xA#4 32 := rfl

/-- A bit of mstatus comes from one of its fields. -/
theorem getLsbD_mstatusRead (x : Xlen) (m : Mstatus) {k : Nat} (hk : k < 64) :
    (mstatusRead x m).getLsbD k =
      (m.sie && decide (k = 1) || m.mie && decide (k = 3) || m.spie && decide (k = 5) || m.mpie && decide (k = 7)
        || m.spp && decide (k = 8) || decide (11 ≤ k) && (mppBits m.mpp).getLsbD (k - 11)
        || decide (13 ≤ k) && m.fs.getLsbD (k - 13) || m.mprv && decide (k = 17) || m.sum && decide (k = 18)
        || m.mxr && decide (k = 19) || m.tvm && decide (k = 20) || m.tw && decide (k = 21) || m.tsr && decide (k = 22)
        || decide (m.fs = 3) && decide (k = xlenBits x - 1)
        || decide (x = .rv64) && (decide (32 ≤ k) && (0xA#4).getLsbD (k - 32))) := by
  cases x
  case rv32 =>
    simp only [mstatusRead, mpp_eq_fieldBits, BitVec.getLsbD_or, getLsbD_flagBit, getLsbD_fieldBits, hk, decide_true,
      Bool.true_and, BitVec.ofNat_eq_ofNat, BitVec.getLsbD_zero, reduceCtorEq, decide_false, Bool.false_and]
  case rv64 =>
    simp only [mstatusRead, mpp_eq_fieldBits, xlFields_eq_fieldBits, BitVec.getLsbD_or, getLsbD_flagBit,
      getLsbD_fieldBits, hk, decide_true, Bool.true_and]

/-! ### What a write leaves in the fields -/

theorem extract_mpp_toNat (w : Word) : (w.extractLsb 12 11).toNat = w.toNat / 2 ^ 11 % 4 := by
  rw [BitVec.extractLsb_toNat, Nat.shiftRight_eq_div_pow]

theorem extract_fs_toNat (w : Word) : (w.extractLsb 14 13).toNat = w.toNat / 2 ^ 13 % 4 := by
  rw [BitVec.extractLsb_toNat, Nat.shiftRight_eq_div_pow]

theorem extract_mpp_mstatusRead (x : Xlen) (m : Mstatus) : (mstatusRead x m).extractLsb 12 11 = mppBits m.mpp :=
  bits_ext fun i hi => by
    rw [BitVec.getLsbD_extractLsb, getLsbD_mstatusRead x m (by omega)]
    interval_cases i <;> cases x <;> simp [xlenBits]

theorem mppBits_mppWrite (old : Priv) (f : BitVec 2) :
    (mppBits (mppWrite old f)).toNat = if f.toNat = 2 then (mppBits old).toNat else f.toNat := by
  revert f
  cases old <;> decide

/-- Settles O35: bit by bit from the fields, whose written values are the bits of v. -/
theorem mstatusWriteThenRead : Obligations.MstatusWriteThenRead := by
  unfold Obligations.MstatusWriteThenRead
  intro s v
  have hr {k : Nat} (hk : k < 64) : ((s.csrWrite .mstatus v).csrRead .mstatus).getLsbD k = _ :=
    getLsbD_mstatusRead s.xlen (mstatusWrite s.mstatus v) hk
  refine ⟨?bits, ?mpp, ?sd, ?xl, ?zero, rfl⟩
  case bits =>
    simp only [List.forall_mem_cons]
    refine ⟨?_, ?_, ?_, ?_, ?_, ?_, ?_, ?_, ?_, ?_, ?_, ?_, ?_, nofun⟩
    all_goals
      rw [hr (by decide)]
      cases s.xlen <;> simp [mstatusWrite, xlenBits]
  case mpp =>
    rw [← extract_mpp_toNat, ← extract_mpp_toNat, ← extract_mpp_toNat]
    show ((mstatusRead _ _).extractLsb 12 11).toNat = if _ then ((mstatusRead _ _).extractLsb 12 11).toNat else _
    rw [extract_mpp_mstatusRead, extract_mpp_mstatusRead]
    exact mppBits_mppWrite ..
  case sd =>
    have hfs : decide (v.toNat / 2 ^ 13 % 4 = 3) = decide (v.extractLsb 14 13 = 3) := by
      rw [decide_eq_decide, ← extract_fs_toNat, ← BitVec.toNat_inj]
      rfl
    rw [hr (by cases s.xlen <;> decide), hfs]
    cases s.xlen <;> simp [mstatusWrite, xlenBits]
  case xl =>
    intro h64
    have hx : ((s.csrWrite .mstatus v).csrRead .mstatus).extractLsb 35 32 = 0xA#4 := bits_ext fun i hi => by
      rw [BitVec.getLsbD_extractLsb, hr (by omega), h64]
      interval_cases i <;> simp [xlenBits]
    have hn := congrArg BitVec.toNat hx
    rwa [BitVec.extractLsb_toNat, Nat.shiftRight_eq_div_pow] at hn
  case zero =>
    intro k hk hxl
    by_cases hlt : k < 64
    · simp only [List.mem_cons, List.not_mem_nil, or_false, not_or] at hk
      have hmpp := field_zero (mppBits (mstatusWrite s.mstatus v).mpp) (i := 11) (k := k) (by omega)
      have hfs := field_zero (mstatusWrite s.mstatus v).fs (i := 13) (k := k) (by omega)
      have hxl : (decide (s.xlen = .rv64) && (decide (32 ≤ k) && (0xA#4).getLsbD (k - 32))) = false := by
        by_cases h64 : s.xlen = .rv64
        · rw [field_zero (0xA#4) (by have := hxl h64; omega), Bool.and_false]
        · rw [decide_eq_false h64, Bool.false_and]
      rw [hr hlt, hmpp, hfs, hxl]
      simp [hk]
    · exact BitVec.getLsbD_of_ge _ _ (by omega)

end Sys2Proof.Machine

/-! ## mip and the views sstatus, sie and sip (10_state.md R72, R77 to R80) -/

namespace Sys2Proof.Machine

open Sys2Proof

theorem getLsbD_mip (s : State) (k : Nat) : (s.csrRead .mip).getLsbD k = match k with
      | 1 => s.csr.ssip
      | 3 => s.clint.msip0
      | 5 => s.csr.stip
      | 7 => decide (s.clint.mtimecmp0.toNat ≤ s.clint.mtime.toNat)
      | 9 => s.csr.seipSw || s.eip1
      | 11 => s.eip0
      | _ => false := by
  split
  · exact getLsbD_mipRead s .ssi
  · exact getLsbD_mipRead s .msi
  · exact getLsbD_mipRead s .sti
  · rw [Bool.eq_iff_iff, decide_eq_true_eq, ← Clint.timerPending_iff]
    exact Bool.eq_iff_iff.mp (getLsbD_mipRead s .mti)
  · exact getLsbD_mipRead s .sei
  · exact getLsbD_mipRead s .mei
  · show s.mipRead.getLsbD k = false
    simp only [State.mipRead, BitVec.getLsbD_or, getLsbD_flagBit]
    simp_all

/-- mip exists in both modes and M-mode may write it. -/
theorem csrReg_mip (x : Xlen) : csrReg x 0x344#12 = some .mip := by cases x <;> rfl

theorem csrAllowed_mip {s : State} (h : s.priv = .M) : s.csrAllowed 0x344#12 true = true := by
  rw [State.csrAllowed, h]
  rfl

theorem flagBit_seip (b : Bool) : flagBit b 9 = if b then 0x200#64 else 0#64 := by cases b <;> rfl

/-- Settles O36: the bits of mip are the pending bits, and the views are their masks. -/
theorem statusAndInterruptViews : Obligations.StatusAndInterruptViews := by
  unfold Obligations.StatusAndInterruptViews
  intro s v k rd rs1 u
  refine ⟨getLsbD_mip s k, rfl, fun hM => ?sets, ?sstatus, rfl, rfl, rfl, rfl, rfl⟩
  case sets =>
    have done {i : Instr} {p : Prop} [Decidable p] {f : Word → Word} (hp : p)
        (he : exec i s = csrOp i rd 0x344#12 (decide p) f s) :
        exec i s = .next (((s.csrWrite .mip (f (s.csrOld .mip))).writeX rd (s.csrRead .mip)).retireCsr i (some .mip)) := by
      rw [decide_eq_true hp] at he
      exact he.trans (csrOp_of_allowed (csrReg_mip _) (csrAllowed_mip hM))
    have hold : s.csrOld .mip = (s.csrRead .mip &&& ~~~0x200#64) ||| if s.csr.seipSw then 0x200#64 else 0#64 := by
      rw [← flagBit_seip]
      rfl
    rw [← hold]
    exact ⟨fun h => ⟨done (f := csrSet (s.readX rs1)) h rfl, done (f := csrClear (s.readX rs1)) h rfl⟩,
      fun h => ⟨done (f := csrSet (u.setWidth 64)) h rfl, done (f := csrClear (u.setWidth 64)) h rfl⟩⟩
  case sstatus =>
    show sstatusRead s.xlen s.mstatus = mstatusRead s.xlen s.mstatus &&& _
    rw [sstatusRead]
    cases s.xlen <;> rfl

end Sys2Proof.Machine

/-! ## satp and the counters (10_state.md R86 to R91, R584, R750) -/

namespace Sys2Proof.Machine

open Sys2Proof

/-! ### The fields of satp (R86) -/

theorem satpFields_rv32 (v : Word) :
    satpAsid .rv32 v = v.toNat / 2 ^ 22 % 2 ^ 9 ∧ satpPpn .rv32 v = v.toNat % 2 ^ 22 := by
  simp [satpAsid, satpPpn, Nat.shiftRight_eq_div_pow]

theorem satpFields_rv64 (v : Word) :
    satpAsid .rv64 v = v.toNat / 2 ^ 44 % 2 ^ 16 ∧ satpPpn .rv64 v = v.toNat % 2 ^ 44 := by
  simp [satpAsid, satpPpn, Nat.shiftRight_eq_div_pow]

theorem extract_mode_eq_iff (v : Word) (m : BitVec 4) : v.extractLsb 63 60 = m ↔ v.toNat / 2 ^ 60 = m.toNat := by
  have hv := v.isLt
  rw [← BitVec.toNat_inj, BitVec.extractLsb_toNat, Nat.shiftRight_eq_div_pow, Nat.mod_eq_of_lt (by omega)]

theorem satpWrite_eq {x : Xlen} {v : Word} (old : Word) (hv : norm x v = v) :
    satpWrite x old v = if x = .rv64 ∧ v.toNat / 2 ^ 60 ≠ 0 ∧ v.toNat / 2 ^ 60 ≠ 8 then old else v := by
  have h0 := extract_mode_eq_iff v 0#4
  have h8 := extract_mode_eq_iff v 8#4
  cases x with
  | rv32 => rw [satpWrite, hv, if_neg fun h => nomatch h.1]
  | rv64 =>
    by_cases h : v.toNat / 2 ^ 60 = 0 ∨ v.toNat / 2 ^ 60 = 8
    · rw [if_neg (by tauto)]
      exact if_pos (by simpa [h0, h8] using h)
    · rw [if_pos (by tauto)]
      exact if_neg (by simpa [h0, h8] using h)

theorem csrWrite_satp {s : State} {v : Word} (hv : norm s.xlen v = v) :
    s.csrWrite .satp v = if s.xlen = .rv64 ∧ v.toNat / 2 ^ 60 ≠ 0 ∧ v.toNat / 2 ^ 60 ≠ 8 then s
      else { s with csr := { s.csr with satp := v } } := by
  show ({ s with csr := { s.csr with satp := satpWrite s.xlen s.csr.satp v } } : State) = _
  rw [satpWrite_eq _ hv]
  split <;> rfl

/-! ### The halves of a counter (R90, R91) -/

theorem toNat_setLow32 (old : BitVec 64) (v : BitVec 32) :
    (setLow32 old v).toNat = old.toNat / 2 ^ 32 * 2 ^ 32 + v.toNat := by
  have ho := old.isLt
  rw [setLow32, BitVec.toNat_append, ← Nat.shiftLeft_add_eq_or_of_lt v.isLt, Nat.shiftLeft_eq, BitVec.extractLsb_toNat,
    Nat.shiftRight_eq_div_pow, Nat.mod_eq_of_lt (by omega)]

theorem toNat_setHigh32 (old : BitVec 64) (v : BitVec 32) :
    (setHigh32 old v).toNat = v.toNat * 2 ^ 32 + old.toNat % 2 ^ 32 := by
  have hlow : (old.extractLsb 31 0).toNat = old.toNat % 2 ^ 32 := by simp
  rw [setHigh32, BitVec.toNat_append, ← Nat.shiftLeft_add_eq_or_of_lt (BitVec.isLt _), Nat.shiftLeft_eq, hlow]

theorem toNat_counterLow_rv32 (v : BitVec 64) : (counterLow .rv32 v).toNat = v.toNat % 2 ^ 32 := norm_toNat .rv32 v

theorem toNat_counterHigh (v : BitVec 64) : (counterHigh v).toNat = v.toNat / 2 ^ 32 := by
  rw [counterHigh, BitVec.toNat_ushiftRight, Nat.shiftRight_eq_div_pow]

/-- Settles O37: the fields of satp and the halves of a counter as numbers, and the write of each half. -/
theorem satpAndCounterWrites : Obligations.SatpAndCounterWrites := by
  unfold Obligations.SatpAndCounterWrites
  intro s v i hv
  refine ⟨rfl, fun h32 => ?satp32, fun h64 => ?satp64, csrWrite_satp hv, fun h64 => ?counters64, fun h32 => ?counters32,
    rfl, rfl, fun r => ?written⟩
  case written => simp [State.retireCsr, CsrReg.isCycle, CsrReg.isInstret]
  case satp32 =>
    rw [h32]
    refine ⟨?_, satpFields_rv32 _⟩
    rw [satpOn_rv32]
    omega
  case satp64 =>
    rw [h64]
    exact ⟨satpOn_rv64 _, satpFields_rv64 _⟩
  case counters64 =>
    simp [State.csrRead, State.csrWrite, counterLow, counterWrite, h64, norm]
  case counters32 =>
    rw [h32] at hv
    have hlt : v.toNat < 2 ^ 32 := (norm_eq_self_iff .rv32 v).mp hv
    have hw : (v.setWidth 32).toNat = v.toNat := by rw [BitVec.toNat_setWidth, Nat.mod_eq_of_lt hlt]
    have hlow (c : BitVec 64) : (counterLow s.xlen c).toNat = c.toNat % 2 ^ 32 := h32 ▸ toNat_counterLow_rv32 c
    have hwrite (c : BitVec 64) : (counterWrite s.xlen c v).toNat = c.toNat / 2 ^ 32 * 2 ^ 32 + v.toNat := by
      rw [h32, counterWrite, toNat_setLow32, hw]
    have hhigh (c : BitVec 64) : (setHigh32 c (v.setWidth 32)).toNat = v.toNat * 2 ^ 32 + c.toNat % 2 ^ 32 := by
      rw [toNat_setHigh32, hw]
    simp only [List.forall_mem_cons]
    exact ⟨⟨hlow _, hlow _, nofun⟩, ⟨toNat_counterHigh _, toNat_counterHigh _, nofun⟩, ⟨hlow _, hlow _, nofun⟩,
      ⟨toNat_counterHigh _, toNat_counterHigh _, nofun⟩, hlow _, toNat_counterHigh _, hwrite _, hhigh _, hwrite _, hhigh _,
      ⟨rfl, rfl, nofun⟩, ⟨rfl, rfl, nofun⟩⟩

end Sys2Proof.Machine

/-! ## Instruction fetch by parcels (30_encoding.md R300, R301) -/

namespace Sys2Proof.Machine

open Sys2Proof

theorem readLE_parcel (s : State) (a : Nat) : (Memory.readLE s.dram a 2).setWidth 16 = BitVec.ofNat 16 (s.leNat a 2) := by
  refine BitVec.eq_of_toNat_eq ?_
  rw [BitVec.toNat_setWidth, readLE_toNat s (by decide), BitVec.toNat_ofNat]

/-! ### One parcel (R239, R301) -/

section Fetch16

variable {s u : State} {va v : Word} {pa : Nat} {e : Exc}

theorem fetch16_of_trap (h : s.translate .fetch va = .trap e v u) : s.fetch16 va = .trap e va u := by
  rw [State.fetch16, h, translate_tval h]
  rfl

theorem fetch16_of_outside (h : s.translate .fetch va = .ok pa u) (hd : u.inDram pa 2 = false) :
    s.fetch16 va = .trap .instrAccess va u := by
  rw [State.fetch16, h, Res.bind_ok, hd]
  rfl

theorem fetch16_of_inDram (h : s.translate .fetch va = .ok pa u) (hd : u.inDram pa 2 = true) :
    s.fetch16 va = .ok (BitVec.ofNat 16 (u.leNat pa 2)) u := by
  rw [State.fetch16, h, Res.bind_ok, hd, readLE_parcel]
  rfl

end Fetch16

/-! ### One or two parcels (R300) -/

section FetchInstr

variable {s u w : State} {p q : BitVec 16} {e : Exc} {v : Word}

theorem fetchInstr_of_trap (h : s.fetch16 s.pc = .trap e v u) : s.fetchInstr = .trap e v u := by
  rw [State.fetchInstr, h]
  rfl

theorem fetchInstr_of_parcel (h : s.fetch16 s.pc = .ok p u) (hq : quadrant p ≠ 3#2) :
    s.fetchInstr = .ok (.compressed p) u := by
  rw [State.fetchInstr, h, Res.bind_ok]
  exact if_pos (decide_eq_true hq)

theorem fetchInstr_second (h : s.fetch16 s.pc = .ok p u) (hq : quadrant p = 3#2) :
    s.fetchInstr = (u.fetch16 (norm s.xlen (s.pc + 2))).bind fun q w => .ok (.full (q ++ p)) w := by
  rw [State.fetchInstr, h, Res.bind_ok]
  exact if_neg (by rw [isCompressedParcel, decide_eq_true_eq]; exact not_not.mpr hq)

theorem fetchInstr_of_second_trap (h : s.fetch16 s.pc = .ok p u) (hq : quadrant p = 3#2)
    (h2 : u.fetch16 (norm s.xlen (s.pc + 2)) = .trap e v w) : s.fetchInstr = .trap e v w := by
  rw [fetchInstr_second h hq, h2]
  rfl

theorem fetchInstr_of_word (h : s.fetch16 s.pc = .ok p u) (hq : quadrant p = 3#2)
    (h2 : u.fetch16 (norm s.xlen (s.pc + 2)) = .ok q w) : s.fetchInstr = .ok (.full (q ++ p)) w := by
  rw [fetchInstr_second h hq, h2]
  rfl

end FetchInstr

/-- Settles O49: the outcomes of the first parcel, and of the second where the first is no whole instruction. -/
theorem fetchRules : Obligations.FetchRules := by
  unfold Obligations.FetchRules
  intro s u w pa qa e v
  refine ⟨fun h => ⟨translate_tval h, fetchInstr_of_trap (fetch16_of_trap h)⟩, fun h => ⟨fun hd => ?outside,
    fun hd hq => ?parcel, fun hd hq => ?word⟩, fun hoff => ⟨translate_off hoff _, translate_off hoff _⟩⟩
  case outside => exact fetchInstr_of_trap (fetch16_of_outside h hd)
  case parcel => exact fetchInstr_of_parcel (fetch16_of_inDram h hd) hq
  case word =>
    have h1 := fetch16_of_inDram h hd
    exact ⟨fun h2 => ⟨translate_tval h2, fetchInstr_of_second_trap h1 hq (fetch16_of_trap h2)⟩, fun h2 =>
      ⟨fun hd2 => fetchInstr_of_second_trap h1 hq (fetch16_of_outside h2 hd2),
        fun hd2 => fetchInstr_of_word h1 hq (fetch16_of_inDram h2 hd2)⟩⟩

end Sys2Proof.Machine
